-- ==== Sys2Proof/Word.lean ====
section
/-! DEFINITION. The words of the block and their plainest arithmetic (00_scope.md R9, R11).
Everything is unsigned; arithmetic is on natural numbers unless a width is stated (R9). -/

namespace Sys2Proof

/-- One byte of a buffer. -/
abbrev Byte := BitVec 8

/-- A value, the `A` operand and the result `R`: 64 bits (30_encoding.md R61). -/
abbrev Word64 := BitVec 64

/-- The `B` operand: a count, a buffer length or a varint value (30_encoding.md R61, R62). -/
abbrev Word32 := BitVec 32

/-- The `C` operand: a width, and the `m` of ENC.NEW (30_encoding.md R61, R62). -/
abbrev Word7 := BitVec 7

/-- `ceil(n / 8)` (R9). -/
def ceil8 (n : Nat) : Nat := (n + 7) / 8

end Sys2Proof
end

