-- ==== Sys2Proof/Config.lean ====
section
/-! DEFINITION. What an implementation fixes (00_scope.md R6, 92_eei_decisions.md D5, D7, D18, D25,
93_implementation_defined.md I1, I6, I8) and the free values (10_state.md R23, R39). -/

namespace Sys2Proof

/-- REPEATED_PAD_POLICY: what the decoder does with non-zero bits at and above `W` of a repeated
value (43_run_frame_parser.md R133, D18). -/
inductive PadPolicy where
  | raw
  | mask
  | malformed
  deriving DecidableEq, Repr

/-- The three parameters the spec leaves to the model's argument (R6). They are a field of the state,
so that every statement over states is a statement over every choice of them; no step changes them. -/
structure Params where
  /-- MAX_RUN_LENGTH_BUFFER, a multiple of 8 in 8..120 (D5). -/
  maxRunLengthBuffer : Nat
  /-- MAX_BUFFER_LEN (D25). -/
  maxBufferLen : Nat
  /-- REPEATED_PAD_POLICY (D18). -/
  padPolicy : PadPolicy
  deriving DecidableEq, Repr

namespace Config

/-- The values the spec decides on: 48, 2^31 − 1, raw (R6). -/
def defaultParams : Params :=
  { maxRunLengthBuffer := 48, maxBufferLen := 2147483647, padPolicy := .raw }

/-- MAX_LITERAL_GROUPS, the most octets the encoder puts in one literal run (R6, D7). -/
def maxLiteralGroups : Nat := 63

/-- MAX_ULEB_BYTES, the longest varint the reader accepts (R6, 41_uleb128.md R91). -/
def maxUlebBytes : Nat := 5

/-- The largest repeat count, and the largest number of values of a literal run: 2^31 − 1
(30_encoding.md R59, 42_rle_literal_classifier.md R109, 43_run_frame_parser.md R134). -/
def maxCount : Nat := 2147483647

/-- FREE VALUE (10_state.md R39; 93_implementation_defined.md V1, V2, V3, V5). The byte a reader gets
at an index of a buffer where the model may name no value: an arbitrary byte, never a fixed one. Its
arguments are the buffer, the buffer's epoch (`Machine.Buffer.epoch`), the index, and how often the host
has spoilt that byte in that epoch (`Machine.Buffer.spoilt`). It has no body: nothing can be proved about
what it gives. Log entries 1 and 24. -/
opaque freeByte : Nat → Nat → Nat → Nat → Byte

/-- FREE VALUE (10_state.md R23, R38). What an encoder's `rep_value` holds after ENC.NEW and after ENC.CLEAR, which
leave it unspecified. Its arguments are the output buffer and the buffer's epoch, which every ENC.NEW and ENC.CLEAR
raises. It has no body. Log entry 14. -/
opaque freeRepValue : Nat → Nat → Word64

/-- FREE VALUE (10_state.md R23, R38). So for `lit_hdr_pos`. -/
opaque freeHdrPos : Nat → Nat → BitVec 31

end Config

/-- The ranges R6 allows a model's argument; `L_out` and `L_in` are 31-bit fields (10_state.md R22). -/
def Params.legal (p : Params) : Bool :=
  p.maxRunLengthBuffer % 8 == 0 && decide (8 ≤ p.maxRunLengthBuffer)
    && decide (p.maxRunLengthBuffer ≤ 120) && decide (p.maxBufferLen ≤ 2147483647)

end Sys2Proof
end

