-- ==== Sys2Proof/Syntax.lean ====
section
/-! DEFINITION. The instructions: one constructor per row of spec/opcode_table.json, the 26 commands of
30_encoding.md R63 and the two run variants of the wire format (R54, R55). The operands are the ones
R63 lists for the command; a command's addressed unit and the buffer the host names beside it are not
part of the command word (10_state.md R21) and are not operands here. -/

namespace Sys2Proof

inductive Instr where
  /-- BW.INIT, op 0x10: B = L_out (R69). -/
  | bwInit (lOut : Word32)
  /-- BW.PUT_VALUE, op 0x11: A = value, C = W (R70). -/
  | bwPutValue (value : Word64) (w : Word7)
  /-- BW.PUT_ULEB128, op 0x12: B = x (R87). -/
  | bwPutUleb128 (x : Word32)
  /-- BW.FLUSH, op 0x13 (R71). -/
  | bwFlush
  /-- BW.BYTES_WRITTEN, op 0x14 (R72). -/
  | bwBytesWritten
  /-- BW.CLEAR, op 0x15 (R73). -/
  | bwClear
  /-- BR.INIT, op 0x20: B = L_in (R76). -/
  | brInit (lIn : Word32)
  /-- BR.GET_VALUE, op 0x21: C = W (R77). -/
  | brGetValue (w : Word7)
  /-- BR.GET_ULEB128, op 0x22 (R90). -/
  | brGetUleb128
  /-- BR.SKIP_BITS, op 0x23: A = k (R78). -/
  | brSkipBits (k : Word64)
  /-- BR.ALIGN_TO_BYTE, op 0x24 (R79). -/
  | brAlignToByte
  /-- ENC.NEW, op 0x30: B = L_out, C = W, A[6:0] = m (R97). -/
  | encNew (lOut : Word32) (w : Word7) (m : Word7)
  /-- ENC.PUT, op 0x31: A = value (R111). -/
  | encPut (value : Word64)
  /-- ENC.FLUSH, op 0x32 (R114). -/
  | encFlush
  /-- ENC.CLEAR, op 0x33 (R116). -/
  | encClear
  /-- ENC.MIN_BUFFER_SIZE, op 0x34: C = W (R99). -/
  | encMinBufferSize (w : Word7)
  /-- ENC.MAX_BUFFER_SIZE, op 0x35: C = W, B = N (R100). -/
  | encMaxBufferSize (w : Word7) (n : Word32)
  /-- DEC.NEW, op 0x40: B = L_in, C = W (R127). -/
  | decNew (lIn : Word32) (w : Word7)
  /-- DEC.RESET, op 0x41: B = L_in, C = W (R128). -/
  | decReset (lIn : Word32) (w : Word7)
  /-- DEC.NEXT_NUM_REPEATS, op 0x42 (R137). -/
  | decNextNumRepeats
  /-- DEC.NEXT_NUM_LITERALS, op 0x43 (R138). -/
  | decNextNumLiterals
  /-- DEC.GET_REPEATED_VALUE, op 0x44: B = n (R139). -/
  | decGetRepeatedValue (n : Word32)
  /-- DEC.GET_LITERAL_VALUES, op 0x45: B = n (R140). -/
  | decGetLiteralValues (n : Word32)
  /-- DEC.GET_SINGLE_VALUE, op 0x46 (R141). -/
  | decGetSingleValue
  /-- DEC.GET_VALUES, op 0x47: B = n (R142). -/
  | decGetValues (n : Word32)
  /-- DEC.SKIP_VALUES, op 0x48: B = n (R143). -/
  | decSkipValues (n : Word32)
  /-- WIRE.REPEATED_RUN: a run header with variant bit 0 (R54). `count` is h[31:1] (R56), `len` the
  number of bytes its varint takes in the stream, 1 to 5 and not necessarily the fewest (R57, R93).
  The payload's length depends on the decoder's `W`; it is read when the run is taken up (R131). -/
  | wireRepeatedRun (count : BitVec 31) (len : Nat)
  /-- WIRE.LITERAL_RUN: a run header with variant bit 1 (R55). `groups` is h[31:1], `len` as above. -/
  | wireLiteralRun (groups : BitVec 31) (len : Nat)
  deriving DecidableEq, Repr

end Sys2Proof
end

