-- ==== Sys2Proof/WellFormed.lean ====
section
/-! DEFINITION. The instructions that have an encoding. A command's operands fill their fields exactly
(30_encoding.md R61), so every command is well formed; an operand outside the command's contract is
still a command and its own rule refuses it (R67). A run header must have a varint of 1 to 5 bytes
(R57) in which its header word fits. -/

namespace Sys2Proof

/-- The header word `h` of a repeated run: `count << 1` (30_encoding.md R53). -/
def repeatedHeaderWord (count : BitVec 31) : Nat := 2 * count.toNat

/-- The header word `h` of a literal run: `(groups << 1) | 1` (30_encoding.md R53). -/
def literalHeaderWord (groups : BitVec 31) : Nat := 2 * groups.toNat + 1

/-- A varint of `len` bytes has room for `h`: `len` is 1 to 5, and `h` fits in `7·len` bits (R57). -/
def varintFits (len h : Nat) : Bool :=
  decide (1 ≤ len) && decide (len ≤ Config.maxUlebBytes) && decide (h < 2 ^ (7 * len))

/-- The instruction has an encoding. -/
def Instr.wf : Instr → Bool
  | .bwInit _ => true
  | .bwPutValue _ _ => true
  | .bwPutUleb128 _ => true
  | .bwFlush => true
  | .bwBytesWritten => true
  | .bwClear => true
  | .brInit _ => true
  | .brGetValue _ => true
  | .brGetUleb128 => true
  | .brSkipBits _ => true
  | .brAlignToByte => true
  | .encNew _ _ _ => true
  | .encPut _ => true
  | .encFlush => true
  | .encClear => true
  | .encMinBufferSize _ => true
  | .encMaxBufferSize _ _ => true
  | .decNew _ _ => true
  | .decReset _ _ => true
  | .decNextNumRepeats => true
  | .decNextNumLiterals => true
  | .decGetRepeatedValue _ => true
  | .decGetLiteralValues _ => true
  | .decGetSingleValue => true
  | .decGetValues _ => true
  | .decSkipValues _ => true
  | .wireRepeatedRun count len => varintFits len (repeatedHeaderWord count)
  | .wireLiteralRun groups len => varintFits len (literalHeaderWord groups)

end Sys2Proof
end

