-- ==== Sys2Proof/Decode.lean ====
section
/-! DEFINITION. The two encodings of 30_encoding.md: the ULEB128 code of a run header (R57; 41_uleb128.md
R86, R89) and the command word (R61 to R64). The decoder is total and rejects by name; after it stands the
encoder, written from the same rules; last, the host's numbered words. -/

namespace Sys2Proof

/-! ### Bytes and varints -/

/-- The `k` low little-endian bytes of `x`: byte `i` is `(x >> 8i) & 0xFF` (20_memory.md R42). -/
def leBytes : Nat → Nat → List Byte
  | 0, _ => []
  | k + 1, x => BitVec.ofNat 8 x :: leBytes k (x / 256)

/-- `UlebEncode` with a bound on the number of bytes (41_uleb128.md R86). -/
def ulebEncodeWithin : Nat → Nat → List Byte
  | 0, _ => []
  | k + 1, x =>
    if x / 128 = 0 then [BitVec.ofNat 8 (x % 128)]
    else BitVec.ofNat 8 (x % 128 + 128) :: ulebEncodeWithin k (x / 128)

/-- `UlebEncode(x)` for `x < 2^32`: the minimal encoding (41_uleb128.md R86). -/
def ulebEncode (x : Nat) : List Byte := ulebEncodeWithin Config.maxUlebBytes x

/-- `x` as a varint of exactly `n` bytes, minimal or not (30_encoding.md R57, 41_uleb128.md R93). -/
def ulebBytes : Nat → Nat → List Byte
  | 0, _ => []
  | 1, x => [BitVec.ofNat 8 (x % 128)]
  | n + 2, x => BitVec.ofNat 8 (x % 128 + 128) :: ulebBytes (n + 1) (x / 128)

/-- What reading a varint gives (41_uleb128.md R89). -/
inductive UlebResult where
  /-- The value and the number of bytes used. -/
  | ok (x used : Nat)
  /-- The input ended inside the varint (R94). -/
  | endOfInput
  /-- More than 5 bytes (R91), or a value of 2^32 or more (R92). -/
  | err
  deriving DecidableEq, Repr

/-- The loop of `UlebDecode` (41_uleb128.md R89): `left` bytes may still be read, `i` were read and gave
`x` so far. -/
def ulebLoop : (left i x : Nat) → List Byte → UlebResult
  | 0, _, _, _ => .err
  | _ + 1, _, _, [] => .endOfInput
  | left + 1, i, x, b :: bs =>
    let x' := x + (b.toNat % 128) * 2 ^ (7 * i)
    if b.toNat < 128 then
      if x' < 2 ^ 32 then .ok x' (i + 1) else .err
    else ulebLoop left (i + 1) x' bs

/-- `UlebDecode` of the bytes from some index to the end of the input (41_uleb128.md R89). -/
def ulebDecode (bs : List Byte) : UlebResult := ulebLoop Config.maxUlebBytes 0 0 bs

/-! ### What is fetched -/

/-- A command word, the tuple `(op, A, B, C)` (30_encoding.md R61). -/
structure CmdWord where
  op : Byte
  a : Word64
  b : Word32
  c : Word7
  deriving DecidableEq, Repr

/-- What is decoded: a command word from the host, or the bytes of the input stream from where a run
header starts. -/
inductive Fetched where
  | command (w : CmdWord)
  | wire (bytes : List Byte)
  deriving DecidableEq, Repr

/-- Why something fetched is no instruction. -/
inductive Reject where
  /-- An opcode of units 1 to 4 that 30_encoding.md R63 does not list (R64). -/
  | illegalOpcode (op : Byte)
  /-- A unit number other than 1 to 4 (R64). -/
  | noSuchUnit (op : Byte)
  /-- A run header cut off by the end of the input (R60, 41_uleb128.md R94). -/
  | headerCutOff
  /-- A run header whose varint has more than 5 bytes or a value of 2^32 or more (R60). -/
  | headerMalformed
  deriving DecidableEq, Repr

/-! ### The decoder -/

/-- The opcode map of 30_encoding.md R63. Operands a command does not use are ignored (R61); ENC.NEW takes
`m` from `A[6:0]` (R62). -/
def decodeCommand (w : CmdWord) : Except Reject Instr :=
  match w.op.toNat with
  | 0x10 => .ok (.bwInit w.b)
  | 0x11 => .ok (.bwPutValue w.a w.c)
  | 0x12 => .ok (.bwPutUleb128 w.b)
  | 0x13 => .ok .bwFlush
  | 0x14 => .ok .bwBytesWritten
  | 0x15 => .ok .bwClear
  | 0x20 => .ok (.brInit w.b)
  | 0x21 => .ok (.brGetValue w.c)
  | 0x22 => .ok .brGetUleb128
  | 0x23 => .ok (.brSkipBits w.a)
  | 0x24 => .ok .brAlignToByte
  | 0x30 => .ok (.encNew w.b w.c (w.a.setWidth 7))
  | 0x31 => .ok (.encPut w.a)
  | 0x32 => .ok .encFlush
  | 0x33 => .ok .encClear
  | 0x34 => .ok (.encMinBufferSize w.c)
  | 0x35 => .ok (.encMaxBufferSize w.c w.b)
  | 0x40 => .ok (.decNew w.b w.c)
  | 0x41 => .ok (.decReset w.b w.c)
  | 0x42 => .ok .decNextNumRepeats
  | 0x43 => .ok .decNextNumLiterals
  | 0x44 => .ok (.decGetRepeatedValue w.b)
  | 0x45 => .ok (.decGetLiteralValues w.b)
  | 0x46 => .ok .decGetSingleValue
  | 0x47 => .ok (.decGetValues w.b)
  | 0x48 => .ok (.decSkipValues w.b)
  | op => if 1 ≤ op / 16 ∧ op / 16 ≤ 4 then .error (.illegalOpcode w.op) else .error (.noSuchUnit w.op)

/-- A run header at the head of the bytes that are left of the input: a varint, whose bit 0 is the
variant (30_encoding.md R53, R56, R58). -/
def decodeWire (bytes : List Byte) : Except Reject Instr :=
  match ulebDecode bytes with
  | .endOfInput => .error .headerCutOff
  | .err => .error .headerMalformed
  | .ok h used =>
    if h % 2 = 0 then .ok (.wireRepeatedRun (BitVec.ofNat 31 (h / 2)) used)
    else .ok (.wireLiteralRun (BitVec.ofNat 31 (h / 2)) used)

/-- The decoder, total on everything that can be fetched (30_encoding.md R67). -/
def decode : Fetched → Except Reject Instr
  | .command w => decodeCommand w
  | .wire bytes => decodeWire bytes

/-! ### The encoder -/

/-- A command word with the operands given; an operand a command does not use is 0 (30_encoding.md R61). -/
def commandWord (op : Byte) (a : Word64 := 0) (b : Word32 := 0) (c : Word7 := 0) : Fetched :=
  .command { op := op, a := a, b := b, c := c }

/-- The words of an instruction (30_encoding.md R53, R61 to R63). -/
def encode : Instr → Fetched
  | .bwInit lOut => commandWord 0x10 (b := lOut)
  | .bwPutValue value w => commandWord 0x11 (a := value) (c := w)
  | .bwPutUleb128 x => commandWord 0x12 (b := x)
  | .bwFlush => commandWord 0x13
  | .bwBytesWritten => commandWord 0x14
  | .bwClear => commandWord 0x15
  | .brInit lIn => commandWord 0x20 (b := lIn)
  | .brGetValue w => commandWord 0x21 (c := w)
  | .brGetUleb128 => commandWord 0x22
  | .brSkipBits k => commandWord 0x23 (a := k)
  | .brAlignToByte => commandWord 0x24
  | .encNew lOut w m => commandWord 0x30 (a := m.setWidth 64) (b := lOut) (c := w)
  | .encPut value => commandWord 0x31 (a := value)
  | .encFlush => commandWord 0x32
  | .encClear => commandWord 0x33
  | .encMinBufferSize w => commandWord 0x34 (c := w)
  | .encMaxBufferSize w n => commandWord 0x35 (b := n) (c := w)
  | .decNew lIn w => commandWord 0x40 (b := lIn) (c := w)
  | .decReset lIn w => commandWord 0x41 (b := lIn) (c := w)
  | .decNextNumRepeats => commandWord 0x42
  | .decNextNumLiterals => commandWord 0x43
  | .decGetRepeatedValue n => commandWord 0x44 (b := n)
  | .decGetLiteralValues n => commandWord 0x45 (b := n)
  | .decGetSingleValue => commandWord 0x46
  | .decGetValues n => commandWord 0x47 (b := n)
  | .decSkipValues n => commandWord 0x48 (b := n)
  | .wireRepeatedRun count len => .wire (ulebBytes len (repeatedHeaderWord count))
  | .wireLiteralRun groups len => .wire (ulebBytes len (literalHeaderWord groups))

/-! ### The assembler's names (30_encoding.md R63, R65) -/

/-- The mnemonic, as spec/opcode_table.json spells it. -/
def Instr.mnemonic : Instr → String
  | .bwInit _ => "BW.INIT"
  | .bwPutValue _ _ => "BW.PUT_VALUE"
  | .bwPutUleb128 _ => "BW.PUT_ULEB128"
  | .bwFlush => "BW.FLUSH"
  | .bwBytesWritten => "BW.BYTES_WRITTEN"
  | .bwClear => "BW.CLEAR"
  | .brInit _ => "BR.INIT"
  | .brGetValue _ => "BR.GET_VALUE"
  | .brGetUleb128 => "BR.GET_ULEB128"
  | .brSkipBits _ => "BR.SKIP_BITS"
  | .brAlignToByte => "BR.ALIGN_TO_BYTE"
  | .encNew _ _ _ => "ENC.NEW"
  | .encPut _ => "ENC.PUT"
  | .encFlush => "ENC.FLUSH"
  | .encClear => "ENC.CLEAR"
  | .encMinBufferSize _ => "ENC.MIN_BUFFER_SIZE"
  | .encMaxBufferSize _ _ => "ENC.MAX_BUFFER_SIZE"
  | .decNew _ _ => "DEC.NEW"
  | .decReset _ _ => "DEC.RESET"
  | .decNextNumRepeats => "DEC.NEXT_NUM_REPEATS"
  | .decNextNumLiterals => "DEC.NEXT_NUM_LITERALS"
  | .decGetRepeatedValue _ => "DEC.GET_REPEATED_VALUE"
  | .decGetLiteralValues _ => "DEC.GET_LITERAL_VALUES"
  | .decGetSingleValue => "DEC.GET_SINGLE_VALUE"
  | .decGetValues _ => "DEC.GET_VALUES"
  | .decSkipValues _ => "DEC.SKIP_VALUES"
  | .wireRepeatedRun _ _ => "WIRE.REPEATED_RUN"
  | .wireLiteralRun _ _ => "WIRE.LITERAL_RUN"

/-- An operand as a number of its field's width; none where it does not fit. -/
def operand (bits n : Nat) : Option (BitVec bits) := if n < 2 ^ bits then some (BitVec.ofNat bits n) else none

/-- A line of the assembler, its operands in the order of R63's Operands column (R65). `DEC.GET` is the
pseudo-command of R66, which writes it `DEC.GET v` and does not say what `v` is. DESIGN CHOICE, log entry 25: `v`
names the value delivered, the command's `R`, and is no operand, so that `DEC.GET` with a number is no line. -/
def assemble (mnemonic : String) (operands : List Nat) : Option Instr :=
  match mnemonic, operands with
  | "BW.INIT", [l] => (operand 32 l).map .bwInit
  | "BW.PUT_VALUE", [v, w] => (operand 64 v).bind fun v => (operand 7 w).map (.bwPutValue v)
  | "BW.PUT_ULEB128", [x] => (operand 32 x).map .bwPutUleb128
  | "BW.FLUSH", [] => some .bwFlush
  | "BW.BYTES_WRITTEN", [] => some .bwBytesWritten
  | "BW.CLEAR", [] => some .bwClear
  | "BR.INIT", [l] => (operand 32 l).map .brInit
  | "BR.GET_VALUE", [w] => (operand 7 w).map .brGetValue
  | "BR.GET_ULEB128", [] => some .brGetUleb128
  | "BR.SKIP_BITS", [k] => (operand 64 k).map .brSkipBits
  | "BR.ALIGN_TO_BYTE", [] => some .brAlignToByte
  | "ENC.NEW", [l, w, m] =>
    (operand 32 l).bind fun l => (operand 7 w).bind fun w => (operand 7 m).map (.encNew l w)
  | "ENC.PUT", [v] => (operand 64 v).map .encPut
  | "ENC.FLUSH", [] => some .encFlush
  | "ENC.CLEAR", [] => some .encClear
  | "ENC.MIN_BUFFER_SIZE", [w] => (operand 7 w).map .encMinBufferSize
  | "ENC.MAX_BUFFER_SIZE", [w, n] => (operand 7 w).bind fun w => (operand 32 n).map (.encMaxBufferSize w)
  | "DEC.NEW", [l, w] => (operand 32 l).bind fun l => (operand 7 w).map (.decNew l)
  | "DEC.RESET", [l, w] => (operand 32 l).bind fun l => (operand 7 w).map (.decReset l)
  | "DEC.NEXT_NUM_REPEATS", [] => some .decNextNumRepeats
  | "DEC.NEXT_NUM_LITERALS", [] => some .decNextNumLiterals
  | "DEC.GET_REPEATED_VALUE", [n] => (operand 32 n).map .decGetRepeatedValue
  | "DEC.GET_LITERAL_VALUES", [n] => (operand 32 n).map .decGetLiteralValues
  | "DEC.GET_SINGLE_VALUE", [] => some .decGetSingleValue
  | "DEC.GET", [] => some .decGetSingleValue
  | "DEC.GET_VALUES", [n] => (operand 32 n).map .decGetValues
  | "DEC.SKIP_VALUES", [n] => (operand 32 n).map .decSkipValues
  | _, _ => none

/-! ### The words the host numbers -/

/-- The most bytes a repeated run takes in the stream: a 5-byte header and an 8-byte value. -/
def longestRepeatedRun : Nat := 13

/-- The command word whose bits are `w`: `op` in bits 7..0 as spec/opcode_table.json has it, then `A`, `B` and
`C` in the order of R61 (log entry 5). -/
def CmdWord.ofBits (w : Nat) : CmdWord :=
  { op := BitVec.ofNat 8 w
    a := BitVec.ofNat 64 (w / 2 ^ 8)
    b := BitVec.ofNat 32 (w / 2 ^ 72)
    c := BitVec.ofNat 7 (w / 2 ^ 104) }

/-- `op` is one of the 26 opcodes of R63. -/
def isCommandOp (op : Nat) : Bool :=
  (0x10 ≤ op && op ≤ 0x15) || (0x20 ≤ op && op ≤ 0x24) || (0x30 ≤ op && op ≤ 0x35)
    || (0x40 ≤ op && op ≤ 0x48)

/-- What the word `w` of `nbits` bits stands for: a command word when its first byte is an opcode of R63, else
the bytes of a run header, with zeros after them (log entry 6). -/
def fetchedOfTableWord (nbits w : Nat) : Fetched :=
  let v := w % 2 ^ nbits
  if isCommandOp (v % 256) then .command (CmdWord.ofBits v)
  else .wire (leBytes (max ((nbits + 7) / 8) longestRepeatedRun) v)

/-- The instruction the decoder reads from a word of spec/opcode_table.json. -/
def decodeTableWord (nbits w : Nat) : Option Instr :=
  match decode (fetchedOfTableWord nbits w) with
  | .ok i => some i
  | .error _ => none

end Sys2Proof
end

