-- ==== Sys2Proof/Machine/State.lean ====
section
/-! DEFINITION. The machine's state (10_state.md). The block has any number of independent bit writers, bit
readers, encoders and decoders (R20, R187), named by the host; a run is the host's list of commands to
them (70_reset_and_hazards.md R202). There is no register file and no program counter (R21). The types
here are plain data; what is done with them is in Machine/Ops.lean. -/

namespace Sys2Proof.Machine

/-! ### Addressing and responses -/

/-- The four kinds of unit (10_state.md R20); the unit numbers are 1 to 4 (30_encoding.md R61). -/
inductive Kind where
  | bw
  | br
  | enc
  | dec
  deriving DecidableEq, Repr

/-- The unit a command is addressed to: its kind and the host's name for it (60_exceptions.md R187). -/
structure Target where
  kind : Kind
  id : Nat
  deriving DecidableEq, Repr

/-- The status words (00_scope.md R12); their codes are `Status.code` (60_exceptions.md R176). -/
inductive Status where
  | ok
  | full
  | endOfInput
  | err
  | isFalse
  | refused
  deriving DecidableEq, Repr

/-- A command's response `(status, R, values)` (30_encoding.md R61). `result` is `none` where the command's rule
returns no `R`. -/
structure Response where
  status : Status
  result : Option Word64
  values : List Word64
  deriving DecidableEq, Repr

/-! ### The units -/

/-- A constructed bit writer (10_state.md R22, R27). `buf` names the buffer bound at construction (R21). -/
structure BwCore where
  buf : Nat
  lOut : Nat
  wbits : Nat
  acc : Byte
  flushed : Bool
  deriving DecidableEq, Repr

/-- A constructed bit reader (10_state.md R22, R28). `version` is how many changes of the input buffer came before
construction, by which a later one is seen (60_exceptions.md R178 case 10). -/
structure BrCore where
  buf : Nat
  version : Nat
  lIn : Nat
  rbits : Nat
  deriving DecidableEq, Repr

/-- The encoder's `mode`, STAGING or REPEAT (10_state.md R23). -/
inductive EncMode where
  | staging
  | repeating
  deriving DecidableEq, Repr

/-- A constructed encoder (10_state.md R22 to R26). `staged` is the staging buffer `B`. `repValue` is not read in
STAGING, nor `litHdrPos` while `litOpen` is false; after a construction or a clear they are free values. -/
structure EncCore where
  buf : Nat
  w : Nat
  m : Nat
  t : Nat
  lOut : Nat
  mode : EncMode
  staged : List Word64
  repValue : Word64
  repCount : Nat
  litOpen : Bool
  litHdrPos : Nat
  litGroups : Nat
  wpos : Nat
  idle : Bool
  deriving DecidableEq, Repr

/-- The decoder's look-ahead (10_state.md R31). -/
inductive Run where
  | empty
  | rep (value : Word64) (rem : Nat)
  | lit (rem : Nat)
  | dead
  deriving DecidableEq, Repr

/-- `dead_reason` (10_state.md R33): model-only, returned by no command. -/
inductive DeadReason where
  | none
  | endOfInput
  | uleb
  | zero
  | overflow
  | truncated
  deriving DecidableEq, Repr

/-- A constructed decoder (10_state.md R22, R29). `version` as for the bit reader. -/
structure DecCore where
  buf : Nat
  version : Nat
  w : Nat
  lIn : Nat
  rbits : Nat
  run : Run
  deadReason : DeadReason
  deriving DecidableEq, Repr

/-- A unit of one kind: the sticky `refused` mark (10_state.md R34), and the rest of its state, which exists only
once it is constructed (70_reset_and_hazards.md R191). -/
structure Slot (α : Type) where
  refused : Bool
  core : Option α
  deriving DecidableEq, Repr

/-- A unit before its first construction command (10_state.md R38, row "any"). -/
def Slot.unbuilt {α : Type} : Slot α := { refused := false, core := none }

/-! ### Memory -/

/-- What happened to a buffer that a reader of it may not survive (60_exceptions.md R178 case 10). -/
inductive Change where
  /-- A bit writer or an encoder took the buffer for its output (93_implementation_defined.md U6). -/
  | taken
  /-- Bytes were written, at index `least` and perhaps above. -/
  | written (least : Nat)
  deriving DecidableEq, Repr

/-- One of the host's byte buffers (20_memory.md). `bytes` lists the bytes whose value the model may name, by
index, strictly rising; an index not listed has no value of its own and reads as `Config.freeByte` (10_state.md
R39). `epoch` counts how often the listed bytes were given up, so that a free value is not tied to an earlier one.
`changes` holds what happened to the buffer, the latest first. `holder` is the bit writer or encoder that took the
buffer last, and so has exclusive access to it (R52). `spoilt` lists the indices of the holder's output that the
host has written since, each once for every time (93_implementation_defined.md U6; log entry 24). -/
structure Buffer where
  epoch : Nat
  changes : List Change
  holder : Option Target
  spoilt : List Nat
  bytes : List Host.Cell
  deriving DecidableEq, Repr

/-- A buffer nothing has been put in, and that no unit has taken. -/
def Buffer.blank : Buffer := { epoch := 0, changes := [], holder := none, spoilt := [], bytes := [] }

/-- The host's buffers by name, strictly rising; a buffer not listed is `Buffer.blank`. -/
abbrev Memory := List (Nat × Buffer)

/-! ### The host's list, and the state -/

/-- What the host's list holds (70_reset_and_hazards.md R202). -/
inductive Event where
  /-- A command word to a unit, with the buffer the host names beside it (10_state.md R21); only a construction
  command uses the buffer. -/
  | command (target : Target) (buffer : Nat) (word : CmdWord)
  /-- The decoder's header parse as a step of its own, which takes up the next run of the input; otherwise a
  part of the decoder's commands (43_run_frame_parser.md R129; log entry 7). -/
  | parse (id : Nat)
  /-- The host writes bytes into one of its buffers (70_reset_and_hazards.md R195; 95_test_vectors.md P3). -/
  | load (buffer index : Nat) (bytes : List Byte)
  deriving DecidableEq, Repr

/-- What is supplied beside the instruction being performed: the unit addressed and the buffer named (R21). -/
structure Port where
  target : Target
  buffer : Nat
  deriving DecidableEq, Repr

structure State where
  /-- The parameters of 00_scope.md R6; no step changes them. -/
  params : Params
  /-- The host's buffers. -/
  mem : Memory
  /-- The bit writers by name; one not listed is unconstructed. So for the other three. -/
  bws : List (Nat × Slot BwCore)
  brs : List (Nat × Slot BrCore)
  encs : List (Nat × Slot EncCore)
  decs : List (Nat × Slot DecCore)
  /-- The part of the host's list not yet performed. -/
  pending : List Event
  /-- The unit addressed and the buffer named by the event being performed. -/
  port : Port
  /-- The response to the last command; `none` before the first. -/
  response : Option Response
  deriving DecidableEq, Repr

/-! ### How a step can stop -/

/-- Why a step stops with a fault. The block itself has no traps (60_exceptions.md R183). -/
inductive Fault where
  /-- Raised by `step` when the host's list is exhausted: the run has ended (70_reset_and_hazards.md R202). Safe. -/
  | endOfRun
  /-- Raised by `State.commit` when a byte would be written at an index not below `L_out`, where MemWrite is not
  defined (00_scope.md R10). No state that satisfies `State.inv` reaches it (20_memory.md R48). Safe. -/
  | writeOutsideBuffer
  deriving DecidableEq, Repr

/-- Why a step has no meaning. -/
inductive Refusal where
  /-- Raised by `exec` for an instruction without a meaning; no arm does. Safe. A command the spec refuses
  (60_exceptions.md R178) is no refusal of the model: it is a next state with the unit's mark set. -/
  | notModelled (mnemonic : String)
  deriving DecidableEq, Repr

/-- The machine before the host's first command: every unit unconstructed (10_state.md R38, 70_reset_and_hazards.md
R191), nothing known of any buffer, an empty list. The port is overwritten before it is read (log entry 3). -/
def State.reset : State :=
  { params := Config.defaultParams
    mem := []
    bws := []
    brs := []
    encs := []
    decs := []
    pending := []
    port := { target := { kind := .bw, id := 0 }, buffer := 0 }
    response := none }

end Sys2Proof.Machine
end

