-- ==== Sys2Proof/Machine/Ops.lean ====
section
/-! DEFINITION. The operations every meaning is written over: the host's buffers, reading the input as bits and
bytes (20_memory.md), the units by name, the response, the refusal (60_exceptions.md R178), and the hand-over of
a command to the unit it is addressed to. -/

namespace Sys2Proof.Machine

/-! ### Lists by key -/

namespace Sparse

variable {α : Type}

def lookup (m : List (Nat × α)) (k : Nat) : Option α :=
  match m with
  | [] => none
  | e :: m => if k = e.1 then some e.2 else lookup m k

def insert (m : List (Nat × α)) (k : Nat) (v : α) : List (Nat × α) :=
  match m with
  | [] => [(k, v)]
  | e :: m =>
    if k < e.1 then (k, v) :: e :: m
    else if k = e.1 then (k, v) :: m
    else e :: insert m k v

def erase (m : List (Nat × α)) (k : Nat) : List (Nat × α) :=
  match m with
  | [] => []
  | e :: m => if k = e.1 then erase m k else e :: erase m k

/-- The keys rise strictly. -/
def rising : List (Nat × α) → Bool
  | [] => true
  | [_] => true
  | e :: f :: m => decide (e.1 < f.1) && rising (f :: m)

/-- What stands at `k`, where a key that is not listed has `d`. -/
def get (d : α) (m : List (Nat × α)) (k : Nat) : α := (lookup m k).getD d

/-- Put `v` at `k`; an entry equal to `d` is not listed. -/
def set [DecidableEq α] (d : α) (m : List (Nat × α)) (k : Nat) (v : α) : List (Nat × α) :=
  if v = d then erase m k else insert m k v

/-- The canonical form: strictly rising keys, and no entry equal to `d`. -/
def wf [DecidableEq α] (d : α) (m : List (Nat × α)) : Bool := rising m && m.all fun e => decide (e.2 ≠ d)

end Sparse

/-! ### The host's buffers -/

/-- `n` bytes as cells from index `i` on. -/
def cellsFrom (i : Nat) : List Byte → List Host.Cell
  | [] => []
  | b :: bs => (i, b) :: cellsFrom (i + 1) bs

/-- Put cells into a list of bytes, one after another. -/
def putCells (bytes cells : List Host.Cell) : List Host.Cell :=
  cells.foldl (fun m c => Sparse.insert m c.1 c.2) bytes

/-- The bytes are listed with strictly rising indices. -/
def Buffer.wf (b : Buffer) : Bool := Sparse.rising b.bytes

/-- The canonical form of the memory: of the list of buffers, and of each buffer's bytes. -/
def Memory.wf (m : Memory) : Bool := Sparse.wf Buffer.blank m && m.all fun e => e.2.wf

/-- The byte listed at an index; none where the model may name no value. -/
def Buffer.read? (b : Buffer) (i : Nat) : Option Byte := Sparse.lookup b.bytes i

/-- How many changes the buffer has seen. -/
def Buffer.version (b : Buffer) : Nat := b.changes.length

/-- A change that a reader of the first `n` bytes does not survive: a write at or above `n` is no change of its input
(20_memory.md section 1); a writer that takes the buffer shares it with every reader (93_implementation_defined.md U6). -/
def Change.reaches (n : Nat) : Change → Bool
  | .taken => true
  | .written least => decide (least < n)

/-- For a reader of the first `n` bytes, the buffer has changed since it had seen `version` changes (60_exceptions.md
R178 case 10). -/
def Buffer.changedSince (b : Buffer) (version n : Nat) : Bool :=
  (b.changes.take (b.version - version)).any (Change.reaches n)

/-- The indices at which cells differ from what the buffer lists. -/
def Buffer.differing (b : Buffer) (cells : List Host.Cell) : List Nat :=
  (cells.filter fun c => decide (b.read? c.1 ≠ some c.2)).map fun c => c.1

/-- Write cells. It is a change where it changes the contents (log entry 9). -/
def Buffer.write (b : Buffer) (cells : List Host.Cell) : Buffer :=
  match (b.differing cells).min? with
  | none => b
  | some least => { b with changes := .written least :: b.changes, bytes := putCells b.bytes cells }

/-- The bit writer or encoder `writer` takes the buffer for a new stream. No byte is written, but what is known of the
bytes is given up (10_state.md R39; 93_implementation_defined.md V5): from here on they are other free values (log
entry 2). A reader that already views the buffer, and a writer that held it, share it from here on
(93_implementation_defined.md U6, 70_reset_and_hazards.md R200; log entry 18). -/
def Buffer.take (b : Buffer) (writer : Target) : Buffer :=
  { epoch := b.epoch + 1, changes := .taken :: b.changes, holder := some writer, spoilt := [], bytes := [] }

/-- The host writes cells into the buffer, of which the holder's output is the first `n` bytes. A byte of that output
that the write changes is not one the block has written, so the model may not name it: it is another free value
(10_state.md R39; 93_implementation_defined.md V1 to V3, U6; log entry 24). -/
def Buffer.load (b : Buffer) (n : Nat) (cells : List Host.Cell) : Buffer :=
  let spoilt := (b.differing cells).filter fun i => decide (i < n)
  { b.write cells with
    spoilt := spoilt ++ b.spoilt
    bytes := (b.write cells).bytes.filter fun c => !spoilt.contains c.1 }

def State.buf (s : State) (b : Nat) : Buffer := Sparse.get Buffer.blank s.mem b

def State.setBuf (s : State) (b : Nat) (x : Buffer) : State :=
  { s with mem := Sparse.set Buffer.blank s.mem b x }

/-- What reading one byte of a buffer gives: the byte listed, else a free value (10_state.md R39). -/
def State.readByte (s : State) (b i : Nat) : Byte :=
  match (s.buf b).read? i with
  | some x => x
  | none => Config.freeByte b (s.buf b).epoch i ((s.buf b).spoilt.count i)

/-- MemWrite for a list of cells of one buffer (00_scope.md R10). -/
def State.writeCells (s : State) (b : Nat) (cells : List Host.Cell) : State :=
  s.setBuf b ((s.buf b).write cells)

/-- The addressed bit writer or encoder takes a buffer for its output. -/
def State.take (s : State) (b : Nat) : State := s.setBuf b ((s.buf b).take s.port.target)

/-- The addressed bit writer or encoder has the buffer to itself: no other has taken it since, and the host has changed
no byte of the output (20_memory.md R52: "exclusive mutable access for its lifetime"). -/
def State.holds (s : State) (b : Nat) : Bool :=
  decide ((s.buf b).holder = some s.port.target) && (s.buf b).spoilt.isEmpty

/-- Perform a command's writes, all or none (20_memory.md R46). MemWrite is defined only below `L_out` (R10). -/
def State.commit (s : State) (b lOut : Nat) (cells : List Host.Cell) : Host.Outcome State Fault Refusal :=
  if cells.all fun c => decide (c.1 < lOut) then .next (s.writeCells b cells) else .fault .writeOutsideBuffer

/-! ### Reading an input -/

/-- `InBit(j)` (20_memory.md R40), with `rd` the input's bytes. -/
def inBit (rd : Nat → Byte) (j : Nat) : Nat := (rd (j / 8)).toNat / 2 ^ (j % 8) % 2

/-- The `k`-bit field at stream bit `p`: `Σ_{i<k} InBit(p+i) << i` (20_memory.md R40). -/
def inField (rd : Nat → Byte) (p : Nat) : Nat → Nat
  | 0 => 0
  | k + 1 => inBit rd p + 2 * inField rd (p + 1) k

/-- MemRead (00_scope.md R10): `n` bytes from index `p` on. -/
def bytesFrom (rd : Nat → Byte) (p : Nat) : Nat → List Byte
  | 0 => []
  | n + 1 => rd p :: bytesFrom rd (p + 1) n

/-- The number whose little-endian bytes these are (20_memory.md R42). -/
def leNumber : List Byte → Nat
  | [] => 0
  | b :: bs => b.toNat + 256 * leNumber bs

/-- What a varint at byte index `p` may take: the bytes from `p` to the end of an input of `lIn` bytes, and no more
than the 5 that are ever looked at (41_uleb128.md R89). -/
def varintWindow (rd : Nat → Byte) (lIn p : Nat) : List Byte :=
  bytesFrom rd p (min Config.maxUlebBytes (lIn - p))

/-! ### The units by name -/

def State.bw (s : State) (id : Nat) : Slot BwCore := Sparse.get Slot.unbuilt s.bws id
def State.br (s : State) (id : Nat) : Slot BrCore := Sparse.get Slot.unbuilt s.brs id
def State.enc (s : State) (id : Nat) : Slot EncCore := Sparse.get Slot.unbuilt s.encs id
def State.dec (s : State) (id : Nat) : Slot DecCore := Sparse.get Slot.unbuilt s.decs id

def State.setBw (s : State) (id : Nat) (u : Slot BwCore) : State :=
  { s with bws := Sparse.set Slot.unbuilt s.bws id u }
def State.setBr (s : State) (id : Nat) (u : Slot BrCore) : State :=
  { s with brs := Sparse.set Slot.unbuilt s.brs id u }
def State.setEnc (s : State) (id : Nat) (u : Slot EncCore) : State :=
  { s with encs := Sparse.set Slot.unbuilt s.encs id u }
def State.setDec (s : State) (id : Nat) (u : Slot DecCore) : State :=
  { s with decs := Sparse.set Slot.unbuilt s.decs id u }

/-- Of the bit writer or encoder whose output buffer `b` is: its `L_out`, and whether it has been flushed. None where no
unit has taken the buffer, or the one that did has since been bound to another (10_state.md R21). -/
def State.outputOf (s : State) (b : Nat) : Option (Nat × Bool) :=
  match (s.buf b).holder with
  | none => none
  | some u =>
    match u.kind with
    | .bw => (s.bw u.id).core.bind fun c => if c.buf = b then some (c.lOut, c.flushed) else none
    | .enc => (s.enc u.id).core.bind fun e => if e.buf = b then some (e.lOut, e.idle) else none
    | .br => none
    | .dec => none

/-- How many bytes of a buffer are the output of a bit writer or an encoder. -/
def State.outputLen (s : State) (b : Nat) : Nat := ((s.outputOf b).map fun o => o.1).getD 0

/-- The buffer is the output of a bit writer or an encoder that has not been flushed: it must not be the input of a
reader (70_reset_and_hazards.md R200; 20_memory.md R51; 93_implementation_defined.md U6). -/
def State.inUse (s : State) (b : Nat) : Bool := (s.outputOf b).any fun o => !o.2

/-- A constructed unit without the `refused` mark. -/
def Slot.running {α : Type} (c : α) : Slot α := { refused := false, core := some c }

/-- The unit with its `refused` mark set; nothing else of it changes (60_exceptions.md R180). -/
def Slot.marked {α : Type} (u : Slot α) : Slot α := { u with refused := true }

/-- The unit's state while it may perform a command: it is constructed and not marked (60_exceptions.md R178
case 3). -/
def Slot.ready {α : Type} (u : Slot α) : Option α := if u.refused then none else u.core

/-- Give the addressed unit a state, and no mark. -/
def State.putBw (s : State) (c : BwCore) : State := s.setBw s.port.target.id (Slot.running c)
def State.putBr (s : State) (c : BrCore) : State := s.setBr s.port.target.id (Slot.running c)
def State.putEnc (s : State) (c : EncCore) : State := s.setEnc s.port.target.id (Slot.running c)
def State.putDec (s : State) (c : DecCore) : State := s.setDec s.port.target.id (Slot.running c)

/-! ### The response and the refusal -/

/-- Answer the command (30_encoding.md R61). -/
def State.respond (s : State) (status : Status) (result : Option Word64 := none) (values : List Word64 := []) : State :=
  { s with response := some { status := status, result := result, values := values } }

/-- Set the sticky mark of the addressed unit (60_exceptions.md R178, R180). -/
def State.mark (s : State) : State :=
  match s.port.target.kind with
  | .bw => s.setBw s.port.target.id (s.bw s.port.target.id).marked
  | .br => s.setBr s.port.target.id (s.br s.port.target.id).marked
  | .enc => s.setEnc s.port.target.id (s.enc s.port.target.id).marked
  | .dec => s.setDec s.port.target.id (s.dec s.port.target.id).marked

/-- `refuse(reason)` (00_scope.md R10, 60_exceptions.md R178): the command has no effect but the sticky mark on the
addressed unit, and REFUSED is returned. The one place where a command is refused. -/
def State.refuse (s : State) : State := s.mark.respond .refused

/-! ### Handing a command to its unit -/

/-- A construction command or capacity helper of kind `k`: it needs neither construction nor an unmarked unit, only
a unit of its own kind (60_exceptions.md R178 cases 2 and 3). -/
def State.whenAddressed (s : State) (k : Kind) (f : Host.Outcome State Fault Refusal) :
    Host.Outcome State Fault Refusal :=
  if s.port.target.kind = k then f else .next s.refuse

/-- Any other bit-writer command (60_exceptions.md R178 cases 2 and 3; 93_implementation_defined.md U6: the output
buffer must be the writer's alone). -/
def State.onBw (s : State) (f : BwCore → Host.Outcome State Fault Refusal) : Host.Outcome State Fault Refusal :=
  s.whenAddressed .bw <|
    match (s.bw s.port.target.id).ready with
    | some c => if s.holds c.buf then f c else .next s.refuse
    | none => .next s.refuse

/-- Any other bit-reader command (60_exceptions.md R178 cases 2, 3 and 10). The input is the first `L_in` bytes of the
buffer (20_memory.md section 1; log entry 9). -/
def State.onBr (s : State) (f : BrCore → Host.Outcome State Fault Refusal) : Host.Outcome State Fault Refusal :=
  s.whenAddressed .br <|
    match (s.br s.port.target.id).ready with
    | some c => if (s.buf c.buf).changedSince c.version c.lIn then .next s.refuse else f c
    | none => .next s.refuse

/-- Any other encoder command (60_exceptions.md R178 cases 2 and 3; 93_implementation_defined.md U6). -/
def State.onEnc (s : State) (f : EncCore → Host.Outcome State Fault Refusal) : Host.Outcome State Fault Refusal :=
  s.whenAddressed .enc <|
    match (s.enc s.port.target.id).ready with
    | some e => if s.holds e.buf then f e else .next s.refuse
    | none => .next s.refuse

/-- Any other decoder command (60_exceptions.md R178 cases 2, 3 and 10). -/
def State.onDec (s : State) (f : DecCore → Host.Outcome State Fault Refusal) : Host.Outcome State Fault Refusal :=
  s.whenAddressed .dec <|
    match (s.dec s.port.target.id).ready with
    | some c => if (s.buf c.buf).changedSince c.version c.lIn then .next s.refuse else f c
    | none => .next s.refuse

/-! ### The host's list -/

/-- Take a command off the list: the rest of the list stays, and the command's unit and buffer are supplied
beside it (10_state.md R21). -/
def State.present (s : State) (rest : List Event) (target : Target) (buffer : Nat) : State :=
  { s with pending := rest, port := { target := target, buffer := buffer } }

/-- The host writes into one of its buffers. A reader whose input the write changes, and a bit writer or encoder whose
output it changes, is refused from then on (20_memory.md R52; 60_exceptions.md R178 case 10;
93_implementation_defined.md U6; log entries 9 and 24). -/
def State.hostLoad (s : State) (rest : List Event) (buffer index : Nat) (bytes : List Byte) : State :=
  ({ s with pending := rest }).setBuf buffer
    ((s.buf buffer).load (s.outputLen buffer) (cellsFrom index bytes))

end Sys2Proof.Machine
end

