-- ==== Sys2Proof/Machine/Flags.lean ====
section
/-! DEFINITION. The block has no flags or condition codes (10_state.md R35). What stands in their place: the status
words' numeric codes, and the numbers a response carries. -/

namespace Sys2Proof.Machine

/-- The numeric codes of the status words (00_scope.md R12, 60_exceptions.md R176). -/
def Status.code : Status → Byte
  | .ok => 0
  | .full => 1
  | .endOfInput => 2
  | .err => 3
  | .isFalse => 4
  | .refused => 0xFF

/-- A count or a byte length as the 64-bit result `R` (30_encoding.md R61). -/
def resultOf (n : Nat) : Option Word64 := some (BitVec.ofNat 64 n)

/-- The kind of unit an instruction is for; a run header is the decoder's (30_encoding.md R63, 43_run_frame_parser.md
R129). -/
def kindOf : Instr → Kind
  | .bwInit _ => .bw
  | .bwPutValue _ _ => .bw
  | .bwPutUleb128 _ => .bw
  | .bwFlush => .bw
  | .bwBytesWritten => .bw
  | .bwClear => .bw
  | .brInit _ => .br
  | .brGetValue _ => .br
  | .brGetUleb128 => .br
  | .brSkipBits _ => .br
  | .brAlignToByte => .br
  | .encNew _ _ _ => .enc
  | .encPut _ => .enc
  | .encFlush => .enc
  | .encClear => .enc
  | .encMinBufferSize _ => .enc
  | .encMaxBufferSize _ _ => .enc
  | .decNew _ _ => .dec
  | .decReset _ _ => .dec
  | .decNextNumRepeats => .dec
  | .decNextNumLiterals => .dec
  | .decGetRepeatedValue _ => .dec
  | .decGetLiteralValues _ => .dec
  | .decGetSingleValue => .dec
  | .decGetValues _ => .dec
  | .decSkipValues _ => .dec
  | .wireRepeatedRun _ _ => .dec
  | .wireLiteralRun _ _ => .dec

/-- The construction commands (60_exceptions.md R178 case 3). -/
def isConstruction : Instr → Bool
  | .bwInit _ => true
  | .brInit _ => true
  | .encNew _ _ _ => true
  | .decNew _ _ => true
  | .decReset _ _ => true
  | _ => false

/-- The capacity helpers (60_exceptions.md R178 case 3). -/
def isCapacityHelper : Instr → Bool
  | .encMinBufferSize _ => true
  | .encMaxBufferSize _ _ => true
  | _ => false

/-- The unit a command word names in `op[7:4]`; none for another number (30_encoding.md R61, R64). -/
def unitOfOp (op : Byte) : Option Kind :=
  match op.toNat / 16 with
  | 1 => some .bw
  | 2 => some .br
  | 3 => some .enc
  | 4 => some .dec
  | _ => none

end Sys2Proof.Machine
end

