-- ==== Sys2Proof/Machine/Operands.lean ====
section
/-! DEFINITION. The operands' contracts and the capacity arithmetic: 00_scope.md R11, 60_exceptions.md R178 case 4
and R179, 42_rle_literal_classifier.md R98 to R100. -/

namespace Sys2Proof.Machine

/-- `cb(W) = ceil(W/8)`, the bytes of a repeated-run value (00_scope.md R11). -/
def cb (w : Nat) : Nat := ceil8 w

/-- `uleb_len(x)` for `x < 2^32` (00_scope.md R11, 41_uleb128.md R88). -/
def ulebLen (x : Nat) : Nat :=
  if x < 2 ^ 7 then 1
  else if x < 2 ^ 14 then 2
  else if x < 2 ^ 21 then 3
  else if x < 2 ^ 28 then 4
  else 5

/-- `MinBufferSize(W) = 2 + W + cb(W)` (42_rle_literal_classifier.md R99). -/
def minBufferSize (w : Nat) : Nat := 2 + w + cb w

/-- `MaxBufferSize(W, N) = ceil(N/8) · max(W + 1, cb(W) + 5)` (42_rle_literal_classifier.md R100). -/
def maxBufferSize (w n : Nat) : Nat := ceil8 n * max (w + 1) (cb w + 5)

/-- `T = max(8, m)` (42_rle_literal_classifier.md R97, R108). -/
def threshold (m : Nat) : Nat := max 8 m

/-- A width operand is at most 64 (60_exceptions.md R178 case 4). -/
def widthLegal (w : Word7) : Bool := decide (w.toNat ≤ 64)

/-- A buffer length is at most MAX_BUFFER_LEN (60_exceptions.md R179). -/
def lengthLegal (p : Params) (len : Word32) : Bool := decide (len.toNat ≤ p.maxBufferLen)

/-- ENC.NEW's contract (42_rle_literal_classifier.md R98, 60_exceptions.md R179). -/
def encNewLegal (p : Params) (lOut : Word32) (w m : Word7) : Bool :=
  widthLegal w && decide (m.toNat % 8 = 0) && decide (m.toNat ≤ p.maxRunLengthBuffer)
    && decide (minBufferSize w.toNat ≤ lOut.toNat) && lengthLegal p lOut

/-- DEC.NEW's and DEC.RESET's contract (60_exceptions.md R179). -/
def decNewLegal (p : Params) (lIn : Word32) (w : Word7) : Bool := widthLegal w && lengthLegal p lIn

/-- A value of `w` bits: below `2^W`, and any 64-bit value for `W = 64` (00_scope.md R8). -/
def valueFits (w : Nat) (v : Word64) : Bool := decide (64 ≤ w) || decide (v.toNat < 2 ^ w)

/-- The operands are inside the contract the command's own rule states for them, whatever the unit's state: a "row
with legal operands" of 30_encoding.md R67. A run header has no such contract; a malformed one makes the decoder
DEAD (30_encoding.md R60). -/
def operandsLegal (p : Params) : Instr → Bool
  | .bwInit lOut => lengthLegal p lOut
  | .bwPutValue _ w => widthLegal w
  | .brInit lIn => lengthLegal p lIn
  | .brGetValue w => widthLegal w
  | .encNew lOut w m => encNewLegal p lOut w m
  | .encMinBufferSize w => widthLegal w
  | .encMaxBufferSize w _ => widthLegal w
  | .decNew lIn w => decNewLegal p lIn w
  | .decReset lIn w => decNewLegal p lIn w
  | .bwPutUleb128 _ => true
  | .bwFlush => true
  | .bwBytesWritten => true
  | .bwClear => true
  | .brGetUleb128 => true
  | .brSkipBits _ => true
  | .brAlignToByte => true
  | .encPut _ => true
  | .encFlush => true
  | .encClear => true
  | .decNextNumRepeats => true
  | .decNextNumLiterals => true
  | .decGetRepeatedValue _ => true
  | .decGetLiteralValues _ => true
  | .decGetSingleValue => true
  | .decGetValues _ => true
  | .decSkipValues _ => true
  | .wireRepeatedRun _ _ => true
  | .wireLiteralRun _ _ => true

end Sys2Proof.Machine
end

