-- ==== Sys2Proof/Machine/BitReader.lean ====
section
/-! DEFINITION. The bit reader's commands: 40_bit_packer_unpacker.md R76 to R79, R82, R83, and BR.GET_ULEB128,
41_uleb128.md R90. A read that fails consumes nothing. -/

namespace Sys2Proof.Machine

/-- BR.INIT (R76). The buffer of a bit writer or an encoder that has not been flushed is refused
(93_implementation_defined.md U6; log entry 18). -/
def execBrInit (lIn : Word32) (s : State) : Host.Outcome State Fault Refusal :=
  s.whenAddressed .br <|
    if lengthLegal s.params lIn && !s.inUse s.port.buffer then
      .next ((s.putBr
        { buf := s.port.buffer, version := (s.buf s.port.buffer).version, lIn := lIn.toNat, rbits := 0 }).respond .ok)
    else .next s.refuse

/-- BR.GET_VALUE (R77). -/
def execBrGetValue (w : Word7) (s : State) : Host.Outcome State Fault Refusal :=
  s.onBr fun c =>
    if !widthLegal w then .next s.refuse
    else if 8 * c.lIn < c.rbits + w.toNat then .next (s.respond .endOfInput)
    else
      .next ((s.putBr { c with rbits := c.rbits + w.toNat }).respond .ok
        (resultOf (inField (s.readByte c.buf) c.rbits w.toNat)))

/-- BR.GET_ULEB128 (41_uleb128.md R90): the varint is read from the next byte boundary. -/
def execBrGetUleb128 (s : State) : Host.Outcome State Fault Refusal :=
  s.onBr fun c =>
    let p := ceil8 c.rbits
    match ulebDecode (varintWindow (s.readByte c.buf) c.lIn p) with
    | .endOfInput => .next (s.respond .endOfInput)
    | .err => .next (s.respond .err)
    | .ok x used => .next ((s.putBr { c with rbits := 8 * (p + used) }).respond .ok (resultOf x))

/-- BR.SKIP_BITS (R78). -/
def execBrSkipBits (k : Word64) (s : State) : Host.Outcome State Fault Refusal :=
  s.onBr fun c =>
    if 8 * c.lIn < c.rbits + k.toNat then .next (s.respond .endOfInput)
    else .next ((s.putBr { c with rbits := c.rbits + k.toNat }).respond .ok)

/-- BR.ALIGN_TO_BYTE (R79). -/
def execBrAlignToByte (s : State) : Host.Outcome State Fault Refusal :=
  s.onBr fun c => .next ((s.putBr { c with rbits := 8 * ceil8 c.rbits }).respond .ok)

end Sys2Proof.Machine
end

