-- ==== Sys2Proof/Machine/BitWriter.lean ====
section
/-! DEFINITION. The bit writer's commands: 40_bit_packer_unpacker.md R69 to R75, R82 to R84, and BW.PUT_ULEB128,
41_uleb128.md R87. -/

namespace Sys2Proof.Machine

/-- A field being appended: the writer's position and accumulator, and the bytes completed so far. -/
structure Packing where
  wbits : Nat
  acc : Byte
  cells : List Host.Cell
  deriving DecidableEq, Repr

/-- The body of BW.PUT_VALUE's loop (R70): one bit goes into the accumulator; a byte that completes is written. -/
def Packing.pushBit (bit : Nat) (x : Packing) : Packing :=
  let acc := x.acc ||| BitVec.ofNat 8 (bit * 2 ^ (x.wbits % 8))
  let wbits := x.wbits + 1
  if wbits % 8 = 0 then { wbits := wbits, acc := 0, cells := x.cells ++ [(wbits / 8 - 1, acc)] }
  else { x with wbits := wbits, acc := acc }

/-- BW.PUT_VALUE's loop (R70): the `w` low bits of `v`, the lowest first. -/
def Packing.pushBits : (w v : Nat) → Packing → Packing
  | 0, _, x => x
  | w + 1, v, x => Packing.pushBits w (v / 2) (x.pushBit (v % 2))

/-- The writer's state after construction (R69) and after BW.CLEAR (R73). -/
def BwCore.fresh (buf lOut : Nat) : BwCore :=
  { buf := buf, lOut := lOut, wbits := 0, acc := 0, flushed := false }

/-- The partial byte, where there is one (R71, R87). -/
def BwCore.partialCell (c : BwCore) : List Host.Cell :=
  if c.wbits % 8 = 0 then [] else [(c.wbits / 8, c.acc)]

/-- BW.INIT (R69). -/
def execBwInit (lOut : Word32) (s : State) : Host.Outcome State Fault Refusal :=
  s.whenAddressed .bw <|
    if lengthLegal s.params lOut then
      .next (((s.take s.port.buffer).putBw (BwCore.fresh s.port.buffer lOut.toNat)).respond .ok)
    else .next s.refuse

/-- BW.PUT_VALUE (R70, R74, R82, R83). -/
def execBwPutValue (value : Word64) (w : Word7) (s : State) : Host.Outcome State Fault Refusal :=
  s.onBw fun c =>
    if !widthLegal w || c.flushed then .next s.refuse
    else if c.lOut < ceil8 (c.wbits + w.toNat) then .next (s.respond .full)
    else
      let x := Packing.pushBits w.toNat value.toNat { wbits := c.wbits, acc := c.acc, cells := [] }
      ((s.putBw { c with wbits := x.wbits, acc := x.acc }).respond .ok).commit c.buf c.lOut x.cells

/-- BW.PUT_ULEB128 (41_uleb128.md R87): the partial byte is zero-padded, and the varint starts at the next byte. -/
def execBwPutUleb128 (x : Word32) (s : State) : Host.Outcome State Fault Refusal :=
  s.onBw fun c =>
    if c.flushed then .next s.refuse
    else
      let p := ceil8 c.wbits
      let e := ulebEncode x.toNat
      if c.lOut < p + e.length then .next (s.respond .full)
      else
        ((s.putBw { c with wbits := 8 * (p + e.length), acc := 0 }).respond .ok).commit c.buf c.lOut
          (c.partialCell ++ cellsFrom p e)

/-- BW.FLUSH (R71). -/
def execBwFlush (s : State) : Host.Outcome State Fault Refusal :=
  s.onBw fun c =>
    ((s.putBw { c with flushed := true }).respond .ok (resultOf (ceil8 c.wbits))).commit c.buf c.lOut c.partialCell

/-- BW.BYTES_WRITTEN (R72): the partial byte counts. -/
def execBwBytesWritten (s : State) : Host.Outcome State Fault Refusal :=
  s.onBw fun c => .next (s.respond .ok (resultOf (ceil8 c.wbits)))

/-- BW.CLEAR (R73): no byte is written, and the bytes already written hold no value the model may rely on. -/
def execBwClear (s : State) : Host.Outcome State Fault Refusal :=
  s.onBw fun c => .next (((s.take c.buf).putBw (BwCore.fresh c.buf c.lOut)).respond .ok)

end Sys2Proof.Machine
end

