-- ==== Sys2Proof/Machine/Wire.lean ====
section
/-! DEFINITION. The run headers of the wire format as the decoder takes them up: 43_run_frame_parser.md R129 to R135.
A header is fetched from the decoder's input at its bit position and decoded (Decode.lean); what it then does to
the look-ahead is the meaning of WIRE.REPEATED_RUN and of WIRE.LITERAL_RUN. -/

namespace Sys2Proof.Machine

/-- `Die(S, reason)` (R129): the bit position stays. The one place where a decoder becomes DEAD. -/
def DecCore.die (c : DecCore) (reason : DeadReason) : DecCore := { c with run := .dead, deadReason := reason }

/-- `PadPolicy(val)` (R133); none where the decoder dies. -/
def padPolicy (policy : PadPolicy) (w value : Nat) : Option Nat :=
  if value < 2 ^ w then some value
  else
    match policy with
    | .raw => some value
    | .mask => some (value % 2 ^ w)
    | .malformed => none

/-- A repeated run's header of `len` bytes and count `count` at the decoder's bit position (R130 to R133). -/
def DecCore.takeRepeatedRun (policy : PadPolicy) (rd : Nat → Byte) (count len : Nat) (c : DecCore) : DecCore :=
  let q := c.rbits / 8 + len
  if count = 0 then c.die .zero
  else if Config.maxCount < count then c.die .overflow
  else if c.lIn < q + cb c.w then c.die .truncated
  else
    match padPolicy policy c.w (leNumber (bytesFrom rd q (cb c.w))) with
    | none => c.die .overflow
    | some value =>
      { c with rbits := 8 * (q + cb c.w), run := .rep (BitVec.ofNat 64 value) count }

/-- A literal run's header of `len` bytes and `groups` groups at the decoder's bit position (R130, R134). The payload's
length is not checked here. -/
def DecCore.takeLiteralRun (groups len : Nat) (c : DecCore) : DecCore :=
  if groups = 0 then c.die .zero
  else if Config.maxCount < 8 * groups then c.die .overflow
  else if 1 ≤ c.w ∧ (2 ^ 32 - 1) / c.w < 8 * groups then c.die .overflow
  else { c with rbits := 8 * (c.rbits / 8 + len), run := .lit (8 * groups) }

/-- What a decoded run does to the decoder. -/
def DecCore.takeRun (policy : PadPolicy) (rd : Nat → Byte) (i : Instr) (c : DecCore) : DecCore :=
  match i with
  | .wireRepeatedRun count len => c.takeRepeatedRun policy rd count.toNat len
  | .wireLiteralRun groups len => c.takeLiteralRun groups.toNat len
  | _ => c

/-- Fetch the run header at the decoder's bit position (R129). -/
def DecCore.fetchRun (rd : Nat → Byte) (c : DecCore) : Except Reject Instr :=
  decode (.wire (varintWindow rd c.lIn (c.rbits / 8)))

/-- A header that is no instruction (R129, R135): the reason is END where no byte is left for it. -/
def DecCore.rejectRun (why : Reject) (c : DecCore) : DecCore :=
  match why with
  | .headerCutOff => c.die (if c.rbits / 8 = c.lIn then .endOfInput else .truncated)
  | _ => c.die .uleb

/-- `ParseHeader(S)` (R129). -/
def DecCore.parseHeader (policy : PadPolicy) (rd : Nat → Byte) (c : DecCore) : DecCore :=
  match c.fetchRun rd with
  | .ok i => c.takeRun policy rd i
  | .error why => c.rejectRun why

/-- `if S.run = EMPTY: ParseHeader(S)`, the first line of the decoder's accessors (R136 to R140). -/
def DecCore.lookAhead (policy : PadPolicy) (rd : Nat → Byte) (c : DecCore) : DecCore :=
  if c.run = .empty then c.parseHeader policy rd else c

/-- WIRE.REPEATED_RUN (R131). A header is taken up only while the look-ahead is EMPTY (R129); nothing is returned. -/
def execWireRepeatedRun (count : BitVec 31) (len : Nat) (s : State) : Host.Outcome State Fault Refusal :=
  s.onDec fun c =>
    if c.run = .empty then
      .next (s.putDec (c.takeRepeatedRun s.params.padPolicy (s.readByte c.buf) count.toNat len))
    else .next s

/-- WIRE.LITERAL_RUN (R134). A header is taken up only while the look-ahead is EMPTY (R129); nothing is returned. -/
def execWireLiteralRun (groups : BitVec 31) (len : Nat) (s : State) : Host.Outcome State Fault Refusal :=
  s.onDec fun c =>
    if c.run = .empty then .next (s.putDec (c.takeLiteralRun groups.toNat len)) else .next s

end Sys2Proof.Machine
end

