-- ==== Sys2Proof/Machine/Decoder.lean ====
section
/-! DEFINITION. The decoder's commands: 43_run_frame_parser.md R126 to R128, R136 to R144. -/

namespace Sys2Proof.Machine

/-! ### Delivering values -/

/-- `run` after one value of it was taken (R136). -/
def Run.afterOne : Run → Run
  | .rep value rem => if rem = 1 then .empty else .rep value (rem - 1)
  | .lit rem => if rem = 1 then .empty else .lit (rem - 1)
  | .empty => .empty
  | .dead => .dead

/-- `TakeOne(S)` (R136); none for FALSE. -/
def DecCore.takeOne (policy : PadPolicy) (rd : Nat → Byte) (c : DecCore) : DecCore × Option Word64 :=
  let c' := c.lookAhead policy rd
  match c'.run with
  | .empty => (c', none)
  | .dead => (c', none)
  | .rep value _ => ({ c' with run := c'.run.afterOne }, some value)
  | .lit _ =>
    if 8 * c'.lIn < c'.rbits + c'.w then (c'.die .truncated, none)
    else
      ({ c' with rbits := c'.rbits + c'.w, run := c'.run.afterOne },
        some (BitVec.ofNat 64 (inField rd c'.rbits c'.w)))

/-- Take values until there are `n`, or the first FALSE (R142). -/
def DecCore.takeMany (policy : PadPolicy) (rd : Nat → Byte) : Nat → DecCore → DecCore × List Word64
  | 0, c => (c, [])
  | n + 1, c =>
    match c.takeOne policy rd with
    | (c', none) => (c', [])
    | (c', some v) =>
      let r := DecCore.takeMany policy rd n c'
      (r.1, v :: r.2)

/-- As `takeMany` with the values discarded and counted (R143). -/
def DecCore.skipMany (policy : PadPolicy) (rd : Nat → Byte) : Nat → DecCore → DecCore × Nat
  | 0, c => (c, 0)
  | n + 1, c =>
    match c.takeOne policy rd with
    | (c', none) => (c', 0)
    | (c', some _) =>
      let r := DecCore.skipMany policy rd n c'
      (r.1, r.2 + 1)

/-- The remaining count of a repeated run, else 0 (R137). -/
def Run.repeats : Run → Nat
  | .rep _ rem => rem
  | _ => 0

/-- The remaining count of a literal run, else 0 (R138). -/
def Run.literals : Run → Nat
  | .lit rem => rem
  | _ => 0

/-! ### Construction -/

/-- The decoder after construction (R127), over a buffer of the given version. -/
def DecCore.fresh (buf version w lIn : Nat) : DecCore :=
  { buf := buf, version := version, w := w, lIn := lIn, rbits := 0, run := .empty, deadReason := .none }

/-- What DEC.NEW and DEC.RESET do (R127, R128): no byte is read. The buffer of a bit writer or an encoder that has not
been flushed is refused (93_implementation_defined.md U6; log entry 18). -/
def constructDec (lIn : Word32) (w : Word7) (s : State) : Host.Outcome State Fault Refusal :=
  s.whenAddressed .dec <|
    if decNewLegal s.params lIn w && !s.inUse s.port.buffer then
      .next ((s.putDec
        (DecCore.fresh s.port.buffer (s.buf s.port.buffer).version w.toNat lIn.toNat)).respond .ok)
    else .next s.refuse

/-- DEC.NEW (R127). -/
def execDecNew (lIn : Word32) (w : Word7) (s : State) : Host.Outcome State Fault Refusal := constructDec lIn w s

/-- DEC.RESET (R128): the effect of DEC.NEW on the same unit, whatever its state. -/
def execDecReset (lIn : Word32) (w : Word7) (s : State) : Host.Outcome State Fault Refusal := constructDec lIn w s

/-! ### Commands -/

/-- DEC.NEXT_NUM_REPEATS (R137). -/
def execDecNextNumRepeats (s : State) : Host.Outcome State Fault Refusal :=
  s.onDec fun c =>
    let c' := c.lookAhead s.params.padPolicy (s.readByte c.buf)
    .next ((s.putDec c').respond .ok (resultOf c'.run.repeats))

/-- DEC.NEXT_NUM_LITERALS (R138). -/
def execDecNextNumLiterals (s : State) : Host.Outcome State Fault Refusal :=
  s.onDec fun c =>
    let c' := c.lookAhead s.params.padPolicy (s.readByte c.buf)
    .next ((s.putDec c').respond .ok (resultOf c'.run.literals))

/-- DEC.GET_REPEATED_VALUE (R139). -/
def execDecGetRepeatedValue (n : Word32) (s : State) : Host.Outcome State Fault Refusal :=
  s.onDec fun c =>
    let c' := c.lookAhead s.params.padPolicy (s.readByte c.buf)
    match c'.run with
    | .dead => .next ((s.putDec c').respond .ok (resultOf 0))
    | .rep value rem =>
      if rem < n.toNat then .next s.refuse
      else
        .next ((s.putDec { c' with run := if n.toNat = rem then .empty else .rep value (rem - n.toNat) }).respond .ok
          (some value))
    | .empty => .next s.refuse
    | .lit _ => .next s.refuse

/-- DEC.GET_LITERAL_VALUES (R140): FALSE only where the payload is cut off, or the decoder is DEAD. -/
def execDecGetLiteralValues (n : Word32) (s : State) : Host.Outcome State Fault Refusal :=
  s.onDec fun c =>
    let c' := c.lookAhead s.params.padPolicy (s.readByte c.buf)
    if c'.run = .dead then .next ((s.putDec c').respond .isFalse)
    else if c'.run.literals < n.toNat then .next s.refuse
    else
      let r := c'.takeMany s.params.padPolicy (s.readByte c.buf) n.toNat
      .next ((s.putDec r.1).respond (if r.2.length = n.toNat then .ok else .isFalse) none r.2)

/-- DEC.GET_SINGLE_VALUE (R141). -/
def execDecGetSingleValue (s : State) : Host.Outcome State Fault Refusal :=
  s.onDec fun c =>
    match c.takeOne s.params.padPolicy (s.readByte c.buf) with
    | (c', none) => .next ((s.putDec c').respond .isFalse)
    | (c', some v) => .next ((s.putDec c').respond .ok (some v))

/-- DEC.GET_VALUES (R142). -/
def execDecGetValues (n : Word32) (s : State) : Host.Outcome State Fault Refusal :=
  s.onDec fun c =>
    let r := c.takeMany s.params.padPolicy (s.readByte c.buf) n.toNat
    .next ((s.putDec r.1).respond .ok (resultOf r.2.length) r.2)

/-- DEC.SKIP_VALUES (R143). -/
def execDecSkipValues (n : Word32) (s : State) : Host.Outcome State Fault Refusal :=
  s.onDec fun c =>
    let r := c.skipMany s.params.padPolicy (s.readByte c.buf) n.toNat
    .next ((s.putDec r.1).respond .ok (resultOf r.2))

/-! ### The host's parse event, and placing a run -/

/-- What the parse event finds: a run to perform, nothing to do because the look-ahead is not EMPTY, or a state in
which no run was found. -/
inductive Parse where
  | run (i : Instr)
  | done (s : State)
  deriving DecidableEq, Repr

/-- The addressed decoder's header parse on its own (R129; log entry 7). -/
def State.parse (s : State) : Parse :=
  match (s.dec s.port.target.id).ready with
  | none => .done s.refuse
  | some c =>
    if (s.buf c.buf).changedSince c.version c.lIn then .done s.refuse
    else if c.run ≠ .empty then .done s
    else
      match c.fetchRun (s.readByte c.buf) with
      | .ok i => .run i
      | .error why => .done (s.putDec (c.rejectRun why))

/-- The input bytes of a run, in the buffer at the port, under a decoder of `W = 1` constructed over them. -/
def State.placeRun (s : State) (bytes : List Byte) : State :=
  let s' := s.writeCells s.port.buffer (cellsFrom 0 bytes)
  s'.setDec s.port.target.id
    (Slot.running (DecCore.fresh s.port.buffer (s'.buf s.port.buffer).version 1 bytes.length))

end Sys2Proof.Machine
end

