-- ==== Sys2Proof/Machine/Encoder.lean ====
section
/-! DEFINITION. The encoder: 42_rle_literal_classifier.md R96 to R116. The helper procedures act on a working copy of
the encoder and its pending byte writes, which ENC.PUT and ENC.FLUSH commit or discard. -/

namespace Sys2Proof.Machine

/-! ### Helper procedures -/

/-- A working copy of the encoder and its pending byte writes. -/
structure Draft where
  enc : EncCore
  cells : List Host.Cell
  deriving DecidableEq, Repr

/-- Pending writes at `wpos`, which moves past them. -/
def Draft.append (d : Draft) (bytes : List Byte) : Draft :=
  { enc := { d.enc with wpos := d.enc.wpos + bytes.length }
    cells := d.cells ++ cellsFrom d.enc.wpos bytes }

/-- `Σ_{i<8} zext(vals[i][W−1:0]) << (i·W)` (40_bit_packer_unpacker.md R75). -/
def packNumber (w : Nat) : List Word64 → Nat
  | [] => 0
  | v :: vs => v.toNat % 2 ^ w + 2 ^ w * packNumber w vs

/-- `PackOctet(vals, W)`: the little-endian bytes of that number (40_bit_packer_unpacker.md R75). -/
def packOctet (w : Nat) (vals : List Word64) : List Byte := leBytes w (packNumber w vals)

/-- `UnpackOctet(bytes, W)`: the 8 lanes of an octet (40_bit_packer_unpacker.md R80). -/
def unpackOctet (w : Nat) (bytes : List Byte) : List Word64 :=
  (List.range 8).map fun i => BitVec.ofNat 64 (inField (fun j => bytes.getD j 0) (i * w) w)

/-- Header reservation (R101): a byte is taken at `wpos`, and written only when the run closes. -/
def Draft.reserveHeader (d : Draft) : Draft :=
  if d.enc.litOpen then d
  else
    { d with enc := { d.enc with
        litHdrPos := d.enc.wpos, wpos := d.enc.wpos + 1, litOpen := true, litGroups := 0 } }

/-- `CloseLiteral(S)` (R103). -/
def Draft.closeLiteral (d : Draft) : Draft :=
  if d.enc.litOpen then
    { enc := { d.enc with litOpen := false, litGroups := 0 }
      cells := d.cells ++ [(d.enc.litHdrPos, BitVec.ofNat 8 (2 * d.enc.litGroups + 1))] }
  else d

/-- `lit_groups <- lit_groups + 1`, and the run closes at 63 (R102). -/
def Draft.countGroup (d : Draft) : Draft :=
  let d' : Draft := { d with enc := { d.enc with litGroups := d.enc.litGroups + 1 } }
  if d'.enc.litGroups = Config.maxLiteralGroups then d'.closeLiteral else d'

/-- `CommitOctet(S, vals)` (R102). -/
def Draft.commitOctet (d : Draft) (vals : List Word64) : Draft :=
  (d.reserveHeader.append (packOctet d.enc.w vals)).countGroup

/-- `EmitRepeated(S, val, c)` (R104). -/
def Draft.emitRepeated (d : Draft) (value : Word64) (count : Nat) : Draft :=
  (d.append (ulebEncode (2 * count))).append (leBytes (cb d.enc.w) value.toNat)

/-- `AllEqual(B)` (R105). -/
def allEqual : List Word64 → Bool
  | [] => true
  | v :: vs => vs.all fun x => x == v

/-- While `B` holds 8 values or more and `more B`, commit its first 8 as an octet. `fuel` bounds the rounds; each
takes 8 values from `B`, so the length of `B` is enough. -/
def Draft.commitWhile (more : List Word64 → Bool) : (fuel : Nat) → Draft → Draft
  | 0, d => d
  | fuel + 1, d =>
    if decide (8 ≤ d.enc.staged.length) && more d.enc.staged then
      let d' := d.commitOctet (d.enc.staged.take 8)
      Draft.commitWhile more fuel { d' with enc := { d'.enc with staged := d.enc.staged.drop 8 } }
    else d

/-- The part of `Step` for a value that goes into the staging buffer (R106, R107, R108). -/
def Draft.stage (d : Draft) (v : Word64) : Draft :=
  let staged := d.enc.staged ++ [v]
  if staged.length = d.enc.t && allEqual staged then
    let d' := d.closeLiteral
    { d' with enc := { d'.enc with mode := .repeating, repValue := v, repCount := d.enc.t, staged := [] } }
  else
    Draft.commitWhile (fun b => !allEqual b) staged.length { d with enc := { d.enc with staged := staged } }

/-- `Step(S, v)` (R106, R109, R110). -/
def Draft.step (d : Draft) (v : Word64) : Draft :=
  match d.enc.mode with
  | .repeating =>
    if v = d.enc.repValue ∧ d.enc.repCount < Config.maxCount then
      { d with enc := { d.enc with repCount := d.enc.repCount + 1 } }
    else
      let d' := d.emitRepeated d.enc.repValue d.enc.repCount
      Draft.stage { d' with enc := { d'.enc with mode := .staging, repCount := 0 } } v
  | .staging => d.stage v

/-- `FlushBytes(S)` (R113). -/
def EncCore.flushBytes (e : EncCore) : Nat :=
  if e.idle then 0
  else
    match e.mode with
    | .repeating => ulebLen (2 * e.repCount) + cb e.w
    | .staging =>
      let k := ceil8 e.staged.length
      k * e.w + ((e.litGroups + k + 62) / 63 - (e.litGroups + 62) / 63)

/-- The tail of ENC.FLUSH in STAGING mode: whole octets, then the last values padded with zeros (R114). -/
def Draft.flushStaged (d : Draft) : Draft :=
  let d' := Draft.commitWhile (fun _ => true) d.enc.staged.length d
  let tail := d'.enc.staged
  if tail.length = 0 then d'
  else
    let d'' := d'.commitOctet (tail ++ List.replicate (8 - tail.length) 0)
    { d'' with enc := { d''.enc with staged := [] } }

/-- What ENC.FLUSH does to an encoder that is not idle (R114). -/
def Draft.flush (d : Draft) : Draft :=
  let d' :=
    match d.enc.mode with
    | .repeating =>
      let x := d.emitRepeated d.enc.repValue d.enc.repCount
      { x with enc := { x.enc with mode := .staging, repCount := 0 } }
    | .staging => d.flushStaged
  let d'' := d'.closeLiteral
  { d'' with enc := { d''.enc with idle := true } }

/-- The reset values of 10_state.md R23 and R38, with the two values these leave unspecified: what ENC.NEW and
ENC.CLEAR do to the fields beside the configuration (R97, R116). -/
def EncCore.cleared (e : EncCore) (repValue : Word64) (litHdrPos : Nat) : EncCore :=
  { e with
    mode := .staging, staged := [], repValue := repValue, repCount := 0, litOpen := false, litHdrPos := litHdrPos
    litGroups := 0, wpos := 0, idle := false }

/-- The encoder's state after construction (R97) and, with the same configuration, after ENC.CLEAR (R116). -/
def EncCore.fresh (buf w m lOut : Nat) (repValue : Word64) (litHdrPos : Nat) : EncCore :=
  { buf := buf, w := w, m := m, t := threshold m, lOut := lOut, mode := .staging, staged := [], repValue := repValue
    repCount := 0, litOpen := false, litHdrPos := litHdrPos, litGroups := 0, wpos := 0, idle := false }

/-- What `rep_value` holds after ENC.NEW or ENC.CLEAR over a buffer: a free value (10_state.md R23, R38). -/
def State.freshRepValue (s : State) (buf : Nat) : Word64 := Config.freeRepValue buf (s.buf buf).epoch

/-- So for `lit_hdr_pos`. -/
def State.freshHdrPos (s : State) (buf : Nat) : Nat := (Config.freeHdrPos buf (s.buf buf).epoch).toNat

/-! ### Commands -/

/-- ENC.NEW (R97, R98). -/
def execEncNew (lOut : Word32) (w m : Word7) (s : State) : Host.Outcome State Fault Refusal :=
  s.whenAddressed .enc <|
    if encNewLegal s.params lOut w m then
      .next (((s.take s.port.buffer).putEnc
        (EncCore.fresh s.port.buffer w.toNat m.toNat lOut.toNat (s.freshRepValue s.port.buffer)
          (s.freshHdrPos s.port.buffer))).respond .ok)
    else .next s.refuse

/-- ENC.PUT (R111, R112, R115). -/
def execEncPut (value : Word64) (s : State) : Host.Outcome State Fault Refusal :=
  s.onEnc fun e =>
    if e.idle || !valueFits e.w value then .next s.refuse
    else
      let d := Draft.step { enc := e, cells := [] } value
      if e.lOut < d.enc.wpos + d.enc.flushBytes then .next (s.respond .full)
      else ((s.putEnc d.enc).respond .ok).commit e.buf e.lOut d.cells

/-- ENC.FLUSH (R114, R115). -/
def execEncFlush (s : State) : Host.Outcome State Fault Refusal :=
  s.onEnc fun e =>
    if e.idle then .next (s.respond .ok (resultOf e.wpos))
    else
      let d := Draft.flush { enc := e, cells := [] }
      ((s.putEnc d.enc).respond .ok (resultOf d.enc.wpos)).commit e.buf e.lOut d.cells

/-- ENC.CLEAR (R116): no byte is written, and the bytes of an earlier stream hold no value the model may rely on. -/
def execEncClear (s : State) : Host.Outcome State Fault Refusal :=
  s.onEnc fun e =>
    .next (((s.take e.buf).putEnc (e.cleared (s.freshRepValue e.buf) (s.freshHdrPos e.buf))).respond .ok)

/-- ENC.MIN_BUFFER_SIZE (R99): allowed in every state of an encoder. -/
def execEncMinBufferSize (w : Word7) (s : State) : Host.Outcome State Fault Refusal :=
  s.whenAddressed .enc <|
    if widthLegal w then .next (s.respond .ok (resultOf (minBufferSize w.toNat))) else .next s.refuse

/-- ENC.MAX_BUFFER_SIZE (R100): allowed in every state of an encoder. -/
def execEncMaxBufferSize (w : Word7) (n : Word32) (s : State) : Host.Outcome State Fault Refusal :=
  s.whenAddressed .enc <|
    if widthLegal w then .next (s.respond .ok (resultOf (maxBufferSize w.toNat n.toNat))) else .next s.refuse

end Sys2Proof.Machine
end

