-- ==== Sys2Proof/Machine/Dispatch.lean ====
section
/-! DEFINITION. One arm per instruction, each a direct call of its meaning. -/

namespace Sys2Proof.Machine

def exec (i : Instr) (s : State) : Host.Outcome State Fault Refusal :=
  match i with
  -- bit writer (40_bit_packer_unpacker.md, 41_uleb128.md)
  | .bwInit lOut => Sys2Proof.Machine.execBwInit lOut s
  | .bwPutValue value w => Sys2Proof.Machine.execBwPutValue value w s
  | .bwPutUleb128 x => Sys2Proof.Machine.execBwPutUleb128 x s
  | .bwFlush => Sys2Proof.Machine.execBwFlush s
  | .bwBytesWritten => Sys2Proof.Machine.execBwBytesWritten s
  | .bwClear => Sys2Proof.Machine.execBwClear s
  -- bit reader (40_bit_packer_unpacker.md, 41_uleb128.md)
  | .brInit lIn => Sys2Proof.Machine.execBrInit lIn s
  | .brGetValue w => Sys2Proof.Machine.execBrGetValue w s
  | .brGetUleb128 => Sys2Proof.Machine.execBrGetUleb128 s
  | .brSkipBits k => Sys2Proof.Machine.execBrSkipBits k s
  | .brAlignToByte => Sys2Proof.Machine.execBrAlignToByte s
  -- encoder (42_rle_literal_classifier.md)
  | .encNew lOut w m => Sys2Proof.Machine.execEncNew lOut w m s
  | .encPut value => Sys2Proof.Machine.execEncPut value s
  | .encFlush => Sys2Proof.Machine.execEncFlush s
  | .encClear => Sys2Proof.Machine.execEncClear s
  | .encMinBufferSize w => Sys2Proof.Machine.execEncMinBufferSize w s
  | .encMaxBufferSize w n => Sys2Proof.Machine.execEncMaxBufferSize w n s
  -- decoder (43_run_frame_parser.md)
  | .decNew lIn w => Sys2Proof.Machine.execDecNew lIn w s
  | .decReset lIn w => Sys2Proof.Machine.execDecReset lIn w s
  | .decNextNumRepeats => Sys2Proof.Machine.execDecNextNumRepeats s
  | .decNextNumLiterals => Sys2Proof.Machine.execDecNextNumLiterals s
  | .decGetRepeatedValue n => Sys2Proof.Machine.execDecGetRepeatedValue n s
  | .decGetLiteralValues n => Sys2Proof.Machine.execDecGetLiteralValues n s
  | .decGetSingleValue => Sys2Proof.Machine.execDecGetSingleValue s
  | .decGetValues n => Sys2Proof.Machine.execDecGetValues n s
  | .decSkipValues n => Sys2Proof.Machine.execDecSkipValues n s
  -- the wire format's runs, as the decoder takes them up (43_run_frame_parser.md R129)
  | .wireRepeatedRun count len => Sys2Proof.Machine.execWireRepeatedRun count len s
  | .wireLiteralRun groups len => Sys2Proof.Machine.execWireLiteralRun groups len s

end Sys2Proof.Machine
end

