-- ==== Sys2Proof/Machine/Step.lean ====
section
/-! DEFINITION. One step: the next entry of the host's list (70_reset_and_hazards.md R202). Commands take effect one
after another in the order the host issues them, each whole (20_memory.md R46, R50). -/

namespace Sys2Proof.Machine

/-- A word that is no command is refused (30_encoding.md R64, 60_exceptions.md R178 case 1). -/
def step (s : State) : Host.Outcome State Fault Refusal :=
  match s.pending with
  | [] => .fault .endOfRun
  | .command target buffer word :: rest =>
    let s' := s.present rest target buffer
    match decode (.command word) with
    | .ok i => exec i s'
    | .error _ => .next s'.refuse
  | .parse id :: rest =>
    let s' := s.present rest { kind := .dec, id := id } s.port.buffer
    match s'.parse with
    | .run i => exec i s'
    | .done t => .next t
  | .load buffer index bytes :: rest => .next (s.hostLoad rest buffer index bytes)

/-- The state in which the next step fetches the word `w`: a command stands at the head of the host's list,
addressed to a unit of its own kind; a run header stands at the start of the input of a decoder whose parse is at
the head of the list. -/
def State.withFetchWord (s : State) (nbits w : Nat) : State :=
  match fetchedOfTableWord nbits w with
  | .command word =>
    let kind := (unitOfOp word.op).getD s.port.target.kind
    { s with pending := .command { kind := kind, id := s.port.target.id } s.port.buffer word :: s.pending }
  | .wire bytes =>
    let s' := s.placeRun bytes
    { s' with pending := .parse s.port.target.id :: s'.pending }

end Sys2Proof.Machine
end

