-- ==== Sys2Proof/Machine/Pseudo.lean ====
section
/-! DEFINITION. The pseudo-commands of 30_encoding.md R66, each defined by its expansion into commands, and runs of one
command by which the spec states its equivalences (43_run_frame_parser.md R148) and its properties of whole
encodings (42_rle_literal_classifier.md R118, R119, R122). -/

namespace Sys2Proof.Machine

/-- The status of the last response. -/
def State.status (s : State) : Option Status := s.response.map fun r => r.status

/-- `ENC.PUTN v, k` (R66): `k` successive `ENC.PUT v`, stopping at the first that returns FULL. -/
def putN (v : Word64) : Nat → State → Host.Outcome State Fault Refusal
  | 0, s => .next s
  | k + 1, s =>
    match execEncPut v s with
    | .next t => if t.status = some .full then .next t else putN v k t
    | o => o

/-- One ENC.PUT for each value, all of which are accepted; none as soon as one is not. -/
def putAll : List Word64 → State → Option State
  | [], s => some s
  | v :: vs, s =>
    match execEncPut v s with
    | .next t => if t.status = some .ok then putAll vs t else none
    | _ => none

/-- `n` successive DEC.GET_SINGLE_VALUE, stopping at the first FALSE, with the values they deliver (R66, R148); none if
one does not complete or is refused. -/
def singles : Nat → State → Option (State × List Word64)
  | 0, s => some (s, [])
  | n + 1, s =>
    match execDecGetSingleValue s with
    | .next t =>
      match t.response with
      | some { status := .ok, result := some v, values := _ } =>
        (singles n t).map fun r => (r.1, v :: r.2)
      | some { status := .isFalse, result := _, values := _ } => some (t, [])
      | _ => none
    | _ => none

end Sys2Proof.Machine
end

