-- ==== Sys2Proof/Safety.lean ====
section
/-! DEFINITION. What a good state is, in the terms claims use: the ranges and relations 10_state.md gives the state's
fields (R22 to R37), the canonical form of the lists, and what it means that a step keeps the rest of the state. -/

namespace Sys2Proof.Machine

/-! ### The units' invariants -/

/-- 10_state.md R22, R27: the position is inside the buffer, and the accumulator holds zeros above its bits. -/
def BwCore.ok (p : Params) (c : BwCore) : Bool :=
  decide (c.lOut ≤ p.maxBufferLen) && decide (ceil8 c.wbits ≤ c.lOut) && decide (c.acc.toNat < 2 ^ (c.wbits % 8))

/-- 10_state.md R22, R28. -/
def BrCore.ok (p : Params) (c : BrCore) : Bool :=
  decide (c.lIn ≤ p.maxBufferLen) && decide (c.rbits ≤ 8 * c.lIn)

/-- The encoder's configuration: 10_state.md R22, 42_rle_literal_classifier.md R97, R98. -/
def EncCore.configOk (p : Params) (e : EncCore) : Bool :=
  decide (e.w ≤ 64) && decide (e.m % 8 = 0) && decide (e.m ≤ p.maxRunLengthBuffer) && decide (e.t = threshold e.m)
    && decide (minBufferSize e.w ≤ e.lOut) && decide (e.lOut ≤ p.maxBufferLen)

/-- The mode and the staging buffer: 10_state.md R24, R25; 42_rle_literal_classifier.md R117. -/
def EncCore.modeOk (e : EncCore) : Bool :=
  match e.mode with
  | .staging =>
    decide (e.repCount = 0)
      && (decide (e.staged.length ≤ 7) || (allEqual e.staged && decide (e.staged.length < e.t)))
  | .repeating =>
    decide (e.staged = []) && decide (e.litOpen = false) && decide (e.idle = false) && valueFits e.w e.repValue
      && decide (e.t ≤ e.repCount) && decide (e.repCount ≤ Config.maxCount)

/-- An open literal run has its header byte inside the output, and 1 to 62 octets between commands; without one
`lit_groups` is 0 (10_state.md R23; 42_rle_literal_classifier.md R101 to R103). -/
def EncCore.litOk (e : EncCore) : Bool :=
  decide (e.litHdrPos < 2 ^ 31) && (e.litOpen == decide (1 ≤ e.litGroups))
    && decide (e.litGroups < Config.maxLiteralGroups) && (!e.litOpen || decide (e.litHdrPos < e.wpos))

/-- The encoder's invariant. Its last clause is 10_state.md R37. -/
def EncCore.ok (p : Params) (e : EncCore) : Bool :=
  e.configOk p && e.modeOk && e.litOk && e.staged.all (fun v => valueFits e.w v)
    && (!e.idle || (decide (e.staged = []) && decide (e.litOpen = false)))
    && decide (e.wpos + e.flushBytes ≤ e.lOut)

/-- The look-ahead: 10_state.md R31, R32. -/
def DecCore.runOk (c : DecCore) : Bool :=
  match c.run with
  | .empty => decide (c.rbits % 8 = 0)
  | .rep _ rem => decide (1 ≤ rem) && decide (rem ≤ Config.maxCount) && decide (c.rbits % 8 = 0)
  | .lit rem =>
    decide (1 ≤ rem) && decide (rem + 7 ≤ Config.maxCount) && decide ((c.rbits + rem * c.w) % 8 = 0)
  | .dead => true

/-- 10_state.md R22, R29 to R33; `dead_reason` says something exactly when the decoder is DEAD. -/
def DecCore.ok (p : Params) (c : DecCore) : Bool :=
  decide (c.w ≤ 64) && decide (c.lIn ≤ p.maxBufferLen) && decide (c.rbits ≤ 8 * c.lIn) && c.runOk
    && (decide (c.run = .dead) == decide (c.deadReason ≠ .none))

/-! ### The machine's invariant -/

/-- `ok` holds of the unit's state, where there is one. -/
def Slot.all {α : Type} (ok : α → Bool) (u : Slot α) : Bool :=
  match u.core with
  | none => true
  | some c => ok c

/-- A list of units is in canonical form, and every unit in it is good. -/
def slotsOk {α : Type} [DecidableEq α] (ok : α → Bool) (m : List (Nat × Slot α)) : Bool :=
  Sparse.wf Slot.unbuilt m && m.all fun e => e.2.all ok

/-- No bit reader and no decoder was constructed after more changes of its buffer than the buffer has seen. -/
def State.versionsOk (s : State) : Bool :=
  (s.brs.all fun e => e.2.all fun c => decide (c.version ≤ (s.buf c.buf).version))
    && s.decs.all fun e => e.2.all fun c => decide (c.version ≤ (s.buf c.buf).version)

/-- The invariant of the machine: legal parameters, the canonical form of every list, every unit good. -/
def State.inv (s : State) : Bool :=
  s.params.legal && s.mem.wf && slotsOk (BwCore.ok s.params) s.bws && slotsOk (BrCore.ok s.params) s.brs
    && slotsOk (EncCore.ok s.params) s.encs && slotsOk (DecCore.ok s.params) s.decs && s.versionsOk

/-- No unit carries the `refused` mark; a run that ends otherwise makes no claim about the block
(70_reset_and_hazards.md R202). -/
def State.unmarked (s : State) : Bool :=
  s.bws.all (fun e => !e.2.refused) && s.brs.all (fun e => !e.2.refused) && s.encs.all (fun e => !e.2.refused)
    && s.decs.all (fun e => !e.2.refused)

/-! ### A unit that may perform a command -/

/-- The command is addressed to a bit writer that is constructed, is not marked and is in the state `c`
(60_exceptions.md R178 cases 2 and 3), and has its output buffer to itself (93_implementation_defined.md U6). So for
the encoder. -/
abbrev State.runsBw (s : State) (c : BwCore) : Prop :=
  s.port.target.kind = .bw ∧ (s.bw s.port.target.id).ready = some c ∧ s.holds c.buf = true

abbrev State.runsEnc (s : State) (e : EncCore) : Prop :=
  s.port.target.kind = .enc ∧ (s.enc s.port.target.id).ready = some e ∧ s.holds e.buf = true

/-- So for the bit reader and the decoder, whose input buffer must not have changed since construction
(60_exceptions.md R178 case 10). -/
abbrev State.runsBr (s : State) (c : BrCore) : Prop :=
  s.port.target.kind = .br ∧ (s.br s.port.target.id).ready = some c
    ∧ (s.buf c.buf).changedSince c.version c.lIn = false

abbrev State.runsDec (s : State) (c : DecCore) : Prop :=
  s.port.target.kind = .dec ∧ (s.dec s.port.target.id).ready = some c
    ∧ (s.buf c.buf).changedSince c.version c.lIn = false

/-- The addressed unit is constructed, is not marked and is in the state `c`. -/
abbrev State.bwIs (s : State) (c : BwCore) : Prop := s.bw s.port.target.id = Slot.running c
abbrev State.brIs (s : State) (c : BrCore) : Prop := s.br s.port.target.id = Slot.running c
abbrev State.encIs (s : State) (e : EncCore) : Prop := s.enc s.port.target.id = Slot.running e
abbrev State.decIs (s : State) (c : DecCore) : Prop := s.dec s.port.target.id = Slot.running c

/-! ### What is kept -/

/-- Everything but the memory, the addressed unit and the response is as before (10_state.md R20: no unit reads or
writes another's state). -/
def State.othersKept (s t : State) : Prop :=
  t.params = s.params ∧ t.pending = s.pending ∧ t.port = s.port
    ∧ (∀ id, s.port.target ≠ { kind := .bw, id := id } → t.bw id = s.bw id)
    ∧ (∀ id, s.port.target ≠ { kind := .br, id := id } → t.br id = s.br id)
    ∧ (∀ id, s.port.target ≠ { kind := .enc, id := id } → t.enc id = s.enc id)
    ∧ (∀ id, s.port.target ≠ { kind := .dec, id := id } → t.dec id = s.dec id)

/-- For a reader of the first `n` bytes of buffer `b`, whenever it was constructed, its input counts as changed where
it did before. -/
def State.inputKept (s t : State) (b n : Nat) : Prop :=
  ∀ version, (t.buf b).changedSince version n = (s.buf b).changedSince version n

/-- Who holds buffer `b`, and which bytes of its output the host has spoilt, is as before. -/
def State.holdKept (s t : State) (b : Nat) : Prop :=
  (t.buf b).holder = (s.buf b).holder ∧ (t.buf b).spoilt = (s.buf b).spoilt

/-- Everything of buffer `b` is as before: its holder, every byte, and for no reader does the input count as changed. -/
def State.bufferKept (s t : State) (b : Nat) : Prop :=
  s.holdKept t b ∧ (∀ n, s.inputKept t b n) ∧ ∀ i, t.readByte b i = s.readByte b i

/-- So of every buffer. -/
def State.bytesKept (s t : State) : Prop := ∀ b, s.bufferKept t b

/-- Every byte reads as before but those of buffer `b` for which `written` holds, and only for a reader whose input
such a byte may lie in does the input count as changed by it; no buffer's holder changes. -/
def State.bytesKeptBut (s t : State) (b : Nat) (written : Nat → Prop) : Prop :=
  (∀ b', b' ≠ b → s.bufferKept t b')
    ∧ s.holdKept t b
    ∧ (∀ n, (∀ i, written i → n ≤ i) → s.inputKept t b n)
    ∧ ∀ i, ¬ written i → t.readByte b i = s.readByte b i

/-- The addressed unit has taken buffer `b` for its output: it has the buffer to itself, the model may name no byte of it
(10_state.md R39), and for every reader constructed before it counts as changed (log entry 18); of the other buffers
everything is kept. -/
def State.bytesGivenUp (s t : State) (b : Nat) : Prop :=
  (∀ b', b' ≠ b → s.bufferKept t b')
    ∧ t.holds b = true
    ∧ (∀ i, (t.buf b).read? i = none)
    ∧ ∀ version n, version ≤ (s.buf b).version → (t.buf b).changedSince version n = true

/-- The response is `(status, R, values)`. -/
def State.answers (t : State) (status : Status) (result : Option Word64) (values : List Word64) : Prop :=
  t.response = some { status := status, result := result, values := values }

/-- A bit of a writer's output stream (10_state.md R27): a bit of a whole byte is in the buffer, one of the byte being
filled in the accumulator. -/
def State.writerBit (s : State) (c : BwCore) (j : Nat) : Nat :=
  if j / 8 < c.wbits / 8 then inBit (s.readByte c.buf) j else c.acc.toNat / 2 ^ (j % 8) % 2

/-! ### Where octets go -/

/-- The byte index at which octet `q` begins, counted from 0, of the octets an encoder commits one after another from
the state `e` on: each takes `W` bytes, and a header byte is taken before the first of each literal run opened
(42_rle_literal_classifier.md R101, R102, R113). -/
def EncCore.octetStart (e : EncCore) (q : Nat) : Nat :=
  e.wpos + q * e.w + ((e.litGroups + (q + 1) + 62) / 63 - (e.litGroups + 62) / 63)

/-- What `lit_hdr_pos` is after `n` octets committed from the state `e` on: the header byte of the literal run that the
last of them goes into, which is the run open in `e` while its groups stay at 63 or below, and else a run of which
octet `63 * ((G + n - 1) / 63) - G` is the first. -/
def EncCore.headerOf (e : EncCore) (n : Nat) : Nat :=
  if n = 0 ∨ (e.litOpen = true ∧ e.litGroups + n ≤ 63) then e.litHdrPos
  else e.octetStart (63 * ((e.litGroups + n - 1) / 63) - e.litGroups) - 1

/-- The encoder `e` with its first `n` octets committed: `staged` is what is then staged. -/
def EncCore.afterOctets (e : EncCore) (n : Nat) (staged : List Word64) : EncCore :=
  { e with
    staged := staged, litOpen := decide ((e.litGroups + n) % 63 ≠ 0), litHdrPos := e.headerOf n
    litGroups := (e.litGroups + n) % 63
    wpos := e.wpos + n * e.w + ((e.litGroups + n + 62) / 63 - (e.litGroups + 62) / 63) }

/-- The output holds the first `n` octets of `vals`, padded with zeros, committed from `e` on: bit `b` of the value in
lane `i` is stream bit `i·W + b` of its octet (40_bit_packer_unpacker.md R75); and the header byte of each literal run
that reached 63 groups with one of them (R102, R103). -/
def State.holdsOctets (t : State) (e : EncCore) (vals : List Word64) (n : Nat) : Prop :=
  (∀ q i b, q < n → i < 8 → b < e.w →
    inBit (t.readByte e.buf) (8 * e.octetStart q + i * e.w + b) = (vals.getD (8 * q + i) 0).toNat / 2 ^ b % 2)
    ∧ ∀ q, q < n → (e.litGroups + q + 1) % 63 = 0 → (t.readByte e.buf (e.headerOf (q + 1))).toNat = 127

/-- The output holds a repeated run's header and its value from byte `p` on (42_rle_literal_classifier.md R104). -/
def State.holdsRepeatedRun (t : State) (buf p w : Nat) (value : Word64) (count : Nat) : Prop :=
  (∀ k, k < ulebLen (2 * count) → t.readByte buf (p + k) = (ulebEncode (2 * count)).getD k 0)
    ∧ ∀ k, k < (w + 7) / 8 →
        (t.readByte buf (p + ulebLen (2 * count) + k)).toNat = value.toNat / 2 ^ (8 * k) % 256

end Sys2Proof.Machine
end

