-- ==== Sys2Proof/Certificates/Slice0/Obligations.lean ====
section
/-! DEFINITION. The statements for the provers. Each says, in its comment, which rule of spec/ it formalises. A frame is
said by `State.othersKept` (every other unit, the parameters, the list and the port), by `bytesKept` and its kin
(every byte of every buffer, through `State.readByte`, whether a reader's input counts as changed, and who holds the
buffer), and by giving the addressed unit's whole new state. -/

open Sys2Proof Sys2Proof.Machine

/-! ### Encodings and steps -/

/-- Words written out from 30_encoding.md R63 and from the examples of 95_test_vectors.md decode to their
instructions, and malformed headers (R60) are rejected by name. -/
def Obligations.WrittenOutWordsDecode : Prop :=
  decode (.command { op := 0x10, a := 0, b := 3, c := 0 }) = .ok (.bwInit 3)
    ∧ decode (.command { op := 0x11, a := 5, b := 0, c := 3 }) = .ok (.bwPutValue 5 3)
    ∧ decode (.command { op := 0x22, a := 0, b := 0, c := 0 }) = .ok .brGetUleb128
    ∧ decode (.command { op := 0x30, a := 48, b := 16, c := 1 }) = .ok (.encNew 16 1 48)
    ∧ decode (.command { op := 0x35, a := 0, b := 100, c := 1 }) = .ok (.encMaxBufferSize 1 100)
    ∧ decode (.command { op := 0x47, a := 0, b := 100, c := 0 }) = .ok (.decGetValues 100)
    ∧ decode (.wire [0x64, 0x00]) = .ok (.wireRepeatedRun 50 1)
    ∧ decode (.wire [0x1B, 0xAA]) = .ok (.wireLiteralRun 13 1)
    ∧ decode (.wire [0x82, 0x00, 0x05]) = .ok (.wireRepeatedRun 1 2)
    ∧ decode (.command { op := 0x16, a := 0, b := 0, c := 0 }) = .error (.illegalOpcode 0x16)
    ∧ decode (.command { op := 0x50, a := 0, b := 0, c := 0 }) = .error (.noSuchUnit 0x50)
    ∧ decode (.wire [0x80]) = .error .headerCutOff
    ∧ decode (.wire [0xFF, 0xFF, 0xFF, 0xFF, 0x1F]) = .error .headerMalformed

/-- Decoding the encoding of a well-formed instruction gives it back: every command with every operand (30_encoding.md
R61 to R63), and every run header with every count and with every length its varint may have (R53, R57). -/
def Obligations.EncodedInstructionsDecodeBack : Prop :=
  ∀ i : Instr, i.wf = true → decode (encode i) = .ok i

/-- R64 with 60_exceptions.md R178 cases 1 and 2: a word with an opcode that R63 does not list is refused, whatever the
unit it is sent to; and so is an instruction whose unit is of another kind. That the mark goes to the unit the word was
sent to, also where the unit number is none of 1 to 4, is the model's reading (log entry 11); and so is that a run header
is an instruction of the decoder (log entries 7 and 17). -/
def Obligations.IllegalAndMisdirectedCommandsAreRefused : Prop :=
  (∀ (s : State) (target : Target) (buffer : Nat) (word : CmdWord) (rest : List Event),
    s.pending = .command target buffer word :: rest →
    word.op.toNat ∉ [0x10, 0x11, 0x12, 0x13, 0x14, 0x15, 0x20, 0x21, 0x22, 0x23, 0x24, 0x30, 0x31, 0x32, 0x33, 0x34,
      0x35, 0x40, 0x41, 0x42, 0x43, 0x44, 0x45, 0x46, 0x47, 0x48] →
    step s = .next (s.present rest target buffer).refuse)
  ∧ ∀ (i : Instr) (s : State), kindOf i ≠ s.port.target.kind → exec i s = .next s.refuse

/-- A step performs the command at the head of the host's list: the word is decoded, the list moves on, and the unit
and the buffer named beside the word are presented to it (10_state.md R21, 20_memory.md R50). -/
def Obligations.StepPerformsTheDecodedCommand : Prop :=
  ∀ (s : State) (target : Target) (buffer : Nat) (word : CmdWord) (rest : List Event) (i : Instr),
    s.pending = .command target buffer word :: rest → decode (.command word) = .ok i →
    step s = exec i { s with pending := rest, port := { target := target, buffer := buffer } }

/-- The parse event (log entry 7) performs the run whose header stands at the decoder's bit position; a header that is
no instruction makes the decoder DEAD where it stands, with the reason of 43_run_frame_parser.md R129. -/
def Obligations.StepPerformsTheNextRun : Prop :=
  ∀ (s s' : State) (id : Nat) (rest : List Event) (c : DecCore),
    s.pending = .parse id :: rest →
    s' = { s with pending := rest, port := { target := { kind := .dec, id := id }, buffer := s.port.buffer } } →
    s'.runsDec c → c.run = .empty →
    (∀ i, decode (.wire (varintWindow (s.readByte c.buf) c.lIn (c.rbits / 8))) = .ok i → step s = exec i s')
    ∧ ∀ why, decode (.wire (varintWindow (s.readByte c.buf) c.lIn (c.rbits / 8))) = .error why →
        ∃ t, step s = .next t ∧ s'.othersKept t ∧ s'.bytesKept t ∧ t.response = s.response
          ∧ t.decIs { c with
              run := .dead
              deadReason :=
                if why = .headerCutOff then (if c.rbits / 8 = c.lIn then .endOfInput else .truncated) else .uleb }

/-- The run of the host's list ends when the list is exhausted (70_reset_and_hazards.md R202); a load writes its bytes
into the buffer and changes nothing else (log entry 8). A byte loaded into the output of a bit writer or an encoder, where
it did not stand already, cannot be named from then on and so is spoilt (10_state.md R39, 93_implementation_defined.md
U6; log entry 24); every other byte loaded reads as it was loaded. -/
def Obligations.ListEndsAndHostLoads : Prop :=
  (∀ s : State, s.pending = [] → step s = .fault .endOfRun)
  ∧ ∀ (s : State) (b i : Nat) (bytes : List Byte) (rest : List Event), s.pending = .load b i bytes :: rest →
      ∃ t, step s = .next t ∧ t.pending = rest ∧ t.port = s.port ∧ t.params = s.params ∧ t.response = s.response
        ∧ t.bws = s.bws ∧ t.brs = s.brs ∧ t.encs = s.encs ∧ t.decs = s.decs
        ∧ (∀ b', b' ≠ b → s.bufferKept t b')
        ∧ (t.buf b).holder = (s.buf b).holder
        ∧ (∀ n, n ≤ i → s.inputKept t b n)
        ∧ (∀ j, (j < i ∨ i + bytes.length ≤ j) → t.readByte b j = s.readByte b j)
        ∧ (∀ j, (j < i ∨ i + bytes.length ≤ j ∨ s.outputLen b ≤ j) →
            (t.buf b).spoilt.count j = (s.buf b).spoilt.count j)
        ∧ (∀ k, k < bytes.length → (s.outputLen b ≤ i + k ∨ (s.buf b).read? (i + k) = bytes[k]?) →
            t.readByte b (i + k) = bytes.getD k 0)
        ∧ ∀ k, k < bytes.length → i + k < s.outputLen b → (s.buf b).read? (i + k) ≠ bytes[k]? →
            (t.buf b).read? (i + k) = none ∧ i + k ∈ (t.buf b).spoilt

/-! ### Refusals -/

/-- What a refusal does (60_exceptions.md R178, R180): REFUSED is returned, the addressed unit's mark is set, and nothing
else changes. -/
def Obligations.RefusalOnlySetsTheMark : Prop :=
  ∀ s : State, s.refuse.answers .refused none [] ∧ s.othersKept s.refuse ∧ s.bytesKept s.refuse
    ∧ (s.port.target.kind = .bw →
        s.refuse.bw s.port.target.id = { refused := true, core := (s.bw s.port.target.id).core })
    ∧ (s.port.target.kind = .br →
        s.refuse.br s.port.target.id = { refused := true, core := (s.br s.port.target.id).core })
    ∧ (s.port.target.kind = .enc →
        s.refuse.enc s.port.target.id = { refused := true, core := (s.enc s.port.target.id).core })
    ∧ (s.port.target.kind = .dec →
        s.refuse.dec s.port.target.id = { refused := true, core := (s.dec s.port.target.id).core })

/-- R180 and R178 case 3: a unit that is marked, or not yet constructed, refuses every command but a construction command
or a capacity helper, and so stays marked. -/
def Obligations.MarkedOrUnbuiltUnitsRefuse : Prop :=
  ∀ (i : Instr) (s : State), kindOf i = s.port.target.kind → isConstruction i = false → isCapacityHelper i = false →
    (s.port.target.kind = .bw → (s.bw s.port.target.id).refused = true ∨ (s.bw s.port.target.id).core = none) →
    (s.port.target.kind = .br → (s.br s.port.target.id).refused = true ∨ (s.br s.port.target.id).core = none) →
    (s.port.target.kind = .enc → (s.enc s.port.target.id).refused = true ∨ (s.enc s.port.target.id).core = none) →
    (s.port.target.kind = .dec → (s.dec s.port.target.id).refused = true ∨ (s.dec s.port.target.id).core = none) →
    exec i s = .next s.refuse

/-- R179: a construction command with an operand outside its contract is refused; the unit gets no state by it. -/
def Obligations.IllegalConstructionsAreRefused : Prop :=
  (∀ (s : State) (lOut : Word32), s.port.target.kind = .bw → s.params.maxBufferLen < lOut.toNat →
    exec (.bwInit lOut) s = .next s.refuse)
  ∧ (∀ (s : State) (lIn : Word32), s.port.target.kind = .br → s.params.maxBufferLen < lIn.toNat →
    exec (.brInit lIn) s = .next s.refuse)
  ∧ (∀ (s : State) (lOut : Word32) (w m : Word7), s.port.target.kind = .enc →
    (64 < w.toNat ∨ m.toNat % 8 ≠ 0 ∨ s.params.maxRunLengthBuffer < m.toNat
      ∨ lOut.toNat < 2 + w.toNat + (w.toNat + 7) / 8 ∨ s.params.maxBufferLen < lOut.toNat) →
    exec (.encNew lOut w m) s = .next s.refuse)
  ∧ (∀ (s : State) (lIn : Word32) (w : Word7), s.port.target.kind = .dec →
    (64 < w.toNat ∨ s.params.maxBufferLen < lIn.toNat) →
    exec (.decNew lIn w) s = .next s.refuse ∧ exec (.decReset lIn w) s = .next s.refuse)
  ∧ ∀ s : State, (s.refuse.bw s.port.target.id).core = (s.bw s.port.target.id).core
      ∧ (s.refuse.br s.port.target.id).core = (s.br s.port.target.id).core
      ∧ (s.refuse.enc s.port.target.id).core = (s.enc s.port.target.id).core
      ∧ (s.refuse.dec s.port.target.id).core = (s.dec s.port.target.id).core

/-- R178 case 10, R198: once the input of a bit reader or a decoder has changed, every command to it but a construction is
refused (log entry 9). A step after which a byte of the input reads otherwise is such a change, whether the host loads
the byte or a bit writer or an encoder writes or takes the buffer (R200, log entry 18); a load at or above `L_in` is not,
since those bytes are not of the input. 93_implementation_defined.md U6, 20_memory.md R52: a bit writer or an encoder that
has not its output to itself, because the host has changed a byte of it or another unit has taken the buffer, refuses every
command but a construction or a capacity helper (log entries 18 and 24). Every step but a command to itself, after which a
byte of its output reads otherwise or can no longer be named, is such a change. -/
def Obligations.ChangedInputIsRefused : Prop :=
  (∀ (i : Instr) (s : State) (c : BrCore), kindOf i = .br → isConstruction i = false → s.port.target.kind = .br →
    (s.br s.port.target.id).ready = some c → (s.buf c.buf).changedSince c.version c.lIn = true →
    exec i s = .next s.refuse)
  ∧ (∀ (i : Instr) (s : State) (c : DecCore), kindOf i = .dec → isConstruction i = false → s.port.target.kind = .dec →
    (s.dec s.port.target.id).ready = some c → (s.buf c.buf).changedSince c.version c.lIn = true →
    exec i s = .next s.refuse)
  ∧ (∀ (s t : State) (b j : Nat), s.inv = true → step s = .next t → t.readByte b j ≠ s.readByte b j →
    (∀ id c, (s.br id).core = some c → c.buf = b → j < c.lIn → (t.buf b).changedSince c.version c.lIn = true)
    ∧ ∀ id c, (s.dec id).core = some c → c.buf = b → j < c.lIn → (t.buf b).changedSince c.version c.lIn = true)
  ∧ (∀ (s t : State) (b i : Nat) (bytes : List Byte) (rest : List Event) (n : Nat),
    s.pending = .load b i bytes :: rest → step s = .next t → n ≤ i → s.inputKept t b n)
  ∧ (∀ (i : Instr) (s : State) (c : BwCore), kindOf i = .bw → isConstruction i = false → s.port.target.kind = .bw →
    (s.bw s.port.target.id).core = some c →
    ((s.buf c.buf).holder ≠ some s.port.target ∨ (s.buf c.buf).spoilt ≠ []) → exec i s = .next s.refuse)
  ∧ (∀ (i : Instr) (s : State) (e : EncCore), kindOf i = .enc → isConstruction i = false → isCapacityHelper i = false →
    s.port.target.kind = .enc → (s.enc s.port.target.id).core = some e →
    ((s.buf e.buf).holder ≠ some s.port.target ∨ (s.buf e.buf).spoilt ≠ []) → exec i s = .next s.refuse)
  ∧ ∀ (s t : State) (u : Target) (b j : Nat), step s = .next t → (s.buf b).holder = some u → j < s.outputLen b →
      (∀ buffer word rest, s.pending ≠ .command u buffer word :: rest) →
      (t.readByte b j ≠ s.readByte b j ∨ (t.buf b).read? j ≠ (s.buf b).read? j) →
      (t.buf b).holder ≠ some u ∨ (t.buf b).spoilt ≠ []

/-- R84 and R115: after a flush and before a clear, the writing commands are refused; the flush itself and
BW.BYTES_WRITTEN stay allowed. -/
def Obligations.WritesAfterFlushAreRefused : Prop :=
  (∀ (s : State) (c : BwCore), s.runsBw c → c.flushed = true →
    (∀ value w, exec (.bwPutValue value w) s = .next s.refuse) ∧ (∀ x, exec (.bwPutUleb128 x) s = .next s.refuse)
    ∧ (c.ok s.params = true → ∃ t u, exec .bwFlush s = .next t ∧ exec .bwBytesWritten s = .next u
        ∧ t.status = some .ok ∧ u.status = some .ok ∧ t.bwIs c ∧ u.bwIs c))
  ∧ ∀ (s : State) (e : EncCore), s.runsEnc e → e.idle = true → ∀ v, exec (.encPut v) s = .next s.refuse

/-- R112 with R181: a value that is not below 2^W is refused, even by an encoder that is full. -/
def Obligations.ValuesAboveTheWidthAreRefused : Prop :=
  ∀ (s : State) (e : EncCore) (v : Word64), s.runsEnc e → e.w < 64 → 2 ^ e.w ≤ v.toNat →
    exec (.encPut v) s = .next s.refuse

/-! ### The bit writer -/

/-- R69: BW.INIT constructs the writer over the buffer named beside it, whatever the unit's state was, and writes no byte;
the writer then has the buffer to itself (20_memory.md R52), and the model may name no byte of it (10_state.md R39, log
entry 2). For every reader constructed before over
the buffer this counts as a change of its input, which is the model's reading (log entry 18). -/
def Obligations.WriterIsConstructed : Prop :=
  ∀ (s : State) (lOut : Word32), s.port.target.kind = .bw → lOut.toNat ≤ s.params.maxBufferLen →
    ∃ t, exec (.bwInit lOut) s = .next t ∧ t.answers .ok none [] ∧ s.othersKept t ∧ s.bytesGivenUp t s.port.buffer
      ∧ t.bwIs { buf := s.port.buffer, lOut := lOut.toNat, wbits := 0, acc := 0, flushed := false }

/-- R70 with R41, R74, R82, R83: BW.PUT_VALUE appends the `W` low bits of the value, the lowest first, to the output
stream, or refuses, or answers FULL with nothing changed. -/
def Obligations.PutValueAppendsTheLowBits : Prop :=
  ∀ (s : State) (c : BwCore) (value : Word64) (w : Word7), s.runsBw c → c.ok s.params = true →
    ((64 < w.toNat ∨ c.flushed = true) → exec (.bwPutValue value w) s = .next s.refuse)
    ∧ (w.toNat ≤ 64 → c.flushed = false → c.lOut < (c.wbits + w.toNat + 7) / 8 →
        ∃ t, exec (.bwPutValue value w) s = .next t ∧ t.answers .full none [] ∧ s.othersKept t ∧ s.bytesKept t
          ∧ t.bwIs c)
    ∧ (w.toNat ≤ 64 → c.flushed = false → (c.wbits + w.toNat + 7) / 8 ≤ c.lOut →
        ∃ t acc, exec (.bwPutValue value w) s = .next t ∧ t.answers .ok none [] ∧ s.othersKept t
          ∧ t.bwIs { c with wbits := c.wbits + w.toNat, acc := acc }
          ∧ acc.toNat < 2 ^ ((c.wbits + w.toNat) % 8)
          ∧ (∀ j, j < c.wbits →
              t.writerBit { c with wbits := c.wbits + w.toNat, acc := acc } j = s.writerBit c j)
          ∧ (∀ i, i < w.toNat →
              t.writerBit { c with wbits := c.wbits + w.toNat, acc := acc } (c.wbits + i)
                = value.toNat / 2 ^ i % 2)
          ∧ s.bytesKeptBut t c.buf (fun i => c.wbits / 8 ≤ i ∧ i < (c.wbits + w.toNat) / 8))

/-- R74 and R171: a write is FULL exactly when it would need a byte, the partial one included, at an index not below
`L_out`; it then changes no state and no byte. Otherwise it succeeds. -/
def Obligations.WriterIsFullExactlyAtItsCapacity : Prop :=
  ∀ (s : State) (c : BwCore), s.runsBw c → c.ok s.params = true → c.flushed = false →
    (∀ (value : Word64) (w : Word7), w.toNat ≤ 64 → ∃ t, exec (.bwPutValue value w) s = .next t
      ∧ (t.status = some .full ↔ c.lOut < (c.wbits + w.toNat + 7) / 8)
      ∧ (t.status = some .full ∨ t.status = some .ok)
      ∧ (t.status = some .full → t.bwIs c ∧ s.othersKept t ∧ s.bytesKept t))
    ∧ ∀ x : Word32, ∃ t, exec (.bwPutUleb128 x) s = .next t
      ∧ (t.status = some .full ↔ c.lOut < (c.wbits + 7) / 8 + ulebLen x.toNat)
      ∧ (t.status = some .full ∨ t.status = some .ok)
      ∧ (t.status = some .full → t.bwIs c ∧ s.othersKept t ∧ s.bytesKept t)

/-- R87 with R86: BW.PUT_ULEB128 pads the partial byte with zeros and writes the varint's bytes after it. -/
def Obligations.PutUlebAppendsTheVarint : Prop :=
  ∀ (s : State) (c : BwCore) (x : Word32) (p : Nat), s.runsBw c → c.ok s.params = true → p = (c.wbits + 7) / 8 →
    (c.flushed = true → exec (.bwPutUleb128 x) s = .next s.refuse)
    ∧ (c.flushed = false → c.lOut < p + (ulebEncode x.toNat).length →
        ∃ t, exec (.bwPutUleb128 x) s = .next t ∧ t.answers .full none [] ∧ s.othersKept t ∧ s.bytesKept t ∧ t.bwIs c)
    ∧ (c.flushed = false → p + (ulebEncode x.toNat).length ≤ c.lOut →
        ∃ t, exec (.bwPutUleb128 x) s = .next t ∧ t.answers .ok none [] ∧ s.othersKept t
          ∧ t.bwIs { c with wbits := 8 * (p + (ulebEncode x.toNat).length), acc := 0 }
          ∧ (c.wbits % 8 ≠ 0 → t.readByte c.buf (p - 1) = c.acc)
          ∧ (∀ k, k < (ulebEncode x.toNat).length → t.readByte c.buf (p + k) = (ulebEncode x.toNat).getD k 0)
          ∧ s.bytesKeptBut t c.buf (fun i => c.wbits / 8 ≤ i ∧ i < p + (ulebEncode x.toNat).length))

/-- R71, R72: BW.FLUSH writes the partial byte, zero-padded, and returns the number of bytes; BW.BYTES_WRITTEN returns
the same number and changes nothing. -/
def Obligations.FlushCommitsThePartialByte : Prop :=
  ∀ (s : State) (c : BwCore), s.runsBw c → s.params.legal = true → c.ok s.params = true →
    (∃ t r, exec .bwFlush s = .next t ∧ t.answers .ok (some r) [] ∧ r.toNat = (c.wbits + 7) / 8
      ∧ s.othersKept t ∧ t.bwIs { c with flushed := true }
      ∧ (c.wbits % 8 ≠ 0 → t.readByte c.buf (c.wbits / 8) = c.acc)
      ∧ s.bytesKeptBut t c.buf (fun i => c.wbits % 8 ≠ 0 ∧ i = c.wbits / 8))
    ∧ ∃ t r, exec .bwBytesWritten s = .next t ∧ t.answers .ok (some r) [] ∧ r.toNat = (c.wbits + 7) / 8
      ∧ s.othersKept t ∧ s.bytesKept t ∧ t.bwIs c

/-- R73: BW.CLEAR returns the writer to its state just after BW.INIT with the same `L_out`, and writes no byte; the model
may then name no byte of the buffer (10_state.md R39, log entry 2). For every reader constructed before over the buffer
this counts as a change of its input, which is the model's reading (log entry 18). -/
def Obligations.WriterIsCleared : Prop :=
  ∀ (s : State) (c : BwCore), s.runsBw c →
    ∃ t, exec .bwClear s = .next t ∧ t.answers .ok none [] ∧ s.othersKept t ∧ s.bytesGivenUp t c.buf
      ∧ t.bwIs { c with wbits := 0, acc := 0, flushed := false }

/-- 40_bit_packer_unpacker.md R70, R71, R77 together with R40, R41: a field put by a bit writer, flushed, and read by a
bit reader at the same bit position of the same buffer is the field's low bits. -/
def Obligations.PutThenGetReturnsTheField : Prop :=
  ∀ (s : State) (c : BwCore) (value : Word64) (w : Word7) (reader : Nat) (lIn : Word32),
    s.runsBw c → c.ok s.params = true → s.params.legal = true → c.flushed = false → w.toNat ≤ 64 →
    (c.wbits + w.toNat + 7) / 8 ≤ c.lOut → (c.wbits + w.toNat + 7) / 8 ≤ lIn.toNat →
    lIn.toNat ≤ s.params.maxBufferLen →
    ∃ t u v x y r, exec (.bwPutValue value w) s = .next t ∧ exec .bwFlush t = .next u
      ∧ exec (.brInit lIn) { u with port := { target := { kind := .br, id := reader }, buffer := c.buf } } = .next v
      ∧ exec (.brSkipBits (BitVec.ofNat 64 c.wbits)) v = .next x ∧ exec (.brGetValue w) x = .next y
      ∧ y.answers .ok (some r) [] ∧ r.toNat = value.toNat % 2 ^ w.toNat

/-! ### The bit reader -/

/-- R76: BR.INIT constructs the reader over the buffer named beside it, whatever the unit's state was; a length above
MAX_BUFFER_LEN is refused, and so is the buffer of a bit writer or an encoder that has not been flushed
(93_implementation_defined.md U6, R200; that it is the construction that is refused is the model's reading, log entry 18).
That BR.INIT is performed for a reader whose input has changed, which R178 case 10 does not except, is the model's reading
too (log entry 9). -/
def Obligations.ReaderIsConstructed : Prop :=
  ∀ (s : State) (lIn : Word32), s.port.target.kind = .br →
    (s.params.maxBufferLen < lIn.toNat → exec (.brInit lIn) s = .next s.refuse)
    ∧ (∀ id c, (s.buf s.port.buffer).holder = some { kind := .bw, id := id } → (s.bw id).core = some c →
      c.buf = s.port.buffer → c.flushed = false → exec (.brInit lIn) s = .next s.refuse)
    ∧ (∀ id e, (s.buf s.port.buffer).holder = some { kind := .enc, id := id } → (s.enc id).core = some e →
      e.buf = s.port.buffer → e.idle = false → exec (.brInit lIn) s = .next s.refuse)
    ∧ (lIn.toNat ≤ s.params.maxBufferLen →
      (∀ id c, (s.buf s.port.buffer).holder = some { kind := .bw, id := id } → (s.bw id).core = some c →
        c.buf = s.port.buffer → c.flushed = true) →
      (∀ id e, (s.buf s.port.buffer).holder = some { kind := .enc, id := id } → (s.enc id).core = some e →
        e.buf = s.port.buffer → e.idle = true) →
      ∃ t, exec (.brInit lIn) s = .next t ∧ t.answers .ok none [] ∧ s.othersKept t ∧ s.bytesKept t
        ∧ t.brIs { buf := s.port.buffer, version := (s.buf s.port.buffer).version, lIn := lIn.toNat, rbits := 0 })

/-- R77 with R40, R82, R83: BR.GET_VALUE reads the `W`-bit field at the bit position, or refuses, or answers END and
consumes nothing. -/
def Obligations.GetValueReadsTheField : Prop :=
  ∀ (s : State) (c : BrCore) (w : Word7), s.runsBr c →
    (64 < w.toNat → exec (.brGetValue w) s = .next s.refuse)
    ∧ (w.toNat ≤ 64 → 8 * c.lIn < c.rbits + w.toNat →
        ∃ t, exec (.brGetValue w) s = .next t ∧ t.answers .endOfInput none [] ∧ s.othersKept t ∧ s.bytesKept t
          ∧ t.brIs c)
    ∧ (w.toNat ≤ 64 → c.rbits + w.toNat ≤ 8 * c.lIn →
        ∃ t v, exec (.brGetValue w) s = .next t ∧ t.answers .ok (some v) [] ∧ s.othersKept t ∧ s.bytesKept t
          ∧ t.brIs { c with rbits := c.rbits + w.toNat }
          ∧ v.toNat < 2 ^ w.toNat
          ∧ ∀ i, i < w.toNat → v.toNat / 2 ^ i % 2 = inBit (s.readByte c.buf) (c.rbits + i))

/-- R78, R79: BR.SKIP_BITS advances `k` bits or answers END and consumes nothing; BR.ALIGN_TO_BYTE advances to the next
byte boundary and stays inside the input. -/
def Obligations.SkipAndAlignMoveThePosition : Prop :=
  ∀ (s : State) (c : BrCore), s.runsBr c → c.ok s.params = true →
    (∀ k : Word64, 8 * c.lIn < c.rbits + k.toNat →
      ∃ t, exec (.brSkipBits k) s = .next t ∧ t.answers .endOfInput none [] ∧ s.othersKept t ∧ s.bytesKept t
        ∧ t.brIs c)
    ∧ (∀ k : Word64, c.rbits + k.toNat ≤ 8 * c.lIn →
      ∃ t, exec (.brSkipBits k) s = .next t ∧ t.answers .ok none [] ∧ s.othersKept t ∧ s.bytesKept t
        ∧ t.brIs { c with rbits := c.rbits + k.toNat })
    ∧ ∃ t q, exec .brAlignToByte s = .next t ∧ t.answers .ok none [] ∧ s.othersKept t ∧ s.bytesKept t
        ∧ t.brIs { c with rbits := q } ∧ q % 8 = 0 ∧ c.rbits ≤ q ∧ q < c.rbits + 8 ∧ q ≤ 8 * c.lIn

/-- 41_uleb128.md R90 with R89, R91, R92, R94: BR.GET_ULEB128 reads the varint at the next byte boundary: its value where
it has at most 5 bytes and is below 2^32, ERR where it is longer or larger, END where the input ends inside it; a
failed read consumes nothing. -/
def Obligations.GetUlebReadsTheVarint : Prop :=
  ∀ (s : State) (c : BrCore) (p : Nat), s.runsBr c → p = (c.rbits + 7) / 8 →
    (∀ n, 1 ≤ n → n ≤ 5 → p + n ≤ c.lIn →
      (∀ i, i + 1 < n → 128 ≤ (s.readByte c.buf (p + i)).toNat) → (s.readByte c.buf (p + (n - 1))).toNat < 128 →
      (((List.range n).map fun i => (s.readByte c.buf (p + i)).toNat % 128 * 2 ^ (7 * i)).sum < 2 ^ 32 →
        ∃ t r, exec .brGetUleb128 s = .next t ∧ t.answers .ok (some r) [] ∧ s.othersKept t ∧ s.bytesKept t
          ∧ t.brIs { c with rbits := 8 * (p + n) }
          ∧ r.toNat = ((List.range n).map fun i => (s.readByte c.buf (p + i)).toNat % 128 * 2 ^ (7 * i)).sum)
      ∧ (2 ^ 32 ≤ ((List.range n).map fun i => (s.readByte c.buf (p + i)).toNat % 128 * 2 ^ (7 * i)).sum →
        ∃ t, exec .brGetUleb128 s = .next t ∧ t.answers .err none [] ∧ s.othersKept t ∧ s.bytesKept t ∧ t.brIs c))
    ∧ (p + 5 ≤ c.lIn → (∀ i, i < 5 → 128 ≤ (s.readByte c.buf (p + i)).toNat) →
        ∃ t, exec .brGetUleb128 s = .next t ∧ t.answers .err none [] ∧ s.othersKept t ∧ s.bytesKept t ∧ t.brIs c)
    ∧ (c.lIn < p + 5 → (∀ i, p + i < c.lIn → 128 ≤ (s.readByte c.buf (p + i)).toNat) →
        ∃ t, exec .brGetUleb128 s = .next t ∧ t.answers .endOfInput none [] ∧ s.othersKept t ∧ s.bytesKept t
          ∧ t.brIs c)

/-- R95 with R86, R88: every 32-bit value comes back from its own encoding, whatever follows it, in `uleb_len` bytes; and a
run header takes one byte exactly when its count is at most 63. -/
def Obligations.VarintsRoundTrip : Prop :=
  (∀ (x : Nat) (rest : List Byte), x < 2 ^ 32 →
    ulebDecode (ulebEncode x ++ rest) = .ok x (ulebLen x) ∧ (ulebEncode x).length = ulebLen x)
  ∧ ∀ c v, v < 2 → (ulebLen (2 * c + v) = 1 ↔ c ≤ 63)

/-! ### The encoder -/

/-- R97: ENC.NEW within its contract (R98) constructs the encoder over the buffer named beside it, whatever the unit's
state was, with threshold max(8, m), and writes no byte; the encoder then has the buffer to itself (20_memory.md R52), and
the model may name no byte of it (10_state.md R39, log entry 2). `rep_value` and `lit_hdr_pos` hold some value (R38, log entry 14). For every reader constructed before over the
buffer this counts as a change of its input, which is the model's reading (log entry 18). -/
def Obligations.EncoderIsConstructed : Prop :=
  ∀ (s : State) (lOut : Word32) (w m : Word7), s.port.target.kind = .enc → w.toNat ≤ 64 → m.toNat % 8 = 0 →
    m.toNat ≤ s.params.maxRunLengthBuffer → 2 + w.toNat + (w.toNat + 7) / 8 ≤ lOut.toNat →
    lOut.toNat ≤ s.params.maxBufferLen →
    ∃ t repValue hdrPos, exec (.encNew lOut w m) s = .next t ∧ t.answers .ok none [] ∧ s.othersKept t
      ∧ s.bytesGivenUp t s.port.buffer ∧ hdrPos < 2 ^ 31
      ∧ t.encIs { buf := s.port.buffer, w := w.toNat, m := m.toNat, t := max 8 m.toNat, lOut := lOut.toNat
                  mode := .staging, staged := [], repValue := repValue, repCount := 0
                  litOpen := false, litHdrPos := hdrPos, litGroups := 0, wpos := 0, idle := false }

/-- R99, R100: the capacity helpers answer in every state of an encoder, constructed or not, marked or not, and change
nothing; a width above 64 is refused. -/
def Obligations.CapacityHelpersAnswerInEveryState : Prop :=
  ∀ (s : State) (w : Word7), s.port.target.kind = .enc →
    (64 < w.toNat → exec (.encMinBufferSize w) s = .next s.refuse
      ∧ ∀ n, exec (.encMaxBufferSize w n) s = .next s.refuse)
    ∧ (w.toNat ≤ 64 →
        (∃ t r, exec (.encMinBufferSize w) s = .next t ∧ t.answers .ok (some r) []
          ∧ r.toNat = 2 + w.toNat + (w.toNat + 7) / 8 ∧ t = { s with response := t.response })
        ∧ ∀ n : Word32, ∃ t r, exec (.encMaxBufferSize w n) s = .next t ∧ t.answers .ok (some r) []
          ∧ r.toNat = (n.toNat + 7) / 8 * max (w.toNat + 1) ((w.toNat + 7) / 8 + 5)
          ∧ t = { s with response := t.response })

/-- R109: in REPEAT mode an equal value adds 1 to the count and writes nothing, while the count is below 2^31 − 1 and the
longer header still fits; where it does not fit, the answer is FULL and nothing changes. -/
def Obligations.EqualValuesAreCounted : Prop :=
  ∀ (s : State) (e : EncCore), s.runsEnc e → e.ok s.params = true → e.mode = .repeating → e.repCount < 2147483647 →
    (e.wpos + ulebLen (2 * (e.repCount + 1)) + (e.w + 7) / 8 ≤ e.lOut →
      ∃ t, exec (.encPut e.repValue) s = .next t ∧ t.answers .ok none [] ∧ s.othersKept t ∧ s.bytesKept t
        ∧ t.encIs { e with repCount := e.repCount + 1 })
    ∧ (e.lOut < e.wpos + ulebLen (2 * (e.repCount + 1)) + (e.w + 7) / 8 →
      ∃ t, exec (.encPut e.repValue) s = .next t ∧ t.answers .full none [] ∧ s.othersKept t ∧ s.bytesKept t
        ∧ t.encIs e)

/-- R110 with R104, and R109 at the largest count: a different value, or an equal one at 2^31 − 1, makes the encoder write
the counted run, header and value, and seeds the staging buffer; where what is then pending does not fit, the answer
is FULL and nothing changes. -/
def Obligations.BrokenRunIsEmitted : Prop :=
  ∀ (s : State) (e : EncCore) (v : Word64) (n : Nat), s.runsEnc e → e.ok s.params = true → e.mode = .repeating →
    (v ≠ e.repValue ∨ e.repCount = 2147483647) → valueFits e.w v = true →
    n = ulebLen (2 * e.repCount) + (e.w + 7) / 8 →
    (e.wpos + n + (e.w + 1) ≤ e.lOut →
      ∃ t, exec (.encPut v) s = .next t ∧ t.answers .ok none [] ∧ s.othersKept t
        ∧ t.encIs { e with mode := .staging, staged := [v], repCount := 0, wpos := e.wpos + n }
        ∧ t.holdsRepeatedRun e.buf e.wpos e.w e.repValue e.repCount
        ∧ s.bytesKeptBut t e.buf (fun i => e.wpos ≤ i ∧ i < e.wpos + n))
    ∧ (e.lOut < e.wpos + n + (e.w + 1) →
      ∃ t, exec (.encPut v) s = .next t ∧ t.answers .full none [] ∧ s.othersKept t ∧ s.bytesKept t ∧ t.encIs e)

/-- R108 with R106: a value that leaves the staging buffer below 8 values is staged, and nothing is written; it is
accepted exactly when the octet it would be flushed in, with a header byte if no literal run is open, still fits. -/
def Obligations.FewerThanEightValuesAreStaged : Prop :=
  ∀ (s : State) (e : EncCore) (v : Word64), s.runsEnc e → e.ok s.params = true → e.idle = false → e.mode = .staging →
    e.staged.length < 7 → valueFits e.w v = true →
    (e.wpos + e.w + (if e.litOpen = true then 0 else 1) ≤ e.lOut →
      ∃ t, exec (.encPut v) s = .next t ∧ t.answers .ok none [] ∧ s.othersKept t ∧ s.bytesKept t
        ∧ t.encIs { e with staged := e.staged ++ [v] })
    ∧ (e.lOut < e.wpos + e.w + (if e.litOpen = true then 0 else 1) →
      ∃ t, exec (.encPut v) s = .next t ∧ t.answers .full none [] ∧ s.othersKept t ∧ s.bytesKept t ∧ t.encIs e)

/-- R107 with R103, R111: when the staging buffer comes to hold exactly `T` equal values, the open literal run is closed, its
header byte written, and the values are counted in place from then on; where their header and value do not fit, the
answer is FULL and nothing changes. -/
def Obligations.ThresholdStartsARepeat : Prop :=
  ∀ (s : State) (e : EncCore) (v : Word64), s.runsEnc e → e.ok s.params = true → e.idle = false → e.mode = .staging →
    e.staged = List.replicate (max 8 e.m - 1) v → valueFits e.w v = true →
    (e.wpos + ulebLen (2 * max 8 e.m) + (e.w + 7) / 8 ≤ e.lOut →
      ∃ t, exec (.encPut v) s = .next t ∧ t.answers .ok none [] ∧ s.othersKept t
        ∧ t.encIs { e with
            mode := .repeating, repValue := v, repCount := max 8 e.m, staged := [], litOpen := false, litGroups := 0 }
        ∧ (e.litOpen = true → (t.readByte e.buf e.litHdrPos).toNat = 2 * e.litGroups + 1)
        ∧ s.bytesKeptBut t e.buf (fun i => e.litOpen = true ∧ i = e.litHdrPos))
    ∧ (e.lOut < e.wpos + ulebLen (2 * max 8 e.m) + (e.w + 7) / 8 →
      ∃ t, exec (.encPut v) s = .next t ∧ t.answers .full none [] ∧ s.othersKept t ∧ s.bytesKept t ∧ t.encIs e)

/-- R108 with R106, R102, R103, R113: in a staging buffer of `k ≥ 7` equal values, one more of them is held there while it
stays below `T`; a different value makes the encoder commit whole octets until fewer than 8 values are left, pack their
bits, close a run that reaches 63 groups and leave the last one open. Either is accepted exactly when all that is then
pending still fits; else the answer is FULL and nothing changes. -/
def Obligations.RunsBelowTheThresholdBecomeOctets : Prop :=
  ∀ (s : State) (e : EncCore) (x v : Word64) (k need j : Nat), s.runsEnc e → s.params.legal = true →
    e.ok s.params = true → e.idle = false → e.mode = .staging → e.staged = List.replicate k x → 7 ≤ k →
    (v = x → k + 1 < max 8 e.m) → valueFits e.w v = true → j = (k + 1) / 8 →
    need = (k + 8) / 8 * e.w + ((e.litGroups + (k + 8) / 8 + 62) / 63 - (e.litGroups + 62) / 63) →
    (e.lOut < e.wpos + need →
      ∃ t, exec (.encPut v) s = .next t ∧ t.answers .full none [] ∧ s.othersKept t ∧ s.bytesKept t ∧ t.encIs e)
    ∧ (v = x → e.wpos + need ≤ e.lOut →
      ∃ t, exec (.encPut v) s = .next t ∧ t.answers .ok none [] ∧ s.othersKept t ∧ s.bytesKept t
        ∧ t.encIs { e with staged := List.replicate (k + 1) x })
    ∧ (v ≠ x → e.wpos + need ≤ e.lOut →
      ∃ t, exec (.encPut v) s = .next t ∧ t.answers .ok none [] ∧ s.othersKept t
        ∧ t.encIs (e.afterOctets j ((List.replicate k x ++ [v]).drop (8 * j)))
        ∧ t.holdsOctets e (List.replicate k x ++ [v]) j
        ∧ s.bytesKeptBut t e.buf
            (fun i => (e.wpos ≤ i ∧ i < (e.afterOctets j []).wpos) ∨ (e.litOpen = true ∧ i = e.litHdrPos)))

/-- R102 with R75, R101, R103, R108: 8 staged values that are not all equal are packed into `W` bytes, lane `i` first bit at
stream bit `i·W`, after the header byte reserved if no literal run is open; at the 63rd octet the run closes. -/
def Obligations.MixedOctetIsCommitted : Prop :=
  ∀ (s : State) (e : EncCore) (v : Word64) (start groups : Nat), s.runsEnc e → e.ok s.params = true → e.idle = false →
    e.mode = .staging → e.staged.length = 7 → allEqual (e.staged ++ [v]) = false → valueFits e.w v = true →
    start = e.wpos + (if e.litOpen = true then 0 else 1) → groups = e.litGroups + 1 → start + e.w ≤ e.lOut →
    ∃ t hdr, exec (.encPut v) s = .next t ∧ t.answers .ok none [] ∧ s.othersKept t
      ∧ hdr = (if e.litOpen = true then e.litHdrPos else e.wpos)
      ∧ t.encIs { e with
          staged := [], wpos := start + e.w, litHdrPos := hdr
          litOpen := decide (groups ≠ 63), litGroups := if groups = 63 then 0 else groups }
      ∧ (groups = 63 → (t.readByte e.buf hdr).toNat = 127)
      ∧ (∀ i b, i < 8 → b < e.w →
          inBit (t.readByte e.buf) (8 * start + i * e.w + b) = ((e.staged ++ [v]).getD i 0).toNat / 2 ^ b % 2)
      ∧ s.bytesKeptBut t e.buf
          (fun i => (start ≤ i ∧ i < start + e.w) ∨ (groups = 63 ∧ i = hdr))

/-- R111, R172: an encoder that is not idle accepts a value that fits its width or answers FULL; FULL changes nothing, and
after an accepted value the encoder can still be flushed within `L_out` (10_state.md R37), has its configuration
unchanged, and has written only bytes from its old position to its new one and the header byte of the literal run. -/
def Obligations.PutIsAcceptedOrFull : Prop :=
  ∀ (s : State) (e : EncCore) (v : Word64), s.runsEnc e → s.params.legal = true → e.ok s.params = true →
    e.idle = false → valueFits e.w v = true →
    ∃ t e', exec (.encPut v) s = .next t ∧ s.othersKept t ∧ t.encIs e' ∧ e'.ok s.params = true
      ∧ ((t.answers .full none [] ∧ e' = e ∧ s.bytesKept t)
        ∨ (t.answers .ok none [] ∧ e'.wpos + e'.flushBytes ≤ e'.lOut ∧ e.wpos ≤ e'.wpos
          ∧ e'.buf = e.buf ∧ e'.w = e.w ∧ e'.m = e.m ∧ e'.t = e.t ∧ e'.lOut = e.lOut
          ∧ s.bytesKeptBut t e.buf
              (fun i => (e.wpos ≤ i ∧ i < e'.wpos) ∨ (e.litOpen = true ∧ i = e.litHdrPos))))

/-- R111: the first value after ENC.NEW or ENC.CLEAR is always accepted. -/
def Obligations.FirstValueIsAccepted : Prop :=
  ∀ (s s' : State) (e : EncCore) (v : Word64) (i : Instr), (i = .encClear ∨ ∃ lOut w m, i = .encNew lOut w m) →
    s.inv = true → exec i s = .next s' → s'.status = some .ok → s'.encIs e → valueFits e.w v = true →
    ∃ t, exec (.encPut v) s' = .next t ∧ t.answers .ok none [] ∧ s'.othersKept t ∧ s'.bytesKept t
      ∧ t.encIs { e with staged := [v] }

/-- R114 with R103, R104, R113, R115: ENC.FLUSH never answers FULL. It adds exactly `FlushBytes` bytes, returns the length of
the stream and leaves the encoder idle with nothing pending. What it writes: in REPEAT mode the counted run's header and
value; else the staged values as whole octets, the last filled up with zeros, and the header byte of every literal run
they go into, and of the run that was open. On an idle encoder it writes nothing and returns the same length. -/
def Obligations.FlushWritesExactlyFlushBytes : Prop :=
  ∀ (s : State) (e : EncCore) (k : Nat), s.runsEnc e → s.params.legal = true → e.ok s.params = true →
    k = (e.staged.length + 7) / 8 →
    ∃ t r, exec .encFlush s = .next t ∧ t.answers .ok (some r) [] ∧ s.othersKept t
      ∧ r.toNat = e.wpos + e.flushBytes
      ∧ t.encIs { e with
          mode := .staging, staged := [], repCount := 0, litOpen := false, litHdrPos := e.headerOf k, litGroups := 0
          wpos := e.wpos + e.flushBytes, idle := true }
      ∧ s.bytesKeptBut t e.buf (fun i => (e.wpos ≤ i ∧ i < e.wpos + e.flushBytes)
          ∨ (e.litOpen = true ∧ i = e.litHdrPos))
      ∧ (e.mode = .repeating → t.holdsRepeatedRun e.buf e.wpos e.w e.repValue e.repCount)
      ∧ (e.mode = .staging → t.holdsOctets e e.staged k)
      ∧ (e.mode = .staging → (e.litGroups + k) % 63 ≠ 0 →
          (t.readByte e.buf (e.headerOf k)).toNat = 2 * ((e.litGroups + k) % 63) + 1)
      ∧ (e.idle = true → s.bytesKept t)

/-- R116: ENC.CLEAR sets every field to its reset value and keeps the configuration, whatever was pending; it writes no
byte, and the model may then name no byte of the buffer (10_state.md R39, log entry 2). `rep_value` and `lit_hdr_pos`
hold some value (R38, log entry 14). For every reader constructed before over the buffer this counts as a change of its
input, which is the model's reading (log entry 18). -/
def Obligations.EncoderIsCleared : Prop :=
  ∀ (s : State) (e : EncCore), s.runsEnc e →
    ∃ t repValue hdrPos, exec .encClear s = .next t ∧ t.answers .ok none [] ∧ s.othersKept t ∧ s.bytesGivenUp t e.buf
      ∧ hdrPos < 2 ^ 31
      ∧ t.encIs { buf := e.buf, w := e.w, m := e.m, t := e.t, lOut := e.lOut
                  mode := .staging, staged := [], repValue := repValue, repCount := 0
                  litOpen := false, litHdrPos := hdrPos, litGroups := 0, wpos := 0, idle := false }

/-- R118: the stream of accepted values, flushed and decoded with the same `W`, delivers the values in order, followed by at
most 7 zeros. -/
def Obligations.EncodedValuesDecodeBack : Prop :=
  ∀ (s s1 : State) (e : EncCore) (vs : List Word64) (decoder : Nat),
    s.runsEnc e → s.params.legal = true → e.ok s.params = true →
    e = EncCore.fresh e.buf e.w e.m e.lOut e.repValue e.litHdrPos → putAll vs s = some s1 →
    ∃ s2 r s3 pad, exec .encFlush s1 = .next s2 ∧ s2.answers .ok (some r) []
      ∧ exec (.decNew (r.setWidth 32) (BitVec.ofNat 7 e.w))
          { s2 with port := { target := { kind := .dec, id := decoder }, buffer := e.buf } } = .next s3
      ∧ pad ≤ 7
      ∧ ∀ n : Word32, ∃ s4 len, exec (.decGetValues n) s3 = .next s4
          ∧ s4.answers .ok (some len) ((vs ++ List.replicate pad 0).take n.toNat)

/-- R119: the stream of N accepted values has at most MaxBufferSize(W, N) bytes. -/
def Obligations.EncodingIsBounded : Prop :=
  ∀ (s s1 : State) (e : EncCore) (vs : List Word64),
    s.runsEnc e → s.params.legal = true → e.ok s.params = true →
    e = EncCore.fresh e.buf e.w e.m e.lOut e.repValue e.litHdrPos → putAll vs s = some s1 →
    ∃ s2 r, exec .encFlush s1 = .next s2 ∧ s2.answers .ok (some r) []
      ∧ r.toNat ≤ (vs.length + 7) / 8 * max (e.w + 1) ((e.w + 7) / 8 + 5)

/-- R122: two encoders of one configuration, each fresh from ENC.NEW or from ENC.CLEAR, write the same bytes for the same
accepted values, whatever else the two states hold. -/
def Obligations.EqualValuesGiveEqualBytes : Prop :=
  ∀ (s s1 u : State) (e f : EncCore) (vs : List Word64),
    s.runsEnc e → u.runsEnc f → s.params.legal = true → e.ok s.params = true →
    e = EncCore.fresh e.buf e.w e.m e.lOut e.repValue e.litHdrPos →
    f = EncCore.fresh f.buf e.w e.m e.lOut f.repValue f.litHdrPos → putAll vs s = some s1 →
    ∃ u1 s2 u2 r, putAll vs u = some u1 ∧ exec .encFlush s1 = .next s2 ∧ exec .encFlush u1 = .next u2
      ∧ s2.answers .ok (some r) [] ∧ u2.answers .ok (some r) []
      ∧ ∀ i, i < r.toNat → u2.readByte f.buf i = s2.readByte e.buf i

/-! ### The decoder -/

/-- R127, R128: DEC.NEW and DEC.RESET construct the decoder over the buffer named beside them, whatever the unit's state
was, DEAD and refused included; the two have the same effect in every state. Operands outside the contract are refused, and
so is the buffer of a bit writer or an encoder that has not been flushed (93_implementation_defined.md U6, R200; that it is
the construction that is refused is the model's reading, log entry 18). -/
def Obligations.DecoderIsConstructed : Prop :=
  (∀ (s : State) (lIn : Word32) (w : Word7), exec (.decReset lIn w) s = exec (.decNew lIn w) s)
  ∧ (∀ (s : State) (lIn : Word32) (w : Word7), s.port.target.kind = .dec →
      (64 < w.toNat ∨ s.params.maxBufferLen < lIn.toNat ∨ s.inUse s.port.buffer = true) →
      exec (.decNew lIn w) s = .next s.refuse)
  ∧ (∀ (s : State) (id : Nat) (c : BwCore), (s.bw id).core = some c →
      (s.buf c.buf).holder = some { kind := .bw, id := id } → s.inUse c.buf = !c.flushed)
  ∧ (∀ (s : State) (id : Nat) (e : EncCore), (s.enc id).core = some e →
      (s.buf e.buf).holder = some { kind := .enc, id := id } → s.inUse e.buf = !e.idle)
  ∧ ∀ (s : State) (lIn : Word32) (w : Word7), s.port.target.kind = .dec → w.toNat ≤ 64 →
      lIn.toNat ≤ s.params.maxBufferLen → s.inUse s.port.buffer = false →
      ∃ t, exec (.decNew lIn w) s = .next t ∧ exec (.decReset lIn w) s = .next t ∧ t.answers .ok none []
        ∧ s.othersKept t ∧ s.bytesKept t
        ∧ t.decIs { buf := s.port.buffer, version := (s.buf s.port.buffer).version, w := w.toNat, lIn := lIn.toNat
                    rbits := 0, run := .empty, deadReason := .none }

/-- R131 with R130, R132, R133, R135: what a repeated run's header does to a decoder whose look-ahead is EMPTY. `len` is the
header's length in bytes and `val` the little-endian value of the payload after it. -/
def Obligations.RepeatedRunIsTakenUp : Prop :=
  ∀ (s : State) (c : DecCore) (count : BitVec 31) (len q val : Nat), s.runsDec c → c.w ≤ 64 → c.run = .empty →
    q = c.rbits / 8 + len →
    val = ((List.range ((c.w + 7) / 8)).map fun i => (s.readByte c.buf (q + i)).toNat * 2 ^ (8 * i)).sum →
    ∃ t c', exec (.wireRepeatedRun count len) s = .next t ∧ t.decIs c' ∧ s.othersKept t ∧ s.bytesKept t
      ∧ t.response = s.response
      ∧ (count = 0 → c' = { c with run := .dead, deadReason := .zero })
      ∧ (count ≠ 0 → c.lIn < q + (c.w + 7) / 8 → c' = { c with run := .dead, deadReason := .truncated })
      ∧ (count ≠ 0 → q + (c.w + 7) / 8 ≤ c.lIn → (val < 2 ^ c.w ∨ s.params.padPolicy = .raw) →
          c' = { c with
            rbits := 8 * (q + (c.w + 7) / 8), run := .rep (BitVec.ofNat 64 val) count.toNat })
      ∧ (count ≠ 0 → q + (c.w + 7) / 8 ≤ c.lIn → 2 ^ c.w ≤ val → s.params.padPolicy = .mask →
          c' = { c with
            rbits := 8 * (q + (c.w + 7) / 8), run := .rep (BitVec.ofNat 64 (val % 2 ^ c.w)) count.toNat })
      ∧ (count ≠ 0 → q + (c.w + 7) / 8 ≤ c.lIn → 2 ^ c.w ≤ val → s.params.padPolicy = .malformed →
          c' = { c with run := .dead, deadReason := .overflow })

/-- R134 with R130, R135: what a literal run's header does to a decoder whose look-ahead is EMPTY; the payload's length is
not checked. A header of either kind does nothing while the look-ahead holds a run or the decoder is DEAD (R129). -/
def Obligations.LiteralRunIsTakenUp : Prop :=
  (∀ (s : State) (c : DecCore) (groups : BitVec 31) (len : Nat), s.runsDec c → c.run = .empty →
    ∃ t c', exec (.wireLiteralRun groups len) s = .next t ∧ t.decIs c' ∧ s.othersKept t ∧ s.bytesKept t
      ∧ t.response = s.response
      ∧ (groups = 0 → c' = { c with run := .dead, deadReason := .zero })
      ∧ (groups ≠ 0 → (2 ^ 31 - 1 < 8 * groups.toNat ∨ (1 ≤ c.w ∧ (2 ^ 32 - 1) / c.w < 8 * groups.toNat)) →
          c' = { c with run := .dead, deadReason := .overflow })
      ∧ (groups ≠ 0 → 8 * groups.toNat ≤ 2 ^ 31 - 1 → (1 ≤ c.w → 8 * groups.toNat ≤ (2 ^ 32 - 1) / c.w) →
          c' = { c with rbits := 8 * (c.rbits / 8 + len), run := .lit (8 * groups.toNat) }))
  ∧ ∀ (s : State) (c : DecCore) (n : BitVec 31) (len : Nat), s.runsDec c → c.run ≠ .empty →
      exec (.wireRepeatedRun n len) s = .next s ∧ exec (.wireLiteralRun n len) s = .next s

/-- R137, R138: the accessors return the remaining count of the current run if it is of their kind, else 0, and keep it;
with an empty look-ahead they first do what the next run's header does (R129), or become DEAD if there is none. -/
def Obligations.AccessorsReportTheRun : Prop :=
  ∀ (s : State) (c : DecCore), s.runsDec c →
    ∃ c', (c.run ≠ .empty → c' = c)
      ∧ (∀ i u, c.run = .empty →
          decode (.wire (varintWindow (s.readByte c.buf) c.lIn (c.rbits / 8))) = .ok i → exec i s = .next u →
          u.decIs c')
      ∧ (∀ why, c.run = .empty →
          decode (.wire (varintWindow (s.readByte c.buf) c.lIn (c.rbits / 8))) = .error why → c'.run = .dead)
      ∧ (∃ t r, exec .decNextNumRepeats s = .next t ∧ t.answers .ok (some r) [] ∧ s.othersKept t ∧ s.bytesKept t
          ∧ t.decIs c' ∧ (∀ v rem, c'.run = .rep v rem → r = BitVec.ofNat 64 rem)
          ∧ ((∀ v rem, c'.run ≠ .rep v rem) → r = 0))
      ∧ ∃ t r, exec .decNextNumLiterals s = .next t ∧ t.answers .ok (some r) [] ∧ s.othersKept t ∧ s.bytesKept t
          ∧ t.decIs c' ∧ (∀ rem, c'.run = .lit rem → r = BitVec.ofNat 64 rem)
          ∧ ((∀ rem, c'.run ≠ .lit rem) → r = 0)

/-- R139: DEC.GET_REPEATED_VALUE on a repeated run returns its value and takes `n` of its count, the run becoming EMPTY when
`n` is all of it; above the count, and on a literal run, it is refused; in DEAD it returns 0. -/
def Obligations.RepeatedValueIsDelivered : Prop :=
  ∀ (s : State) (c : DecCore) (n : Word32), s.runsDec c →
    (∀ v rem, c.run = .rep v rem → n.toNat ≤ rem →
      ∃ t, exec (.decGetRepeatedValue n) s = .next t ∧ t.answers .ok (some v) [] ∧ s.othersKept t ∧ s.bytesKept t
        ∧ t.decIs { c with run := if n.toNat = rem then .empty else .rep v (rem - n.toNat) })
    ∧ (∀ v rem, c.run = .rep v rem → rem < n.toNat → exec (.decGetRepeatedValue n) s = .next s.refuse)
    ∧ (∀ rem, c.run = .lit rem → exec (.decGetRepeatedValue n) s = .next s.refuse)
    ∧ (c.run = .dead →
      ∃ t, exec (.decGetRepeatedValue n) s = .next t ∧ t.answers .ok (some 0) [] ∧ s.othersKept t ∧ s.bytesKept t
        ∧ t.decIs c)

/-- R140 with R136: DEC.GET_LITERAL_VALUES on a literal run delivers `n` fields of `W` bits, read one after another; where the
payload is cut off it delivers those that are whole, answers FALSE, and the decoder is DEAD; above the count, and on a
repeated run with `n` not 0, it is refused; in DEAD it answers FALSE. -/
def Obligations.LiteralValuesAreDelivered : Prop :=
  ∀ (s : State) (c : DecCore) (n : Word32), s.runsDec c → c.ok s.params = true →
    (∀ rem, c.run = .lit rem → n.toNat ≤ rem → c.rbits + n.toNat * c.w ≤ 8 * c.lIn →
      ∃ t, exec (.decGetLiteralValues n) s = .next t ∧ s.othersKept t ∧ s.bytesKept t
        ∧ t.answers .ok none
            ((List.range n.toNat).map fun k =>
              BitVec.ofNat 64 (inField (s.readByte c.buf) (c.rbits + k * c.w) c.w))
        ∧ t.decIs { c with
            rbits := c.rbits + n.toNat * c.w, run := if n.toNat = rem then .empty else .lit (rem - n.toNat) })
    ∧ (∀ rem, c.run = .lit rem → n.toNat ≤ rem → 8 * c.lIn < c.rbits + n.toNat * c.w →
      ∃ t, exec (.decGetLiteralValues n) s = .next t ∧ s.othersKept t ∧ s.bytesKept t
        ∧ t.answers .isFalse none
            ((List.range ((8 * c.lIn - c.rbits) / c.w)).map fun k =>
              BitVec.ofNat 64 (inField (s.readByte c.buf) (c.rbits + k * c.w) c.w))
        ∧ t.decIs { c with
            rbits := c.rbits + (8 * c.lIn - c.rbits) / c.w * c.w, run := .dead, deadReason := .truncated })
    ∧ (∀ rem, c.run = .lit rem → rem < n.toNat → exec (.decGetLiteralValues n) s = .next s.refuse)
    ∧ (∀ v rem, c.run = .rep v rem → n ≠ 0 → exec (.decGetLiteralValues n) s = .next s.refuse)
    ∧ (∀ v rem, c.run = .rep v rem → n = 0 →
      ∃ t, exec (.decGetLiteralValues n) s = .next t ∧ t.answers .ok none [] ∧ s.othersKept t ∧ s.bytesKept t
        ∧ t.decIs c)
    ∧ (c.run = .dead →
      ∃ t, exec (.decGetLiteralValues n) s = .next t ∧ t.answers .isFalse none [] ∧ s.othersKept t ∧ s.bytesKept t
        ∧ t.decIs c)

/-- R141 with R136: DEC.GET_SINGLE_VALUE delivers the next value, of a repeated or a literal run; where the literal payload is
cut off, or the decoder is DEAD, it answers FALSE. -/
def Obligations.SingleValueIsDelivered : Prop :=
  ∀ (s : State) (c : DecCore), s.runsDec c →
    (∀ v rem, c.run = .rep v rem →
      ∃ t, exec .decGetSingleValue s = .next t ∧ t.answers .ok (some v) [] ∧ s.othersKept t ∧ s.bytesKept t
        ∧ t.decIs { c with run := if rem = 1 then .empty else .rep v (rem - 1) })
    ∧ (∀ rem, c.run = .lit rem → c.w ≤ 64 → c.rbits + c.w ≤ 8 * c.lIn →
      ∃ t v, exec .decGetSingleValue s = .next t ∧ t.answers .ok (some v) [] ∧ s.othersKept t ∧ s.bytesKept t
        ∧ v.toNat < 2 ^ c.w ∧ (∀ b, b < c.w → v.toNat / 2 ^ b % 2 = inBit (s.readByte c.buf) (c.rbits + b))
        ∧ t.decIs { c with rbits := c.rbits + c.w, run := if rem = 1 then .empty else .lit (rem - 1) })
    ∧ (∀ rem, c.run = .lit rem → 8 * c.lIn < c.rbits + c.w →
      ∃ t, exec .decGetSingleValue s = .next t ∧ t.answers .isFalse none [] ∧ s.othersKept t ∧ s.bytesKept t
        ∧ t.decIs { c with run := .dead, deadReason := .truncated })
    ∧ (c.run = .dead →
      ∃ t, exec .decGetSingleValue s = .next t ∧ t.answers .isFalse none [] ∧ s.othersKept t ∧ s.bytesKept t
        ∧ t.decIs c)

/-- R129 with R136 to R144: with an empty look-ahead a decoder command first takes up the next run, and then does what it
does where the run was taken up before; where that is a refusal, the refusal is the only effect (log entry 10). Where no
run can be taken up, because the input ends or the header is malformed, the decoder becomes DEAD where it stands, and the
command answers 0 or FALSE and delivers no value. A bulk command with `n = 0` does not parse. -/
def Obligations.EmptyLookAheadParsesFirst : Prop :=
  (∀ (s u : State) (c : DecCore) (i : Instr), s.runsDec c → c.run = .empty →
    decode (.wire (varintWindow (s.readByte c.buf) c.lIn (c.rbits / 8))) = .ok i → exec i s = .next u →
    exec .decGetSingleValue s = exec .decGetSingleValue u ∧ exec .decNextNumRepeats s = exec .decNextNumRepeats u
      ∧ exec .decNextNumLiterals s = exec .decNextNumLiterals u
      ∧ (∀ n : Word32, n ≠ 0 → exec (.decGetValues n) s = exec (.decGetValues n) u
        ∧ exec (.decSkipValues n) s = exec (.decSkipValues n) u)
      ∧ ∀ (n : Word32) (t : State),
        (exec (.decGetRepeatedValue n) u = .next t →
          exec (.decGetRepeatedValue n) s = .next (if t.status = some .refused then s.refuse else t))
        ∧ (exec (.decGetLiteralValues n) u = .next t →
          exec (.decGetLiteralValues n) s = .next (if t.status = some .refused then s.refuse else t)))
  ∧ (∀ (s : State) (c : DecCore) (why : Reject), s.runsDec c → c.run = .empty →
    decode (.wire (varintWindow (s.readByte c.buf) c.lIn (c.rbits / 8))) = .error why →
    ∃ reason,
      (∃ t, exec .decGetSingleValue s = .next t ∧ t.answers .isFalse none [] ∧ s.othersKept t ∧ s.bytesKept t
        ∧ t.decIs { c with run := .dead, deadReason := reason })
      ∧ (∀ i ∈ [Instr.decNextNumRepeats, .decNextNumLiterals],
        ∃ t, exec i s = .next t ∧ t.answers .ok (some 0) [] ∧ s.othersKept t ∧ s.bytesKept t
          ∧ t.decIs { c with run := .dead, deadReason := reason })
      ∧ ∀ n : Word32,
        (∃ t, exec (.decGetRepeatedValue n) s = .next t ∧ t.answers .ok (some 0) [] ∧ s.othersKept t ∧ s.bytesKept t
          ∧ t.decIs { c with run := .dead, deadReason := reason })
        ∧ (∃ t, exec (.decGetLiteralValues n) s = .next t ∧ t.answers .isFalse none [] ∧ s.othersKept t
          ∧ s.bytesKept t ∧ t.decIs { c with run := .dead, deadReason := reason })
        ∧ (n ≠ 0 → ∀ i ∈ [Instr.decGetValues n, .decSkipValues n],
          ∃ t, exec i s = .next t ∧ t.answers .ok (some 0) [] ∧ s.othersKept t ∧ s.bytesKept t
            ∧ t.decIs { c with run := .dead, deadReason := reason }))
  ∧ ∀ (s : State) (c : DecCore), s.runsDec c → ∀ i ∈ [Instr.decGetValues 0, .decSkipValues 0],
      ∃ t, exec i s = .next t ∧ t.answers .ok (some 0) [] ∧ s.othersKept t ∧ s.bytesKept t ∧ t.decIs c

/-- R148, R142: DEC.GET_VALUES delivers the values, and leaves the decoder's state, of up to `n` calls of DEC.GET_SINGLE_VALUE
stopping at the first FALSE; its R is their number. -/
def Obligations.BulkReadEqualsSingleReads : Prop :=
  ∀ (s : State) (c : DecCore) (n : Word32), s.runsDec c →
    ∃ t u vs r, singles n.toNat s = some (u, vs) ∧ exec (.decGetValues n) s = .next t
      ∧ t.answers .ok (some r) vs ∧ r.toNat = vs.length ∧ t.dec s.port.target.id = u.dec s.port.target.id
      ∧ s.othersKept t ∧ s.bytesKept t

/-- R148, R143: DEC.SKIP_VALUES returns the number DEC.GET_VALUES would return and leaves the state it would leave. -/
def Obligations.SkipLeavesTheStateOfTheBulkRead : Prop :=
  ∀ (s : State) (c : DecCore) (n : Word32), s.runsDec c →
    ∃ t u vs r, exec (.decSkipValues n) s = .next t ∧ exec (.decGetValues n) s = .next u
      ∧ t.answers .ok (some r) [] ∧ u.answers .ok (some r) vs
      ∧ t.dec s.port.target.id = u.dec s.port.target.id ∧ s.othersKept t ∧ s.bytesKept t

/-- R148: reading |A| values, then |B| values, delivers what reading |A| + |B| values delivers. -/
def Obligations.BulkReadsCompose : Prop :=
  ∀ (s : State) (c : DecCore) (a b : Word32), s.runsDec c → a.toNat + b.toNat < 2 ^ 32 →
    ∃ t u v va vb ra rb rab, exec (.decGetValues a) s = .next t ∧ exec (.decGetValues b) t = .next u
      ∧ exec (.decGetValues (a + b)) s = .next v ∧ t.answers .ok (some ra) va ∧ u.answers .ok (some rb) vb
      ∧ v.answers .ok (some rab) (va ++ vb) ∧ v.dec s.port.target.id = u.dec s.port.target.id

/-- R144: DEAD is sticky. A DEAD decoder answers 0 or FALSE, delivers no value and changes no state. -/
def Obligations.DeadIsSticky : Prop :=
  ∀ (s : State) (c : DecCore), s.runsDec c → c.run = .dead →
    (∀ i ∈ [Instr.decNextNumRepeats, .decNextNumLiterals],
      ∃ t, exec i s = .next t ∧ t.answers .ok (some 0) [] ∧ t.decIs c ∧ s.othersKept t ∧ s.bytesKept t)
    ∧ (∃ t, exec .decGetSingleValue s = .next t ∧ t.answers .isFalse none [] ∧ t.decIs c ∧ s.othersKept t
      ∧ s.bytesKept t)
    ∧ ∀ n : Word32,
      (∃ t, exec (.decGetRepeatedValue n) s = .next t ∧ t.answers .ok (some 0) [] ∧ t.decIs c ∧ s.othersKept t
        ∧ s.bytesKept t)
      ∧ (∃ t, exec (.decGetLiteralValues n) s = .next t ∧ t.answers .isFalse none [] ∧ t.decIs c ∧ s.othersKept t
        ∧ s.bytesKept t)
      ∧ ∀ i ∈ [Instr.decGetValues n, .decSkipValues n],
        ∃ t, exec i s = .next t ∧ t.answers .ok (some 0) [] ∧ t.decIs c ∧ s.othersKept t ∧ s.bytesKept t

/-- R148: two passes over the same buffer, separated by DEC.RESET, deliver the same values, whatever decoder command
stood between. -/
def Obligations.ResetStartsTheSamePassAgain : Prop :=
  ∀ (s s1 s2 u : State) (lIn n : Word32) (w : Word7) (i : Instr), s.port.target.kind = .dec → kindOf i = .dec →
    exec (.decNew lIn w) s = .next s1 → s1.status = some .ok → exec i s1 = .next s2 →
    exec (.decReset lIn w) s2 = .next u →
    ∃ t t' r vs, exec (.decGetValues n) s1 = .next t ∧ exec (.decGetValues n) u = .next t'
      ∧ t.answers .ok (some r) vs ∧ t'.answers .ok (some r) vs

/-- R48, R146: what a bit reader or a decoder does depends on no byte at an index not below `L_in`, and on no other buffer:
with the memory changed anywhere else, a command answers the same and leaves the unit in the same state. -/
def Obligations.NothingBeyondTheInputIsRead : Prop :=
  (∀ (s : State) (c : DecCore) (m : Memory) (i : Instr), s.runsDec c → kindOf i = .dec → isConstruction i = false →
    ({ s with mem := m } : State).runsDec c →
    (∀ j, j < c.lIn → ({ s with mem := m } : State).readByte c.buf j = s.readByte c.buf j) →
    ∃ t u, exec i s = .next t ∧ exec i { s with mem := m } = .next u ∧ u.response = t.response
      ∧ u.dec s.port.target.id = t.dec s.port.target.id)
  ∧ ∀ (s : State) (c : BrCore) (m : Memory) (i : Instr), s.runsBr c → kindOf i = .br → isConstruction i = false →
    ({ s with mem := m } : State).runsBr c →
    (∀ j, j < c.lIn → ({ s with mem := m } : State).readByte c.buf j = s.readByte c.buf j) →
    ∃ t u, exec i s = .next t ∧ exec i { s with mem := m } = .next u ∧ u.response = t.response
      ∧ u.br s.port.target.id = t.br s.port.target.id

/-! ### The whole machine -/

/-- The state before the first command satisfies the invariant, and no unit in it is marked (10_state.md R38). -/
def Obligations.InvariantHoldsAtReset : Prop :=
  State.reset.inv = true ∧ State.reset.unmarked = true ∧ (∀ id, (State.reset.bw id).core = none)
    ∧ (∀ id, (State.reset.br id).core = none) ∧ (∀ id, (State.reset.enc id).core = none)
    ∧ ∀ id, (State.reset.dec id).core = none

/-- Every step keeps the invariant: the ranges and relations of 10_state.md R22 to R32 and R37, of
42_rle_literal_classifier.md R117 and of 43_run_frame_parser.md R145, the canonical form of the lists, and that no reader
was constructed after more changes of its buffer than the buffer has seen. -/
def Obligations.StepKeepsTheInvariant : Prop :=
  ∀ s t : State, s.inv = true → step s = .next t → t.inv = true

/-- 60_exceptions.md R183, R185: in a state that satisfies the invariant every instruction completes: no fault. 20_memory.md
R48: no command of a bit writer or an encoder changes a byte at an index not below `L_out`, nor a byte of another buffer;
construction and clear write no byte at all, and what they do to the bytes is stated with them (log entry 2). In a state
without the invariant the model faults rather than write such a byte (log entry 16). -/
def Obligations.EveryInstructionCompletes : Prop :=
  (∀ (s : State) (i : Instr), s.inv = true → ∃ t, exec i s = .next t)
  ∧ (∀ (s t : State) (c : BwCore) (i : Instr), s.port.target.kind = .bw → (s.bw s.port.target.id).core = some c →
    exec i s = .next t → isConstruction i = false → i ≠ .bwClear → s.bytesKeptBut t c.buf (fun j => j < c.lOut))
  ∧ ∀ (s t : State) (e : EncCore) (i : Instr), s.port.target.kind = .enc → (s.enc s.port.target.id).core = some e →
      exec i s = .next t → isConstruction i = false → i ≠ .encClear → s.bytesKeptBut t e.buf (fun j => j < e.lOut)

/-- 10_state.md R20: no unit reads or writes another's state: a command changes the addressed unit, memory and the response
only; and 20_memory.md R47: a bit reader and a decoder change no memory. -/
def Obligations.OnlyTheAddressedUnitChanges : Prop :=
  ∀ (s t : State) (i : Instr), exec i s = .next t →
    s.othersKept t ∧ ((kindOf i = .br ∨ kindOf i = .dec) → t.mem = s.mem)

/-- 10_state.md R22, 00_scope.md R7: only a construction command changes a unit's configuration or the buffer it uses. -/
def Obligations.ConfigurationIsLatched : Prop :=
  ∀ (s t : State) (i : Instr), exec i s = .next t → isConstruction i = false →
    (∀ id c, (s.bw id).core = some c → ∃ c', (t.bw id).core = some c' ∧ c'.buf = c.buf ∧ c'.lOut = c.lOut)
    ∧ (∀ id c, (s.br id).core = some c → ∃ c', (t.br id).core = some c' ∧ c'.buf = c.buf ∧ c'.lIn = c.lIn)
    ∧ (∀ id e, (s.enc id).core = some e → ∃ e', (t.enc id).core = some e' ∧ e'.buf = e.buf ∧ e'.w = e.w ∧ e'.m = e.m
        ∧ e'.t = e.t ∧ e'.lOut = e.lOut)
    ∧ ∀ id c, (s.dec id).core = some c → ∃ c', (t.dec id).core = some c' ∧ c'.buf = c.buf ∧ c'.w = c.w ∧ c'.lIn = c.lIn

/-- R12, R176: the status words' codes. -/
def Obligations.StatusWordsHaveTheirCodes : Prop :=
  Status.ok.code = 0 ∧ Status.full.code = 1 ∧ Status.endOfInput.code = 2 ∧ Status.err.code = 3
    ∧ Status.isFalse.code = 4 ∧ Status.refused.code = 0xFF

/-- 00_scope.md R12, 60_exceptions.md R176: which commands raise which status: FULL only BW.PUT_VALUE, BW.PUT_ULEB128 and
ENC.PUT; END only BR.GET_VALUE, BR.SKIP_BITS and BR.GET_ULEB128; ERR only BR.GET_ULEB128; FALSE only
DEC.GET_SINGLE_VALUE and DEC.GET_LITERAL_VALUES. A run header returns nothing and is left out. -/
def Obligations.StatusesComeFromTheirCommands : Prop :=
  ∀ (s t : State) (i : Instr), exec i s = .next t → (∀ n len, i ≠ .wireRepeatedRun n len ∧ i ≠ .wireLiteralRun n len) →
    (t.status = some .full → (∃ v w, i = .bwPutValue v w) ∨ (∃ x, i = .bwPutUleb128 x) ∨ ∃ v, i = .encPut v)
    ∧ (t.status = some .endOfInput → (∃ w, i = .brGetValue w) ∨ (∃ k, i = .brSkipBits k) ∨ i = .brGetUleb128)
    ∧ (t.status = some .err → i = .brGetUleb128)
    ∧ (t.status = some .isFalse → i = .decGetSingleValue ∨ ∃ n, i = .decGetLiteralValues n)
    ∧ t.status ≠ none
end

