-- ==== Sys2Proof/Laws/Codec.lean ====
section
/-! SUPPORT. Bits, bytes and varints as numbers: what the readers, the writers and the varint coder of the model compute. -/

namespace Sys2Proof

/-! ### Little-endian bytes (20_memory.md R42) -/

@[simp] theorem leBytes_length (k x : Nat) : (leBytes k x).length = k := by
  induction k generalizing x with
  | zero => rfl
  | succ k ih => simp [leBytes, ih]

theorem leBytes_getD (k x i : Nat) (h : i < k) : ((leBytes k x).getD i 0).toNat = x / 256 ^ i % 256 := by
  induction k generalizing x i with
  | zero => omega
  | succ k ih =>
    cases i with
    | zero => simp [leBytes]
    | succ i =>
      have := ih (x / 256) i (by omega)
      simpa [leBytes, Nat.div_div_eq_div_mul, Nat.pow_succ, Nat.mul_comm] using this

/-! ### Varints (41_uleb128.md R86, R89) -/

theorem ulebEncodeWithin_length_le (k x : Nat) : (ulebEncodeWithin k x).length ≤ k := by
  induction k generalizing x with
  | zero => simp [ulebEncodeWithin]
  | succ k ih =>
    rw [ulebEncodeWithin]
    split
    · simp
    · simpa using ih (x / 128)

/-- The encoding is minimal: it has `k` bytes or fewer where `x` needs no more. -/
theorem ulebEncodeWithin_length_of_lt {k n x : Nat} (hn : n ≤ k) (h1 : 1 ≤ n) (h : x < 128 ^ n) :
    (ulebEncodeWithin k x).length ≤ n := by
  induction n generalizing k x with
  | zero => omega
  | succ n ih =>
    obtain ⟨k, rfl⟩ : ∃ k', k = k' + 1 := ⟨k - 1, by omega⟩
    rw [ulebEncodeWithin]
    split
    · simp
    · rename_i hx
      have : n ≠ 0 := by rintro rfl; simp at h; omega
      have := ih (k := k) (x := x / 128) (by omega) (by omega) (by rw [Nat.pow_succ] at h; omega)
      simpa using this

theorem ulebEncodeWithin_length_of_le {k n x : Nat} (hn : n < k) (h : 128 ^ n ≤ x) :
    n < (ulebEncodeWithin k x).length := by
  induction n generalizing k x with
  | zero =>
    obtain ⟨k, rfl⟩ : ∃ k', k = k' + 1 := ⟨k - 1, by omega⟩
    rw [ulebEncodeWithin]
    split <;> simp
  | succ n ih =>
    obtain ⟨k, rfl⟩ : ∃ k', k = k' + 1 := ⟨k - 1, by omega⟩
    have hp : 1 ≤ 128 ^ n := Nat.one_le_pow _ _ (by omega)
    rw [Nat.pow_succ] at h
    rw [ulebEncodeWithin, if_neg (by omega)]
    simpa using ih (k := k) (x := x / 128) (by omega) (by omega)

/-- `uleb_len` is the length of the encoding (41_uleb128.md R88). -/
theorem Machine.ulebEncode_length {x : Nat} (h : x < 2 ^ 32) : (ulebEncode x).length = Machine.ulebLen x := by
  have up {n : Nat} (hn : n ≤ 5) (h1 : 1 ≤ n) (hx : x < 128 ^ n) : (ulebEncode x).length ≤ n :=
    ulebEncodeWithin_length_of_lt hn h1 hx
  have lo {n : Nat} (hn : n < 5) (hx : 128 ^ n ≤ x) : n < (ulebEncode x).length :=
    ulebEncodeWithin_length_of_le hn hx
  have l0 : 0 < (ulebEncode x).length := by
    unfold ulebEncode Config.maxUlebBytes
    rw [ulebEncodeWithin]
    split <;> simp
  unfold Machine.ulebLen
  split_ifs with h1 h2 h3 h4
  · have := up (n := 1) (by omega) (by omega) (by omega); omega
  · have := up (n := 2) (by omega) (by omega) (by omega); have := lo (n := 1) (by omega) (by omega); omega
  · have := up (n := 3) (by omega) (by omega) (by omega); have := lo (n := 2) (by omega) (by omega); omega
  · have := up (n := 4) (by omega) (by omega) (by omega); have := lo (n := 3) (by omega) (by omega); omega
  · have := up (n := 5) (by omega) (by omega) (by omega); have := lo (n := 4) (by omega) (by omega); omega

theorem Machine.ulebLen_pos (x : Nat) : 1 ≤ Machine.ulebLen x := by
  unfold Machine.ulebLen
  split_ifs <;> omega

/-- Everything the loop can answer: a value below 2^32, from bytes that are there and no more than are left. -/
theorem ulebLoop_ok {left i x y n : Nat} {bs : List Byte} (h : ulebLoop left i x bs = .ok y n) :
    i < n ∧ n ≤ i + left ∧ n ≤ i + bs.length ∧ y < 2 ^ 32 := by
  induction left generalizing i x bs with
  | zero => simp [ulebLoop] at h
  | succ left ih =>
    cases bs with
    | nil => simp [ulebLoop] at h
    | cons b bs =>
      simp only [ulebLoop] at h
      split at h
      · split at h
        · simp only [UlebResult.ok.injEq] at h
          obtain ⟨rfl, rfl⟩ := h
          exact ⟨by omega, by omega, by simp, by assumption⟩
        · simp at h
      · have := ih h
        simp only [List.length_cons]
        omega

theorem ulebDecode_ok {y n : Nat} {bs : List Byte} (h : ulebDecode bs = .ok y n) :
    1 ≤ n ∧ n ≤ 5 ∧ n ≤ bs.length ∧ y < 2 ^ 32 := by
  have := ulebLoop_ok h
  simp only [Config.maxUlebBytes] at this
  omega

/-- Bytes after the varint do not matter. -/
theorem ulebLoop_append {left i x y n : Nat} {bs : List Byte} (h : ulebLoop left i x bs = .ok y n) (cs : List Byte) :
    ulebLoop left i x (bs ++ cs) = .ok y n := by
  induction left generalizing i x bs with
  | zero => simp [ulebLoop] at h
  | succ left ih =>
    cases bs with
    | nil => simp [ulebLoop] at h
    | cons b bs =>
      rw [List.cons_append]
      simp only [ulebLoop] at h ⊢
      split
      · rwa [if_pos ‹_›] at h
      · rw [if_neg ‹_›] at h
        exact ih h

/-- 30_encoding.md R56, R57: a fetched run header is one of the two run variants, and its varint is inside the bytes. -/
theorem decodeWire_ok {bs : List Byte} {i : Instr} (h : decodeWire bs = .ok i) :
    (∃ n len, i = .wireRepeatedRun n len ∧ 1 ≤ len ∧ len ≤ 5 ∧ len ≤ bs.length)
      ∨ ∃ n len, i = .wireLiteralRun n len ∧ 1 ≤ len ∧ len ≤ 5 ∧ len ≤ bs.length := by
  unfold decodeWire at h
  split at h
  · cases h
  · cases h
  · have := ulebDecode_ok ‹_›
    split at h <;> cases h
    · exact .inl ⟨_, _, rfl, this.1, this.2.1, this.2.2.1⟩
    · exact .inr ⟨_, _, rfl, this.1, this.2.1, this.2.2.1⟩

namespace Machine

theorem leNumber_lt (bs : List Byte) : leNumber bs < 256 ^ bs.length := by
  induction bs with
  | nil => simp [leNumber]
  | cons b bs ih =>
    have hb := b.isLt
    simp only [leNumber, List.length_cons, Nat.pow_succ]
    omega

theorem leNumber_leBytes (k x : Nat) : leNumber (leBytes k x) = x % 256 ^ k := by
  induction k generalizing x with
  | zero => simp [leBytes, leNumber, Nat.mod_one]
  | succ k ih =>
    rw [leBytes, leNumber, ih, Nat.pow_succ, Nat.mul_comm (256 ^ k), Nat.mod_mul]
    simp

theorem leNumber_append (as bs : List Byte) :
    leNumber (as ++ bs) = leNumber as + 256 ^ as.length * leNumber bs := by
  induction as with
  | nil => simp [leNumber]
  | cons a as ih => simp only [List.cons_append, leNumber, ih, List.length_cons, Nat.pow_succ]; ring

theorem cellsFrom_append (i : Nat) (as bs : List Byte) :
    cellsFrom i (as ++ bs) = cellsFrom i as ++ cellsFrom (i + as.length) bs := by
  induction as generalizing i with
  | nil => rfl
  | cons a as ih =>
    simp only [List.cons_append, cellsFrom, ih, List.length_cons, Nat.add_assoc, Nat.add_comm 1]

/-! ### Reading bytes and bits (00_scope.md R10, 20_memory.md R40) -/

variable (rd rd' : Nat → Byte)

@[simp] theorem bytesFrom_length (p n : Nat) : (bytesFrom rd p n).length = n := by
  induction n generalizing p with
  | zero => rfl
  | succ n ih => simp [bytesFrom, ih]

theorem bytesFrom_getD (p n i : Nat) (h : i < n) : (bytesFrom rd p n).getD i 0 = rd (p + i) := by
  induction n generalizing p i with
  | zero => omega
  | succ n ih =>
    cases i with
    | zero => simp [bytesFrom]
    | succ i =>
      have := ih (p + 1) i (by omega)
      simpa [bytesFrom, Nat.add_assoc, Nat.add_comm 1] using this

theorem bytesFrom_congr {p n : Nat} (h : ∀ i, i < n → rd (p + i) = rd' (p + i)) :
    bytesFrom rd p n = bytesFrom rd' p n := by
  induction n generalizing p with
  | zero => rfl
  | succ n ih =>
    rw [bytesFrom, bytesFrom, show rd p = rd' p by simpa using h 0 (by omega), ih fun i hi => ?_]
    simpa [Nat.add_assoc, Nat.add_comm 1] using h (i + 1) (by omega)

theorem inBit_lt_two (j : Nat) : inBit rd j < 2 := Nat.mod_lt _ (by omega)

theorem inBit_congr {j : Nat} (h : rd (j / 8) = rd' (j / 8)) : inBit rd j = inBit rd' j := by simp [inBit, h]

theorem inField_lt (p k : Nat) : inField rd p k < 2 ^ k := by
  induction k generalizing p with
  | zero => simp [inField]
  | succ k ih =>
    have h := ih (p + 1)
    have hb := inBit_lt_two rd p
    rw [inField, Nat.pow_succ]
    omega

/-- A bit of a field is the stream's bit. -/
theorem inField_bit (p k i : Nat) (h : i < k) : inField rd p k / 2 ^ i % 2 = inBit rd (p + i) := by
  induction k generalizing p i with
  | zero => omega
  | succ k ih =>
    have hb := inBit_lt_two rd p
    cases i with
    | zero => simp only [inField, Nat.pow_zero, Nat.div_one, Nat.add_zero]; omega
    | succ i =>
      have := ih (p + 1) i (by omega)
      rw [inField, Nat.pow_succ, Nat.mul_comm (2 ^ i), ← Nat.div_div_eq_div_mul,
        show (inBit rd p + 2 * inField rd (p + 1) k) / 2 = inField rd (p + 1) k by omega, this]
      congr 1
      omega

theorem inField_congr {p k : Nat} (h : ∀ i, i < k → inBit rd (p + i) = inBit rd' (p + i)) :
    inField rd p k = inField rd' p k := by
  induction k generalizing p with
  | zero => rfl
  | succ k ih =>
    rw [inField, inField, show inBit rd p = inBit rd' p by simpa using h 0 (by omega), ih fun i hi => ?_]
    simpa [Nat.add_assoc, Nat.add_comm 1] using h (i + 1) (by omega)

/-- A field is its low part and its high part. -/
theorem inField_add (p a b : Nat) : inField rd p (a + b) = inField rd p a + 2 ^ a * inField rd (p + a) b := by
  induction a generalizing p with
  | zero => simp [inField]
  | succ a ih =>
    rw [show a + 1 + b = (a + b) + 1 by omega, inField, inField, ih, Nat.pow_succ,
      show p + 1 + a = p + (a + 1) by omega]
    ring

/-- A number is determined by its low bits. -/
theorem eq_of_bits {k x y : Nat} (hx : x < 2 ^ k) (hy : y < 2 ^ k) (h : ∀ i, i < k → x / 2 ^ i % 2 = y / 2 ^ i % 2) :
    x = y := by
  induction k generalizing x y with
  | zero => simp at hx hy; omega
  | succ k ih =>
    have h0 := h 0 (by omega)
    have := ih (x := x / 2) (y := y / 2) (by rw [Nat.pow_succ] at hx; omega) (by rw [Nat.pow_succ] at hy; omega)
      fun i hi => by
        have := h (i + 1) (by omega)
        rwa [Nat.pow_succ, Nat.mul_comm, ← Nat.div_div_eq_div_mul, ← Nat.div_div_eq_div_mul] at this
    simp only [Nat.pow_zero, Nat.div_one] at h0
    omega

/-- One byte, read as a field. -/
theorem inField_byte (p : Nat) : inField rd (8 * p) 8 = (rd p).toNat := by
  refine eq_of_bits (inField_lt _ _ _) (rd p).isLt fun i hi => ?_
  rw [inField_bit _ _ _ _ hi, inBit, show (8 * p + i) / 8 = p by omega, show (8 * p + i) % 8 = i by omega]

/-- Bytes at a byte boundary are a field (40_bit_packer_unpacker.md R81). -/
theorem leNumber_bytesFrom (p n : Nat) : leNumber (bytesFrom rd p n) = inField rd (8 * p) (8 * n) := by
  induction n generalizing p with
  | zero => rfl
  | succ n ih =>
    rw [bytesFrom, leNumber, ih, show 8 * (n + 1) = 8 + 8 * n by omega, inField_add, inField_byte,
      show 8 * p + 8 = 8 * (p + 1) by omega]
    norm_num

/-- The little-endian sum of 43_run_frame_parser.md R131. -/
theorem leNumber_bytesFrom_eq_sum (p n : Nat) :
    leNumber (bytesFrom rd p n) = ((List.range n).map fun i => (rd (p + i)).toNat * 2 ^ (8 * i)).sum := by
  induction n generalizing p with
  | zero => rfl
  | succ n ih =>
    rw [bytesFrom, leNumber, ih, List.range_succ_eq_map, List.map_cons, List.sum_cons, List.map_map]
    have : ((List.range n).map ((fun i => (rd (p + i)).toNat * 2 ^ (8 * i)) ∘ Nat.succ)).sum
        = 256 * ((List.range n).map fun i => (rd (p + 1 + i)).toNat * 2 ^ (8 * i)).sum := by
      rw [← List.sum_map_mul_left]
      congr 1
      refine List.map_congr_left fun i _ => ?_
      simp only [Function.comp, Nat.succ_eq_add_one, show 8 * (i + 1) = 8 * i + 8 by omega, Nat.pow_add,
        show p + (i + 1) = p + 1 + i by omega]
      ring
    rw [this]
    simp

end Machine
end Sys2Proof
end

