-- ==== Sys2Proof/Laws/Sparse.lean ====
section
/-! SUPPORT. Lists by key: reading after a write, and the canonical form. Reading after a write needs no canonical form. -/

namespace Sys2Proof.Machine.Sparse

variable {α : Type}

@[simp] theorem lookup_insert_same (m : List (Nat × α)) (k : Nat) (v : α) : lookup (insert m k v) k = some v := by
  induction m with
  | nil => simp [insert, lookup]
  | cons e m ih =>
    unfold insert
    split
    · simp [lookup]
    · split
      · simp [lookup]
      · rename_i h₁ h₂; simp [lookup, h₂, ih]

theorem lookup_insert_other (m : List (Nat × α)) {k j : Nat} (v : α) (h : j ≠ k) :
    lookup (insert m k v) j = lookup m j := by
  induction m with
  | nil => simp [insert, lookup, h]
  | cons e m ih =>
    unfold insert
    split
    · simp [lookup, h]
    · split
      · rename_i h₁ h₂; subst h₂; simp [lookup, h]
      · simp only [lookup, ih]

@[simp] theorem lookup_erase_same (m : List (Nat × α)) (k : Nat) : lookup (erase m k) k = none := by
  induction m with
  | nil => rfl
  | cons e m ih =>
    unfold erase
    split
    · exact ih
    · rename_i h; simp [lookup, h, ih]

theorem lookup_erase_other (m : List (Nat × α)) {k j : Nat} (h : j ≠ k) : lookup (erase m k) j = lookup m j := by
  induction m with
  | nil => rfl
  | cons e m ih =>
    unfold erase
    split
    · rename_i h₁; subst h₁; simp [lookup, h, ih]
    · simp only [lookup, ih]

/-- The second of two writes at one key is the one that counts. -/
theorem insert_insert (m : List (Nat × α)) (k : Nat) (v w : α) : insert (insert m k v) k w = insert m k w := by
  induction m with
  | nil => simp [insert]
  | cons e m ih =>
    by_cases h₁ : k < e.1
    · simp [insert, h₁]
    · by_cases h₂ : k = e.1
      · subst h₂; simp [insert]
      · simp [insert, h₁, h₂, ih]

section canonical

variable [DecidableEq α] (d : α)

@[simp] theorem get_set_same (m : List (Nat × α)) (k : Nat) (v : α) : get d (set d m k v) k = v := by
  unfold get set
  split <;> simp_all

theorem get_set_other (m : List (Nat × α)) {k j : Nat} (v : α) (h : j ≠ k) :
    get d (set d m k v) j = get d m j := by
  unfold get set
  split
  · rw [lookup_erase_other m h]
  · rw [lookup_insert_other m v h]

/-- Reading after a write. -/
theorem get_set (m : List (Nat × α)) (k j : Nat) (v : α) :
    get d (set d m k v) j = if j = k then v else get d m j := by
  split
  · rename_i h; subst h; exact get_set_same d m j v
  · rename_i h; exact get_set_other d m v h

theorem set_set {m : List (Nat × α)} {k : Nat} {v w : α} (hv : v ≠ d) (hw : w ≠ d) :
    set d (set d m k v) k w = set d m k w := by
  simp [set, hv, hw, insert_insert]

end canonical

/-! ### The canonical form is kept -/

/-- The keys rise strictly, as a statement about the list. -/
theorem rising_iff (m : List (Nat × α)) : rising m = true ↔ m.Pairwise (fun e f => e.1 < f.1) := by
  induction m with
  | nil => simp [rising]
  | cons e m ih =>
    cases m with
    | nil => simp [rising]
    | cons f m =>
      simp only [rising, Bool.and_eq_true, decide_eq_true_eq, ih, List.pairwise_cons]
      constructor
      · rintro ⟨h, h₁, h₂⟩
        refine ⟨fun x hx => ?_, h₁, h₂⟩
        rcases List.mem_cons.1 hx with rfl | hx
        · exact h
        · exact h.trans (h₁ x hx)
      · rintro ⟨h, h₁, h₂⟩
        exact ⟨h f (by simp), h₁, h₂⟩

theorem mem_insert {m : List (Nat × α)} {k : Nat} {v : α} {x : Nat × α} (h : x ∈ insert m k v) :
    x = (k, v) ∨ x ∈ m := by
  induction m with
  | nil => simpa [insert] using h
  | cons e m ih =>
    unfold insert at h
    split at h
    · simpa using h
    · split at h
      · rcases List.mem_cons.1 h with h | h
        · exact .inl h
        · exact .inr (by simp [h])
      · rcases List.mem_cons.1 h with h | h
        · exact .inr (by simp [h])
        · rcases ih h with h | h
          · exact .inl h
          · exact .inr (by simp [h])

theorem mem_of_mem_erase {m : List (Nat × α)} {k : Nat} {x : Nat × α} (h : x ∈ erase m k) : x ∈ m := by
  induction m with
  | nil => simp [erase] at h
  | cons e m ih =>
    unfold erase at h
    split at h
    · exact List.mem_cons_of_mem _ (ih h)
    · rcases List.mem_cons.1 h with h | h
      · simp [h]
      · exact List.mem_cons_of_mem _ (ih h)

theorem rising_insert {m : List (Nat × α)} (h : rising m = true) (k : Nat) (v : α) : rising (insert m k v) = true := by
  rw [rising_iff] at *
  induction m with
  | nil => simp [insert]
  | cons e m ih =>
    obtain ⟨he, hm⟩ := List.pairwise_cons.1 h
    unfold insert
    split
    · rename_i hk
      refine List.pairwise_cons.2 ⟨fun x hx => ?_, h⟩
      rcases List.mem_cons.1 hx with rfl | hx
      · exact hk
      · exact hk.trans (he x hx)
    · split
      · rename_i hk; subst hk; exact List.pairwise_cons.2 ⟨he, hm⟩
      · rename_i h₁ h₂
        refine List.pairwise_cons.2 ⟨fun x hx => ?_, ih hm⟩
        rcases mem_insert hx with rfl | hx
        · simp only; omega
        · exact he x hx

theorem rising_erase {m : List (Nat × α)} (h : rising m = true) (k : Nat) : rising (erase m k) = true := by
  rw [rising_iff] at *
  induction m with
  | nil => simp [erase]
  | cons e m ih =>
    obtain ⟨he, hm⟩ := List.pairwise_cons.1 h
    unfold erase
    split
    · exact ih hm
    · exact List.pairwise_cons.2 ⟨fun x hx => he x (mem_of_mem_erase hx), ih hm⟩

/-- Of the entries a test on the key keeps, the others are as if not there. -/
theorem lookup_filter (m : List (Nat × α)) (p : Nat → Bool) (k : Nat) :
    lookup (m.filter fun e => p e.1) k = if p k then lookup m k else none := by
  induction m with
  | nil => simp [lookup]
  | cons e m ih =>
    by_cases he : p e.1
    · rw [List.filter_cons_of_pos (by simpa using he)]
      by_cases hk : k = e.1
      · subst hk; simp [lookup, he]
      · simp [lookup, hk, ih]
    · rw [List.filter_cons_of_neg (by simpa using he), ih]
      by_cases hk : k = e.1
      · subst hk; simp [he]
      · simp [lookup, hk]

theorem rising_filter {m : List (Nat × α)} (h : rising m = true) (p : Nat × α → Bool) :
    rising (m.filter p) = true := by
  rw [rising_iff] at *
  exact h.sublist List.filter_sublist

/-- A write keeps the canonical form. -/
theorem wf_set [DecidableEq α] {d : α} {m : List (Nat × α)} (h : wf d m = true) (k : Nat) (v : α) :
    wf d (set d m k v) = true := by
  simp only [wf, Bool.and_eq_true, List.all_eq_true, decide_eq_true_eq] at *
  unfold set
  split
  · exact ⟨rising_erase h.1 k, fun x hx => h.2 x (mem_of_mem_erase hx)⟩
  · rename_i hv
    refine ⟨rising_insert h.1 k v, fun x hx => ?_⟩
    rcases mem_insert hx with rfl | hx
    · exact hv
    · exact h.2 x hx

/-- A predicate of the entries is kept by a write of an entry that has it. -/
theorem all_set [DecidableEq α] {d : α} {m : List (Nat × α)} {p : α → Bool} (h : (m.all fun e => p e.2) = true)
    (k : Nat) {v : α} (hv : p v = true) : ((set d m k v).all fun e => p e.2) = true := by
  simp only [List.all_eq_true] at *
  intro x hx
  unfold set at hx
  split at hx
  · exact h x (mem_of_mem_erase hx)
  · rcases mem_insert hx with rfl | hx
    · exact hv
    · exact h x hx

/-- What all entries have, and the entry for the keys not listed, every read has. -/
theorem get_of_all {d : α} {m : List (Nat × α)} {p : α → Bool} (h : (m.all fun e => p e.2) = true) (hd : p d = true)
    (k : Nat) : p (get d m k) = true := by
  unfold get
  induction m with
  | nil => exact hd
  | cons e m ih =>
    simp only [List.all_cons, Bool.and_eq_true] at h
    unfold lookup
    split
    · exact h.1
    · exact ih h.2

end Sys2Proof.Machine.Sparse
end

