-- ==== Sys2Proof/Laws/State.lean ====
section
/-! SUPPORT. One lemma for each field of the state under each update, true by unfolding the update once, so that no later
proof unfolds a record update. -/

namespace Sys2Proof.Machine

variable (s : State)

/-! ### `State.setBuf` -/

@[simp] theorem State.setBuf_params (b : Nat) (x : Buffer) :
    (s.setBuf b x).params = s.params := rfl
@[simp] theorem State.setBuf_bws (b : Nat) (x : Buffer) :
    (s.setBuf b x).bws = s.bws := rfl
@[simp] theorem State.setBuf_brs (b : Nat) (x : Buffer) :
    (s.setBuf b x).brs = s.brs := rfl
@[simp] theorem State.setBuf_encs (b : Nat) (x : Buffer) :
    (s.setBuf b x).encs = s.encs := rfl
@[simp] theorem State.setBuf_decs (b : Nat) (x : Buffer) :
    (s.setBuf b x).decs = s.decs := rfl
@[simp] theorem State.setBuf_pending (b : Nat) (x : Buffer) :
    (s.setBuf b x).pending = s.pending := rfl
@[simp] theorem State.setBuf_port (b : Nat) (x : Buffer) :
    (s.setBuf b x).port = s.port := rfl
@[simp] theorem State.setBuf_response (b : Nat) (x : Buffer) :
    (s.setBuf b x).response = s.response := rfl

/-! ### `State.setBw` -/

@[simp] theorem State.setBw_params (id : Nat) (u : Slot BwCore) :
    (s.setBw id u).params = s.params := rfl
@[simp] theorem State.setBw_mem (id : Nat) (u : Slot BwCore) :
    (s.setBw id u).mem = s.mem := rfl
@[simp] theorem State.setBw_brs (id : Nat) (u : Slot BwCore) :
    (s.setBw id u).brs = s.brs := rfl
@[simp] theorem State.setBw_encs (id : Nat) (u : Slot BwCore) :
    (s.setBw id u).encs = s.encs := rfl
@[simp] theorem State.setBw_decs (id : Nat) (u : Slot BwCore) :
    (s.setBw id u).decs = s.decs := rfl
@[simp] theorem State.setBw_pending (id : Nat) (u : Slot BwCore) :
    (s.setBw id u).pending = s.pending := rfl
@[simp] theorem State.setBw_port (id : Nat) (u : Slot BwCore) :
    (s.setBw id u).port = s.port := rfl
@[simp] theorem State.setBw_response (id : Nat) (u : Slot BwCore) :
    (s.setBw id u).response = s.response := rfl

/-! ### `State.setBr` -/

@[simp] theorem State.setBr_params (id : Nat) (u : Slot BrCore) :
    (s.setBr id u).params = s.params := rfl
@[simp] theorem State.setBr_mem (id : Nat) (u : Slot BrCore) :
    (s.setBr id u).mem = s.mem := rfl
@[simp] theorem State.setBr_bws (id : Nat) (u : Slot BrCore) :
    (s.setBr id u).bws = s.bws := rfl
@[simp] theorem State.setBr_encs (id : Nat) (u : Slot BrCore) :
    (s.setBr id u).encs = s.encs := rfl
@[simp] theorem State.setBr_decs (id : Nat) (u : Slot BrCore) :
    (s.setBr id u).decs = s.decs := rfl
@[simp] theorem State.setBr_pending (id : Nat) (u : Slot BrCore) :
    (s.setBr id u).pending = s.pending := rfl
@[simp] theorem State.setBr_port (id : Nat) (u : Slot BrCore) :
    (s.setBr id u).port = s.port := rfl
@[simp] theorem State.setBr_response (id : Nat) (u : Slot BrCore) :
    (s.setBr id u).response = s.response := rfl

/-! ### `State.setEnc` -/

@[simp] theorem State.setEnc_params (id : Nat) (u : Slot EncCore) :
    (s.setEnc id u).params = s.params := rfl
@[simp] theorem State.setEnc_mem (id : Nat) (u : Slot EncCore) :
    (s.setEnc id u).mem = s.mem := rfl
@[simp] theorem State.setEnc_bws (id : Nat) (u : Slot EncCore) :
    (s.setEnc id u).bws = s.bws := rfl
@[simp] theorem State.setEnc_brs (id : Nat) (u : Slot EncCore) :
    (s.setEnc id u).brs = s.brs := rfl
@[simp] theorem State.setEnc_decs (id : Nat) (u : Slot EncCore) :
    (s.setEnc id u).decs = s.decs := rfl
@[simp] theorem State.setEnc_pending (id : Nat) (u : Slot EncCore) :
    (s.setEnc id u).pending = s.pending := rfl
@[simp] theorem State.setEnc_port (id : Nat) (u : Slot EncCore) :
    (s.setEnc id u).port = s.port := rfl
@[simp] theorem State.setEnc_response (id : Nat) (u : Slot EncCore) :
    (s.setEnc id u).response = s.response := rfl

/-! ### `State.setDec` -/

@[simp] theorem State.setDec_params (id : Nat) (u : Slot DecCore) :
    (s.setDec id u).params = s.params := rfl
@[simp] theorem State.setDec_mem (id : Nat) (u : Slot DecCore) :
    (s.setDec id u).mem = s.mem := rfl
@[simp] theorem State.setDec_bws (id : Nat) (u : Slot DecCore) :
    (s.setDec id u).bws = s.bws := rfl
@[simp] theorem State.setDec_brs (id : Nat) (u : Slot DecCore) :
    (s.setDec id u).brs = s.brs := rfl
@[simp] theorem State.setDec_encs (id : Nat) (u : Slot DecCore) :
    (s.setDec id u).encs = s.encs := rfl
@[simp] theorem State.setDec_pending (id : Nat) (u : Slot DecCore) :
    (s.setDec id u).pending = s.pending := rfl
@[simp] theorem State.setDec_port (id : Nat) (u : Slot DecCore) :
    (s.setDec id u).port = s.port := rfl
@[simp] theorem State.setDec_response (id : Nat) (u : Slot DecCore) :
    (s.setDec id u).response = s.response := rfl

/-! ### `State.putBw` -/

@[simp] theorem State.putBw_params (c : BwCore) :
    (s.putBw c).params = s.params := rfl
@[simp] theorem State.putBw_mem (c : BwCore) :
    (s.putBw c).mem = s.mem := rfl
@[simp] theorem State.putBw_brs (c : BwCore) :
    (s.putBw c).brs = s.brs := rfl
@[simp] theorem State.putBw_encs (c : BwCore) :
    (s.putBw c).encs = s.encs := rfl
@[simp] theorem State.putBw_decs (c : BwCore) :
    (s.putBw c).decs = s.decs := rfl
@[simp] theorem State.putBw_pending (c : BwCore) :
    (s.putBw c).pending = s.pending := rfl
@[simp] theorem State.putBw_port (c : BwCore) :
    (s.putBw c).port = s.port := rfl
@[simp] theorem State.putBw_response (c : BwCore) :
    (s.putBw c).response = s.response := rfl

/-! ### `State.putBr` -/

@[simp] theorem State.putBr_params (c : BrCore) :
    (s.putBr c).params = s.params := rfl
@[simp] theorem State.putBr_mem (c : BrCore) :
    (s.putBr c).mem = s.mem := rfl
@[simp] theorem State.putBr_bws (c : BrCore) :
    (s.putBr c).bws = s.bws := rfl
@[simp] theorem State.putBr_encs (c : BrCore) :
    (s.putBr c).encs = s.encs := rfl
@[simp] theorem State.putBr_decs (c : BrCore) :
    (s.putBr c).decs = s.decs := rfl
@[simp] theorem State.putBr_pending (c : BrCore) :
    (s.putBr c).pending = s.pending := rfl
@[simp] theorem State.putBr_port (c : BrCore) :
    (s.putBr c).port = s.port := rfl
@[simp] theorem State.putBr_response (c : BrCore) :
    (s.putBr c).response = s.response := rfl

/-! ### `State.putEnc` -/

@[simp] theorem State.putEnc_params (e : EncCore) :
    (s.putEnc e).params = s.params := rfl
@[simp] theorem State.putEnc_mem (e : EncCore) :
    (s.putEnc e).mem = s.mem := rfl
@[simp] theorem State.putEnc_bws (e : EncCore) :
    (s.putEnc e).bws = s.bws := rfl
@[simp] theorem State.putEnc_brs (e : EncCore) :
    (s.putEnc e).brs = s.brs := rfl
@[simp] theorem State.putEnc_decs (e : EncCore) :
    (s.putEnc e).decs = s.decs := rfl
@[simp] theorem State.putEnc_pending (e : EncCore) :
    (s.putEnc e).pending = s.pending := rfl
@[simp] theorem State.putEnc_port (e : EncCore) :
    (s.putEnc e).port = s.port := rfl
@[simp] theorem State.putEnc_response (e : EncCore) :
    (s.putEnc e).response = s.response := rfl

/-! ### `State.putDec` -/

@[simp] theorem State.putDec_params (c : DecCore) :
    (s.putDec c).params = s.params := rfl
@[simp] theorem State.putDec_mem (c : DecCore) :
    (s.putDec c).mem = s.mem := rfl
@[simp] theorem State.putDec_bws (c : DecCore) :
    (s.putDec c).bws = s.bws := rfl
@[simp] theorem State.putDec_brs (c : DecCore) :
    (s.putDec c).brs = s.brs := rfl
@[simp] theorem State.putDec_encs (c : DecCore) :
    (s.putDec c).encs = s.encs := rfl
@[simp] theorem State.putDec_pending (c : DecCore) :
    (s.putDec c).pending = s.pending := rfl
@[simp] theorem State.putDec_port (c : DecCore) :
    (s.putDec c).port = s.port := rfl
@[simp] theorem State.putDec_response (c : DecCore) :
    (s.putDec c).response = s.response := rfl

/-! ### `State.writeCells` -/

@[simp] theorem State.writeCells_params (b : Nat) (cells : List Host.Cell) :
    (s.writeCells b cells).params = s.params := rfl
@[simp] theorem State.writeCells_bws (b : Nat) (cells : List Host.Cell) :
    (s.writeCells b cells).bws = s.bws := rfl
@[simp] theorem State.writeCells_brs (b : Nat) (cells : List Host.Cell) :
    (s.writeCells b cells).brs = s.brs := rfl
@[simp] theorem State.writeCells_encs (b : Nat) (cells : List Host.Cell) :
    (s.writeCells b cells).encs = s.encs := rfl
@[simp] theorem State.writeCells_decs (b : Nat) (cells : List Host.Cell) :
    (s.writeCells b cells).decs = s.decs := rfl
@[simp] theorem State.writeCells_pending (b : Nat) (cells : List Host.Cell) :
    (s.writeCells b cells).pending = s.pending := rfl
@[simp] theorem State.writeCells_port (b : Nat) (cells : List Host.Cell) :
    (s.writeCells b cells).port = s.port := rfl
@[simp] theorem State.writeCells_response (b : Nat) (cells : List Host.Cell) :
    (s.writeCells b cells).response = s.response := rfl

/-! ### `State.take` -/

@[simp] theorem State.take_params (b : Nat) :
    (s.take b).params = s.params := rfl
@[simp] theorem State.take_bws (b : Nat) :
    (s.take b).bws = s.bws := rfl
@[simp] theorem State.take_brs (b : Nat) :
    (s.take b).brs = s.brs := rfl
@[simp] theorem State.take_encs (b : Nat) :
    (s.take b).encs = s.encs := rfl
@[simp] theorem State.take_decs (b : Nat) :
    (s.take b).decs = s.decs := rfl
@[simp] theorem State.take_pending (b : Nat) :
    (s.take b).pending = s.pending := rfl
@[simp] theorem State.take_port (b : Nat) :
    (s.take b).port = s.port := rfl
@[simp] theorem State.take_response (b : Nat) :
    (s.take b).response = s.response := rfl

/-! ### `State.hostLoad` -/

variable (rest : List Event)

@[simp] theorem State.hostLoad_params (b i : Nat) (bytes : List Byte) :
    (s.hostLoad rest b i bytes).params = s.params := rfl
@[simp] theorem State.hostLoad_bws (b i : Nat) (bytes : List Byte) :
    (s.hostLoad rest b i bytes).bws = s.bws := rfl
@[simp] theorem State.hostLoad_brs (b i : Nat) (bytes : List Byte) :
    (s.hostLoad rest b i bytes).brs = s.brs := rfl
@[simp] theorem State.hostLoad_encs (b i : Nat) (bytes : List Byte) :
    (s.hostLoad rest b i bytes).encs = s.encs := rfl
@[simp] theorem State.hostLoad_decs (b i : Nat) (bytes : List Byte) :
    (s.hostLoad rest b i bytes).decs = s.decs := rfl
@[simp] theorem State.hostLoad_pending (b i : Nat) (bytes : List Byte) :
    (s.hostLoad rest b i bytes).pending = rest := rfl
@[simp] theorem State.hostLoad_port (b i : Nat) (bytes : List Byte) :
    (s.hostLoad rest b i bytes).port = s.port := rfl
@[simp] theorem State.hostLoad_response (b i : Nat) (bytes : List Byte) :
    (s.hostLoad rest b i bytes).response = s.response := rfl

/-! ### `State.respond` -/

@[simp] theorem State.respond_params (st : Status) (r : Option Word64) (vs : List Word64) :
    (s.respond st r vs).params = s.params := rfl
@[simp] theorem State.respond_mem (st : Status) (r : Option Word64) (vs : List Word64) :
    (s.respond st r vs).mem = s.mem := rfl
@[simp] theorem State.respond_bws (st : Status) (r : Option Word64) (vs : List Word64) :
    (s.respond st r vs).bws = s.bws := rfl
@[simp] theorem State.respond_brs (st : Status) (r : Option Word64) (vs : List Word64) :
    (s.respond st r vs).brs = s.brs := rfl
@[simp] theorem State.respond_encs (st : Status) (r : Option Word64) (vs : List Word64) :
    (s.respond st r vs).encs = s.encs := rfl
@[simp] theorem State.respond_decs (st : Status) (r : Option Word64) (vs : List Word64) :
    (s.respond st r vs).decs = s.decs := rfl
@[simp] theorem State.respond_pending (st : Status) (r : Option Word64) (vs : List Word64) :
    (s.respond st r vs).pending = s.pending := rfl
@[simp] theorem State.respond_port (st : Status) (r : Option Word64) (vs : List Word64) :
    (s.respond st r vs).port = s.port := rfl
@[simp] theorem State.respond_response (st : Status) (r : Option Word64) (vs : List Word64) :
    (s.respond st r vs).response = some { status := st, result := r, values := vs } := rfl

/-! ### `State.mark` and `State.refuse` -/

@[simp] theorem State.mark_params : s.mark.params = s.params := by
  unfold State.mark; split <;> rfl
@[simp] theorem State.refuse_params : s.refuse.params = s.params := by
  simp [State.refuse]
@[simp] theorem State.mark_mem : s.mark.mem = s.mem := by
  unfold State.mark; split <;> rfl
@[simp] theorem State.refuse_mem : s.refuse.mem = s.mem := by
  simp [State.refuse]
@[simp] theorem State.mark_pending : s.mark.pending = s.pending := by
  unfold State.mark; split <;> rfl
@[simp] theorem State.refuse_pending : s.refuse.pending = s.pending := by
  simp [State.refuse]
@[simp] theorem State.mark_port : s.mark.port = s.port := by
  unfold State.mark; split <;> rfl
@[simp] theorem State.refuse_port : s.refuse.port = s.port := by
  simp [State.refuse]
@[simp] theorem State.mark_response : s.mark.response = s.response := by
  unfold State.mark; split <;> rfl
@[simp] theorem State.refuse_response :
    s.refuse.response = some { status := .refused, result := none, values := [] } := rfl

/-! ### `State.present` -/

variable (target : Target) (buffer : Nat)

@[simp] theorem State.present_params : (s.present rest target buffer).params = s.params := rfl
@[simp] theorem State.present_mem : (s.present rest target buffer).mem = s.mem := rfl
@[simp] theorem State.present_bws : (s.present rest target buffer).bws = s.bws := rfl
@[simp] theorem State.present_brs : (s.present rest target buffer).brs = s.brs := rfl
@[simp] theorem State.present_encs : (s.present rest target buffer).encs = s.encs := rfl
@[simp] theorem State.present_decs : (s.present rest target buffer).decs = s.decs := rfl
@[simp] theorem State.present_response : (s.present rest target buffer).response = s.response := rfl
@[simp] theorem State.present_pending : (s.present rest target buffer).pending = rest := rfl
@[simp] theorem State.present_port :
    (s.present rest target buffer).port = { target := target, buffer := buffer } := rfl

/-! ### The accessors depend on their own field alone -/

variable {s} {t : State}

theorem State.bw_congr (h : t.bws = s.bws) (id : Nat) : t.bw id = s.bw id := by simp [State.bw, h]
theorem State.br_congr (h : t.brs = s.brs) (id : Nat) : t.br id = s.br id := by simp [State.br, h]
theorem State.enc_congr (h : t.encs = s.encs) (id : Nat) : t.enc id = s.enc id := by simp [State.enc, h]
theorem State.dec_congr (h : t.decs = s.decs) (id : Nat) : t.dec id = s.dec id := by simp [State.dec, h]
theorem State.buf_congr (h : t.mem = s.mem) (b : Nat) : t.buf b = s.buf b := by simp [State.buf, h]
theorem State.readByte_congr (h : t.mem = s.mem) (b i : Nat) : t.readByte b i = s.readByte b i := by
  simp [State.readByte, State.buf_congr h]

/-- A buffer that is the same has everything kept. -/
theorem State.bufferKept_of_buf {b : Nat} (h : t.buf b = s.buf b) : s.bufferKept t b :=
  ⟨⟨by rw [h], by rw [h]⟩, fun n version => by rw [h], fun i => by simp [State.readByte, h]⟩

/-- A state with the same memory has everything of every buffer kept. -/
theorem State.bytesKept_of_mem (h : t.mem = s.mem) : s.bytesKept t := fun b =>
  State.bufferKept_of_buf (State.buf_congr h b)

end Sys2Proof.Machine
end

