-- ==== Sys2Proof/Laws/Memory.lean ====
section
/-! SUPPORT. The host's buffers: what a write, a commit, a load and taking a buffer do to every later read, and that each keeps
the canonical form. -/

namespace Sys2Proof.Machine

/-! ### Cells -/

theorem mem_cellsFrom {bs : List Byte} {i : Nat} {c : Host.Cell} (h : c ∈ cellsFrom i bs) :
    i ≤ c.1 ∧ c.1 < i + bs.length := by
  induction bs generalizing i with
  | nil => simp [cellsFrom] at h
  | cons b bs ih =>
    rcases List.mem_cons.1 h with rfl | h
    · simp
    · have := ih h
      simp only [List.length_cons]
      omega

/-- The cell for an index inside the bytes. -/
theorem getElem_mem_cellsFrom {bs : List Byte} {i k : Nat} (h : k < bs.length) :
    (i + k, bs[k]) ∈ cellsFrom i bs := by
  induction bs generalizing i k with
  | nil => simp at h
  | cons b bs ih =>
    cases k with
    | zero => simp [cellsFrom]
    | succ k =>
      have := ih (i := i + 1) (k := k) (by simpa using h)
      simp only [cellsFrom, List.mem_cons, List.getElem_cons_succ]
      right
      rwa [show i + 1 + k = i + (k + 1) by omega] at this

@[simp] theorem putCells_nil (bytes : List Host.Cell) : putCells bytes [] = bytes := rfl

theorem putCells_cons (bytes : List Host.Cell) (c : Host.Cell) (cells : List Host.Cell) :
    putCells bytes (c :: cells) = putCells (Sparse.insert bytes c.1 c.2) cells := rfl

theorem putCells_append (bytes xs ys : List Host.Cell) : putCells bytes (xs ++ ys) = putCells (putCells bytes xs) ys := by
  simp [putCells, List.foldl_append]

/-- An index no cell names reads as before. -/
theorem lookup_putCells_other {cells : List Host.Cell} {i : Nat} (h : ∀ c ∈ cells, c.1 ≠ i) (bytes : List Host.Cell) :
    Sparse.lookup (putCells bytes cells) i = Sparse.lookup bytes i := by
  induction cells generalizing bytes with
  | nil => rfl
  | cons c cells ih =>
    rw [putCells_cons, ih (fun x hx => h x (List.mem_cons_of_mem _ hx)),
      Sparse.lookup_insert_other _ _ (h c (by simp)).symm]

/-- Bytes written one after another are read back. -/
theorem lookup_putCells_cellsFrom (bytes : List Host.Cell) {bs : List Byte} {i k : Nat} (h : k < bs.length) :
    Sparse.lookup (putCells bytes (cellsFrom i bs)) (i + k) = some bs[k] := by
  induction bs generalizing bytes i k with
  | nil => simp at h
  | cons b bs ih =>
    rw [cellsFrom, putCells_cons]
    cases k with
    | zero =>
      rw [lookup_putCells_other (fun c hc => by have := mem_cellsFrom hc; omega)]
      simp
    | succ k =>
      have := ih (Sparse.insert bytes i b) (i := i + 1) (k := k) (by simpa using h)
      rw [show i + 1 + k = i + (k + 1) by omega] at this
      simpa using this

theorem rising_putCells {bytes : List Host.Cell} (h : Sparse.rising bytes = true) (cells : List Host.Cell) :
    Sparse.rising (putCells bytes cells) = true := by
  induction cells generalizing bytes with
  | nil => exact h
  | cons c cells ih => exact ih (Sparse.rising_insert h c.1 c.2)

/-! ### One buffer -/

/-- An index at which the cells show what the list shows already reads as before. -/
theorem lookup_putCells_of_shown {cells bytes : List Host.Cell} {i : Nat}
    (h : ∀ x, (i, x) ∈ cells → Sparse.lookup bytes i = some x) :
    Sparse.lookup (putCells bytes cells) i = Sparse.lookup bytes i := by
  have key (xs : List Host.Cell) (hx : Sparse.lookup xs i = Sparse.lookup bytes i) :
      Sparse.lookup (putCells xs cells) i = Sparse.lookup bytes i := by
    induction cells generalizing xs with
    | nil => exact hx
    | cons c cells ih =>
      refine ih (fun x hc => h x (List.mem_cons_of_mem _ hc)) _ ?_
      by_cases hj : i = c.1
      · subst hj; rw [Sparse.lookup_insert_same, h c.2 (by simp)]
      · rw [Sparse.lookup_insert_other _ _ hj, hx]
  exact key bytes rfl

theorem Buffer.mem_differing {b : Buffer} {cells : List Host.Cell} {i : Nat} :
    i ∈ b.differing cells ↔ ∃ x, (i, x) ∈ cells ∧ b.read? i ≠ some x := by
  simp [Buffer.differing]

/-- Everything a write of cells does to a buffer: nothing, where it shows them already, and else a change whose least
index is that of a cell that differs. -/
theorem Buffer.write_cases (b : Buffer) (cells : List Host.Cell) :
    ((∀ c ∈ cells, b.read? c.1 = some c.2) ∧ b.write cells = b)
      ∨ ∃ least, least ∈ b.differing cells ∧ (∀ i ∈ b.differing cells, least ≤ i)
        ∧ b.write cells = { b with changes := .written least :: b.changes, bytes := putCells b.bytes cells } := by
  unfold Buffer.write
  split
  · rename_i h
    refine .inl ⟨fun c hc => ?_, rfl⟩
    by_contra hn
    have : c.1 ∈ b.differing cells := Buffer.mem_differing.2 ⟨c.2, hc, hn⟩
    rw [List.min?_eq_none_iff.1 h] at this
    cases this
  · rename_i least h
    obtain ⟨h₁, h₂⟩ := List.min?_eq_some_iff.1 h
    exact .inr ⟨least, h₁, h₂, rfl⟩

/-- What is read after a write. -/
theorem Buffer.write_read? (b : Buffer) (cells : List Host.Cell) (i : Nat) :
    (b.write cells).read? i = Sparse.lookup (putCells b.bytes cells) i := by
  rcases b.write_cases cells with ⟨h, hw⟩ | ⟨_, _, _, hw⟩ <;> rw [hw]
  · exact (lookup_putCells_of_shown fun x hx => h _ hx).symm
  · rfl

@[simp] theorem Buffer.write_epoch (b : Buffer) (cells : List Host.Cell) : (b.write cells).epoch = b.epoch := by
  unfold Buffer.write; split <;> rfl

@[simp] theorem Buffer.write_nil (b : Buffer) : b.write [] = b := rfl

@[simp] theorem Buffer.write_holder (b : Buffer) (cells : List Host.Cell) : (b.write cells).holder = b.holder := by
  unfold Buffer.write; split <;> rfl
@[simp] theorem Buffer.write_spoilt (b : Buffer) (cells : List Host.Cell) : (b.write cells).spoilt = b.spoilt := by
  unfold Buffer.write; split <;> rfl

variable (writer : Target)

@[simp] theorem Buffer.take_bytes (b : Buffer) : (b.take writer).bytes = [] := rfl
@[simp] theorem Buffer.take_epoch (b : Buffer) : (b.take writer).epoch = b.epoch + 1 := rfl
@[simp] theorem Buffer.take_holder (b : Buffer) : (b.take writer).holder = some writer := rfl
@[simp] theorem Buffer.take_spoilt (b : Buffer) : (b.take writer).spoilt = [] := rfl
@[simp] theorem Buffer.take_version (b : Buffer) : (b.take writer).version = b.version + 1 := rfl
@[simp] theorem Buffer.take_read? (b : Buffer) (i : Nat) : (b.take writer).read? i = none := rfl

theorem Buffer.wf_write {b : Buffer} (h : b.wf = true) (cells : List Host.Cell) : (b.write cells).wf = true := by
  rcases b.write_cases cells with ⟨_, hw⟩ | ⟨_, _, _, hw⟩ <;> rw [hw]
  · exact h
  · exact rising_putCells h cells

@[simp] theorem Buffer.load_epoch (b : Buffer) (n : Nat) (cells : List Host.Cell) : (b.load n cells).epoch = b.epoch :=
  b.write_epoch cells
@[simp] theorem Buffer.load_holder (b : Buffer) (n : Nat) (cells : List Host.Cell) : (b.load n cells).holder = b.holder :=
  b.write_holder cells
@[simp] theorem Buffer.load_changes (b : Buffer) (n : Nat) (cells : List Host.Cell) :
    (b.load n cells).changes = (b.write cells).changes := rfl

/-- What is read after a load: of the bytes it changes those of the holder's output cannot be named. -/
theorem Buffer.load_read? (b : Buffer) (n : Nat) (cells : List Host.Cell) (i : Nat) :
    (b.load n cells).read? i = if i ∈ b.differing cells ∧ i < n then none else (b.write cells).read? i := by
  simp only [Buffer.load, Buffer.read?]
  rw [Sparse.lookup_filter _ fun k => !((b.differing cells).filter fun i => decide (i < n)).contains k]
  by_cases h : i ∈ b.differing cells ∧ i < n <;> simp [h]

/-- A load into no output is a write. -/
theorem Buffer.load_zero (b : Buffer) (cells : List Host.Cell) : b.load 0 cells = b.write cells := by
  simp only [Buffer.load, Nat.not_lt_zero, decide_false, List.filter_false, List.contains_nil, Bool.not_false,
    List.filter_true, List.nil_append]
  rcases b.write_cases cells with ⟨_, hw⟩ | ⟨_, _, _, hw⟩ <;> rw [hw]

theorem Buffer.wf_load {b : Buffer} (h : b.wf = true) (n : Nat) (cells : List Host.Cell) : (b.load n cells).wf = true :=
  Sparse.rising_filter (Buffer.wf_write h cells) _

theorem Buffer.wf_take (b : Buffer) (writer : Target) : (b.take writer).wf = true := rfl

/-! ### Changes -/

/-- Right after construction no input counts as changed. -/
@[simp] theorem Buffer.changedSince_version (b : Buffer) (n : Nat) : b.changedSince b.version n = false := by
  simp [Buffer.changedSince]

/-- Whether an input counts as changed depends on the list of changes alone. -/
theorem Buffer.changedSince_congr {a b : Buffer} (h : a.changes = b.changes) (version n : Nat) :
    a.changedSince version n = b.changedSince version n := by
  simp [Buffer.changedSince, Buffer.version, h]

/-- One more change, for a reader constructed before it. -/
theorem Buffer.changedSince_cons {a b : Buffer} {change : Change} (hc : a.changes = change :: b.changes) {version : Nat}
    (h : version ≤ b.version) (n : Nat) :
    a.changedSince version n = (change.reaches n || b.changedSince version n) := by
  simp only [Buffer.changedSince, Buffer.version, hc, List.length_cons] at *
  rw [show b.changes.length + 1 - version = b.changes.length - version + 1 by omega, List.take_succ_cons, List.any_cons]

/-- A reader constructed after every change sees none. -/
theorem Buffer.changedSince_of_version_le {b : Buffer} {version : Nat} (h : b.version ≤ version) (n : Nat) :
    b.changedSince version n = false := by
  simp [Buffer.changedSince, Nat.sub_eq_zero_of_le h]

theorem Buffer.version_le_write (b : Buffer) (cells : List Host.Cell) : b.version ≤ (b.write cells).version := by
  rcases b.write_cases cells with ⟨_, hw⟩ | ⟨_, _, _, hw⟩ <;> rw [hw]
  simp [Buffer.version]

/-- A write counts as a change of an input only where a cell lies in it. -/
theorem Buffer.changedSince_write_other {b : Buffer} {cells : List Host.Cell} {n : Nat} (h : ∀ c ∈ cells, n ≤ c.1)
    (version : Nat) : (b.write cells).changedSince version n = b.changedSince version n := by
  rcases b.write_cases cells with ⟨_, hw⟩ | ⟨least, hl, _, hw⟩ <;> rw [hw]
  obtain ⟨x, hx, _⟩ := Buffer.mem_differing.1 hl
  have hn : n ≤ least := h _ hx
  rcases Nat.lt_or_ge b.version version with hv | hv
  · rw [Buffer.changedSince_of_version_le hv.le, Buffer.changedSince_of_version_le (by simp [Buffer.version]; exact hv)]
  · rw [Buffer.changedSince_cons (b := b) rfl hv]
    simp [Change.reaches, Nat.not_lt.2 hn]

/-- A write that shows a byte of an input otherwise counts as a change of it. -/
theorem Buffer.changedSince_write {b : Buffer} {cells : List Host.Cell} {i n version : Nat}
    (h : i ∈ b.differing cells) (hi : i < n) (hv : version ≤ b.version) :
    (b.write cells).changedSince version n = true := by
  rcases b.write_cases cells with ⟨hs, _⟩ | ⟨least, _, hl, hw⟩
  · obtain ⟨x, hx, hn⟩ := Buffer.mem_differing.1 h
    exact absurd (hs _ hx) hn
  · rw [hw, Buffer.changedSince_cons (b := b) rfl hv]
    have := hl i h
    simp only [Change.reaches, Bool.or_eq_true, decide_eq_true_eq]
    omega

/-- A writer that takes the buffer is a change for every reader constructed before. -/
theorem Buffer.changedSince_take {b : Buffer} {version : Nat} (hv : version ≤ b.version) (n : Nat) :
    (b.take writer).changedSince version n = true := by
  rw [Buffer.changedSince_cons (b := b) rfl hv]
  simp [Change.reaches]

/-- An index whose byte no cell shows otherwise is read as before. -/
theorem Buffer.write_read?_of_not_differing {b : Buffer} {cells : List Host.Cell} {i : Nat}
    (h : i ∉ b.differing cells) : (b.write cells).read? i = b.read? i := by
  rw [b.write_read? cells i]
  refine lookup_putCells_of_shown fun x hx => ?_
  by_contra hn
  exact h (Buffer.mem_differing.2 ⟨x, hx, hn⟩)

theorem Buffer.not_differing {b : Buffer} {cells : List Host.Cell} {i : Nat} (h : ∀ c ∈ cells, c.1 ≠ i) :
    i ∉ b.differing cells := by
  intro hd
  obtain ⟨x, hx, _⟩ := Buffer.mem_differing.1 hd
  exact h _ hx rfl

/-- How often an index is spoilt changes only where a load shows its byte otherwise. -/
theorem Buffer.load_spoilt_count {b : Buffer} {cells : List Host.Cell} {i : Nat} (h : i ∉ b.differing cells) (n : Nat) :
    (b.load n cells).spoilt.count i = b.spoilt.count i := by
  simp only [Buffer.load, List.count_append]
  rw [List.count_eq_zero_of_not_mem fun hm => h (List.mem_filter.1 hm).1, Nat.zero_add]

/-! ### The memory -/

@[simp] theorem State.buf_setBuf_same (s : State) (b : Nat) (x : Buffer) : (s.setBuf b x).buf b = x :=
  Sparse.get_set_same _ _ _ _

theorem State.buf_setBuf_other (s : State) {b b' : Nat} (x : Buffer) (h : b' ≠ b) :
    (s.setBuf b x).buf b' = s.buf b' := Sparse.get_set_other _ _ _ h

@[simp] theorem State.buf_writeCells_same (s : State) (b : Nat) (cells : List Host.Cell) :
    (s.writeCells b cells).buf b = (s.buf b).write cells := s.buf_setBuf_same b _

theorem State.buf_writeCells_other (s : State) {b b' : Nat} (cells : List Host.Cell) (h : b' ≠ b) :
    (s.writeCells b cells).buf b' = s.buf b' := s.buf_setBuf_other _ h

@[simp] theorem State.buf_take_same (s : State) (b : Nat) : (s.take b).buf b = (s.buf b).take s.port.target :=
  s.buf_setBuf_same b _

theorem State.buf_take_other (s : State) {b b' : Nat} (h : b' ≠ b) : (s.take b).buf b' = s.buf b' :=
  s.buf_setBuf_other _ h

theorem Memory.wf_buf {s : State} (h : s.mem.wf = true) (b : Nat) : (s.buf b).wf = true := by
  simp only [Memory.wf, Bool.and_eq_true] at h
  exact Sparse.get_of_all (p := Buffer.wf) h.2 rfl b

theorem Memory.wf_setBuf {s : State} (h : s.mem.wf = true) (b : Nat) {x : Buffer} (hx : x.wf = true) :
    (s.setBuf b x).mem.wf = true := by
  simp only [Memory.wf, Bool.and_eq_true] at *
  exact ⟨Sparse.wf_set h.1 b x, Sparse.all_set h.2 b hx⟩

/-- Every memory operation keeps the canonical form: writing cells, -/
theorem Memory.wf_writeCells {s : State} (h : s.mem.wf = true) (b : Nat) (cells : List Host.Cell) :
    (s.writeCells b cells).mem.wf = true := Memory.wf_setBuf h b (Buffer.wf_write (Memory.wf_buf h b) cells)

/-- taking a buffer, -/
theorem Memory.wf_take {s : State} (h : s.mem.wf = true) (b : Nat) : (s.take b).mem.wf = true :=
  Memory.wf_setBuf h b (Buffer.wf_take _ _)

/-- a load by the host, -/
theorem Memory.wf_hostLoad {s : State} (h : s.mem.wf = true) (rest : List Event) (b i : Nat) (bytes : List Byte) :
    (s.hostLoad rest b i bytes).mem.wf = true :=
  Memory.wf_setBuf (s := { s with pending := rest }) h b (Buffer.wf_load (Memory.wf_buf h b) _ _)

/-- and a commit. -/
theorem Memory.wf_commit {s t : State} (h : s.mem.wf = true) {b lOut : Nat} {cells : List Host.Cell}
    (ht : s.commit b lOut cells = .next t) : t.mem.wf = true := by
  unfold State.commit at ht
  split at ht
  · cases ht; exact Memory.wf_writeCells h b cells
  · cases ht

/-- The memory before the first command has the canonical form. -/
theorem Memory.wf_reset : State.reset.mem.wf = true := rfl

/-! ### Reading after a write -/

/-- Everything a write of cells does to a read: the cell's byte, or what was read before. -/
theorem State.readByte_writeCells (s : State) (b b' i : Nat) (cells : List Host.Cell) :
    (s.writeCells b cells).readByte b' i =
      if b' = b then
        (match Sparse.lookup (putCells (s.buf b).bytes cells) i with
          | some x => x
          | none => Config.freeByte b (s.buf b).epoch i ((s.buf b).spoilt.count i))
      else s.readByte b' i := by
  split
  · rename_i h; subst h; simp only [State.readByte, State.buf_writeCells_same, Buffer.write_read?,
      Buffer.write_epoch, Buffer.write_spoilt]; rfl
  · rename_i h; simp [State.readByte, s.buf_writeCells_other cells h]

/-- A write leaves every byte alone that no cell names. -/
theorem State.readByte_writeCells_other (s : State) {b b' i : Nat} {cells : List Host.Cell}
    (h : b' = b → ∀ c ∈ cells, c.1 ≠ i) : (s.writeCells b cells).readByte b' i = s.readByte b' i := by
  rw [State.readByte_writeCells]
  split
  · rename_i hb; subst hb; rw [lookup_putCells_other (h rfl)]; rfl
  · rfl

/-- Bytes written one after another are read back. -/
theorem State.readByte_writeCells_cellsFrom (s : State) (b : Nat) {bs : List Byte} {i k : Nat} (h : k < bs.length) :
    (s.writeCells b (cellsFrom i bs)).readByte b (i + k) = bs[k] := by
  rw [State.readByte_writeCells, if_pos rfl, lookup_putCells_cellsFrom _ h]

/-- What a commit answers: with every cell inside the buffer, the state with the cells written, and otherwise the
fault. -/
theorem State.commit_cases (s : State) (b lOut : Nat) (cells : List Host.Cell) :
    ((∀ c ∈ cells, c.1 < lOut) ∧ s.commit b lOut cells = .next (s.writeCells b cells))
      ∨ ((∃ c ∈ cells, lOut ≤ c.1) ∧ s.commit b lOut cells = .fault .writeOutsideBuffer) := by
  unfold State.commit
  split
  · rename_i h; exact .inl ⟨by simpa using h, rfl⟩
  · rename_i h; exact .inr ⟨by simpa using h, rfl⟩

theorem State.commit_of_inside (s : State) {b lOut : Nat} {cells : List Host.Cell} (h : ∀ c ∈ cells, c.1 < lOut) :
    s.commit b lOut cells = .next (s.writeCells b cells) := by
  simp [State.commit]; exact fun a b hab => h (a, b) hab

theorem State.commit_next {s t : State} {b lOut : Nat} {cells : List Host.Cell} (h : s.commit b lOut cells = .next t) :
    (∀ c ∈ cells, c.1 < lOut) ∧ t = s.writeCells b cells := by
  rcases s.commit_cases b lOut cells with ⟨h₁, h₂⟩ | ⟨_, h₂⟩
  · rw [h₂] at h; cases h; exact ⟨h₁, rfl⟩
  · rw [h₂] at h; cases h

/-- The frame of a write in the words of the claims. -/
theorem State.bytesKeptBut_writeCells (s : State) {b : Nat} {cells : List Host.Cell} {written : Nat → Prop}
    (h : ∀ c ∈ cells, written c.1) : s.bytesKeptBut (s.writeCells b cells) b written := by
  refine ⟨fun b' hb => State.bufferKept_of_buf (s.buf_writeCells_other cells hb), ⟨by simp, by simp⟩,
    fun n hn version => ?_, fun i hi => ?_⟩
  · rw [s.buf_writeCells_same]
    exact Buffer.changedSince_write_other (fun c hc => hn _ (h c hc)) version
  · exact s.readByte_writeCells_other fun _ c hc e => hi (e ▸ h c hc)

/-- Taking a buffer, in the words of the claims. -/
theorem State.bytesGivenUp_take (s : State) (b : Nat) : s.bytesGivenUp (s.take b) b := by
  refine ⟨fun b' hb => State.bufferKept_of_buf (s.buf_take_other hb), by simp [State.holds], fun i => by simp,
    fun version n hv => ?_⟩
  rw [s.buf_take_same]
  exact Buffer.changedSince_take _ hv n

/-- A write after which a byte of an input reads otherwise counts as a change of it. -/
theorem State.changedSince_writeCells (s : State) {b b' j n version : Nat} {cells : List Host.Cell}
    (h : (s.writeCells b cells).readByte b' j ≠ s.readByte b' j) (hj : j < n) (hv : version ≤ (s.buf b').version) :
    ((s.writeCells b cells).buf b').changedSince version n = true := by
  by_cases hb : b' = b
  · subst hb
    rw [s.buf_writeCells_same]
    refine Buffer.changedSince_write (by_contra fun hd => h ?_) hj hv
    simp only [State.readByte, s.buf_writeCells_same, Buffer.write_read?_of_not_differing hd, Buffer.write_epoch,
      Buffer.write_spoilt]
  · exact absurd (s.readByte_writeCells_other fun e => absurd e hb) h

/-- So for taking the buffer. -/
theorem State.changedSince_take (s : State) {b b' j n version : Nat}
    (h : (s.take b).readByte b' j ≠ s.readByte b' j) (hv : version ≤ (s.buf b').version) :
    ((s.take b).buf b').changedSince version n = true := by
  by_cases hb : b' = b
  · subst hb
    rw [s.buf_take_same]
    exact Buffer.changedSince_take _ hv n
  · exact absurd (by simp [State.readByte, s.buf_take_other hb]) h

/-! ### A load by the host -/

section

variable (s : State) (rest : List Event) (b i : Nat) (bytes : List Byte)

@[simp] theorem State.buf_hostLoad_same :
    (s.hostLoad rest b i bytes).buf b = (s.buf b).load (s.outputLen b) (cellsFrom i bytes) :=
  State.buf_setBuf_same { s with pending := rest } b _

theorem State.buf_hostLoad_other {b b' : Nat} (h : b' ≠ b) : (s.hostLoad rest b i bytes).buf b' = s.buf b' :=
  State.buf_setBuf_other { s with pending := rest } _ h

/-- A load leaves every byte alone that it shows no otherwise. -/
theorem State.readByte_hostLoad_of_not_differing {j : Nat} (h : j ∉ (s.buf b).differing (cellsFrom i bytes)) :
    (s.hostLoad rest b i bytes).readByte b j = s.readByte b j := by
  simp [State.readByte, Buffer.load_read?, h, Buffer.write_read?_of_not_differing h, Buffer.load_spoilt_count h]

/-- A byte loaded outside the output of a bit writer or an encoder is read back. -/
theorem State.readByte_hostLoad {k : Nat} (h : k < bytes.length) (ho : s.outputLen b ≤ i + k) :
    (s.hostLoad rest b i bytes).readByte b (i + k) = bytes[k] := by
  simp [State.readByte, Buffer.load_read?, Nat.not_lt.2 ho, Buffer.write_read?, lookup_putCells_cellsFrom _ h]

/-- A byte that a load changes in such an output cannot be named, and the holder has the buffer to itself no more. -/
theorem State.hostLoad_spoils {j : Nat} (h : j ∈ (s.buf b).differing (cellsFrom i bytes)) (ho : j < s.outputLen b) :
    ((s.hostLoad rest b i bytes).buf b).read? j = none ∧ (s.hostLoad rest b i bytes).holds b = false := by
  refine ⟨by simp [Buffer.load_read?, h, ho], ?_⟩
  have : j ∈ ((s.hostLoad rest b i bytes).buf b).spoilt := by
    simp only [State.buf_hostLoad_same, Buffer.load, List.mem_append, List.mem_filter]
    exact .inl ⟨h, by simpa using ho⟩
  simp only [State.holds, List.isEmpty_eq_false_iff.2 (List.ne_nil_of_mem this), Bool.and_false]

/-- A load after which a byte of an input reads otherwise counts as a change of it. -/
theorem State.changedSince_hostLoad {b' j n version : Nat}
    (h : (s.hostLoad rest b i bytes).readByte b' j ≠ s.readByte b' j) (hj : j < n)
    (hv : version ≤ (s.buf b').version) :
    ((s.hostLoad rest b i bytes).buf b').changedSince version n = true := by
  by_cases hb : b' = b
  · subst hb
    rw [s.buf_hostLoad_same, Buffer.changedSince_congr (Buffer.load_changes _ _ _)]
    exact Buffer.changedSince_write
      (by_contra fun hd => h (s.readByte_hostLoad_of_not_differing rest b' i bytes hd)) hj hv
  · exact absurd (by simp [State.readByte, s.buf_hostLoad_other rest i bytes hb]) h

theorem State.version_le_hostLoad (b' : Nat) : (s.buf b').version ≤ ((s.hostLoad rest b i bytes).buf b').version := by
  by_cases hb : b' = b
  · subst hb; rw [s.buf_hostLoad_same]; exact Buffer.version_le_write _ _
  · rw [s.buf_hostLoad_other rest i bytes hb]

end

/-- A buffer's changes are only ever added to. -/
theorem State.version_le_writeCells (s : State) (b b' : Nat) (cells : List Host.Cell) :
    (s.buf b').version ≤ ((s.writeCells b cells).buf b').version := by
  by_cases hb : b' = b
  · subst hb; rw [s.buf_writeCells_same]; exact Buffer.version_le_write _ _
  · rw [s.buf_writeCells_other _ hb]

theorem State.version_le_take (s : State) (b b' : Nat) : (s.buf b').version ≤ ((s.take b).buf b').version := by
  by_cases hb : b' = b
  · subst hb; rw [s.buf_take_same, Buffer.take_version]; omega
  · rw [s.buf_take_other hb]

end Sys2Proof.Machine
end

