-- ==== Sys2Proof/Laws/BitWriter.lean ====
section
/-! SUPPORT. What BW.PUT_VALUE's loop computes (40_bit_packer_unpacker.md R70): the field is added above the accumulator's
bits, the bytes that complete are written from the partial byte's index on, and the rest is the new accumulator. -/

namespace Sys2Proof.Machine

/-- `x'` is `x` with the number `v` of `w` bits appended. -/
def Packing.Appends (x x' : Packing) (w v : Nat) : Prop :=
  ∃ bytes : List Byte,
    x'.wbits = x.wbits + w ∧ x'.cells = x.cells ++ cellsFrom (x.wbits / 8) bytes
      ∧ x.wbits / 8 + bytes.length = (x.wbits + w) / 8 ∧ x'.acc.toNat < 2 ^ (x'.wbits % 8)
      ∧ leNumber bytes + 256 ^ bytes.length * x'.acc.toNat = x.acc.toNat + 2 ^ (x.wbits % 8) * v

theorem Packing.Appends.zero {x : Packing} (h : x.acc.toNat < 2 ^ (x.wbits % 8)) : x.Appends x 0 0 :=
  ⟨[], rfl, by simp [cellsFrom], rfl, h, by simp [leNumber]⟩

theorem Packing.Appends.trans {x y z : Packing} {w w' v v' : Nat} (h : x.Appends y w v) (h' : y.Appends z w' v') :
    x.Appends z (w + w') (v + 2 ^ w * v') := by
  obtain ⟨bs, hw, hc, hl, -, hn⟩ := h
  obtain ⟨bs', hw', hc', hl', ha', hn'⟩ := h'
  rw [hw] at hl' hc' hn'
  refine ⟨bs ++ bs', by omega, ?_, by simp; omega, ha', ?_⟩
  · rw [hc', hc, cellsFrom_append, hl, List.append_assoc]
  · have hp : 256 ^ bs.length * 2 ^ ((x.wbits + w) % 8) = 2 ^ (x.wbits % 8) * 2 ^ w := by
      rw [show 256 = 2 ^ 8 from rfl, ← Nat.pow_mul, ← Nat.pow_add, ← Nat.pow_add]
      congr 1
      omega
    have : 256 ^ bs.length * (2 ^ ((x.wbits + w) % 8) * v') = 2 ^ (x.wbits % 8) * (2 ^ w * v') := by
      rw [← Nat.mul_assoc, hp, Nat.mul_assoc]
    rw [leNumber_append, List.length_append, Nat.pow_add, Nat.mul_add, ← this]
    nlinarith [hn, congrArg (256 ^ bs.length * ·) hn']

/-- Setting a bit above a number's bits adds it. -/
theorem Packing.or_bit {acc : Byte} {k bit : Nat} (h : acc.toNat < 2 ^ k) (hk : k < 8) (hb : bit < 2) :
    (acc ||| BitVec.ofNat 8 (bit * 2 ^ k)).toNat = acc.toNat + 2 ^ k * bit := by
  have hlt : 2 ^ k * bit < 256 := by
    have : 2 ^ k ≤ 2 ^ 7 := Nat.pow_le_pow_right (by omega) (by omega)
    have : 2 ^ k * bit ≤ 2 ^ k * 1 := Nat.mul_le_mul_left _ (by omega)
    omega
  rw [BitVec.toNat_or, BitVec.toNat_ofNat, Nat.mul_comm bit, Nat.mod_eq_of_lt hlt, Nat.or_comm,
    ← Nat.two_pow_add_eq_or_of_lt h, Nat.add_comm]

theorem Packing.pushBit_appends {x : Packing} (h : x.acc.toNat < 2 ^ (x.wbits % 8)) {bit : Nat} (hb : bit < 2) :
    x.Appends (x.pushBit bit) 1 bit := by
  have hk : x.wbits % 8 < 8 := Nat.mod_lt _ (by omega)
  have hor := Packing.or_bit h hk hb
  have hlt : x.acc.toNat + 2 ^ (x.wbits % 8) * bit < 2 ^ (x.wbits % 8 + 1) := by
    have : 2 ^ (x.wbits % 8) * bit ≤ 2 ^ (x.wbits % 8) * 1 := Nat.mul_le_mul_left _ (by omega)
    rw [Nat.pow_succ]; omega
  unfold Packing.pushBit
  dsimp only
  split
  · refine ⟨[x.acc ||| BitVec.ofNat 8 (bit * 2 ^ (x.wbits % 8))], rfl, ?_, ?_, ?_, ?_⟩
    · simp only [cellsFrom, show (x.wbits + 1) / 8 - 1 = x.wbits / 8 by omega]
    · simp; omega
    · simp
    · simp [leNumber, hor]
  · refine ⟨[], rfl, by simp [cellsFrom], by simp; omega, ?_, by simp [leNumber, hor]⟩
    simp only [hor]
    rwa [show (x.wbits + 1) % 8 = x.wbits % 8 + 1 by omega]

/-- BW.PUT_VALUE's loop appends the `w` low bits of `v`. -/
theorem Packing.pushBits_appends (w v : Nat) {x : Packing} (h : x.acc.toNat < 2 ^ (x.wbits % 8)) :
    x.Appends (Packing.pushBits w v x) w (v % 2 ^ w) := by
  induction w generalizing v x with
  | zero => simpa [Packing.pushBits, Nat.mod_one] using Packing.Appends.zero h
  | succ w ih =>
    have hb := Packing.pushBit_appends h (Nat.mod_lt v (by omega : 2 > 0))
    have ha := hb.choose_spec.2.2.2.1
    have := hb.trans (ih (v / 2) ha)
    rwa [Nat.add_comm 1, Nat.pow_one, ← Nat.mod_mul, ← Nat.pow_succ'] at this

/-- Every byte the loop writes is one that completes. -/
theorem Packing.Appends.cells_inside {x x' : Packing} {w v : Nat} (h : x.Appends x' w v) {c : Host.Cell}
    (hc : c ∈ x'.cells) (hx : x.cells = []) : x.wbits / 8 ≤ c.1 ∧ c.1 < (x.wbits + w) / 8 := by
  obtain ⟨bs, -, hcells, hl, -, -⟩ := h
  rw [hcells, hx, List.nil_append] at hc
  have := mem_cellsFrom hc
  omega

/-- The partial byte is inside the capacity. -/
theorem BwCore.partialCell_inside {c : BwCore} (h : ceil8 c.wbits ≤ c.lOut) : ∀ x ∈ c.partialCell, x.1 < c.lOut := by
  intro x hx
  unfold BwCore.partialCell at hx
  unfold ceil8 at h
  split at hx
  · cases hx
  · simp only [List.mem_singleton] at hx
    subst hx
    dsimp only
    omega

end Sys2Proof.Machine
end

