-- ==== Sys2Proof/Laws/Decoder.lean ====
section
/-! SUPPORT. The decoder's look-ahead and TakeOne (43_run_frame_parser.md R129 to R143): what each may change, what it does on
each kind of run, and how the bulk commands are built from single values. -/

namespace Sys2Proof.Machine

variable (policy : PadPolicy) (rd rd' : Nat → Byte) (c : DecCore)

/-! ### The configuration is kept -/

/-- `c'` has the configuration of `c`. -/
structure DecCore.SameConfig (c c' : DecCore) : Prop where
  buf : c'.buf = c.buf
  version : c'.version = c.version
  w : c'.w = c.w
  lIn : c'.lIn = c.lIn

theorem DecCore.SameConfig.refl : c.SameConfig c := ⟨rfl, rfl, rfl, rfl⟩

variable {c} in
theorem DecCore.SameConfig.trans {c' c'' : DecCore} (h : c.SameConfig c') (h' : c'.SameConfig c'') :
    c.SameConfig c'' :=
  ⟨h'.buf.trans h.buf, h'.version.trans h.version, h'.w.trans h.w, h'.lIn.trans h.lIn⟩

/-- Every way a repeated run's header can come out (R130 to R133). -/
theorem DecCore.takeRepeatedRun_cases (count len : Nat) :
    (∃ why, c.takeRepeatedRun policy rd count len = c.die why ∧ why ≠ .none)
      ∨ ∃ v, 1 ≤ count ∧ count ≤ Config.maxCount ∧ c.rbits / 8 + len + cb c.w ≤ c.lIn
        ∧ c.takeRepeatedRun policy rd count len =
          { c with rbits := 8 * (c.rbits / 8 + len + cb c.w), run := .rep v count } := by
  unfold DecCore.takeRepeatedRun
  dsimp only
  split_ifs
  · exact .inl ⟨_, rfl, by simp⟩
  · exact .inl ⟨_, rfl, by simp⟩
  · exact .inl ⟨_, rfl, by simp⟩
  · split
    · exact .inl ⟨_, rfl, by simp⟩
    · exact .inr ⟨_, by omega, by omega, by omega, rfl⟩

/-- Every way a literal run's header can come out (R130, R134). -/
theorem DecCore.takeLiteralRun_cases (groups len : Nat) :
    (∃ why, c.takeLiteralRun groups len = c.die why ∧ why ≠ .none)
      ∨ (1 ≤ groups ∧ 8 * groups ≤ Config.maxCount ∧ (1 ≤ c.w → 8 * groups ≤ (2 ^ 32 - 1) / c.w)
        ∧ c.takeLiteralRun groups len = { c with rbits := 8 * (c.rbits / 8 + len), run := .lit (8 * groups) }) := by
  unfold DecCore.takeLiteralRun
  split_ifs with h0 h1 h2
  · exact .inl ⟨_, rfl, by simp⟩
  · exact .inl ⟨_, rfl, by simp⟩
  · exact .inl ⟨_, rfl, by simp⟩
  · exact .inr ⟨by omega, by omega, fun hw => by by_contra h; exact h2 ⟨hw, by omega⟩, rfl⟩

/-- A header that is no instruction leaves the decoder DEAD where it stands. -/
theorem DecCore.rejectRun_eq_die (why : Reject) : ∃ reason, c.rejectRun why = c.die reason ∧ reason ≠ .none := by
  unfold DecCore.rejectRun
  split
  · split <;> exact ⟨_, rfl, by simp⟩
  · exact ⟨_, rfl, by simp⟩

/-- Everything a header parse can answer (R129): DEAD in place, or a run whose header stood inside the input. -/
theorem DecCore.parseHeader_cases :
    (∃ why, c.parseHeader policy rd = c.die why ∧ why ≠ .none)
      ∨ (∃ v n len, 1 ≤ n ∧ n ≤ Config.maxCount ∧ 1 ≤ len ∧ len ≤ 5 ∧ c.rbits / 8 + len + cb c.w ≤ c.lIn
        ∧ c.parseHeader policy rd = { c with rbits := 8 * (c.rbits / 8 + len + cb c.w), run := .rep v n })
      ∨ ∃ g len, 1 ≤ g ∧ 8 * g ≤ Config.maxCount ∧ (1 ≤ c.w → 8 * g ≤ (2 ^ 32 - 1) / c.w) ∧ 1 ≤ len ∧ len ≤ 5
        ∧ c.rbits / 8 + len ≤ c.lIn
        ∧ c.parseHeader policy rd = { c with rbits := 8 * (c.rbits / 8 + len), run := .lit (8 * g) } := by
  unfold DecCore.parseHeader
  split
  · rename_i i hi
    have hlen (len : Nat) (h1 : 1 ≤ len)
        (h : len ≤ (varintWindow rd c.lIn (c.rbits / 8)).length) : c.rbits / 8 + len ≤ c.lIn := by
      simp only [varintWindow, bytesFrom_length] at h
      omega
    rcases decodeWire_ok hi with ⟨n, len, rfl, h1, h5, h⟩ | ⟨n, len, rfl, h1, h5, h⟩
    · rcases c.takeRepeatedRun_cases policy rd n.toNat len with h' | ⟨v, hn, hm, hq, h'⟩
      · exact .inl h'
      · exact .inr (.inl ⟨v, _, len, hn, hm, h1, h5, hq, h'⟩)
    · rcases c.takeLiteralRun_cases n.toNat len with h' | ⟨hn, hm, hw, h'⟩
      · exact .inl h'
      · exact .inr (.inr ⟨_, len, hn, hm, hw, h1, h5, hlen len h1 h, h'⟩)
  · exact .inl (c.rejectRun_eq_die _)

theorem DecCore.parseHeader_sameConfig : c.SameConfig (c.parseHeader policy rd) := by
  rcases c.parseHeader_cases policy rd with ⟨_, h, -⟩ | ⟨_, _, _, -, -, -, -, -, h⟩ | ⟨_, _, -, -, -, -, -, -, h⟩ <;>
    rw [h] <;> exact ⟨rfl, rfl, rfl, rfl⟩

theorem DecCore.parseHeader_run_ne_empty : (c.parseHeader policy rd).run ≠ .empty := by
  rcases c.parseHeader_cases policy rd with ⟨_, h, -⟩ | ⟨_, _, _, -, -, -, -, -, h⟩ | ⟨_, _, -, -, -, -, -, -, h⟩ <;>
    rw [h] <;> simp [DecCore.die]

/-! ### The look-ahead -/

variable {c} in
theorem DecCore.lookAhead_of_ne {c : DecCore} (h : c.run ≠ .empty) : c.lookAhead policy rd = c := by
  simp [DecCore.lookAhead, h]

variable {c} in
theorem DecCore.lookAhead_of_empty (h : c.run = .empty) : c.lookAhead policy rd = c.parseHeader policy rd := by
  simp [DecCore.lookAhead, h]

theorem DecCore.lookAhead_run_ne_empty : (c.lookAhead policy rd).run ≠ .empty := by
  unfold DecCore.lookAhead
  split
  · exact c.parseHeader_run_ne_empty policy rd
  · assumption

/-- Parsing a header twice is parsing it once. -/
@[simp] theorem DecCore.lookAhead_lookAhead :
    (c.lookAhead policy rd).lookAhead policy rd = c.lookAhead policy rd :=
  DecCore.lookAhead_of_ne policy rd (c.lookAhead_run_ne_empty policy rd)

theorem DecCore.lookAhead_sameConfig : c.SameConfig (c.lookAhead policy rd) := by
  unfold DecCore.lookAhead
  split
  · exact c.parseHeader_sameConfig policy rd
  · exact .refl c

/-! ### One value -/

/-- TakeOne parses first, and then does what it does on the run at hand (R136). -/
theorem DecCore.takeOne_lookAhead : (c.lookAhead policy rd).takeOne policy rd = c.takeOne policy rd := by
  simp only [DecCore.takeOne, DecCore.lookAhead_lookAhead]

variable {c} in
theorem DecCore.takeOne_dead (h : c.run = .dead) : c.takeOne policy rd = (c, none) := by
  simp [DecCore.takeOne, DecCore.lookAhead, h]

variable {c} in
theorem DecCore.takeOne_rep {v : Word64} {n : Nat} (h : c.run = .rep v n) :
    c.takeOne policy rd = ({ c with run := if n = 1 then .empty else .rep v (n - 1) }, some v) := by
  simp [DecCore.takeOne, DecCore.lookAhead, h, Run.afterOne]

variable {c} in
theorem DecCore.takeOne_lit {n : Nat} (h : c.run = .lit n) (hb : c.rbits + c.w ≤ 8 * c.lIn) :
    c.takeOne policy rd = ({ c with rbits := c.rbits + c.w, run := if n = 1 then .empty else .lit (n - 1) },
      some (BitVec.ofNat 64 (inField rd c.rbits c.w))) := by
  simp [DecCore.takeOne, DecCore.lookAhead, h, Run.afterOne, Nat.not_lt.2 hb]

variable {c} in
theorem DecCore.takeOne_lit_cut {n : Nat} (h : c.run = .lit n) (hb : 8 * c.lIn < c.rbits + c.w) :
    c.takeOne policy rd = (c.die .truncated, none) := by
  simp [DecCore.takeOne, DecCore.lookAhead, h, hb]

/-- Everything TakeOne can do, on the decoder whose look-ahead is filled. -/
theorem DecCore.takeOne_cases :
    ((c.lookAhead policy rd).run = .dead ∧ c.takeOne policy rd = (c.lookAhead policy rd, none))
      ∨ (∃ v n, (c.lookAhead policy rd).run = .rep v n ∧ c.takeOne policy rd =
        ({ c.lookAhead policy rd with run := if n = 1 then .empty else .rep v (n - 1) }, some v))
      ∨ (∃ n, (c.lookAhead policy rd).run = .lit n
        ∧ 8 * (c.lookAhead policy rd).lIn < (c.lookAhead policy rd).rbits + (c.lookAhead policy rd).w
        ∧ c.takeOne policy rd = ((c.lookAhead policy rd).die .truncated, none))
      ∨ ∃ n, (c.lookAhead policy rd).run = .lit n
        ∧ (c.lookAhead policy rd).rbits + (c.lookAhead policy rd).w ≤ 8 * (c.lookAhead policy rd).lIn
        ∧ c.takeOne policy rd = ({ c.lookAhead policy rd with
            rbits := (c.lookAhead policy rd).rbits + (c.lookAhead policy rd).w
            run := if n = 1 then .empty else .lit (n - 1) },
          some (BitVec.ofNat 64 (inField rd (c.lookAhead policy rd).rbits (c.lookAhead policy rd).w))) := by
  rw [← DecCore.takeOne_lookAhead]
  cases h : (c.lookAhead policy rd).run with
  | empty => exact absurd h (c.lookAhead_run_ne_empty policy rd)
  | dead => exact .inl ⟨rfl, DecCore.takeOne_dead policy rd h⟩
  | rep v n => exact .inr (.inl ⟨v, n, rfl, DecCore.takeOne_rep policy rd h⟩)
  | lit n =>
    rcases Nat.lt_or_ge (8 * (c.lookAhead policy rd).lIn)
      ((c.lookAhead policy rd).rbits + (c.lookAhead policy rd).w) with hb | hb
    · exact .inr (.inr (.inl ⟨n, rfl, hb, DecCore.takeOne_lit_cut policy rd h hb⟩))
    · exact .inr (.inr (.inr ⟨n, rfl, hb, DecCore.takeOne_lit policy rd h hb⟩))

theorem DecCore.takeOne_sameConfig : c.SameConfig (c.takeOne policy rd).1 := by
  refine (c.lookAhead_sameConfig policy rd).trans ?_
  rcases c.takeOne_cases policy rd with ⟨-, h⟩ | ⟨_, _, -, h⟩ | ⟨_, -, -, h⟩ | ⟨_, -, -, h⟩ <;> rw [h] <;>
    exact ⟨rfl, rfl, rfl, rfl⟩

/-- A value that is not delivered leaves the decoder DEAD. -/
theorem DecCore.takeOne_none (h : (c.takeOne policy rd).2 = none) : (c.takeOne policy rd).1.run = .dead := by
  rcases c.takeOne_cases policy rd with ⟨hd, h'⟩ | ⟨_, _, -, h'⟩ | ⟨_, -, -, h'⟩ | ⟨_, -, -, h'⟩ <;> rw [h'] at h ⊢
  · exact hd
  · cases h
  · rfl
  · cases h

/-! ### Many values -/

variable {c} in
theorem DecCore.takeMany_none {c' : DecCore} (n : Nat) (h : c.takeOne policy rd = (c', none)) :
    c.takeMany policy rd (n + 1) = (c', []) := by rw [DecCore.takeMany, h]

variable {c} in
theorem DecCore.takeMany_some {c' : DecCore} {v : Word64} (n : Nat) (h : c.takeOne policy rd = (c', some v)) :
    c.takeMany policy rd (n + 1) = ((c'.takeMany policy rd n).1, v :: (c'.takeMany policy rd n).2) := by
  rw [DecCore.takeMany, h]

variable {c} in
theorem DecCore.takeMany_dead (n : Nat) (h : c.run = .dead) : c.takeMany policy rd n = (c, []) := by
  cases n with
  | zero => rfl
  | succ n => exact DecCore.takeMany_none policy rd n (DecCore.takeOne_dead policy rd h)

theorem DecCore.takeMany_length_le (n : Nat) : (c.takeMany policy rd n).2.length ≤ n := by
  induction n generalizing c with
  | zero => exact Nat.le_refl _
  | succ n ih =>
    rcases ho : c.takeOne policy rd with ⟨c', _ | v⟩
    · rw [DecCore.takeMany_none policy rd n ho]
      exact Nat.zero_le _
    · rw [DecCore.takeMany_some policy rd n ho]
      exact Nat.succ_le_succ (ih c')

/-- A short count leaves the decoder DEAD. -/
theorem DecCore.takeMany_short {n : Nat} (h : (c.takeMany policy rd n).2.length < n) :
    (c.takeMany policy rd n).1.run = .dead := by
  induction n generalizing c with
  | zero => omega
  | succ n ih =>
    rcases ho : c.takeOne policy rd with ⟨c', _ | v⟩
    · rw [DecCore.takeMany_none policy rd n ho]
      have := c.takeOne_none policy rd (by rw [ho])
      rwa [ho] at this
    · rw [DecCore.takeMany_some policy rd n ho] at h ⊢
      exact ih c' (by simpa using h)

theorem DecCore.takeMany_sameConfig (n : Nat) : c.SameConfig (c.takeMany policy rd n).1 := by
  induction n generalizing c with
  | zero => exact .refl c
  | succ n ih =>
    have h := c.takeOne_sameConfig policy rd
    rcases ho : c.takeOne policy rd with ⟨c', _ | v⟩ <;> rw [ho] at h
    · rw [DecCore.takeMany_none policy rd n ho]
      exact h
    · rw [DecCore.takeMany_some policy rd n ho]
      exact h.trans (ih c')

/-- Taking `a` values and then `b` is taking `a + b` (R148). -/
theorem DecCore.takeMany_add (a b : Nat) :
    c.takeMany policy rd (a + b) =
      (((c.takeMany policy rd a).1.takeMany policy rd b).1,
        (c.takeMany policy rd a).2 ++ ((c.takeMany policy rd a).1.takeMany policy rd b).2) := by
  induction a generalizing c with
  | zero => simp [DecCore.takeMany]
  | succ a ih =>
    rw [Nat.succ_add]
    rcases ho : c.takeOne policy rd with ⟨c', _ | v⟩
    · have hd := c.takeOne_none policy rd (by rw [ho])
      rw [ho] at hd
      rw [DecCore.takeMany_none policy rd _ ho, DecCore.takeMany_none policy rd _ ho,
        DecCore.takeMany_dead policy rd b hd]
      rfl
    · rw [DecCore.takeMany_some policy rd _ ho, DecCore.takeMany_some policy rd _ ho, ih c']
      rfl

/-- Skipping is taking with the values counted (R143). -/
theorem DecCore.skipMany_eq (n : Nat) :
    c.skipMany policy rd n = ((c.takeMany policy rd n).1, (c.takeMany policy rd n).2.length) := by
  induction n generalizing c with
  | zero => rfl
  | succ n ih =>
    rcases ho : c.takeOne policy rd with ⟨c', _ | v⟩
    · rw [DecCore.takeMany_none policy rd n ho, DecCore.skipMany, ho]
      rfl
    · rw [DecCore.takeMany_some policy rd n ho, DecCore.skipMany, ho]
      dsimp only
      rw [ih c']
      rfl

/-! ### Only the input's bytes matter (R146) -/

variable {c rd rd'}

theorem DecCore.takeRepeatedRun_congr (h : ∀ j, j < c.lIn → rd j = rd' j) (count len : Nat) :
    c.takeRepeatedRun policy rd count len = c.takeRepeatedRun policy rd' count len := by
  unfold DecCore.takeRepeatedRun
  dsimp only
  split_ifs with h0 h1 h2
  · rfl
  · rfl
  · rfl
  · rw [bytesFrom_congr rd rd' fun i hi => h _ (by omega)]

theorem DecCore.parseHeader_congr (h : ∀ j, j < c.lIn → rd j = rd' j) :
    c.parseHeader policy rd = c.parseHeader policy rd' := by
  have hv : varintWindow rd c.lIn (c.rbits / 8) = varintWindow rd' c.lIn (c.rbits / 8) :=
    bytesFrom_congr rd rd' fun i hi => h _ (by omega)
  unfold DecCore.parseHeader DecCore.fetchRun
  rw [hv]
  split
  · unfold DecCore.takeRun
    split
    · exact DecCore.takeRepeatedRun_congr policy h _ _
    · rfl
    · rfl
  · rfl

theorem DecCore.lookAhead_congr (h : ∀ j, j < c.lIn → rd j = rd' j) :
    c.lookAhead policy rd = c.lookAhead policy rd' := by
  unfold DecCore.lookAhead
  rw [DecCore.parseHeader_congr policy h]

theorem DecCore.takeOne_congr (h : ∀ j, j < c.lIn → rd j = rd' j) :
    c.takeOne policy rd = c.takeOne policy rd' := by
  have hc := (c.lookAhead_sameConfig policy rd').lIn
  unfold DecCore.takeOne
  dsimp only
  rw [DecCore.lookAhead_congr policy h]
  split
  · rfl
  · rfl
  · rfl
  · split_ifs with hb
    · rfl
    · rw [inField_congr rd rd' fun i hi => inBit_congr rd rd' (h _ (by omega))]

theorem DecCore.takeMany_congr (h : ∀ j, j < c.lIn → rd j = rd' j) (n : Nat) :
    c.takeMany policy rd n = c.takeMany policy rd' n := by
  induction n generalizing c with
  | zero => rfl
  | succ n ih =>
    have hc := (c.takeOne_sameConfig policy rd').lIn
    have ho' := DecCore.takeOne_congr policy h
    rcases ho : c.takeOne policy rd' with ⟨c', _ | v⟩ <;> rw [ho] at ho' hc
    · rw [DecCore.takeMany_none policy rd n ho', DecCore.takeMany_none policy rd' n ho]
    · rw [DecCore.takeMany_some policy rd n ho', DecCore.takeMany_some policy rd' n ho,
        ih fun j hj => h j (by rwa [← hc])]

end Sys2Proof.Machine
end

