-- ==== Sys2Proof/Laws/Encoder.lean ====
section
/-! SUPPORT. The encoder's helper procedures (42_rle_literal_classifier.md R101 to R106, R113, R114): what each does to the
working copy and where it writes; what committing octets one after another adds up to; and that a flush writes exactly
what FlushBytes counted. -/

namespace Sys2Proof.Machine

/-! ### What a procedure may change -/

/-- `d'` comes from `d` by a helper procedure: the configuration is kept, `wpos` only grows, and every byte written lies
between the two positions or is the header byte of the literal run that was open. -/
structure Draft.Extends (d d' : Draft) : Prop where
  buf : d'.enc.buf = d.enc.buf
  w : d'.enc.w = d.enc.w
  m : d'.enc.m = d.enc.m
  t : d'.enc.t = d.enc.t
  lOut : d'.enc.lOut = d.enc.lOut
  wpos : d.enc.wpos ≤ d'.enc.wpos
  cells : ∃ new, d'.cells = d.cells ++ new ∧ ∀ c ∈ new,
    (d.enc.wpos ≤ c.1 ∧ c.1 < d'.enc.wpos) ∨ (d.enc.litOpen = true ∧ c.1 = d.enc.litHdrPos)
  lit : d'.enc.litOpen = true →
    (d.enc.wpos ≤ d'.enc.litHdrPos ∧ d'.enc.litHdrPos < d'.enc.wpos)
      ∨ (d.enc.litOpen = true ∧ d'.enc.litHdrPos = d.enc.litHdrPos)

theorem Draft.Extends.refl (d : Draft) : d.Extends d :=
  ⟨rfl, rfl, rfl, rfl, rfl, Nat.le_refl _, ⟨[], by simp⟩, fun h => .inr ⟨h, rfl⟩⟩

theorem Draft.Extends.trans {d e f : Draft} (h : d.Extends e) (h' : e.Extends f) : d.Extends f := by
  obtain ⟨new, hc, hn⟩ := h.cells
  obtain ⟨new', hc', hn'⟩ := h'.cells
  have hw := h.wpos
  have hw' := h'.wpos
  refine ⟨h'.buf.trans h.buf, h'.w.trans h.w, h'.m.trans h.m, h'.t.trans h.t, h'.lOut.trans h.lOut, by omega,
    ⟨new ++ new', by rw [hc', hc, List.append_assoc], fun c hcm => ?_⟩, fun hl' => ?_⟩
  · rcases List.mem_append.1 hcm with hcm | hcm
    · rcases hn c hcm with ⟨h1, h2⟩ | h1
      · exact .inl ⟨h1, by omega⟩
      · exact .inr h1
    · rcases hn' c hcm with ⟨h1, h2⟩ | ⟨hl, h1⟩
      · exact .inl ⟨by omega, h2⟩
      · rcases h.lit hl with ⟨h2, h3⟩ | ⟨hl0, h2⟩
        · exact .inl ⟨by omega, by omega⟩
        · exact .inr ⟨hl0, by omega⟩
  · rcases h'.lit hl' with ⟨h1, h2⟩ | ⟨hl, h1⟩
    · exact .inl ⟨by omega, h2⟩
    · rcases h.lit hl with ⟨h2, h3⟩ | ⟨hl0, h2⟩
      · exact .inl ⟨by omega, by omega⟩
      · exact .inr ⟨hl0, by omega⟩

/-- Fields that are no part of the output may change freely. -/
theorem Draft.Extends.setFields {d e : Draft} (h : d.Extends e) (mode : EncMode) (repValue : Word64) (repCount : Nat)
    (staged : List Word64) (idle : Bool) :
    d.Extends { e with enc := { e.enc with
      mode := mode, repValue := repValue, repCount := repCount, staged := staged, idle := idle } } :=
  ⟨h.buf, h.w, h.m, h.t, h.lOut, h.wpos, h.cells, h.lit⟩

theorem Draft.append_extends (d : Draft) (bytes : List Byte) : d.Extends (d.append bytes) := by
  refine ⟨rfl, rfl, rfl, rfl, rfl, Nat.le_add_right _ _, ⟨_, rfl, fun c hc => .inl ?_⟩,
    fun h => .inr ⟨h, rfl⟩⟩
  exact mem_cellsFrom hc

theorem Draft.reserveHeader_extends (d : Draft) : d.Extends d.reserveHeader := by
  unfold Draft.reserveHeader
  split
  · exact Draft.Extends.refl d
  · exact ⟨rfl, rfl, rfl, rfl, rfl, Nat.le_add_right _ _, ⟨[], by simp⟩, fun _ => .inl (by dsimp only; omega)⟩

theorem Draft.closeLiteral_extends (d : Draft) : d.Extends d.closeLiteral := by
  unfold Draft.closeLiteral
  split
  · rename_i hl
    exact ⟨rfl, rfl, rfl, rfl, rfl, Nat.le_refl _, ⟨_, rfl, fun c hc => .inr ⟨hl, by simp_all⟩⟩, fun h => by simp at h⟩
  · exact Draft.Extends.refl d

theorem Draft.countGroup_extends (d : Draft) : d.Extends d.countGroup := by
  have h : d.Extends { d with enc := { d.enc with litGroups := d.enc.litGroups + 1 } } :=
    ⟨rfl, rfl, rfl, rfl, rfl, Nat.le_refl _, ⟨[], by simp⟩, fun h => .inr ⟨h, rfl⟩⟩
  unfold Draft.countGroup
  dsimp only
  split
  · exact h.trans (Draft.closeLiteral_extends _)
  · exact h

theorem Draft.commitOctet_extends (d : Draft) (vals : List Word64) : d.Extends (d.commitOctet vals) :=
  (d.reserveHeader_extends.trans (Draft.append_extends _ _)).trans (Draft.countGroup_extends _)

theorem Draft.emitRepeated_extends (d : Draft) (v : Word64) (n : Nat) : d.Extends (d.emitRepeated v n) :=
  (d.append_extends _).trans (Draft.append_extends _ _)

theorem Draft.commitWhile_extends (more : List Word64 → Bool) (fuel : Nat) (d : Draft) :
    d.Extends (Draft.commitWhile more fuel d) := by
  induction fuel generalizing d with
  | zero => exact Draft.Extends.refl d
  | succ fuel ih =>
    rw [Draft.commitWhile]
    split
    · exact ((d.commitOctet_extends _).setFields _ _ _ _ _).trans (ih _)
    · exact Draft.Extends.refl d

theorem Draft.stage_extends (d : Draft) (v : Word64) : d.Extends (d.stage v) := by
  unfold Draft.stage
  dsimp only
  split
  · exact d.closeLiteral_extends.setFields _ _ _ _ _
  · exact ((Draft.Extends.refl d).setFields d.enc.mode d.enc.repValue d.enc.repCount (d.enc.staged ++ [v])
      d.enc.idle).trans (Draft.commitWhile_extends _ _ _)

/-- Everything an accepted value may write (R111). -/
theorem Draft.step_extends (d : Draft) (v : Word64) : d.Extends (d.step v) := by
  unfold Draft.step
  split
  · split
    · exact (Draft.Extends.refl d).setFields d.enc.mode d.enc.repValue _ d.enc.staged d.enc.idle
    · exact ((d.emitRepeated_extends _ _).setFields .staging _ 0 _ _).trans (Draft.stage_extends _ _)
  · exact d.stage_extends v

theorem Draft.flushStaged_extends (d : Draft) : d.Extends d.flushStaged := by
  unfold Draft.flushStaged
  dsimp only
  split
  · exact Draft.commitWhile_extends _ _ _
  · exact (Draft.commitWhile_extends _ _ _).trans ((Draft.commitOctet_extends _ _).setFields _ _ _ _ _)

/-- Everything ENC.FLUSH may write (R114). -/
theorem Draft.flush_extends (d : Draft) : d.Extends d.flush := by
  unfold Draft.flush
  dsimp only
  refine Draft.Extends.setFields (Draft.Extends.trans ?_ (Draft.closeLiteral_extends _)) _ _ _ _ _
  split
  · exact (d.emitRepeated_extends _ _).setFields _ _ _ _ _
  · exact d.flushStaged_extends

/-! ### One octet -/

@[simp] theorem packOctet_length (w : Nat) (vals : List Word64) : (packOctet w vals).length = w := leBytes_length _ _

/-- Between octets a literal run is open exactly when it has a group, and it has fewer than 63. -/
def EncCore.groupsOk (e : EncCore) : Prop := (e.litOpen = true ↔ 1 ≤ e.litGroups) ∧ e.litGroups < 63

theorem EncCore.groupsOk_of_ok {p : Params} {e : EncCore} (h : e.ok p = true) : e.groupsOk := by
  simp only [EncCore.ok, EncCore.litOk, Bool.and_eq_true, beq_iff_eq, decide_eq_true_eq] at h
  obtain ⟨⟨⟨⟨_, ⟨⟨_, h1⟩, h2⟩, _⟩, _⟩, _⟩, _⟩ := h
  exact ⟨by simp [h1], h2⟩

theorem EncCore.afterOctets_groupsOk (e : EncCore) (n : Nat) (staged : List Word64) :
    (e.afterOctets n staged).groupsOk := by
  refine ⟨?_, Nat.mod_lt _ (by omega)⟩
  simp only [EncCore.afterOctets, decide_eq_true_eq]
  omega

/-- No octets at all. -/
theorem EncCore.afterOctets_zero {e : EncCore} (h : e.groupsOk) : e.afterOctets 0 e.staged = e := by
  obtain ⟨_, _, _, _, _, _, _, _, _, litOpen, _, groups, _, _⟩ := e
  obtain ⟨h1, h2⟩ := h
  dsimp only at h1 h2
  have : decide (groups ≠ 0) = litOpen := by
    cases litOpen <;> simp at h1 ⊢ <;> omega
  simp [EncCore.afterOctets, EncCore.headerOf, Nat.mod_eq_of_lt h2, this]

/-- The octets after the first `n` begin where they begin counted from the start. -/
theorem EncCore.octetStart_afterOctets (e : EncCore) (n q : Nat) (staged : List Word64) :
    (e.afterOctets n staged).octetStart q = e.octetStart (n + q) := by
  simp only [EncCore.octetStart, EncCore.afterOctets, Nat.add_mul]
  omega

theorem EncCore.headerOf_afterOctets {e : EncCore} (h : e.groupsOk) (n m : Nat) (staged : List Word64) :
    (e.afterOctets n staged).headerOf m = e.headerOf (n + m) := by
  obtain ⟨h1, h2⟩ := h
  rcases Nat.eq_zero_or_pos m with rfl | hm
  · simp [EncCore.headerOf, EncCore.afterOctets]
  rw [EncCore.headerOf, EncCore.octetStart_afterOctets]
  have hG : (e.afterOctets n staged).litGroups = (e.litGroups + n) % 63 := rfl
  have hO : (e.afterOctets n staged).litOpen = true ↔ (e.litGroups + n) % 63 ≠ 0 := by simp [EncCore.afterOctets]
  have hH : (e.afterOctets n staged).litHdrPos = e.headerOf n := rfl
  simp only [hG, hO, hH]
  split
  · rename_i hc
    simp only [EncCore.headerOf, h1]
    by_cases hn : n = 0 ∨ (1 ≤ e.litGroups ∧ e.litGroups + n ≤ 63)
    · rw [if_pos hn, if_pos (by omega)]
    · rw [if_neg hn, if_neg (by omega),
        show (e.litGroups + (n + m) - 1) / 63 = (e.litGroups + n - 1) / 63 by omega]
  · rename_i hc
    simp only [EncCore.headerOf, h1]
    rw [if_neg (by omega)]
    congr 2
    omega

/-- Octets committed in two goes. -/
theorem EncCore.afterOctets_afterOctets {e : EncCore} (h : e.groupsOk) (n m : Nat) (st st' : List Word64) :
    (e.afterOctets n st).afterOctets m st' = e.afterOctets (n + m) st' := by
  have hh := e.headerOf_afterOctets h n m st
  rw [EncCore.afterOctets, hh]
  simp only [EncCore.afterOctets, Nat.add_mul, EncCore.mk.injEq, true_and, and_true]
  refine ⟨?_, ?_, ?_⟩
  · congr 1; simp only [ne_eq, eq_iff_iff]; omega
  · omega
  · omega

/-- CommitOctet (R102) on the fields. -/
theorem Draft.commitOctet_enc {d : Draft} (h : d.enc.groupsOk) (vals : List Word64) :
    (d.commitOctet vals).enc = d.enc.afterOctets 1 d.enc.staged := by
  obtain ⟨⟨_, _, _, _, _, _, _, _, _, litOpen, _, groups, _, _⟩, cells⟩ := d
  obtain ⟨h1, h2⟩ := h
  dsimp only at h1 h2
  cases litOpen with
  | false =>
    have hg : groups = 0 := by simp at h1; omega
    subst hg
    simp [Draft.commitOctet, Draft.reserveHeader, Draft.append, Draft.countGroup, EncCore.afterOctets,
      EncCore.headerOf, EncCore.octetStart, Config.maxLiteralGroups]
    omega
  | true =>
    have hg : 1 ≤ groups := by simpa using h1
    simp only [Draft.commitOctet, Draft.reserveHeader, Draft.append, Draft.countGroup, EncCore.afterOctets,
      EncCore.headerOf, Config.maxLiteralGroups, Draft.closeLiteral, packOctet_length, if_true]
    split
    · rename_i h63
      rw [if_pos (by simp; omega)]
      simp [show groups = 62 by omega]
    · rw [if_pos (by simp; omega)]
      simp only [EncCore.mk.injEq, true_and, and_true, Nat.mod_eq_of_lt (show groups + 1 < 63 by omega)]
      exact ⟨by simp, by omega⟩

/-- CommitOctet (R102) on the bytes: the octet, and the header byte when the run has its 63 groups. -/
theorem Draft.commitOctet_cells {d : Draft} (h : d.enc.groupsOk) (vals : List Word64) :
    (d.commitOctet vals).cells = d.cells ++ (cellsFrom (d.enc.octetStart 0) (packOctet d.enc.w vals)
      ++ if (d.enc.litGroups + 1) % 63 = 0 then [(d.enc.headerOf 1, 127)] else []) := by
  obtain ⟨⟨_, _, _, _, _, _, _, _, _, litOpen, _, groups, wpos, _⟩, cells⟩ := d
  obtain ⟨h1, h2⟩ := h
  dsimp only at h1 h2
  cases litOpen with
  | false =>
    have hg : groups = 0 := by simp at h1; omega
    subst hg
    simp [Draft.commitOctet, Draft.reserveHeader, Draft.append, Draft.countGroup, EncCore.octetStart,
      Config.maxLiteralGroups]
  | true =>
    have hg : 1 ≤ groups := by simpa using h1
    have hs : wpos + ((groups + 1 + 62) / 63 - (groups + 62) / 63) = wpos := by omega
    simp only [Draft.commitOctet, Draft.reserveHeader, Draft.append, Draft.countGroup, EncCore.octetStart,
      EncCore.headerOf, Config.maxLiteralGroups, Draft.closeLiteral, if_true, Nat.zero_mul, Nat.add_zero, Nat.zero_add, hs]
    split
    · rename_i h63
      rw [if_pos (by omega), if_pos (by simp; omega), List.append_assoc, h63]
      rfl
    · rw [if_neg (by omega)]
      simp

/-! ### Octets one after another -/

/-- The bytes written for the first `n` octets of `vals`, committed from the state `e` on. -/
def EncCore.octetCells (e : EncCore) (vals : List Word64) (n : Nat) : List Host.Cell :=
  (List.range n).flatMap fun q =>
    cellsFrom (e.octetStart q) (packOctet e.w ((vals.drop (8 * q)).take 8))
      ++ if (e.litGroups + q + 1) % 63 = 0 then [(e.headerOf (q + 1), 127)] else []

@[simp] theorem EncCore.octetCells_zero (e : EncCore) (vals : List Word64) : e.octetCells vals 0 = [] := rfl

/-- The first octet, and then the others from the state after it. -/
theorem EncCore.octetCells_succ {e : EncCore} (h : e.groupsOk) (vals st : List Word64) (n : Nat) :
    e.octetCells vals (n + 1) = (cellsFrom (e.octetStart 0) (packOctet e.w (vals.take 8))
      ++ if (e.litGroups + 1) % 63 = 0 then [(e.headerOf 1, 127)] else [])
      ++ (e.afterOctets 1 st).octetCells (vals.drop 8) n := by
  rw [EncCore.octetCells, List.range_succ_eq_map, List.flatMap_cons, List.flatMap_map]
  simp only [EncCore.octetCells, Nat.mul_zero, List.drop_zero, Nat.add_zero, Nat.zero_add]
  congr 1
  refine List.flatMap_congr fun q _ => ?_
  have hw : (e.afterOctets 1 st).w = e.w := rfl
  have hG : (e.afterOctets 1 st).litGroups = (e.litGroups + 1) % 63 := rfl
  rw [EncCore.octetStart_afterOctets, EncCore.headerOf_afterOctets h, hw, hG, List.drop_drop,
    show 8 * q.succ = 8 + 8 * q by omega, show q.succ = 1 + q by omega, show 1 + q + 1 = 1 + (q + 1) by omega]
  congr 1
  exact if_congr (by omega) rfl rfl

/-- The last octet, from the state before it. -/
theorem EncCore.octetCells_append (e : EncCore) (vals : List Word64) (n : Nat) :
    e.octetCells vals (n + 1) = e.octetCells vals n
      ++ (cellsFrom (e.octetStart n) (packOctet e.w ((vals.drop (8 * n)).take 8))
        ++ if (e.litGroups + n + 1) % 63 = 0 then [(e.headerOf (n + 1), 127)] else []) := by
  simp [EncCore.octetCells, List.range_succ]

/-- Values past the octets do not matter. -/
theorem EncCore.octetCells_congr (e : EncCore) {vals vals' : List Word64} {n : Nat}
    (h : ∀ q, q < n → (vals.drop (8 * q)).take 8 = (vals'.drop (8 * q)).take 8) :
    e.octetCells vals n = e.octetCells vals' n :=
  List.flatMap_congr fun q hq => by rw [h q (List.mem_range.1 hq)]

/-- What the loops over `B` do (R106, R114): a number of whole octets are committed. -/
theorem Draft.commitWhile_spec (more : List Word64 → Bool) (fuel : Nat) {d : Draft} (h : d.enc.groupsOk) :
    ∃ n, 8 * n ≤ d.enc.staged.length
      ∧ (Draft.commitWhile more fuel d).enc = d.enc.afterOctets n (d.enc.staged.drop (8 * n))
      ∧ (Draft.commitWhile more fuel d).cells = d.cells ++ d.enc.octetCells d.enc.staged n := by
  induction fuel generalizing d with
  | zero => exact ⟨0, by omega, (EncCore.afterOctets_zero h).symm, by simp [Draft.commitWhile]⟩
  | succ fuel ih =>
    rw [Draft.commitWhile]
    split
    · rename_i hc
      simp only [Bool.and_eq_true, decide_eq_true_eq] at hc
      have key (x : Draft) (hx : x.enc = d.enc.afterOctets 1 (d.enc.staged.drop 8))
          (hxc : x.cells = (d.commitOctet (d.enc.staged.take 8)).cells) :
          ∃ n, 8 * n ≤ d.enc.staged.length
            ∧ (Draft.commitWhile more fuel x).enc = d.enc.afterOctets n (d.enc.staged.drop (8 * n))
            ∧ (Draft.commitWhile more fuel x).cells = d.cells ++ d.enc.octetCells d.enc.staged n := by
        obtain ⟨n, h1, h2, h3⟩ := ih (d := x) (by rw [hx]; exact EncCore.afterOctets_groupsOk _ _ _)
        have hst : (d.enc.afterOctets 1 (d.enc.staged.drop 8)).staged = d.enc.staged.drop 8 := rfl
        rw [hx, hst, List.length_drop] at h1
        rw [hx, hst, EncCore.afterOctets_afterOctets h, List.drop_drop, show 8 + 8 * n = 8 * (1 + n) by omega] at h2
        rw [hx, hst, hxc, Draft.commitOctet_cells h, List.append_assoc, ← EncCore.octetCells_succ h] at h3
        exact ⟨1 + n, by omega, h2, by rw [h3, Nat.add_comm]⟩
      exact key _ (by rw [Draft.commitOctet_enc h]; rfl) rfl
    · exact ⟨0, by omega, (EncCore.afterOctets_zero h).symm, by simp⟩

/-- How many values the flush's loop leaves staged. -/
theorem Draft.commitWhile_all_staged (fuel : Nat) {d : Draft} (h : d.enc.staged.length ≤ fuel) :
    (Draft.commitWhile (fun _ => true) fuel d).enc.staged.length = d.enc.staged.length % 8 := by
  induction fuel generalizing d with
  | zero => simp [Draft.commitWhile, show d.enc.staged.length = 0 by omega]
  | succ fuel ih =>
    rw [Draft.commitWhile]
    split
    · rename_i hc
      simp only [Bool.and_true, decide_eq_true_eq] at hc
      rw [ih (by simp only [List.length_drop]; omega)]
      simp only [List.length_drop]
      omega
    · rename_i hc
      simp only [Bool.and_true, decide_eq_true_eq] at hc
      omega

/-! ### Emitting a repeated run, and the flush -/

/-- EmitRepeated (R104) on the fields. -/
theorem Draft.emitRepeated_enc (d : Draft) (v : Word64) {n : Nat} (h : 2 * n < 2 ^ 32) :
    (d.emitRepeated v n).enc = { d.enc with wpos := d.enc.wpos + (ulebLen (2 * n) + cb d.enc.w) } := by
  simp [Draft.emitRepeated, Draft.append, ulebEncode_length h, Nat.add_assoc]

/-- EmitRepeated (R104) on the bytes. -/
theorem Draft.emitRepeated_cells (d : Draft) (v : Word64) (n : Nat) :
    (d.emitRepeated v n).cells = d.cells ++ cellsFrom d.enc.wpos (ulebEncode (2 * n))
      ++ cellsFrom (d.enc.wpos + (ulebEncode (2 * n)).length) (leBytes (cb d.enc.w) v.toNat) := rfl

/-- CloseLiteral (R103) on the fields. -/
theorem Draft.closeLiteral_enc {d : Draft} (h : d.enc.groupsOk) :
    d.closeLiteral.enc = { d.enc with litOpen := false, litGroups := 0 } := by
  obtain ⟨⟨_, _, _, _, _, _, _, _, _, litOpen, _, groups, _, _⟩, cells⟩ := d
  obtain ⟨h1, h2⟩ := h
  cases litOpen with
  | false => simp [Draft.closeLiteral]; simp at h1; omega
  | true => simp [Draft.closeLiteral]

/-- CloseLiteral (R103) on the bytes. -/
theorem Draft.closeLiteral_cells {d : Draft} (h : d.enc.groupsOk) :
    d.closeLiteral.cells = d.cells
      ++ if d.enc.litGroups = 0 then [] else [(d.enc.litHdrPos, BitVec.ofNat 8 (2 * d.enc.litGroups + 1))] := by
  obtain ⟨h1, h2⟩ := h
  unfold Draft.closeLiteral
  split
  · rename_i hl
    rw [if_neg (by have := h1.1 hl; omega)]
  · rename_i hl
    rw [if_pos (by by_contra hn; exact hl (h1.2 (by omega)))]
    simp

/-- The staged values as a flush commits them: filled up with zeros to whole octets (R114). -/
def EncCore.padded (e : EncCore) : List Word64 :=
  e.staged ++ List.replicate (8 * ceil8 e.staged.length - e.staged.length) 0

/-- The flush of a staging encoder (R114), before the literal run is closed: it commits the staged values, filled up
with zeros, as whole octets. -/
theorem Draft.flushStaged_spec {d : Draft} (h : d.enc.groupsOk) :
    d.flushStaged.enc = d.enc.afterOctets (ceil8 d.enc.staged.length) []
      ∧ d.flushStaged.cells = d.cells ++ d.enc.octetCells d.enc.padded (ceil8 d.enc.staged.length) := by
  have hl := Draft.commitWhile_all_staged d.enc.staged.length (Nat.le_refl _) (d := d)
  obtain ⟨n, h1, h2, h3⟩ := Draft.commitWhile_spec (fun _ => true) d.enc.staged.length h
  have hst : (Draft.commitWhile (fun _ => true) d.enc.staged.length d).enc.staged = d.enc.staged.drop (8 * n) := by
    rw [h2]; rfl
  rw [hst, List.length_drop] at hl
  have hcells : d.enc.octetCells d.enc.staged n = d.enc.octetCells d.enc.padded n :=
    d.enc.octetCells_congr fun q hq => by
      rw [EncCore.padded, List.drop_append_of_le_length (by omega), List.take_append_of_le_length (by simp; omega)]
  unfold Draft.flushStaged
  dsimp only
  rw [hst]
  split
  · rename_i h0
    rw [List.length_drop] at h0
    have hn : ceil8 d.enc.staged.length = n := by unfold ceil8; omega
    rw [hn, h2, h3, hcells, List.length_eq_zero_iff.1 (show (d.enc.staged.drop (8 * n)).length = 0 by simp; omega)]
    exact ⟨rfl, rfl⟩
  · rename_i h0
    rw [List.length_drop] at h0
    have hn : ceil8 d.enc.staged.length = n + 1 := by unfold ceil8; omega
    have hg : (Draft.commitWhile (fun _ => true) d.enc.staged.length d).enc.groupsOk := by
      rw [h2]; exact EncCore.afterOctets_groupsOk _ _ _
    refine ⟨?_, ?_⟩
    · rw [Draft.commitOctet_enc hg, h2, EncCore.afterOctets_afterOctets h, hn]
      rfl
    · dsimp only
      rw [Draft.commitOctet_cells hg, h3, h2, hcells, hn, EncCore.octetCells_append, EncCore.octetStart_afterOctets,
        EncCore.headerOf_afterOctets h, List.append_assoc]
      have hw : (d.enc.afterOctets n (d.enc.staged.drop (8 * n))).w = d.enc.w := rfl
      have hG : (d.enc.afterOctets n (d.enc.staged.drop (8 * n))).litGroups = (d.enc.litGroups + n) % 63 := rfl
      rw [hw, hG]
      congr 2
      congr 1
      · congr 2
        rw [EncCore.padded, List.drop_append_of_le_length (by omega), List.length_drop,
          List.take_of_length_le (by simp; omega)]
        congr 2
        omega
      · exact if_congr (by omega) rfl rfl

/-- FlushBytes of a staging encoder (R113) is what its octets move `wpos` by. -/
theorem EncCore.flushBytes_staging {e : EncCore} (hi : e.idle = false) (hm : e.mode = .staging) (st : List Word64) :
    e.wpos + e.flushBytes = (e.afterOctets (ceil8 e.staged.length) st).wpos := by
  simp [EncCore.flushBytes, EncCore.afterOctets, hi, hm, Nat.add_assoc]

/-- ENC.FLUSH on the fields (R114): `wpos` moves by FlushBytes, nothing is pending, and the encoder is idle. -/
theorem Draft.flush_enc {d : Draft} (h : d.enc.groupsOk) (hi : d.enc.idle = false)
    (hs : d.enc.mode = .staging → d.enc.repCount = 0)
    (hr : d.enc.mode = .repeating → d.enc.staged = [] ∧ 2 * d.enc.repCount < 2 ^ 32) :
    d.flush.enc = { d.enc with
      mode := .staging, staged := [], repCount := 0, litOpen := false
      litHdrPos := d.enc.headerOf (ceil8 d.enc.staged.length), litGroups := 0
      wpos := d.enc.wpos + d.enc.flushBytes, idle := true } := by
  unfold Draft.flush
  dsimp only
  split
  · rename_i hm
    obtain ⟨h1, h2⟩ := hr hm
    have hc := Draft.closeLiteral_enc (d := { d.emitRepeated d.enc.repValue d.enc.repCount with
      enc := { (d.emitRepeated d.enc.repValue d.enc.repCount).enc with mode := .staging, repCount := 0 } })
      (by rw [Draft.emitRepeated_enc _ _ h2]; exact h)
    rw [hc]
    simp only [Draft.emitRepeated_enc _ _ h2]
    simp [EncCore.flushBytes, EncCore.headerOf, hi, hm, h1, ceil8]
  · rename_i hm
    obtain ⟨h1, h2⟩ := Draft.flushStaged_spec h
    rw [Draft.closeLiteral_enc (by rw [h1]; exact EncCore.afterOctets_groupsOk _ _ _), h1,
      EncCore.flushBytes_staging hi hm []]
    simp [EncCore.afterOctets, hm, hs hm]

end Sys2Proof.Machine
end

