-- ==== Sys2Proof/Laws/Ops.lean ====
section
/-! SUPPORT. The units by name, the refusal, and what handing a command to its unit can answer. -/

namespace Sys2Proof.Machine

variable (s : State)

/-! ### Units: reading after a write -/

@[simp] theorem State.bw_setBw_same (id : Nat) (u : Slot BwCore) : (s.setBw id u).bw id = u :=
  Sparse.get_set_same _ _ _ _
@[simp] theorem State.br_setBr_same (id : Nat) (u : Slot BrCore) : (s.setBr id u).br id = u :=
  Sparse.get_set_same _ _ _ _
@[simp] theorem State.enc_setEnc_same (id : Nat) (u : Slot EncCore) : (s.setEnc id u).enc id = u :=
  Sparse.get_set_same _ _ _ _
@[simp] theorem State.dec_setDec_same (id : Nat) (u : Slot DecCore) : (s.setDec id u).dec id = u :=
  Sparse.get_set_same _ _ _ _

theorem State.bw_setBw_other {id j : Nat} (u : Slot BwCore) (h : j ≠ id) : (s.setBw id u).bw j = s.bw j :=
  Sparse.get_set_other _ _ _ h
theorem State.br_setBr_other {id j : Nat} (u : Slot BrCore) (h : j ≠ id) : (s.setBr id u).br j = s.br j :=
  Sparse.get_set_other _ _ _ h
theorem State.enc_setEnc_other {id j : Nat} (u : Slot EncCore) (h : j ≠ id) : (s.setEnc id u).enc j = s.enc j :=
  Sparse.get_set_other _ _ _ h
theorem State.dec_setDec_other {id j : Nat} (u : Slot DecCore) (h : j ≠ id) : (s.setDec id u).dec j = s.dec j :=
  Sparse.get_set_other _ _ _ h

@[simp] theorem State.putBw_bwIs (c : BwCore) : (s.putBw c).bw s.port.target.id = Slot.running c :=
  s.bw_setBw_same _ _
@[simp] theorem State.putBr_brIs (c : BrCore) : (s.putBr c).br s.port.target.id = Slot.running c :=
  s.br_setBr_same _ _
@[simp] theorem State.putEnc_encIs (e : EncCore) : (s.putEnc e).enc s.port.target.id = Slot.running e :=
  s.enc_setEnc_same _ _
@[simp] theorem State.putDec_decIs (c : DecCore) : (s.putDec c).dec s.port.target.id = Slot.running c :=
  s.dec_setDec_same _ _

/-! ### Slots -/

@[simp] theorem Slot.ready_running {α : Type} (c : α) : (Slot.running c).ready = some c := rfl
@[simp] theorem Slot.core_running {α : Type} (c : α) : (Slot.running c).core = some c := rfl
@[simp] theorem Slot.core_marked {α : Type} (u : Slot α) : u.marked.core = u.core := rfl
@[simp] theorem Slot.refused_marked {α : Type} (u : Slot α) : u.marked.refused = true := rfl
@[simp] theorem Slot.core_unbuilt {α : Type} : (Slot.unbuilt : Slot α).core = none := rfl

/-- A unit is ready exactly when it is running. -/
theorem Slot.ready_eq_some {α : Type} {u : Slot α} {c : α} : u.ready = some c ↔ u = Slot.running c := by
  rcases u with ⟨refused, core⟩
  cases refused <;> simp [Slot.ready, Slot.running]

theorem Slot.running_ne_unbuilt {α : Type} (c : α) : Slot.running c ≠ Slot.unbuilt := by
  simp [Slot.running, Slot.unbuilt]

/-- Giving a unit two states in turn is giving it the second. -/
theorem State.putDec_putDec (c d : DecCore) : (s.putDec c).putDec d = s.putDec d := by
  simp [State.putDec, State.setDec, Sparse.set_set _ (Slot.running_ne_unbuilt c) (Slot.running_ne_unbuilt d)]

/-! ### Whose a buffer is -/

section

variable {s} {t : State} {b : Nat}

theorem State.holds_congr (h : t.buf b = s.buf b) (hp : t.port = s.port) : t.holds b = s.holds b := by
  simp [State.holds, h, hp]

/-- A write changes no buffer's holder. -/
@[simp] theorem State.holds_writeCells (b' : Nat) (cells : List Host.Cell) :
    (s.writeCells b' cells).holds b = s.holds b := by
  by_cases h : b = b'
  · subst h; simp [State.holds]
  · exact State.holds_congr (s.buf_writeCells_other cells h) rfl

/-- A unit that has just taken a buffer has it to itself. -/
@[simp] theorem State.holds_take : (s.take b).holds b = true := by simp [State.holds]

theorem State.outputOf_congr (h : t.buf b = s.buf b) (hb : t.bws = s.bws) (he : t.encs = s.encs) :
    t.outputOf b = s.outputOf b := by
  simp only [State.outputOf, h, State.bw_congr hb, State.enc_congr he]

/-- A buffer that a bit writer has taken, and still uses, is its output. -/
theorem State.outputOf_bw {id : Nat} {c : BwCore} (h : (s.bw id).core = some c)
    (hh : (s.buf c.buf).holder = some { kind := .bw, id := id }) : s.outputOf c.buf = some (c.lOut, c.flushed) := by
  simp [State.outputOf, hh, h]

/-- So for an encoder. -/
theorem State.outputOf_enc {id : Nat} {e : EncCore} (h : (s.enc id).core = some e)
    (hh : (s.buf e.buf).holder = some { kind := .enc, id := id }) : s.outputOf e.buf = some (e.lOut, e.idle) := by
  simp [State.outputOf, hh, h]

theorem State.outputLen_of_outputOf {n : Nat} {flushed : Bool} (h : s.outputOf b = some (n, flushed)) :
    s.outputLen b = n := by simp [State.outputLen, h]

theorem State.inUse_of_outputOf {n : Nat} {flushed : Bool} (h : s.outputOf b = some (n, flushed)) :
    s.inUse b = !flushed := by simp [State.inUse, h]

end

/-! ### The frame: what every update keeps -/

variable {s}

theorem State.othersKept_refl : s.othersKept s := by simp [State.othersKept]

theorem State.othersKept_trans {t u : State} (h : s.othersKept t) (h' : t.othersKept u) : s.othersKept u := by
  obtain ⟨h₁, h₂, h₃, h₄, h₅, h₆, h₇⟩ := h
  obtain ⟨k₁, k₂, k₃, k₄, k₅, k₆, k₇⟩ := h'
  rw [h₃] at k₄ k₅ k₆ k₇
  exact ⟨k₁.trans h₁, k₂.trans h₂, k₃.trans h₃, fun i hi => (k₄ i hi).trans (h₄ i hi),
    fun i hi => (k₅ i hi).trans (h₅ i hi), fun i hi => (k₆ i hi).trans (h₆ i hi),
    fun i hi => (k₇ i hi).trans (h₇ i hi)⟩

/-- A change of memory and response alone keeps the others. -/
theorem State.othersKept_of_eq {t : State} (h₁ : t.params = s.params) (h₂ : t.pending = s.pending)
    (h₃ : t.port = s.port) (h₄ : t.bws = s.bws) (h₅ : t.brs = s.brs) (h₆ : t.encs = s.encs) (h₇ : t.decs = s.decs) :
    s.othersKept t :=
  ⟨h₁, h₂, h₃, fun i _ => State.bw_congr h₄ i, fun i _ => State.br_congr h₅ i, fun i _ => State.enc_congr h₆ i,
    fun i _ => State.dec_congr h₇ i⟩

theorem State.othersKept_respond (st : Status) (r : Option Word64) (vs : List Word64) :
    s.othersKept (s.respond st r vs) := State.othersKept_of_eq rfl rfl rfl rfl rfl rfl rfl

theorem State.othersKept_writeCells (b : Nat) (cells : List Host.Cell) : s.othersKept (s.writeCells b cells) :=
  State.othersKept_of_eq rfl rfl rfl rfl rfl rfl rfl

theorem State.othersKept_take (b : Nat) : s.othersKept (s.take b) :=
  State.othersKept_of_eq rfl rfl rfl rfl rfl rfl rfl

theorem State.othersKept_setBw (h : s.port.target.kind = .bw) (u : Slot BwCore) :
    s.othersKept (s.setBw s.port.target.id u) := by
  refine ⟨rfl, rfl, rfl, fun i hi => s.bw_setBw_other u ?_, fun _ _ => rfl, fun _ _ => rfl, fun _ _ => rfl⟩
  rintro rfl; exact hi (by rw [← h])

theorem State.othersKept_setBr (h : s.port.target.kind = .br) (u : Slot BrCore) :
    s.othersKept (s.setBr s.port.target.id u) := by
  refine ⟨rfl, rfl, rfl, fun _ _ => rfl, fun i hi => s.br_setBr_other u ?_, fun _ _ => rfl, fun _ _ => rfl⟩
  rintro rfl; exact hi (by rw [← h])

theorem State.othersKept_setEnc (h : s.port.target.kind = .enc) (u : Slot EncCore) :
    s.othersKept (s.setEnc s.port.target.id u) := by
  refine ⟨rfl, rfl, rfl, fun _ _ => rfl, fun _ _ => rfl, fun i hi => s.enc_setEnc_other u ?_, fun _ _ => rfl⟩
  rintro rfl; exact hi (by rw [← h])

theorem State.othersKept_setDec (h : s.port.target.kind = .dec) (u : Slot DecCore) :
    s.othersKept (s.setDec s.port.target.id u) := by
  refine ⟨rfl, rfl, rfl, fun _ _ => rfl, fun _ _ => rfl, fun _ _ => rfl, fun i hi => s.dec_setDec_other u ?_⟩
  rintro rfl; exact hi (by rw [← h])

/-- A command that writes its unit's state and answers keeps the rest. -/
theorem State.othersKept_putBw (h : s.port.target.kind = .bw) (c : BwCore) (st : Status) (r : Option Word64)
    (vs : List Word64) : s.othersKept ((s.putBw c).respond st r vs) :=
  State.othersKept_trans (State.othersKept_setBw h _) (State.othersKept_respond st r vs)

theorem State.othersKept_putBr (h : s.port.target.kind = .br) (c : BrCore) (st : Status) (r : Option Word64)
    (vs : List Word64) : s.othersKept ((s.putBr c).respond st r vs) :=
  State.othersKept_trans (State.othersKept_setBr h _) (State.othersKept_respond st r vs)

theorem State.othersKept_putEnc (h : s.port.target.kind = .enc) (e : EncCore) (st : Status) (r : Option Word64)
    (vs : List Word64) : s.othersKept ((s.putEnc e).respond st r vs) :=
  State.othersKept_trans (State.othersKept_setEnc h _) (State.othersKept_respond st r vs)

theorem State.othersKept_putDec (h : s.port.target.kind = .dec) (c : DecCore) (st : Status) (r : Option Word64)
    (vs : List Word64) : s.othersKept ((s.putDec c).respond st r vs) :=
  State.othersKept_trans (State.othersKept_setDec h _) (State.othersKept_respond st r vs)

/-- A running unit is in the state it runs in. -/
theorem State.bwIs_of_runs {c : BwCore} (h : s.runsBw c) : s.bwIs c := Slot.ready_eq_some.1 h.2.1
theorem State.brIs_of_runs {c : BrCore} (h : s.runsBr c) : s.brIs c := Slot.ready_eq_some.1 h.2.1
theorem State.encIs_of_runs {e : EncCore} (h : s.runsEnc e) : s.encIs e := Slot.ready_eq_some.1 h.2.1
theorem State.decIs_of_runs {c : DecCore} (h : s.runsDec c) : s.decIs c := Slot.ready_eq_some.1 h.2.1

/-- Marking the addressed unit, by its kind. -/
theorem State.mark_of_bw (h : s.port.target.kind = .bw) :
    s.mark = s.setBw s.port.target.id (s.bw s.port.target.id).marked := by simp [State.mark, h]
theorem State.mark_of_br (h : s.port.target.kind = .br) :
    s.mark = s.setBr s.port.target.id (s.br s.port.target.id).marked := by simp [State.mark, h]
theorem State.mark_of_enc (h : s.port.target.kind = .enc) :
    s.mark = s.setEnc s.port.target.id (s.enc s.port.target.id).marked := by simp [State.mark, h]
theorem State.mark_of_dec (h : s.port.target.kind = .dec) :
    s.mark = s.setDec s.port.target.id (s.dec s.port.target.id).marked := by simp [State.mark, h]

/-! ### Handing a command to its unit: everything it can answer -/

/-- A command answers a next state either because it was refused or because the addressed unit of the right kind
performed it. -/
theorem State.whenAddressed_next {k : Kind} {f : Host.Outcome State Fault Refusal} {t : State}
    (h : s.whenAddressed k f = .next t) : t = s.refuse ∨ (s.port.target.kind = k ∧ f = .next t) := by
  unfold State.whenAddressed at h
  split at h
  · exact .inr ⟨‹_›, h⟩
  · cases h; exact .inl rfl

theorem State.onBw_next {f : BwCore → Host.Outcome State Fault Refusal} {t : State} (h : s.onBw f = .next t) :
    t = s.refuse ∨ ∃ c, s.runsBw c ∧ f c = .next t := by
  rcases State.whenAddressed_next h with h | ⟨hk, h⟩
  · exact .inl h
  · split at h
    · split at h
      · exact .inr ⟨_, ⟨hk, ‹_›, ‹_›⟩, h⟩
      · cases h; exact .inl rfl
    · cases h; exact .inl rfl

theorem State.onEnc_next {f : EncCore → Host.Outcome State Fault Refusal} {t : State} (h : s.onEnc f = .next t) :
    t = s.refuse ∨ ∃ c, s.runsEnc c ∧ f c = .next t := by
  rcases State.whenAddressed_next h with h | ⟨hk, h⟩
  · exact .inl h
  · split at h
    · split at h
      · exact .inr ⟨_, ⟨hk, ‹_›, ‹_›⟩, h⟩
      · cases h; exact .inl rfl
    · cases h; exact .inl rfl

theorem State.onBr_next {f : BrCore → Host.Outcome State Fault Refusal} {t : State} (h : s.onBr f = .next t) :
    t = s.refuse ∨ ∃ c, s.runsBr c ∧ f c = .next t := by
  rcases State.whenAddressed_next h with h | ⟨hk, h⟩
  · exact .inl h
  · split at h
    · split at h
      · cases h; exact .inl rfl
      · rename_i hc
        exact .inr ⟨_, ⟨hk, ‹_›, by simpa using hc⟩, h⟩
    · cases h; exact .inl rfl

theorem State.onDec_next {f : DecCore → Host.Outcome State Fault Refusal} {t : State} (h : s.onDec f = .next t) :
    t = s.refuse ∨ ∃ c, s.runsDec c ∧ f c = .next t := by
  rcases State.whenAddressed_next h with h | ⟨hk, h⟩
  · exact .inl h
  · split at h
    · split at h
      · cases h; exact .inl rfl
      · rename_i hc
        exact .inr ⟨_, ⟨hk, ‹_›, by simpa using hc⟩, h⟩
    · cases h; exact .inl rfl

/-- A running unit performs its commands. -/
theorem State.onBw_of_runs {c : BwCore} (h : s.runsBw c) (f : BwCore → Host.Outcome State Fault Refusal) :
    s.onBw f = f c := by simp [State.onBw, State.whenAddressed, h.1, h.2.1, h.2.2]
theorem State.onEnc_of_runs {c : EncCore} (h : s.runsEnc c) (f : EncCore → Host.Outcome State Fault Refusal) :
    s.onEnc f = f c := by simp [State.onEnc, State.whenAddressed, h.1, h.2.1, h.2.2]
theorem State.onBr_of_runs {c : BrCore} (h : s.runsBr c) (f : BrCore → Host.Outcome State Fault Refusal) :
    s.onBr f = f c := by simp [State.onBr, State.whenAddressed, h.1, h.2.1, h.2.2]
theorem State.onDec_of_runs {c : DecCore} (h : s.runsDec c) (f : DecCore → Host.Outcome State Fault Refusal) :
    s.onDec f = f c := by simp [State.onDec, State.whenAddressed, h.1, h.2.1, h.2.2]

/-- A unit of another kind refuses. -/
theorem State.whenAddressed_misdirected {k : Kind} (h : s.port.target.kind ≠ k) (f : Host.Outcome State Fault Refusal) :
    s.whenAddressed k f = .next s.refuse := by simp [State.whenAddressed, h]

end Sys2Proof.Machine
end

