-- ==== Sys2Proof/Laws/PerInstr.lean ====
section
/-! SUPPORT. Facts about every instruction as syntax, one lemma per constructor. -/

/-! ### An instruction is encoded for its own unit -/

/-- 30_encoding.md R61, R63: a command's opcode is one of the 26 of R63, and its `op[7:4]` names the kind of unit the
command is for; a run header is the decoder's. -/
def Sys2Proof.Laws.EncodesForItsUnit.Statement (i : Sys2Proof.Instr) : Prop :=
  match Sys2Proof.encode i with
  | .command w =>
    Sys2Proof.isCommandOp w.op.toNat = true
      ∧ Sys2Proof.Machine.unitOfOp w.op = some (Sys2Proof.Machine.kindOf i)
  | .wire _ => Sys2Proof.Machine.kindOf i = .dec

namespace Sys2Proof.Laws.EncodesForItsUnit

open Sys2Proof

/-- A command word is judged by its opcode alone. -/
theorem of_op (op : Byte) (k : Machine.Kind) {a : Word64} {b : Word32} {c : Word7}
    (h : isCommandOp op.toNat = true ∧ Machine.unitOfOp op = some k) :
    isCommandOp (CmdWord.mk op a b c).op.toNat = true ∧ Machine.unitOfOp (CmdWord.mk op a b c).op = some k := h

theorem bwInit (lOut : Word32) : Statement (.bwInit lOut) := of_op 0x10 .bw (by decide)
theorem bwPutValue (value : Word64) (w : Word7) : Statement (.bwPutValue value w) := of_op 0x11 .bw (by decide)
theorem bwPutUleb128 (x : Word32) : Statement (.bwPutUleb128 x) := of_op 0x12 .bw (by decide)
theorem bwFlush : Statement .bwFlush := of_op 0x13 .bw (by decide)
theorem bwBytesWritten : Statement .bwBytesWritten := of_op 0x14 .bw (by decide)
theorem bwClear : Statement .bwClear := of_op 0x15 .bw (by decide)
theorem brInit (lIn : Word32) : Statement (.brInit lIn) := of_op 0x20 .br (by decide)
theorem brGetValue (w : Word7) : Statement (.brGetValue w) := of_op 0x21 .br (by decide)
theorem brGetUleb128 : Statement .brGetUleb128 := of_op 0x22 .br (by decide)
theorem brSkipBits (k : Word64) : Statement (.brSkipBits k) := of_op 0x23 .br (by decide)
theorem brAlignToByte : Statement .brAlignToByte := of_op 0x24 .br (by decide)
theorem encNew (lOut : Word32) (w m : Word7) : Statement (.encNew lOut w m) := of_op 0x30 .enc (by decide)
theorem encPut (value : Word64) : Statement (.encPut value) := of_op 0x31 .enc (by decide)
theorem encFlush : Statement .encFlush := of_op 0x32 .enc (by decide)
theorem encClear : Statement .encClear := of_op 0x33 .enc (by decide)
theorem encMinBufferSize (w : Word7) : Statement (.encMinBufferSize w) := of_op 0x34 .enc (by decide)
theorem encMaxBufferSize (w : Word7) (n : Word32) : Statement (.encMaxBufferSize w n) := of_op 0x35 .enc (by decide)
theorem decNew (lIn : Word32) (w : Word7) : Statement (.decNew lIn w) := of_op 0x40 .dec (by decide)
theorem decReset (lIn : Word32) (w : Word7) : Statement (.decReset lIn w) := of_op 0x41 .dec (by decide)
theorem decNextNumRepeats : Statement .decNextNumRepeats := of_op 0x42 .dec (by decide)
theorem decNextNumLiterals : Statement .decNextNumLiterals := of_op 0x43 .dec (by decide)
theorem decGetRepeatedValue (n : Word32) : Statement (.decGetRepeatedValue n) := of_op 0x44 .dec (by decide)
theorem decGetLiteralValues (n : Word32) : Statement (.decGetLiteralValues n) := of_op 0x45 .dec (by decide)
theorem decGetSingleValue : Statement .decGetSingleValue := of_op 0x46 .dec (by decide)
theorem decGetValues (n : Word32) : Statement (.decGetValues n) := of_op 0x47 .dec (by decide)
theorem decSkipValues (n : Word32) : Statement (.decSkipValues n) := of_op 0x48 .dec (by decide)
theorem wireRepeatedRun (count : BitVec 31) (len : Nat) : Statement (.wireRepeatedRun count len) := rfl
theorem wireLiteralRun (groups : BitVec 31) (len : Nat) : Statement (.wireLiteralRun groups len) := rfl

end Sys2Proof.Laws.EncodesForItsUnit
end

