-- ==== Sys2Proof/Tests/Slice0.lean ====
section
/-! SUPPORT. The model's own tests. Expected results are taken from 95_test_vectors.md and from the examples of the rules,
which each test's comment names. The last part shows, for every statement with hypotheses, states and operands that
meet them. -/

namespace Sys2Proof.Tests

open Sys2Proof.Machine

/-! ### Small states -/

/-- Bytes written as numbers. -/
def octets (ns : List Nat) : List Byte := ns.map (BitVec.ofNat 8)

/-- A machine with bytes at the start of buffer 0, addressing unit 0 of a kind, with buffer 0 named beside it. -/
def loaded (kind : Kind) (ns : List Nat) : State :=
  ({ State.reset with port := { target := { kind := kind, id := 0 }, buffer := 0 } }).writeCells 0
    (cellsFrom 0 (octets ns))

/-- The same with a unit in a given state, over buffer 0; a bit writer and an encoder have taken their buffer. -/
def withBw (lOut wbits acc : Nat) (flushed : Bool := false) : State :=
  ((loaded .bw []).take 0).putBw { buf := 0, lOut := lOut, wbits := wbits, acc := BitVec.ofNat 8 acc, flushed := flushed }
def withBr (ns : List Nat) (rbits : Nat) : State :=
  (loaded .br ns).putBr
    { buf := 0, version := ((loaded .br ns).buf 0).version, lIn := ns.length, rbits := rbits }
def withEnc (e : EncCore) : State := ((loaded .enc []).take e.buf).putEnc e
def decOver (ns : List Nat) (w : Nat) : DecCore :=
  DecCore.fresh 0 ((loaded .dec ns).buf 0).version w ns.length
def withDec (ns : List Nat) (c : DecCore) : State := (loaded .dec ns).putDec c

/-- A bit reader is addressed, with buffer 0 named beside it. -/
def toReader (s : State) : State := { s with port := { target := { kind := .br, id := 0 }, buffer := 0 } }

/-- The next state; the reset state where there is none. -/
def nextOf (o : Host.Outcome State Fault Refusal) : State :=
  match o with
  | .next t => t
  | .fault _ => State.reset
  | .refused _ => State.reset

/-- The outcome is a next state with this response. -/
def gives (o : Host.Outcome State Fault Refusal) (status : Status) (r : Option Word64) (vs : List Word64) : Bool :=
  match o with
  | .next t => decide (t.response = some { status := status, result := r, values := vs })
  | .fault _ => false
  | .refused _ => false

/-- The bytes of buffer 0 that are listed at indices below `n`. -/
def written (t : State) (n : Nat) : List (Option Byte) := (List.range n).map (t.buf 0).read?
def holds (ns : List Nat) : List (Option Byte) := (octets ns).map some

/-! ### Well-formedness: an ill-formed term for each check -/

theorem test_wf_rejects_a_varint_of_no_bytes : (Instr.wireRepeatedRun 0 0).wf = false := by decide
theorem test_wf_rejects_a_varint_of_six_bytes : (Instr.wireLiteralRun 1 6).wf = false := by decide
theorem test_wf_rejects_a_header_word_too_large_for_its_varint :
    (Instr.wireRepeatedRun 64 1).wf = false ∧ (Instr.wireLiteralRun 64 1).wf = false := by decide
theorem test_wf_accepts_every_legal_length :
    (Instr.wireRepeatedRun 63 1).wf = true ∧ (Instr.wireRepeatedRun 1 2).wf = true
      ∧ (Instr.wireLiteralRun 2147483647 5).wf = true := by decide

/-! ### Decoding: every constructor from a word written out from 30_encoding.md R61 to R63 -/

theorem test_decode_bit_writer :
    decode (.command ⟨0x10, 0, 3, 0⟩) = .ok (.bwInit 3)
      ∧ decode (.command ⟨0x11, 5, 0, 3⟩) = .ok (.bwPutValue 5 3)
      ∧ decode (.command ⟨0x12, 0, 300, 0⟩) = .ok (.bwPutUleb128 300)
      ∧ decode (.command ⟨0x13, 0, 0, 0⟩) = .ok .bwFlush
      ∧ decode (.command ⟨0x14, 0, 0, 0⟩) = .ok .bwBytesWritten
      ∧ decode (.command ⟨0x15, 0, 0, 0⟩) = .ok .bwClear := ⟨rfl, rfl, rfl, rfl, rfl, rfl⟩
theorem test_decode_bit_reader :
    decode (.command ⟨0x20, 0, 3, 0⟩) = .ok (.brInit 3)
      ∧ decode (.command ⟨0x21, 0, 0, 3⟩) = .ok (.brGetValue 3)
      ∧ decode (.command ⟨0x22, 0, 0, 0⟩) = .ok .brGetUleb128
      ∧ decode (.command ⟨0x23, 24, 0, 0⟩) = .ok (.brSkipBits 24)
      ∧ decode (.command ⟨0x24, 0, 0, 0⟩) = .ok .brAlignToByte := ⟨rfl, rfl, rfl, rfl, rfl⟩
theorem test_decode_encoder :
    decode (.command ⟨0x30, 8, 16, 1⟩) = .ok (.encNew 16 1 8)
      ∧ decode (.command ⟨0x31, 1, 0, 0⟩) = .ok (.encPut 1)
      ∧ decode (.command ⟨0x32, 0, 0, 0⟩) = .ok .encFlush
      ∧ decode (.command ⟨0x33, 0, 0, 0⟩) = .ok .encClear
      ∧ decode (.command ⟨0x34, 0, 0, 8⟩) = .ok (.encMinBufferSize 8)
      ∧ decode (.command ⟨0x35, 0, 100, 1⟩) = .ok (.encMaxBufferSize 1 100) := ⟨rfl, rfl, rfl, rfl, rfl, rfl⟩
theorem test_decode_decoder :
    decode (.command ⟨0x40, 0, 10, 1⟩) = .ok (.decNew 10 1)
      ∧ decode (.command ⟨0x41, 0, 4, 1⟩) = .ok (.decReset 4 1)
      ∧ decode (.command ⟨0x42, 0, 0, 0⟩) = .ok .decNextNumRepeats
      ∧ decode (.command ⟨0x43, 0, 0, 0⟩) = .ok .decNextNumLiterals
      ∧ decode (.command ⟨0x44, 0, 20, 0⟩) = .ok (.decGetRepeatedValue 20)
      ∧ decode (.command ⟨0x45, 0, 3, 0⟩) = .ok (.decGetLiteralValues 3)
      ∧ decode (.command ⟨0x46, 0, 0, 0⟩) = .ok .decGetSingleValue
      ∧ decode (.command ⟨0x47, 0, 8, 0⟩) = .ok (.decGetValues 8)
      ∧ decode (.command ⟨0x48, 0, 32, 0⟩) = .ok (.decSkipValues 32) :=
  ⟨rfl, rfl, rfl, rfl, rfl, rfl, rfl, rfl, rfl⟩

/-- R104's example, S6.2, the non-minimal header of P5 and scenario 7 of 95_test_vectors.md. -/
theorem test_decode_run_headers :
    decode (.wire (octets [0x64, 0x01])) = .ok (.wireRepeatedRun 50 1)
      ∧ decode (.wire (octets [0x1B, 0xAA])) = .ok (.wireLiteralRun 13 1)
      ∧ decode (.wire (octets [0x82, 0x00, 0x05])) = .ok (.wireRepeatedRun 1 2)
      ∧ decode (.wire (octets [0xFE, 0xFF, 0xFF, 0xFF, 0x0F, 0x00])) = .ok (.wireRepeatedRun 2147483647 5) := by
  decide +kernel

/-- U6, U7, U9 and U10 of 95_test_vectors.md; CV1 and CV2. -/
theorem test_decode_rejects_by_name :
    decode (.wire (octets [0xFF, 0xFF, 0xFF, 0xFF, 0x1F])) = .error .headerMalformed
      ∧ decode (.wire (octets [0x80, 0x80, 0x80, 0x80, 0x80])) = .error .headerMalformed
      ∧ decode (.wire (octets [0x80])) = .error .headerCutOff
      ∧ decode (.wire []) = .error .headerCutOff
      ∧ decode (.command ⟨0x16, 0, 0, 0⟩) = .error (.illegalOpcode 0x16)
      ∧ decode (.command ⟨0x50, 0, 0, 0⟩) = .error (.noSuchUnit 0x50) := ⟨rfl, rfl, rfl, rfl, rfl, rfl⟩

/-- The host's numbered words: the 26 opcodes, and the first byte of a header of either variant. -/
theorem test_table_words_of_commands :
    ([0x10, 0x11, 0x12, 0x13, 0x14, 0x15, 0x20, 0x21, 0x22, 0x23, 0x24, 0x30, 0x31, 0x32, 0x33, 0x34, 0x35,
        0x40, 0x41, 0x42, 0x43, 0x44, 0x45, 0x46, 0x47, 0x48].map (decodeTableWord 8)) =
      [some (.bwInit 0), some (.bwPutValue 0 0), some (.bwPutUleb128 0), some .bwFlush, some .bwBytesWritten,
        some .bwClear, some (.brInit 0), some (.brGetValue 0), some .brGetUleb128, some (.brSkipBits 0),
        some .brAlignToByte, some (.encNew 0 0 0), some (.encPut 0), some .encFlush, some .encClear,
        some (.encMinBufferSize 0), some (.encMaxBufferSize 0 0), some (.decNew 0 0), some (.decReset 0 0),
        some .decNextNumRepeats, some .decNextNumLiterals, some (.decGetRepeatedValue 0),
        some (.decGetLiteralValues 0), some .decGetSingleValue, some (.decGetValues 0), some (.decSkipValues 0)] := by
  decide +kernel
theorem test_table_words_of_runs :
    decodeTableWord 8 0x00 = some (.wireRepeatedRun 0 1) ∧ decodeTableWord 8 0x01 = some (.wireLiteralRun 0 1)
      ∧ decodeTableWord 8 0x64 = some (.wireRepeatedRun 50 1)
      ∧ decodeTableWord 16 0x0082 = some (.wireRepeatedRun 1 2) := by decide

/-- The assembler's lines (R65), one of each unit, and one with an operand too wide. -/
theorem test_assemble :
    assemble "BW.PUT_VALUE" [5, 3] = some (.bwPutValue 5 3) ∧ assemble "BR.SKIP_BITS" [24] = some (.brSkipBits 24)
      ∧ assemble "ENC.NEW" [16, 1, 8] = some (.encNew 16 1 8) ∧ assemble "DEC.GET" [] = some .decGetSingleValue
      ∧ assemble "ENC.MIN_BUFFER_SIZE" [128] = none := by decide

/-! ### One step from reset -/

/-- A command placed where step fetches it is performed: CV4, DEC.GET_SINGLE_VALUE to a decoder never constructed. -/
theorem test_step_refuses_an_unbuilt_unit :
    gives (step (State.reset.withFetchWord 8 0x46)) .refused none [] = true := by decide
/-- BW.INIT 3, with `B` in bits 103..72 (log entry 5). -/
theorem test_step_constructs_a_writer :
    (nextOf (step (State.reset.withFetchWord 111 (0x10 + 3 * 2 ^ 72)))).bwIs (BwCore.fresh 0 3) := by decide
/-- R104's example, `64 01` with W = 1, taken up from the start of an input. -/
theorem test_step_takes_up_a_run :
    ((nextOf (step (State.reset.withFetchWord 16 0x0164))).dec 0).core.map (fun c => c.run)
      = some (.rep 1 50) := by decide
theorem test_step_ends_with_the_list :
    (match step State.reset with | .fault .endOfRun => true | _ => false) = true := by decide

/-! ### Bit writer (95_test_vectors.md section 2 and P4) -/

theorem test_bwInit :
    (nextOf (exec (.bwInit 4) (loaded .bw []))).bwIs { buf := 0, lOut := 4, wbits := 0, acc := 0, flushed := false } := by
  decide
/-- BW14. -/
theorem test_bwInit_refuses_a_long_buffer :
    gives (exec (.bwInit 0x80000000) (loaded .bw [])) .refused none [] = true := by decide
/-- BW1, the second field. -/
theorem test_bwPutValue_crosses_a_byte :
    (let t := nextOf (exec (.bwPutValue 1 5) (withBw 2 5 31))
     t.bwIs { buf := 0, lOut := 2, wbits := 10, acc := 0, flushed := false } ∧ written t 2 = [some 0x3F, none]) := by
  decide
/-- BW5, the second field. -/
theorem test_bwPutValue_full : gives (exec (.bwPutValue 1 1) (withBw 1 8 0)) .full none [] = true := by decide
/-- P4, command 4. -/
theorem test_bwPutUleb128_pads_the_partial_byte :
    (let t := nextOf (exec (.bwPutUleb128 300) (withBw 3 4 0x0D))
     t.bwIs { buf := 0, lOut := 3, wbits := 24, acc := 0, flushed := false }
      ∧ written t 3 = holds [0x0D, 0xAC, 0x02]) := by decide
/-- U3. -/
theorem test_bwPutUleb128_full :
    gives (exec (.bwPutUleb128 128) (withBw 2 1 1)) .full none [] = true := by decide
/-- BW3. -/
theorem test_bwFlush :
    (let o := exec .bwFlush (withBw 2 9 1)
     gives o .ok (some 2) [] = true ∧ written (nextOf o) 2 = [none, some 1]) := by decide
/-- BW9. -/
theorem test_bwBytesWritten : gives (exec .bwBytesWritten (withBw 4 3 1)) .ok (some 1) [] = true := by decide
/-- BW11: BW.CLEAR allows writing again. -/
theorem test_bwClear :
    (nextOf (exec .bwClear (withBw 2 2 3 true))).bwIs (BwCore.fresh 0 2) := by decide
/-- BW12. -/
theorem test_bwPutValue_after_flush :
    gives (exec (.bwPutValue 1 1) (withBw 2 2 3 true)) .refused none [] = true := by decide

/-! ### Bit reader (95_test_vectors.md sections 3 and 4) -/

theorem test_brInit :
    (nextOf (exec (.brInit 3) (loaded .br [0x88, 0xC6, 0xFA]))).brIs
      { buf := 0, version := 1, lIn := 3, rbits := 0 } := by decide
/-- BR1, the third field, which crosses a byte. -/
theorem test_brGetValue_crosses_a_byte :
    gives (exec (.brGetValue 3) (withBr [0x88, 0xC6, 0xFA] 6)) .ok (some 2) [] = true := by decide
/-- BR5. -/
theorem test_brGetValue_of_64_bits :
    gives (exec (.brGetValue 64) (withBr [0xEF, 0xCD, 0xAB, 0x89, 0x67, 0x45, 0x23, 0x01] 0)) .ok
      (some 0x0123456789ABCDEF) [] = true := by decide +kernel
/-- U13: the varint is read from byte 1. -/
theorem test_brGetUleb128_aligns :
    (let o := exec .brGetUleb128 (withBr [0x01, 0x05] 1)
     gives o .ok (some 5) [] = true ∧ (nextOf o).brIs { buf := 0, version := 1, lIn := 2, rbits := 16 }) := by decide
/-- U6. -/
theorem test_brGetUleb128_too_large :
    gives (exec .brGetUleb128 (withBr [0xFF, 0xFF, 0xFF, 0xFF, 0x1F] 0)) .err none [] = true := by decide
/-- BR7 and BR8. -/
theorem test_brSkipBits :
    gives (exec (.brSkipBits 24) (withBr [0x88, 0xC6, 0xFA] 0)) .ok none [] = true
      ∧ gives (exec (.brSkipBits 25) (withBr [0x88, 0xC6, 0xFA] 0)) .endOfInput none [] = true := by decide
/-- R79's example. -/
theorem test_brAlignToByte :
    (nextOf (exec .brAlignToByte (withBr [0x88, 0xC6, 0xFA] 9))).brIs
      { buf := 0, version := 1, lIn := 3, rbits := 16 } := by decide

/-! ### Encoder (95_test_vectors.md section 5 and P1) -/

/-- An encoder over buffer 0, just constructed, with 0 for the two values the spec leaves unspecified. -/
def freshEnc (w m lOut : Nat) : EncCore := EncCore.fresh 0 w m lOut 0 0

/-- Of `W = 1` over 16 bytes. -/
def enc1 (m : Nat) : EncCore := freshEnc 1 m 16

/-- The encoder addressed, with 0 for the same two values. -/
def encOf (t : State) : Option EncCore :=
  (t.enc t.port.target.id).core.map fun e => { e with repValue := 0, litHdrPos := 0 }

/-- R97. -/
theorem test_encNew :
    encOf (nextOf (exec (.encNew 16 1 24) (loaded .enc []))) =
      some { buf := 0, w := 1, m := 24, t := 24, lOut := 16, mode := .staging, staged := [], repValue := 0, repCount := 0
             litOpen := false, litHdrPos := 0, litGroups := 0, wpos := 0, idle := false } := by decide
/-- R99: MinBufferSize(1) is 4. -/
theorem test_encNew_refuses_a_short_buffer :
    gives (exec (.encNew 3 1 0) (loaded .enc [])) .refused none [] = true := by decide
/-- P1: the 8th zero gives REPEAT(0, 8). -/
theorem test_encPut_starts_a_repeat :
    (nextOf (exec (.encPut 0) (withEnc { enc1 0 with staged := List.replicate 7 0 }))).encIs
      { enc1 0 with mode := .repeating, repCount := 8 } := by decide
/-- P1: the first 1 after 50 zeros emits `64 00`. -/
theorem test_encPut_breaks_a_repeat :
    (let t := nextOf (exec (.encPut 1) (withEnc { enc1 0 with mode := .repeating, repCount := 50 }))
     t.encIs { enc1 0 with staged := [1], wpos := 2 } ∧ written t 2 = holds [0x64, 0x00]) := by decide
/-- E8. -/
theorem test_encFlush_pads_the_tail :
    (let o := exec .encFlush (withEnc { enc1 0 with staged := List.replicate 7 1 })
     gives o .ok (some 2) [] = true ∧ written (nextOf o) 2 = holds [0x03, 0x7F]) := by decide
/-- E5: 12 zeros below the threshold are two literal octets. -/
theorem test_encFlush_below_the_threshold :
    (let o := exec .encFlush (withEnc { enc1 16 with lOut := 8, staged := List.replicate 12 0 })
     gives o .ok (some 3) [] = true ∧ written (nextOf o) 3 = holds [0x05, 0x00, 0x00]) := by decide
/-- P3, command 6. -/
theorem test_encClear :
    encOf (nextOf (exec .encClear (withEnc { enc1 0 with wpos := 4, idle := true }))) = some (enc1 0) := by decide
/-- Section 5.1. -/
theorem test_encMinBufferSize :
    gives (exec (.encMinBufferSize 9) (loaded .enc [])) .ok (some 13) [] = true
      ∧ gives (exec (.encMinBufferSize 65) (loaded .enc [])) .refused none [] = true := by decide
theorem test_encMaxBufferSize :
    gives (exec (.encMaxBufferSize 1 100) (loaded .enc [])) .ok (some 78) [] = true
      ∧ gives (exec (.encMaxBufferSize 64 8) (loaded .enc [])) .ok (some 65) [] = true := by decide

/-! ### Decoder (95_test_vectors.md section 6, P2, P5) -/

theorem test_decNew :
    (nextOf (exec (.decNew 2 1) (loaded .dec [0x64, 0x00]))).decIs (decOver [0x64, 0x00] 1)
      ∧ gives (exec (.decNew 4 65) (loaded .dec [])) .refused none [] = true := by decide
/-- CV5: a construction clears the mark. -/
theorem test_decReset_clears_the_mark :
    (nextOf (exec (.decReset 4 1) (loaded .dec []).refuse)).decIs (DecCore.fresh 0 0 1 4) := by decide
/-- R137's example. -/
theorem test_decNextNumRepeats :
    gives (exec .decNextNumRepeats (withDec [0x64, 0x00, 0x64, 0x01] (decOver [0x64, 0x00, 0x64, 0x01] 1))) .ok
      (some 50) [] = true := by decide
/-- DV12 and DV13: the largest literal count at W = 64. -/
theorem test_decNextNumLiterals :
    gives (exec .decNextNumLiterals (withDec [0xFF, 0xFF, 0xFF, 0x07] (decOver [0xFF, 0xFF, 0xFF, 0x07] 64))) .ok
        (some 67108856) [] = true
      ∧ gives (exec .decNextNumLiterals (withDec [0x81, 0x80, 0x80, 0x08] (decOver [0x81, 0x80, 0x80, 0x08] 64))) .ok
        (some 0) [] = true := by decide
/-- R139's example. -/
theorem test_decGetRepeatedValue :
    (let o := exec (.decGetRepeatedValue 20) (withDec [0x64, 0x00] (decOver [0x64, 0x00] 1))
     gives o .ok (some 0) [] = true
      ∧ (nextOf o).decIs { decOver [0x64, 0x00] 1 with rbits := 16, run := .rep 0 30 }) := by decide
/-- DV21. -/
theorem test_decGetRepeatedValue_on_literals :
    gives (exec (.decGetRepeatedValue 1) (withDec [0x03, 0x88, 0xC6, 0xFA] (decOver [0x03, 0x88, 0xC6, 0xFA] 3)))
      .refused none [] = true := by decide
/-- R140's example, a truncated payload. -/
theorem test_decGetLiteralValues_truncated :
    gives (exec (.decGetLiteralValues 8) (withDec [0x03, 0xAA] (decOver [0x03, 0xAA] 2))) .isFalse none [2, 2, 2, 2]
      = true := by decide
/-- P5, command 3. -/
theorem test_decGetLiteralValues :
    gives (exec (.decGetLiteralValues 3) (withDec [0x03, 0x88, 0xC6, 0xFA] (decOver [0x03, 0x88, 0xC6, 0xFA] 3))) .ok
      none [0, 1, 2] = true := by decide
/-- DV17 under `raw`, and DV19. -/
theorem test_decGetSingleValue :
    gives (exec .decGetSingleValue (withDec [0x02, 0x03] (decOver [0x02, 0x03] 1))) .ok (some 3) [] = true
      ∧ gives (exec .decGetSingleValue (withDec [0x80] (decOver [0x80] 1))) .isFalse none [] = true := by decide
/-- DV11: a literal run at W = 0. -/
theorem test_decGetValues :
    gives (exec (.decGetValues 20) (withDec [0x03] (decOver [0x03] 0))) .ok (some 8) (List.replicate 8 0) = true := by
  decide
/-- DV25, the first command: over a run boundary. -/
theorem test_decSkipValues :
    (let o := exec (.decSkipValues 9) (withDec [0x10, 0x00, 0x03, 0x01] (decOver [0x10, 0x00, 0x03, 0x01] 1))
     gives o .ok (some 9) [] = true
      ∧ (nextOf o).decIs { decOver [0x10, 0x00, 0x03, 0x01] 1 with rbits := 25, run := .lit 7 }) := by decide
/-- P5: the non-minimal header `82 00` and the value `05`. -/
theorem test_wireRepeatedRun :
    (nextOf (exec (.wireRepeatedRun 1 2) (withDec [0x82, 0x00, 0x05] (decOver [0x82, 0x00, 0x05] 3)))).decIs
      { decOver [0x82, 0x00, 0x05] 3 with rbits := 24, run := .rep 5 1 } := by decide
/-- DV13: 8·2^23 values of 64 bits are too many; header word 1 has no group (R130). -/
theorem test_wireLiteralRun_dies :
    (nextOf (exec (.wireLiteralRun 8388608 4) (withDec [] (decOver [] 64)))).decIs
        { decOver [] 64 with run := .dead, deadReason := .overflow }
      ∧ (nextOf (exec (.wireLiteralRun 0 1) (withDec [] (decOver [] 64)))).decIs
        { decOver [] 64 with run := .dead, deadReason := .zero } := by decide

/-! ### Witnesses: states and operands that meet the hypotheses of each statement, clause by clause -/

/-! #### Encodings, steps and refusals -/

/-- A list of one event, on a small machine. -/
def listed (s : State) (e : Event) : State := { s with pending := [e] }

theorem witness_EncodedInstructionsDecodeBack :
    ∃ i : Instr, i.wf = true := ⟨.wireLiteralRun 2147483647 5, by decide⟩

theorem witness_IllegalAndMisdirectedCommandsAreRefused :
    (∃ (s : State) (target : Target) (buffer : Nat) (word : CmdWord) (rest : List Event),
      s.pending = .command target buffer word :: rest
        ∧ word.op.toNat ∉ [0x10, 0x11, 0x12, 0x13, 0x14, 0x15, 0x20, 0x21, 0x22, 0x23, 0x24, 0x30, 0x31, 0x32, 0x33,
          0x34, 0x35, 0x40, 0x41, 0x42, 0x43, 0x44, 0x45, 0x46, 0x47, 0x48])
      ∧ ∃ (i : Instr) (s : State), kindOf i ≠ s.port.target.kind :=
  ⟨⟨listed State.reset (.command ⟨.bw, 0⟩ 0 ⟨0x16, 0, 0, 0⟩), _, _, _, _, rfl, by decide⟩,
    ⟨.encPut 0, loaded .dec [], by decide⟩⟩

theorem witness_StepPerformsTheDecodedCommand :
    ∃ (s : State) (target : Target) (buffer : Nat) (word : CmdWord) (rest : List Event) (i : Instr),
      s.pending = .command target buffer word :: rest ∧ decode (.command word) = .ok i :=
  ⟨listed State.reset (.command ⟨.bw, 0⟩ 0 ⟨0x10, 0, 3, 0⟩), _, _, _, _, .bwInit 3, rfl, rfl⟩

/-- A decoder of `W = 1` over these bytes has this run, or this reason for none, next. -/
def HasNext (ns : List Nat) (r : Except Reject Instr) : Prop :=
  ∃ (s s' : State) (id : Nat) (rest : List Event) (c : DecCore),
    s.pending = .parse id :: rest
      ∧ s' = { s with pending := rest, port := { target := { kind := .dec, id := id }, buffer := s.port.buffer } }
      ∧ s'.runsDec c ∧ c.run = .empty ∧ c.lIn = ns.length
      ∧ decode (.wire (varintWindow (s.readByte c.buf) c.lIn (c.rbits / 8))) = r

/-- A run, the end of the input, a header cut off, and a malformed header. -/
theorem witness_StepPerformsTheNextRun :
    HasNext [0x64, 0x01] (.ok (.wireRepeatedRun 50 1)) ∧ HasNext [] (.error .headerCutOff)
      ∧ HasNext [0x80] (.error .headerCutOff)
      ∧ HasNext [0x80, 0x80, 0x80, 0x80, 0x80] (.error .headerMalformed) :=
  ⟨⟨listed (withDec [0x64, 0x01] (decOver [0x64, 0x01] 1)) (.parse 0), _, _, _, decOver [0x64, 0x01] 1, rfl, rfl,
      by decide +kernel, rfl, rfl, by decide +kernel⟩,
    ⟨listed (withDec [] (decOver [] 1)) (.parse 0), _, _, _, decOver [] 1, rfl, rfl, by decide +kernel, rfl, rfl,
      by decide +kernel⟩,
    ⟨listed (withDec [0x80] (decOver [0x80] 1)) (.parse 0), _, _, _, decOver [0x80] 1, rfl, rfl,
      by decide +kernel, rfl, rfl, by decide +kernel⟩,
    ⟨listed (withDec [0x80, 0x80, 0x80, 0x80, 0x80] (decOver [0x80, 0x80, 0x80, 0x80, 0x80] 1)) (.parse 0), _, _, _,
      decOver [0x80, 0x80, 0x80, 0x80, 0x80] 1, rfl, rfl, by decide +kernel, rfl, rfl, by decide +kernel⟩⟩

/-- A byte loaded past the output, one that stood there already, and one that another stood for. -/
theorem witness_ListEndsAndHostLoads :
    (∃ s : State, s.pending = [])
      ∧ (∃ (s : State) (b i k n : Nat) (bytes : List Byte) (rest : List Event), s.pending = .load b i bytes :: rest
        ∧ n ≤ i ∧ k < bytes.length ∧ 0 < s.outputLen b ∧ s.outputLen b ≤ i + k)
      ∧ (∃ (s : State) (b i k : Nat) (bytes : List Byte) (rest : List Event), s.pending = .load b i bytes :: rest
        ∧ k < bytes.length ∧ i + k < s.outputLen b ∧ (s.buf b).read? (i + k) = bytes[k]?)
      ∧ ∃ (s : State) (b i k : Nat) (bytes : List Byte) (rest : List Event), s.pending = .load b i bytes :: rest
        ∧ k < bytes.length ∧ i + k < s.outputLen b ∧ (s.buf b).read? (i + k) ≠ bytes[k]? :=
  ⟨⟨State.reset, rfl⟩, ⟨listed (withBw 2 0 0) (.load 0 2 [1]), _, _, 0, 2, _, _, rfl, by decide⟩,
    ⟨listed ((withBw 2 8 0).writeCells 0 [(0, 1)]) (.load 0 0 [1, 2]), _, _, 0, _, _, rfl, by decide⟩,
    ⟨listed ((withBw 2 8 0).writeCells 0 [(0, 1)]) (.load 0 0 [1, 2]), _, _, 1, _, _, rfl, by decide⟩⟩

theorem witness_RefusalOnlySetsTheMark : ∀ k : Kind, ∃ s : State, s.port.target.kind = k := fun k =>
  ⟨loaded k [], rfl⟩

/-- An unbuilt unit, and a marked one, of each kind. -/
theorem witness_MarkedOrUnbuiltUnitsRefuse :
    ∀ s ∈ [loaded .bw [], (withBw 2 0 0).refuse, loaded .br [], (withBr [] 0).refuse, loaded .enc [],
        (withEnc (freshEnc 1 0 16)).refuse, loaded .dec [], (withDec [] (decOver [] 1)).refuse],
      ∃ i : Instr, kindOf i = s.port.target.kind ∧ isConstruction i = false ∧ isCapacityHelper i = false
        ∧ (s.port.target.kind = .bw → (s.bw s.port.target.id).refused = true ∨ (s.bw s.port.target.id).core = none)
        ∧ (s.port.target.kind = .br → (s.br s.port.target.id).refused = true ∨ (s.br s.port.target.id).core = none)
        ∧ (s.port.target.kind = .enc → (s.enc s.port.target.id).refused = true ∨ (s.enc s.port.target.id).core = none)
        ∧ (s.port.target.kind = .dec →
          (s.dec s.port.target.id).refused = true ∨ (s.dec s.port.target.id).core = none) := by
  simp only [List.forall_mem_cons, List.not_mem_nil, false_imp_iff, implies_true, and_true]
  exact ⟨⟨.bwFlush, by decide⟩, ⟨.bwFlush, by decide⟩, ⟨.brAlignToByte, by decide⟩, ⟨.brAlignToByte, by decide⟩,
    ⟨.encFlush, by decide⟩, ⟨.encFlush, by decide⟩, ⟨.decGetSingleValue, by decide⟩, ⟨.decGetSingleValue, by decide⟩⟩

/-- Each operand just outside its contract. -/
theorem witness_IllegalConstructionsAreRefused :
    (∃ (s : State) (lOut : Word32), s.port.target.kind = .bw ∧ s.params.maxBufferLen < lOut.toNat)
      ∧ (∃ (s : State) (lIn : Word32), s.port.target.kind = .br ∧ s.params.maxBufferLen < lIn.toNat)
      ∧ (∃ s : State, s.port.target.kind = .enc ∧ s.params.maxRunLengthBuffer < (56 : Word7).toNat
        ∧ s.params.maxBufferLen < (0x80000000 : Word32).toNat)
      ∧ (64 < (65 : Word7).toNat ∧ (1 : Word7).toNat % 8 ≠ 0
        ∧ (3 : Word32).toNat < 2 + (1 : Word7).toNat + ((1 : Word7).toNat + 7) / 8)
      ∧ ∃ (s : State) (lIn : Word32), s.port.target.kind = .dec ∧ s.params.maxBufferLen < lIn.toNat :=
  ⟨⟨loaded .bw [], 0x80000000, by decide⟩, ⟨loaded .br [], 0x80000000, by decide⟩,
    ⟨loaded .enc [], by decide⟩, by decide, ⟨loaded .dec [], 0x80000000, by decide⟩⟩

/-- A reader and a decoder of one byte of buffer 0, just constructed, and bit writer 0 over the same buffer, with one event
to come. -/
def shared (s : State) (e : Event) : State :=
  listed { s with
    brs := [(0, Slot.running { buf := 0, version := (s.buf 0).version, lIn := 1, rbits := 0 })]
    decs := [(0, Slot.running (DecCore.fresh 0 (s.buf 0).version 1 1))]
    bws := [(0, Slot.running { buf := 0, lOut := 2, wbits := 0, acc := 0, flushed := false })] } e

/-- Buffer 0 taken by bit writer 0, with 1 as its first byte. -/
def takenByBw : State := ((loaded .bw []).take 0).writeCells 0 [(0, 1)]

/-- Byte 0 of the input is another after the event. -/
def Changes (e : Event) : Prop :=
  ∃ (s t : State) (b j : Nat) (c : BrCore) (d : DecCore), s.pending = [e] ∧ s.inv = true ∧ step s = .next t
    ∧ t.readByte b j ≠ s.readByte b j ∧ (s.br 0).core = some c ∧ c.buf = b ∧ j < c.lIn
    ∧ (s.dec 0).core = some d ∧ d.buf = b ∧ j < d.lIn

/-- After the event, byte `j` of the output of unit `u`, to which it is no command, can no longer be named. -/
def TakesAway (e : Event) : Prop :=
  ∃ (s t : State) (u : Target) (b j : Nat), s.pending = [e] ∧ step s = .next t ∧ (s.buf b).holder = some u
    ∧ j < s.outputLen b ∧ (match e with | .command u' _ _ => u' ≠ u | .parse _ => True | .load _ _ _ => True)
    ∧ (t.buf b).read? j ≠ (s.buf b).read? j

/-- E21: over 4 bytes, after three octets of a literal run of `W = 1`. -/
def fullPage : EncCore := { freshEnc 1 0 4 with wpos := 4, litOpen := true, litHdrPos := 0, litGroups := 3 }

/-- An input of one byte that is written over after the reader or the decoder was constructed; the changes come from a
load (R198) and from a bit writer (R200); and a load at `L_in`, which is none. Then a bit writer and an encoder that never
took their buffer, an encoder whose output the host has written since, and a load and a construction that do so. -/
theorem witness_ChangedInputIsRefused :
    (∃ (i : Instr) (s : State) (c : BrCore), kindOf i = .br ∧ isConstruction i = false ∧ s.port.target.kind = .br
        ∧ (s.br s.port.target.id).ready = some c ∧ (s.buf c.buf).changedSince c.version c.lIn = true)
      ∧ (∃ (i : Instr) (s : State) (c : DecCore), kindOf i = .dec ∧ isConstruction i = false
        ∧ s.port.target.kind = .dec ∧ (s.dec s.port.target.id).ready = some c
        ∧ (s.buf c.buf).changedSince c.version c.lIn = true)
      ∧ Changes (.load 0 0 [2]) ∧ Changes (.command ⟨.bw, 0⟩ 0 ⟨0x11, 2, 0, 8⟩)
      ∧ (∃ (s t : State) (b i : Nat) (bytes : List Byte) (rest : List Event) (n : Nat),
        s.pending = .load b i bytes :: rest ∧ step s = .next t ∧ n ≤ i ∧ (s.br 0).core.map (fun c => c.lIn) = some n)
      ∧ (∃ (i : Instr) (s : State) (c : BwCore), kindOf i = .bw ∧ isConstruction i = false ∧ s.port.target.kind = .bw
        ∧ (s.bw s.port.target.id).core = some c ∧ (s.buf c.buf).holder ≠ some s.port.target)
      ∧ (∃ (i : Instr) (s : State) (e : EncCore), kindOf i = .enc ∧ isConstruction i = false
        ∧ isCapacityHelper i = false ∧ s.port.target.kind = .enc ∧ (s.enc s.port.target.id).core = some e
        ∧ (s.buf e.buf).holder ≠ some s.port.target)
      ∧ (∃ (i : Instr) (s : State) (e : EncCore), kindOf i = .enc ∧ isConstruction i = false
        ∧ isCapacityHelper i = false ∧ s.port.target.kind = .enc ∧ (s.enc s.port.target.id).core = some e
        ∧ (s.buf e.buf).spoilt ≠ [])
      ∧ TakesAway (.load 0 0 [2]) ∧ TakesAway (.command ⟨.bw, 1⟩ 0 ⟨0x10, 0, 2, 0⟩) :=
  ⟨⟨.brAlignToByte, (withBr [1] 0).writeCells 0 [(0, 2)], { buf := 0, version := 1, lIn := 1, rbits := 0 },
      by decide⟩,
    ⟨.decGetSingleValue, (withDec [1] (decOver [1] 1)).writeCells 0 [(0, 2)], decOver [1] 1, by decide⟩,
    ⟨shared (loaded .br [1]) _, _, 0, 0, { buf := 0, version := 1, lIn := 1, rbits := 0 }, decOver [1] 1, rfl, by decide,
      rfl, by decide⟩,
    ⟨shared takenByBw _, _, 0, 0, { buf := 0, version := 2, lIn := 1, rbits := 0 }, DecCore.fresh 0 2 1 1, rfl, by decide,
      rfl, by decide⟩,
    ⟨shared (loaded .br [1]) (.load 0 1 [2]), _, _, _, _, _, 1, rfl, rfl, by decide⟩,
    ⟨.bwFlush, (loaded .bw []).putBw (BwCore.fresh 0 2), BwCore.fresh 0 2, by decide⟩,
    ⟨.encFlush, (loaded .enc []).putEnc (enc1 0), enc1 0, by decide⟩,
    ⟨.encFlush, (withEnc fullPage).hostLoad [] 0 0 (octets [7]), fullPage, by decide⟩,
    ⟨shared takenByBw _, _, ⟨.bw, 0⟩, 0, 0, rfl, rfl, by decide⟩,
    ⟨shared takenByBw _, _, ⟨.bw, 0⟩, 0, 0, rfl, rfl, by decide⟩⟩

/-- What a write at or above `L_in` leaves, and what taking the buffer for a new stream does (R178 case 10, R200). -/
theorem test_change_is_seen_inside_the_input_only :
    gives (exec (.brGetValue 8) ((withBr [1] 0).writeCells 0 [(1, 9)])) .ok (some 1) [] = true
      ∧ gives (exec (.brGetValue 8) ((withBr [1] 0).writeCells 0 [(1, 9), (0, 9)])) .refused none [] = true
      ∧ gives (exec (.brGetValue 8) ((withBr [1] 0).take 0)) .refused none [] = true := by decide

/-- U6 and V2: the host writes the reserved header byte of an open literal run; it has no value that may be named, and the
encoder refuses. Beyond `L_out` it has the value written. -/
theorem test_load_into_an_output :
    (let s := (withEnc fullPage).hostLoad [] 0 0 (octets [7])
     (s.buf 0).read? 0 = none ∧ gives (exec .encFlush s) .refused none [] = true)
      ∧ (let s := (withEnc fullPage).hostLoad [] 0 4 (octets [7])
         (s.buf 0).read? 4 = some 7 ∧ gives (exec .encFlush s) .ok (some 4) [] = true) := by decide

/-- U6, R200: a reader over a bit writer's buffer before and after the flush. -/
theorem test_reader_of_an_output :
    gives (exec (.brInit 1) (toReader (withBw 2 3 1))) .refused none [] = true
      ∧ gives (exec (.brInit 1) (toReader (withBw 2 3 1 true))) .ok none [] = true := by decide

/-- R200: the second of two bit writers takes the buffer of the first, which refuses from then on. -/
theorem test_two_writers :
    (let s := nextOf (exec (.bwInit 2) { withBw 2 3 1 with port := { target := ⟨.bw, 1⟩, buffer := 0 } })
     gives (exec .bwFlush { s with port := { target := ⟨.bw, 0⟩, buffer := 0 } }) .refused none [] = true
      ∧ gives (exec .bwFlush s) .ok (some 0) [] = true) := by decide

theorem witness_WritesAfterFlushAreRefused :
    (∃ (s : State) (c : BwCore), s.runsBw c ∧ c.flushed = true ∧ c.ok s.params = true)
      ∧ ∃ (s : State) (e : EncCore), s.runsEnc e ∧ e.idle = true :=
  ⟨⟨withBw 2 2 3 true, { buf := 0, lOut := 2, wbits := 2, acc := 3, flushed := true }, by decide⟩,
    ⟨withEnc { enc1 0 with idle := true }, { enc1 0 with idle := true }, by decide⟩⟩

theorem witness_ValuesAboveTheWidthAreRefused :
    ∃ (s : State) (e : EncCore) (v : Word64), s.runsEnc e ∧ e.w < 64 ∧ 2 ^ e.w ≤ v.toNat :=
  ⟨withEnc (enc1 0), enc1 0, 2, by decide⟩

/-! #### The bit writer -/

theorem witness_WriterIsConstructed :
    ∃ (s : State) (lOut : Word32), s.port.target.kind = .bw ∧ lOut.toNat ≤ s.params.maxBufferLen :=
  ⟨loaded .bw [], 0x7FFFFFFF, by decide⟩

/-- Width 65; after a flush; one bit too many; exactly full. -/
theorem witness_PutValueAppendsTheLowBits :
    (∃ (s : State) (c : BwCore) (w : Word7), s.runsBw c ∧ c.ok s.params = true ∧ 64 < w.toNat)
      ∧ (∃ (s : State) (c : BwCore), s.runsBw c ∧ c.ok s.params = true ∧ c.flushed = true)
      ∧ (∃ (s : State) (c : BwCore) (w : Word7), s.runsBw c ∧ c.ok s.params = true ∧ w.toNat ≤ 64 ∧ c.flushed = false
        ∧ c.lOut < (c.wbits + w.toNat + 7) / 8)
      ∧ ∃ (s : State) (c : BwCore) (w : Word7), s.runsBw c ∧ c.ok s.params = true ∧ w.toNat ≤ 64 ∧ c.flushed = false
        ∧ (c.wbits + w.toNat + 7) / 8 ≤ c.lOut :=
  ⟨⟨withBw 2 3 1, { buf := 0, lOut := 2, wbits := 3, acc := 1, flushed := false }, 65, by decide⟩,
    ⟨withBw 2 3 1 true, { buf := 0, lOut := 2, wbits := 3, acc := 1, flushed := true }, by decide⟩,
    ⟨withBw 2 3 1, { buf := 0, lOut := 2, wbits := 3, acc := 1, flushed := false }, 14, by decide⟩,
    ⟨withBw 2 3 1, { buf := 0, lOut := 2, wbits := 3, acc := 1, flushed := false }, 13, by decide⟩⟩

/-- The statement's two equivalences: a write that does not fit, and one that does. -/
theorem witness_WriterIsFullExactlyAtItsCapacity :
    ∃ (s : State) (c : BwCore), s.runsBw c ∧ c.ok s.params = true ∧ c.flushed = false
      ∧ c.lOut < (c.wbits + (9 : Word7).toNat + 7) / 8 ∧ ¬ c.lOut < (c.wbits + (8 : Word7).toNat + 7) / 8
      ∧ c.lOut < (c.wbits + 7) / 8 + ulebLen 128 ∧ ¬ c.lOut < (c.wbits + 7) / 8 + ulebLen 127 :=
  ⟨withBw 1 0 0, { buf := 0, lOut := 1, wbits := 0, acc := 0, flushed := false }, by decide⟩

theorem witness_PutUlebAppendsTheVarint :
    (∃ (s : State) (c : BwCore) (p : Nat), s.runsBw c ∧ c.ok s.params = true ∧ p = (c.wbits + 7) / 8
        ∧ c.flushed = true)
      ∧ (∃ (s : State) (c : BwCore) (x : Word32) (p : Nat), s.runsBw c ∧ c.ok s.params = true
        ∧ p = (c.wbits + 7) / 8 ∧ c.flushed = false ∧ c.lOut < p + (ulebEncode x.toNat).length)
      ∧ ∃ (s : State) (c : BwCore) (x : Word32) (p : Nat), s.runsBw c ∧ c.ok s.params = true
        ∧ p = (c.wbits + 7) / 8 ∧ c.flushed = false ∧ p + (ulebEncode x.toNat).length ≤ c.lOut :=
  ⟨⟨withBw 2 3 1 true, { buf := 0, lOut := 2, wbits := 3, acc := 1, flushed := true }, 1, by decide⟩,
    ⟨withBw 2 3 1, { buf := 0, lOut := 2, wbits := 3, acc := 1, flushed := false }, 128, 1, by decide⟩,
    ⟨withBw 2 3 1, { buf := 0, lOut := 2, wbits := 3, acc := 1, flushed := false }, 127, 1, by decide⟩⟩

/-- With a partial byte, and without one. -/
theorem witness_FlushCommitsThePartialByte :
    (∃ (s : State) (c : BwCore), s.runsBw c ∧ s.params.legal = true ∧ c.ok s.params = true ∧ c.wbits % 8 ≠ 0)
      ∧ ∃ (s : State) (c : BwCore), s.runsBw c ∧ s.params.legal = true ∧ c.ok s.params = true ∧ c.wbits % 8 = 0 :=
  ⟨⟨withBw 1 7 1, { buf := 0, lOut := 1, wbits := 7, acc := 1, flushed := false }, by decide⟩,
    ⟨withBw 1 8 0, { buf := 0, lOut := 1, wbits := 8, acc := 0, flushed := false }, by decide⟩⟩

theorem witness_WriterIsCleared : ∃ (s : State) (c : BwCore), s.runsBw c :=
  ⟨withBw 2 2 3 true, { buf := 0, lOut := 2, wbits := 2, acc := 3, flushed := true }, by decide⟩

theorem witness_PutThenGetReturnsTheField :
    ∃ (s : State) (c : BwCore) (w : Word7) (lIn : Word32),
      s.runsBw c ∧ c.ok s.params = true ∧ s.params.legal = true ∧ c.flushed = false ∧ w.toNat ≤ 64
        ∧ (c.wbits + w.toNat + 7) / 8 ≤ c.lOut ∧ (c.wbits + w.toNat + 7) / 8 ≤ lIn.toNat
        ∧ lIn.toNat ≤ s.params.maxBufferLen :=
  ⟨withBw 9 3 1, { buf := 0, lOut := 9, wbits := 3, acc := 1, flushed := false }, 64, 9, by decide⟩

/-! #### The bit reader -/

/-- A length too large; the buffer of a bit writer and of an encoder before the flush; and after it. -/
theorem witness_ReaderIsConstructed :
    (∃ (s : State) (lIn : Word32), s.port.target.kind = .br ∧ s.params.maxBufferLen < lIn.toNat)
      ∧ (∃ (s : State) (id : Nat) (c : BwCore), s.port.target.kind = .br
        ∧ (s.buf s.port.buffer).holder = some { kind := .bw, id := id } ∧ (s.bw id).core = some c
        ∧ c.buf = s.port.buffer ∧ c.flushed = false)
      ∧ (∃ (s : State) (id : Nat) (e : EncCore), s.port.target.kind = .br
        ∧ (s.buf s.port.buffer).holder = some { kind := .enc, id := id } ∧ (s.enc id).core = some e
        ∧ e.buf = s.port.buffer ∧ e.idle = false)
      ∧ (∃ (s : State) (lIn : Word32), s.port.target.kind = .br ∧ lIn.toNat ≤ s.params.maxBufferLen
        ∧ (s.buf s.port.buffer).holder = none)
      ∧ ∃ (s : State) (lIn : Word32), s.port.target.kind = .br ∧ lIn.toNat ≤ s.params.maxBufferLen
        ∧ (s.buf s.port.buffer).holder = some ⟨.bw, 0⟩ ∧ (s.bw 0).core.map (fun c => c.flushed) = some true :=
  ⟨⟨loaded .br [1], 0x80000000, by decide⟩, ⟨toReader (withBw 2 3 1), 0, _, rfl, rfl, rfl, by decide⟩,
    ⟨toReader (withEnc fullPage), 0, _, rfl, rfl, rfl, by decide⟩, ⟨loaded .br [1], 0x7FFFFFFF, by decide⟩,
    ⟨toReader (withBw 2 3 1 true), 0x7FFFFFFF, by decide⟩⟩

theorem witness_GetValueReadsTheField :
    (∃ (s : State) (c : BrCore) (w : Word7), s.runsBr c ∧ 64 < w.toNat)
      ∧ (∃ (s : State) (c : BrCore) (w : Word7), s.runsBr c ∧ w.toNat ≤ 64 ∧ 8 * c.lIn < c.rbits + w.toNat)
      ∧ ∃ (s : State) (c : BrCore) (w : Word7), s.runsBr c ∧ w.toNat ≤ 64 ∧ c.rbits + w.toNat ≤ 8 * c.lIn :=
  ⟨⟨withBr [1, 2] 3, { buf := 0, version := 1, lIn := 2, rbits := 3 }, 65, by decide⟩,
    ⟨withBr [1, 2] 3, { buf := 0, version := 1, lIn := 2, rbits := 3 }, 14, by decide⟩,
    ⟨withBr [1, 2] 3, { buf := 0, version := 1, lIn := 2, rbits := 3 }, 13, by decide⟩⟩

theorem witness_SkipAndAlignMoveThePosition :
    (∃ (s : State) (c : BrCore) (k : Word64), s.runsBr c ∧ c.ok s.params = true ∧ 8 * c.lIn < c.rbits + k.toNat)
      ∧ ∃ (s : State) (c : BrCore) (k : Word64), s.runsBr c ∧ c.ok s.params = true
        ∧ c.rbits + k.toNat ≤ 8 * c.lIn :=
  ⟨⟨withBr [1, 2] 3, { buf := 0, version := 1, lIn := 2, rbits := 3 }, 14, by decide⟩,
    ⟨withBr [1, 2] 3, { buf := 0, version := 1, lIn := 2, rbits := 3 }, 13, by decide⟩⟩

/-- A varint of `n` bytes stands at byte `p` of the input of a reader. -/
def HasVarint (ns : List Nat) (n : Nat) (inRange : Nat → Prop) : Prop :=
  ∃ (s : State) (c : BrCore) (p : Nat), s.runsBr c ∧ p = (c.rbits + 7) / 8 ∧ 1 ≤ n ∧ n ≤ 5 ∧ p + n ≤ c.lIn
    ∧ c.lIn = ns.length
    ∧ (∀ i, i < n - 1 → 128 ≤ (s.readByte c.buf (p + i)).toNat) ∧ (s.readByte c.buf (p + (n - 1))).toNat < 128
    ∧ inRange ((List.range n).map fun i => (s.readByte c.buf (p + i)).toNat % 128 * 2 ^ (7 * i)).sum

/-- The shortest and the longest varint, one just too large (U5, U6), one too long (U7), one cut off and none (U9, U10). -/
theorem witness_GetUlebReadsTheVarint :
    HasVarint [0x7F] 1 (· < 2 ^ 32)
      ∧ HasVarint [0xFF, 0xFF, 0xFF, 0xFF, 0x0F] 5 (· < 2 ^ 32)
      ∧ HasVarint [0x80, 0x80, 0x80, 0x80, 0x10] 5 (2 ^ 32 ≤ ·)
      ∧ (∃ (s : State) (c : BrCore) (p : Nat), s.runsBr c ∧ p = (c.rbits + 7) / 8 ∧ p + 5 ≤ c.lIn
        ∧ ∀ i, i < 5 → 128 ≤ (s.readByte c.buf (p + i)).toNat)
      ∧ (∃ (s : State) (c : BrCore) (p : Nat), s.runsBr c ∧ p = (c.rbits + 7) / 8 ∧ p < c.lIn ∧ c.lIn < p + 5
        ∧ ∀ i, i < c.lIn - p → 128 ≤ (s.readByte c.buf (p + i)).toNat)
      ∧ ∃ (s : State) (c : BrCore) (p : Nat), s.runsBr c ∧ p = (c.rbits + 7) / 8 ∧ c.lIn = p :=
  ⟨⟨withBr [0x7F] 0, { buf := 0, version := 1, lIn := 1, rbits := 0 }, 0, by decide +kernel⟩,
    ⟨withBr [0xFF, 0xFF, 0xFF, 0xFF, 0x0F] 0, { buf := 0, version := 1, lIn := 5, rbits := 0 }, 0, by decide +kernel⟩,
    ⟨withBr [0x80, 0x80, 0x80, 0x80, 0x10] 0, { buf := 0, version := 1, lIn := 5, rbits := 0 }, 0, by decide +kernel⟩,
    ⟨withBr [0x80, 0x80, 0x80, 0x80, 0x80] 0, { buf := 0, version := 1, lIn := 5, rbits := 0 }, 0, by decide +kernel⟩,
    ⟨withBr [0x01, 0x80] 1, { buf := 0, version := 1, lIn := 2, rbits := 1 }, 1, by decide +kernel⟩,
    ⟨withBr [0x01] 1, { buf := 0, version := 1, lIn := 1, rbits := 1 }, 1, by decide +kernel⟩⟩

theorem witness_VarintsRoundTrip : (∃ x : Nat, x < 2 ^ 32) ∧ ∃ v : Nat, v < 2 :=
  ⟨⟨4294967295, by decide⟩, ⟨1, by decide⟩⟩

/-! #### The encoder -/

theorem witness_EncoderIsConstructed :
    ∃ (s : State) (lOut : Word32) (w m : Word7), s.port.target.kind = .enc ∧ w.toNat ≤ 64 ∧ m.toNat % 8 = 0
      ∧ m.toNat ≤ s.params.maxRunLengthBuffer ∧ 2 + w.toNat + (w.toNat + 7) / 8 ≤ lOut.toNat
      ∧ lOut.toNat ≤ s.params.maxBufferLen :=
  ⟨loaded .enc [], 74, 64, 48, by decide⟩

theorem witness_CapacityHelpersAnswerInEveryState :
    (∃ (s : State) (w : Word7), s.port.target.kind = .enc ∧ 64 < w.toNat)
      ∧ ∃ (s : State) (w : Word7), s.port.target.kind = .enc ∧ w.toNat ≤ 64 :=
  ⟨⟨loaded .enc [], 65, by decide⟩, ⟨loaded .enc [], 64, by decide⟩⟩

/-- E22: after one octet, 63 ones have been counted over 4 bytes, and a 64th does not fit. -/
def counting (count : Nat) : EncCore :=
  { freshEnc 1 0 4 with wpos := 2, mode := .repeating, repValue := 1, repCount := count }

theorem witness_EqualValuesAreCounted :
    (∃ (s : State) (e : EncCore), s.runsEnc e ∧ e.ok s.params = true ∧ e.mode = .repeating ∧ e.repCount < 2147483647
        ∧ e.wpos + ulebLen (2 * (e.repCount + 1)) + (e.w + 7) / 8 ≤ e.lOut)
      ∧ ∃ (s : State) (e : EncCore), s.runsEnc e ∧ e.ok s.params = true ∧ e.mode = .repeating
        ∧ e.repCount < 2147483647 ∧ e.lOut < e.wpos + ulebLen (2 * (e.repCount + 1)) + (e.w + 7) / 8 :=
  ⟨⟨withEnc (counting 62), counting 62, by decide⟩, ⟨withEnc (counting 63), counting 63, by decide⟩⟩

/-- A different value, an equal value at the largest count, and a buffer with no room for the octet. -/
theorem witness_BrokenRunIsEmitted :
    (∃ (s : State) (e : EncCore) (v : Word64) (n : Nat), s.runsEnc e ∧ e.ok s.params = true ∧ e.mode = .repeating
        ∧ v ≠ e.repValue ∧ valueFits e.w v = true ∧ n = ulebLen (2 * e.repCount) + (e.w + 7) / 8
        ∧ e.wpos + n + (e.w + 1) ≤ e.lOut)
      ∧ (∃ (s : State) (e : EncCore) (v : Word64) (n : Nat), s.runsEnc e ∧ e.ok s.params = true ∧ e.mode = .repeating
        ∧ v = e.repValue ∧ e.repCount = 2147483647 ∧ valueFits e.w v = true
        ∧ n = ulebLen (2 * e.repCount) + (e.w + 7) / 8 ∧ e.wpos + n + (e.w + 1) ≤ e.lOut)
      ∧ ∃ (s : State) (e : EncCore) (v : Word64) (n : Nat), s.runsEnc e ∧ e.ok s.params = true ∧ e.mode = .repeating
        ∧ v ≠ e.repValue ∧ valueFits e.w v = true ∧ n = ulebLen (2 * e.repCount) + (e.w + 7) / 8
        ∧ e.lOut < e.wpos + n + (e.w + 1) :=
  ⟨⟨withEnc { enc1 0 with mode := .repeating, repCount := 50 }, { enc1 0 with mode := .repeating, repCount := 50 }, 1, 2,
      by decide⟩,
    ⟨withEnc { enc1 0 with mode := .repeating, repCount := 2147483647 },
      { enc1 0 with mode := .repeating, repCount := 2147483647 }, 0, 6, by decide⟩,
    ⟨withEnc (counting 63), counting 63, 0, 2, by decide⟩⟩

theorem witness_FewerThanEightValuesAreStaged :
    (∃ (s : State) (e : EncCore) (v : Word64), s.runsEnc e ∧ e.ok s.params = true ∧ e.idle = false
        ∧ e.mode = .staging ∧ e.staged.length < 7 ∧ valueFits e.w v = true
        ∧ e.wpos + e.w + (if e.litOpen = true then 0 else 1) ≤ e.lOut)
      ∧ ∃ (s : State) (e : EncCore) (v : Word64), s.runsEnc e ∧ e.ok s.params = true ∧ e.idle = false
        ∧ e.mode = .staging ∧ e.staged.length < 7 ∧ valueFits e.w v = true
        ∧ e.lOut < e.wpos + e.w + (if e.litOpen = true then 0 else 1) :=
  ⟨⟨withEnc { enc1 0 with staged := List.replicate 6 1 }, { enc1 0 with staged := List.replicate 6 1 }, 1, by decide⟩,
    ⟨withEnc fullPage, fullPage, 0, by decide⟩⟩

theorem witness_ThresholdStartsARepeat :
    (∃ (s : State) (e : EncCore) (v : Word64), s.runsEnc e ∧ e.ok s.params = true ∧ e.idle = false
        ∧ e.mode = .staging ∧ e.staged = List.replicate (max 8 e.m - 1) v ∧ valueFits e.w v = true
        ∧ e.wpos + ulebLen (2 * max 8 e.m) + (e.w + 7) / 8 ≤ e.lOut)
      ∧ ∃ (s : State) (e : EncCore) (v : Word64), s.runsEnc e ∧ e.ok s.params = true ∧ e.idle = false
        ∧ e.mode = .staging ∧ e.staged = List.replicate (max 8 e.m - 1) v ∧ valueFits e.w v = true
        ∧ e.lOut < e.wpos + ulebLen (2 * max 8 e.m) + (e.w + 7) / 8 :=
  ⟨⟨withEnc { enc1 16 with staged := List.replicate 15 1 }, { enc1 16 with staged := List.replicate 15 1 }, 1,
      by decide⟩,
    ⟨withEnc { fullPage with wpos := 3, litGroups := 2, staged := List.replicate 7 1 },
      { fullPage with wpos := 3, litGroups := 2, staged := List.replicate 7 1 }, 1, by decide⟩⟩

/-- Held at 14 ones below `T = 16`; cut into octets at 7 and at 15; and one octet too many for the buffer. -/
theorem witness_RunsBelowTheThresholdBecomeOctets :
    (∃ (s : State) (e : EncCore) (x v : Word64) (k need : Nat), s.runsEnc e ∧ s.params.legal = true
        ∧ e.ok s.params = true ∧ e.idle = false ∧ e.mode = .staging ∧ e.staged = List.replicate k x ∧ 7 ≤ k
        ∧ v = x ∧ k + 1 < max 8 e.m ∧ valueFits e.w v = true
        ∧ need = (k + 8) / 8 * e.w + ((e.litGroups + (k + 8) / 8 + 62) / 63 - (e.litGroups + 62) / 63)
        ∧ e.wpos + need ≤ e.lOut)
      ∧ (∃ (s : State) (e : EncCore) (x v : Word64) (k need : Nat), s.runsEnc e ∧ s.params.legal = true
        ∧ e.ok s.params = true ∧ e.idle = false ∧ e.mode = .staging ∧ e.staged = List.replicate k x ∧ 7 ≤ k
        ∧ v ≠ x ∧ valueFits e.w v = true
        ∧ need = (k + 8) / 8 * e.w + ((e.litGroups + (k + 8) / 8 + 62) / 63 - (e.litGroups + 62) / 63)
        ∧ e.wpos + need ≤ e.lOut)
      ∧ ∃ (s : State) (e : EncCore) (x v : Word64) (k need : Nat), s.runsEnc e ∧ s.params.legal = true
        ∧ e.ok s.params = true ∧ e.idle = false ∧ e.mode = .staging ∧ e.staged = List.replicate k x ∧ 7 ≤ k
        ∧ (v = x → k + 1 < max 8 e.m) ∧ valueFits e.w v = true
        ∧ need = (k + 8) / 8 * e.w + ((e.litGroups + (k + 8) / 8 + 62) / 63 - (e.litGroups + 62) / 63)
        ∧ e.lOut < e.wpos + need :=
  ⟨⟨withEnc { enc1 16 with staged := List.replicate 14 1 }, { enc1 16 with staged := List.replicate 14 1 }, 1, 1, 14,
      3, by decide⟩,
    ⟨withEnc { enc1 16 with staged := List.replicate 15 1 }, { enc1 16 with staged := List.replicate 15 1 }, 1, 0, 15,
      3, by decide⟩,
    ⟨withEnc { freshEnc 1 24 4 with wpos := 1, staged := List.replicate 16 1 },
      { freshEnc 1 24 4 with wpos := 1, staged := List.replicate 16 1 }, 1, 0, 16, 4, by decide⟩⟩

/-- The 63rd octet of an open literal run, which closes it. -/
def lastGroup : EncCore :=
  { freshEnc 1 0 100 with
    wpos := 63, litOpen := true, litHdrPos := 0, litGroups := 62, staged := [0, 1, 0, 1, 0, 1, 0] }

theorem witness_MixedOctetIsCommitted :
    (∃ (s : State) (e : EncCore) (v : Word64) (start groups : Nat), s.runsEnc e ∧ e.ok s.params = true
        ∧ e.idle = false ∧ e.mode = .staging ∧ e.staged.length = 7 ∧ allEqual (e.staged ++ [v]) = false
        ∧ valueFits e.w v = true ∧ start = e.wpos + (if e.litOpen = true then 0 else 1) ∧ groups = e.litGroups + 1
        ∧ start + e.w ≤ e.lOut ∧ groups = 63)
      ∧ ∃ (s : State) (e : EncCore) (v : Word64) (start groups : Nat), s.runsEnc e ∧ e.ok s.params = true
        ∧ e.idle = false ∧ e.mode = .staging ∧ e.staged.length = 7 ∧ allEqual (e.staged ++ [v]) = false
        ∧ valueFits e.w v = true ∧ start = e.wpos + (if e.litOpen = true then 0 else 1) ∧ groups = e.litGroups + 1
        ∧ start + e.w ≤ e.lOut ∧ groups ≠ 63 :=
  ⟨⟨withEnc lastGroup, lastGroup, 1, 63, 63, by decide⟩,
    ⟨withEnc { enc1 0 with staged := List.replicate 7 1 }, { enc1 0 with staged := List.replicate 7 1 }, 0, 1, 1,
      by decide⟩⟩

theorem witness_PutIsAcceptedOrFull :
    ∃ (s : State) (e : EncCore) (v : Word64), s.runsEnc e ∧ s.params.legal = true ∧ e.ok s.params = true
      ∧ e.idle = false ∧ valueFits e.w v = true := ⟨withEnc fullPage, fullPage, 0, by decide⟩

theorem witness_FirstValueIsAccepted :
    (∃ (s s' : State) (e : EncCore) (v : Word64), s.inv = true ∧ exec .encClear s = .next s'
        ∧ s'.status = some .ok ∧ s'.encIs e ∧ valueFits e.w v = true)
      ∧ ∃ (s s' : State) (e : EncCore) (v : Word64) (lOut : Word32), s.inv = true
        ∧ exec (.encNew lOut 64 0) s = .next s' ∧ s'.status = some .ok ∧ s'.encIs e
        ∧ valueFits e.w v = true :=
  ⟨⟨withEnc fullPage, _, EncCore.fresh 0 1 0 4 (Config.freeRepValue 0 1) (Config.freeHdrPos 0 1).toNat, 1,
      by decide, rfl, rfl, rfl, by decide⟩,
    ⟨loaded .enc [], _, EncCore.fresh 0 64 0 74 (Config.freeRepValue 0 0) (Config.freeHdrPos 0 0).toNat, 1, 74,
      by decide, rfl, rfl, rfl, by decide⟩⟩

/-- A flush with nothing staged, one that closes a run at 63 groups, one of two and a half octets, one of a counted run,
and one of an idle encoder. -/
theorem witness_FlushWritesExactlyFlushBytes :
    ∀ e ∈ [fullPage, { lastGroup with staged := List.replicate 7 1 },
        { enc1 24 with staged := List.replicate 20 1 }, counting 63, { enc1 0 with wpos := 2, idle := true }],
      (withEnc e).runsEnc e ∧ (withEnc e).params.legal = true ∧ e.ok (withEnc e).params = true := by decide

theorem witness_EncoderIsCleared : ∃ (s : State) (e : EncCore), s.runsEnc e :=
  ⟨withEnc fullPage, fullPage, by decide⟩

/-- Two zeros and a one, encoded with `W = 1`. -/
theorem witness_EncodedValuesDecodeBack :
    ∃ (s s1 : State) (e : EncCore) (vs : List Word64), s.runsEnc e ∧ s.params.legal = true ∧ e.ok s.params = true
      ∧ e = EncCore.fresh e.buf e.w e.m e.lOut e.repValue e.litHdrPos ∧ putAll vs s = some s1 :=
  ⟨withEnc (enc1 0), (putAll [0, 0, 1] (withEnc (enc1 0))).getD State.reset, enc1 0, [0, 0, 1], by decide,
    by decide, by decide, rfl, by decide⟩

theorem witness_EncodingIsBounded :
    ∃ (s s1 : State) (e : EncCore) (vs : List Word64), s.runsEnc e ∧ s.params.legal = true ∧ e.ok s.params = true
      ∧ e = EncCore.fresh e.buf e.w e.m e.lOut e.repValue e.litHdrPos ∧ putAll vs s = some s1 := witness_EncodedValuesDecodeBack

/-- The second encoder is over another buffer. -/
theorem witness_EqualValuesGiveEqualBytes :
    ∃ (s s1 u : State) (e f : EncCore) (vs : List Word64), s.runsEnc e ∧ u.runsEnc f ∧ s.params.legal = true
      ∧ e.ok s.params = true ∧ e = EncCore.fresh e.buf e.w e.m e.lOut e.repValue e.litHdrPos
      ∧ f = EncCore.fresh f.buf e.w e.m e.lOut f.repValue f.litHdrPos ∧ putAll vs s = some s1 :=
  ⟨withEnc (enc1 0), (putAll [0, 0, 1] (withEnc (enc1 0))).getD State.reset, withEnc { enc1 0 with buf := 1, repValue := 1 },
    enc1 0, { enc1 0 with buf := 1, repValue := 1 }, [0, 0, 1], by decide, by decide, by decide, by decide, rfl, rfl, by decide⟩

/-! #### The decoder -/

/-- A width and a length too large; the buffer of an encoder before the flush; one nobody has taken. -/
theorem witness_DecoderIsConstructed :
    (∃ (s : State) (w : Word7), s.port.target.kind = .dec ∧ 64 < w.toNat)
      ∧ (∃ (s : State) (lIn : Word32), s.port.target.kind = .dec ∧ s.params.maxBufferLen < lIn.toNat)
      ∧ (∃ s : State, s.port.target.kind = .dec ∧ s.inUse s.port.buffer = true)
      ∧ (∃ (s : State) (id : Nat) (c : BwCore), (s.bw id).core = some c
        ∧ (s.buf c.buf).holder = some { kind := .bw, id := id })
      ∧ (∃ (s : State) (id : Nat) (e : EncCore), (s.enc id).core = some e
        ∧ (s.buf e.buf).holder = some { kind := .enc, id := id })
      ∧ ∃ (s : State) (lIn : Word32) (w : Word7), s.port.target.kind = .dec ∧ w.toNat ≤ 64
        ∧ lIn.toNat ≤ s.params.maxBufferLen ∧ s.inUse s.port.buffer = false :=
  ⟨⟨loaded .dec [], 65, by decide⟩, ⟨loaded .dec [], 0x80000000, by decide⟩,
    ⟨{ withEnc fullPage with port := { target := ⟨.dec, 0⟩, buffer := 0 } }, by decide⟩,
    ⟨withBw 2 3 1, 0, _, rfl, rfl⟩, ⟨withEnc fullPage, 0, _, rfl, rfl⟩,
    ⟨loaded .dec [], 0x7FFFFFFF, 64, by decide⟩⟩

/-- A decoder of `W = 1` with an EMPTY look-ahead over a header of one byte and these bytes. -/
def TakesRepeated (ns : List Nat) (p : State → DecCore → Nat → Nat → Prop) : Prop :=
  ∃ (s : State) (c : DecCore) (q val : Nat), s.runsDec c ∧ c.w ≤ 64 ∧ c.run = .empty ∧ q = c.rbits / 8 + 1
    ∧ val = ((List.range ((c.w + 7) / 8)).map fun i => (s.readByte c.buf (q + i)).toNat * 2 ^ (8 * i)).sum
    ∧ c.lIn = ns.length ∧ p s c q val

/-- The payload cut off; a value of `W` bits; and a value of more, under each of the three policies. -/
theorem witness_RepeatedRunIsTakenUp :
    TakesRepeated [0x02] (fun _ c q _ => c.lIn < q + (c.w + 7) / 8)
      ∧ TakesRepeated [0x02, 0x01] (fun _ c q val => q + (c.w + 7) / 8 ≤ c.lIn ∧ val < 2 ^ c.w)
      ∧ TakesRepeated [0x02, 0x02] (fun s c q val => q + (c.w + 7) / 8 ≤ c.lIn ∧ 2 ^ c.w ≤ val
        ∧ s.params.padPolicy = .raw)
      ∧ TakesRepeated [0x02, 0x02] (fun s c q val => q + (c.w + 7) / 8 ≤ c.lIn ∧ 2 ^ c.w ≤ val
        ∧ s.params.padPolicy = .mask)
      ∧ TakesRepeated [0x02, 0x02] (fun s c q val => q + (c.w + 7) / 8 ≤ c.lIn ∧ 2 ^ c.w ≤ val
        ∧ s.params.padPolicy = .malformed) :=
  ⟨⟨{ withDec [0x02] (decOver [0x02] 1) with mem := [(0, { epoch := 0, changes := [.written 0], holder := none, spoilt := [], bytes := [(0, 2), (1, 0)] })] },
      decOver [0x02] 1, 1, 0, by decide +kernel⟩,
    ⟨withDec [0x02, 0x01] (decOver [0x02, 0x01] 1), decOver [0x02, 0x01] 1, 1, 1, by decide +kernel⟩,
    ⟨withDec [0x02, 0x02] (decOver [0x02, 0x02] 1), decOver [0x02, 0x02] 1, 1, 2, by decide +kernel⟩,
    ⟨{ withDec [0x02, 0x02] (decOver [0x02, 0x02] 1) with params := { Config.defaultParams with padPolicy := .mask } },
      decOver [0x02, 0x02] 1, 1, 2, by decide +kernel⟩,
    ⟨{ withDec [0x02, 0x02] (decOver [0x02, 0x02] 1) with
        params := { Config.defaultParams with padPolicy := .malformed } },
      decOver [0x02, 0x02] 1, 1, 2, by decide +kernel⟩⟩

/-- The bounds on the number of groups, just passed and just kept, at W = 1 (DV14, DV15) and at W = 64 (DV12, DV13), and a
run at hand. -/
theorem witness_LiteralRunIsTakenUp :
    (∃ (s : State) (c : DecCore) (groups : BitVec 31), s.runsDec c ∧ c.run = .empty ∧ groups ≠ 0
        ∧ 2 ^ 31 - 1 < 8 * groups.toNat)
      ∧ (∃ (s : State) (c : DecCore) (groups : BitVec 31), s.runsDec c ∧ c.run = .empty ∧ groups ≠ 0
        ∧ 8 * groups.toNat ≤ 2 ^ 31 - 1 ∧ 1 ≤ c.w ∧ (2 ^ 32 - 1) / c.w < 8 * groups.toNat)
      ∧ (∃ (s : State) (c : DecCore) (groups : BitVec 31), s.runsDec c ∧ c.run = .empty ∧ groups ≠ 0
        ∧ 8 * groups.toNat ≤ 2 ^ 31 - 1 ∧ (1 ≤ c.w → 8 * groups.toNat ≤ (2 ^ 32 - 1) / c.w))
      ∧ ∃ (s : State) (c : DecCore), s.runsDec c ∧ c.run ≠ .empty :=
  ⟨⟨withDec [] (decOver [] 1), decOver [] 1, 268435456, by decide⟩,
    ⟨withDec [] (decOver [] 64), decOver [] 64, 8388608, by decide⟩,
    ⟨withDec [] (decOver [] 64), decOver [] 64, 8388607, by decide⟩,
    ⟨withDec [] { decOver [] 1 with run := .lit 8 }, { decOver [] 1 with run := .lit 8 }, by decide⟩⟩

theorem witness_AccessorsReportTheRun :
    (∃ (s : State) (c : DecCore), s.runsDec c ∧ c.run ≠ .empty)
      ∧ (∃ (s : State) (c : DecCore) (i : Instr) (u : State), s.runsDec c ∧ c.run = .empty
        ∧ decode (.wire (varintWindow (s.readByte c.buf) c.lIn (c.rbits / 8))) = .ok i ∧ exec i s = .next u)
      ∧ ∃ (s : State) (c : DecCore) (why : Reject), s.runsDec c ∧ c.run = .empty
        ∧ decode (.wire (varintWindow (s.readByte c.buf) c.lIn (c.rbits / 8))) = .error why :=
  ⟨⟨withDec [] { decOver [] 1 with run := .rep 1 5 }, { decOver [] 1 with run := .rep 1 5 }, by decide⟩,
    ⟨withDec [0x64, 0x01] (decOver [0x64, 0x01] 1), decOver [0x64, 0x01] 1, .wireRepeatedRun 50 1, _, by decide +kernel,
      rfl, by decide +kernel, rfl⟩,
    ⟨withDec [] (decOver [] 1), decOver [] 1, .headerCutOff, by decide +kernel, rfl, by decide +kernel⟩⟩

theorem witness_RepeatedValueIsDelivered :
    (∃ (s : State) (c : DecCore) (n : Word32) (v : Word64) (rem : Nat), s.runsDec c ∧ c.run = .rep v rem
        ∧ n.toNat ≤ rem)
      ∧ (∃ (s : State) (c : DecCore) (n : Word32) (v : Word64) (rem : Nat), s.runsDec c ∧ c.run = .rep v rem
        ∧ rem < n.toNat)
      ∧ (∃ (s : State) (c : DecCore) (rem : Nat), s.runsDec c ∧ c.run = .lit rem)
      ∧ ∃ (s : State) (c : DecCore), s.runsDec c ∧ c.run = .dead :=
  ⟨⟨withDec [] { decOver [] 1 with run := .rep 1 5 }, { decOver [] 1 with run := .rep 1 5 }, 5, 1, 5, by decide⟩,
    ⟨withDec [] { decOver [] 1 with run := .rep 1 5 }, { decOver [] 1 with run := .rep 1 5 }, 6, 1, 5, by decide⟩,
    ⟨withDec [] { decOver [] 1 with run := .lit 8 }, { decOver [] 1 with run := .lit 8 }, 8, by decide⟩,
    ⟨withDec [] { decOver [] 1 with run := .dead }, { decOver [] 1 with run := .dead }, by decide⟩⟩

/-- R140's decoder, `03 AA` with W = 2, after its header: 8 values announced, 4 present. -/
def cutOff : DecCore := { decOver [0x03, 0xAA] 2 with rbits := 8, run := .lit 8, deadReason := .none }

theorem witness_LiteralValuesAreDelivered :
    (∃ (s : State) (c : DecCore) (n : Word32) (rem : Nat), s.runsDec c ∧ c.ok s.params = true ∧ c.run = .lit rem
        ∧ n.toNat ≤ rem ∧ c.rbits + n.toNat * c.w ≤ 8 * c.lIn)
      ∧ (∃ (s : State) (c : DecCore) (n : Word32) (rem : Nat), s.runsDec c ∧ c.ok s.params = true ∧ c.run = .lit rem
        ∧ n.toNat ≤ rem ∧ 8 * c.lIn < c.rbits + n.toNat * c.w)
      ∧ (∃ (s : State) (c : DecCore) (n : Word32) (rem : Nat), s.runsDec c ∧ c.ok s.params = true ∧ c.run = .lit rem
        ∧ rem < n.toNat)
      ∧ (∃ (s : State) (c : DecCore) (v : Word64) (rem : Nat), s.runsDec c ∧ c.ok s.params = true
        ∧ c.run = .rep v rem)
      ∧ ∃ (s : State) (c : DecCore), s.runsDec c ∧ c.ok s.params = true ∧ c.run = .dead :=
  ⟨⟨withDec [0x03, 0xAA] cutOff, cutOff, 4, 8, by decide⟩, ⟨withDec [0x03, 0xAA] cutOff, cutOff, 5, 8, by decide⟩,
    ⟨withDec [0x03, 0xAA] cutOff, cutOff, 9, 8, by decide⟩,
    ⟨withDec [] { decOver [] 1 with run := .rep 1 5 }, { decOver [] 1 with run := .rep 1 5 }, 1, 5, by decide⟩,
    ⟨withDec [] { decOver [] 1 with run := .dead, deadReason := .zero },
      { decOver [] 1 with run := .dead, deadReason := .zero }, by decide⟩⟩

theorem witness_SingleValueIsDelivered :
    (∃ (s : State) (c : DecCore) (v : Word64) (rem : Nat), s.runsDec c ∧ c.run = .rep v rem)
      ∧ (∃ (s : State) (c : DecCore) (rem : Nat), s.runsDec c ∧ c.run = .lit rem ∧ c.w ≤ 64
        ∧ c.rbits + c.w ≤ 8 * c.lIn)
      ∧ (∃ (s : State) (c : DecCore) (rem : Nat), s.runsDec c ∧ c.run = .lit rem ∧ 8 * c.lIn < c.rbits + c.w)
      ∧ ∃ (s : State) (c : DecCore), s.runsDec c ∧ c.run = .dead :=
  ⟨⟨withDec [] { decOver [] 1 with run := .rep 1 1 }, { decOver [] 1 with run := .rep 1 1 }, 1, 1, by decide⟩,
    ⟨withDec [0x03, 0xAA] { cutOff with rbits := 14 }, { cutOff with rbits := 14 }, 8, by decide⟩,
    ⟨withDec [0x03, 0xAA] { cutOff with rbits := 16 }, { cutOff with rbits := 16 }, 8, by decide⟩,
    ⟨withDec [] { decOver [] 1 with run := .dead }, { decOver [] 1 with run := .dead }, by decide⟩⟩

/-- A run the command can take and one it refuses; the end of the input, a header cut off and a malformed one. -/
theorem witness_EmptyLookAheadParsesFirst :
    (∃ (s u : State) (c : DecCore) (i : Instr), s.runsDec c ∧ c.run = .empty
        ∧ decode (.wire (varintWindow (s.readByte c.buf) c.lIn (c.rbits / 8))) = .ok i ∧ exec i s = .next u
        ∧ (∃ t : State, exec (.decGetRepeatedValue 50) u = .next t ∧ t.status ≠ some .refused)
        ∧ (∃ t : State, exec (.decGetRepeatedValue 51) u = .next t ∧ t.status = some .refused)
        ∧ ∃ t : State, exec (.decGetLiteralValues 1) u = .next t ∧ t.status = some .refused)
      ∧ (∀ ns ∈ [[], [0x80], [0x80, 0x80, 0x80, 0x80, 0x80]],
        ∃ (s : State) (c : DecCore) (why : Reject), s.runsDec c ∧ c.run = .empty ∧ c.lIn = ns.length
          ∧ decode (.wire (varintWindow (s.readByte c.buf) c.lIn (c.rbits / 8))) = .error why)
      ∧ ∃ (s : State) (c : DecCore), s.runsDec c := by
  refine ⟨⟨withDec [0x64, 0x01] (decOver [0x64, 0x01] 1), _, decOver [0x64, 0x01] 1, .wireRepeatedRun 50 1,
    by decide +kernel, rfl, by decide +kernel, rfl, ⟨_, rfl, by decide +kernel⟩, ⟨_, rfl, by decide +kernel⟩,
    ⟨_, rfl, by decide +kernel⟩⟩, ?_, ⟨withDec [] (decOver [] 1), decOver [] 1, by decide⟩⟩
  simp only [List.forall_mem_cons, List.not_mem_nil, false_imp_iff, implies_true, and_true]
  exact ⟨⟨withDec [] (decOver [] 1), decOver [] 1, .headerCutOff, by decide +kernel⟩,
    ⟨withDec [0x80] (decOver [0x80] 1), decOver [0x80] 1, .headerCutOff, by decide +kernel⟩,
    ⟨withDec [0x80, 0x80, 0x80, 0x80, 0x80] (decOver [0x80, 0x80, 0x80, 0x80, 0x80] 1),
      decOver [0x80, 0x80, 0x80, 0x80, 0x80] 1, .headerMalformed, by decide +kernel⟩⟩

/-- Any decoder that runs meets the hypotheses of the three statements on bulk reads. -/
theorem witness_BulkReadEqualsSingleReads : ∃ (s : State) (c : DecCore), s.runsDec c :=
  ⟨withDec [0x03, 0xAA] cutOff, cutOff, by decide⟩
theorem witness_SkipLeavesTheStateOfTheBulkRead : ∃ (s : State) (c : DecCore), s.runsDec c :=
  witness_BulkReadEqualsSingleReads
theorem witness_BulkReadsCompose :
    ∃ (s : State) (c : DecCore) (a b : Word32), s.runsDec c ∧ a.toNat + b.toNat < 2 ^ 32 :=
  ⟨withDec [0x03, 0xAA] cutOff, cutOff, 0xFFFFFFFE, 1, by decide⟩

theorem witness_DeadIsSticky : ∃ (s : State) (c : DecCore), s.runsDec c ∧ c.run = .dead :=
  ⟨withDec [] { decOver [] 1 with run := .dead }, { decOver [] 1 with run := .dead }, by decide⟩

theorem witness_ResetStartsTheSamePassAgain :
    ∃ (s s1 s2 u : State) (lIn : Word32) (w : Word7) (i : Instr), s.port.target.kind = .dec ∧ kindOf i = .dec
      ∧ exec (.decNew lIn w) s = .next s1 ∧ s1.status = some .ok ∧ exec i s1 = .next s2
      ∧ exec (.decReset lIn w) s2 = .next u :=
  ⟨loaded .dec [0x64, 0x01], _, _, _, 2, 1, .decGetSingleValue, by decide, by decide, rfl, by decide, rfl, rfl⟩

/-- The byte just past the input is another one. -/
theorem witness_NothingBeyondTheInputIsRead :
    (∃ (s : State) (c : DecCore) (m : Memory) (i : Instr), s.runsDec c ∧ kindOf i = .dec ∧ isConstruction i = false
        ∧ ({ s with mem := m } : State).runsDec c ∧ m ≠ s.mem
        ∧ ∀ j, j < c.lIn → ({ s with mem := m } : State).readByte c.buf j = s.readByte c.buf j)
      ∧ ∃ (s : State) (c : BrCore) (m : Memory) (i : Instr), s.runsBr c ∧ kindOf i = .br ∧ isConstruction i = false
        ∧ ({ s with mem := m } : State).runsBr c ∧ m ≠ s.mem
        ∧ ∀ j, j < c.lIn → ({ s with mem := m } : State).readByte c.buf j = s.readByte c.buf j :=
  ⟨⟨withDec [0x03] (decOver [0x03] 1), decOver [0x03] 1,
      [(0, { epoch := 0, changes := [.written 0], holder := none, spoilt := [], bytes := [(0, 3), (1, 9)] })], .decGetSingleValue, by decide +kernel⟩,
    ⟨withBr [0x03] 0, { buf := 0, version := 1, lIn := 1, rbits := 0 },
      [(0, { epoch := 0, changes := [.written 0], holder := none, spoilt := [], bytes := [(0, 3), (1, 9)] })], .brGetValue 1, by decide +kernel⟩⟩

/-! #### The whole machine -/

/-- A state that satisfies the invariant, with a unit and a list. -/
def busy : State := listed (withEnc fullPage) (.command ⟨.enc, 0⟩ 0 ⟨0x31, 0, 0, 0⟩)

theorem witness_StepKeepsTheInvariant : ∃ s t : State, s.inv = true ∧ step s = .next t :=
  ⟨busy, _, by decide, rfl⟩
theorem witness_EveryInstructionCompletes :
    (∃ s : State, s.inv = true)
      ∧ (∃ (s t : State) (c : BwCore) (i : Instr), s.port.target.kind = .bw
        ∧ (s.bw s.port.target.id).core = some c ∧ exec i s = .next t ∧ isConstruction i = false
        ∧ i ≠ .bwClear)
      ∧ ∃ (s t : State) (e : EncCore) (i : Instr), s.port.target.kind = .enc
        ∧ (s.enc s.port.target.id).core = some e ∧ exec i s = .next t ∧ isConstruction i = false
        ∧ i ≠ .encClear :=
  ⟨⟨busy, by decide⟩,
    ⟨withBw 2 9 1, _, { buf := 0, lOut := 2, wbits := 9, acc := 1, flushed := false }, .bwFlush, rfl, rfl, rfl,
      by decide⟩,
    ⟨withEnc fullPage, _, fullPage, .encFlush, rfl, rfl, rfl, by decide⟩⟩
theorem witness_OnlyTheAddressedUnitChanges : ∃ (s t : State) (i : Instr), exec i s = .next t :=
  ⟨withEnc fullPage, _, .encFlush, rfl⟩
theorem witness_ConfigurationIsLatched :
    ∃ (s t : State) (i : Instr), exec i s = .next t ∧ isConstruction i = false :=
  ⟨withEnc fullPage, _, .encFlush, rfl, by decide⟩
/-- Each status comes up. -/
theorem witness_StatusesComeFromTheirCommands :
    (nextOf (exec (.encPut 0) (withEnc fullPage))).status = some .full
      ∧ (nextOf (exec (.brGetValue 9) (withBr [1] 0))).status = some .endOfInput
      ∧ (nextOf (exec .brGetUleb128 (withBr [0x80, 0x80, 0x80, 0x80, 0x80] 0))).status = some .err
      ∧ (nextOf (exec .decGetSingleValue (withDec [] (decOver [] 1)))).status = some .isFalse := by decide

end Sys2Proof.Tests
end

/-! ## Which command answers which status (00_scope.md R12, 60_exceptions.md R176) -/

namespace Sys2Proof.Machine

/-- Where the outcome is a next state, that state has a response, and its status is REFUSED or one of `statuses`. -/
def Answers (statuses : List Status) (o : Host.Outcome State Fault Refusal) : Prop :=
  ∀ t, o = .next t → ∃ st, t.status = some st ∧ (st = .refused ∨ st ∈ statuses)

/-- R176's table, read by command: the statuses beside REFUSED. A run header answers nothing. -/
def statusesOf : Instr → List Status
  | .bwPutValue _ _ => [.ok, .full]
  | .bwPutUleb128 _ => [.ok, .full]
  | .encPut _ => [.ok, .full]
  | .brGetValue _ => [.ok, .endOfInput]
  | .brSkipBits _ => [.ok, .endOfInput]
  | .brGetUleb128 => [.ok, .endOfInput, .err]
  | .decGetSingleValue => [.ok, .isFalse]
  | .decGetLiteralValues _ => [.ok, .isFalse]
  | .bwInit _ | .bwFlush | .bwBytesWritten | .bwClear => [.ok]
  | .brInit _ | .brAlignToByte => [.ok]
  | .encNew _ _ _ | .encFlush | .encClear | .encMinBufferSize _ | .encMaxBufferSize _ _ => [.ok]
  | .decNew _ _ | .decReset _ _ | .decNextNumRepeats | .decNextNumLiterals | .decGetRepeatedValue _ => [.ok]
  | .decGetValues _ | .decSkipValues _ => [.ok]
  | .wireRepeatedRun _ _ | .wireLiteralRun _ _ => []

/-! ### One rule for each operation a meaning is made of -/

section
variable {statuses : List Status} {s : State}

@[simp] theorem State.respond_status (st : Status) (r : Option Word64) (vs : List Word64) :
    (s.respond st r vs).status = some st := rfl
@[simp] theorem State.refuse_status : s.refuse.status = some .refused := rfl
@[simp] theorem State.writeCells_status (b : Nat) (cells : List Host.Cell) :
    (s.writeCells b cells).status = s.status := rfl

theorem answers_refuse : Answers statuses (.next s.refuse) := by
  rintro _ ⟨⟩
  exact ⟨_, s.refuse_status, .inl rfl⟩

theorem answers_respond {st : Status} (h : st ∈ statuses) (r : Option Word64) (vs : List Word64) :
    Answers statuses (.next (s.respond st r vs)) := by
  rintro _ ⟨⟩
  exact ⟨st, s.respond_status st r vs, .inr h⟩

/-- A commit writes memory and answers what was to be answered, or it faults. -/
theorem Answers.commit (h : Answers statuses (.next s)) (b lOut : Nat) (cells : List Host.Cell) :
    Answers statuses (s.commit b lOut cells) := by
  intro t ht
  obtain ⟨-, rfl⟩ := State.commit_next ht
  simpa using h s rfl

theorem Answers.ite {p : Prop} [Decidable p] {o o' : Host.Outcome State Fault Refusal} (h : Answers statuses o)
    (h' : Answers statuses o') : Answers statuses (if p then o else o') := by
  split
  · exact h
  · exact h'

theorem answers_whenAddressed {k : Kind} {f : Host.Outcome State Fault Refusal} (h : Answers statuses f) :
    Answers statuses (s.whenAddressed k f) := by
  intro t ht
  rcases State.whenAddressed_next ht with rfl | ⟨-, hf⟩
  · exact answers_refuse _ rfl
  · exact h t hf

theorem answers_onBw {f : BwCore → Host.Outcome State Fault Refusal} (h : ∀ c, Answers statuses (f c)) :
    Answers statuses (s.onBw f) := by
  intro t ht
  rcases State.onBw_next ht with rfl | ⟨c, -, hf⟩
  · exact answers_refuse _ rfl
  · exact h c t hf

theorem answers_onBr {f : BrCore → Host.Outcome State Fault Refusal} (h : ∀ c, Answers statuses (f c)) :
    Answers statuses (s.onBr f) := by
  intro t ht
  rcases State.onBr_next ht with rfl | ⟨c, -, hf⟩
  · exact answers_refuse _ rfl
  · exact h c t hf

theorem answers_onEnc {f : EncCore → Host.Outcome State Fault Refusal} (h : ∀ e, Answers statuses (f e)) :
    Answers statuses (s.onEnc f) := by
  intro t ht
  rcases State.onEnc_next ht with rfl | ⟨e, -, hf⟩
  · exact answers_refuse _ rfl
  · exact h e t hf

theorem answers_onDec {f : DecCore → Host.Outcome State Fault Refusal} (h : ∀ c, Answers statuses (f c)) :
    Answers statuses (s.onDec f) := by
  intro t ht
  rcases State.onDec_next ht with rfl | ⟨c, -, hf⟩
  · exact answers_refuse _ rfl
  · exact h c t hf

end

/-! ### The commands, one by one -/

section
variable (s : State)

theorem execBwInit_answers (lOut : Word32) : Answers [.ok] (execBwInit lOut s) :=
  answers_whenAddressed ((answers_respond (by decide) _ _).ite answers_refuse)

theorem execBwPutValue_answers (value : Word64) (w : Word7) : Answers [.ok, .full] (execBwPutValue value w s) :=
  answers_onBw fun _ => answers_refuse.ite
    ((answers_respond (by decide) _ _).ite ((answers_respond (by decide) _ _).commit _ _ _))

theorem execBwPutUleb128_answers (x : Word32) : Answers [.ok, .full] (execBwPutUleb128 x s) :=
  answers_onBw fun _ => answers_refuse.ite
    ((answers_respond (by decide) _ _).ite ((answers_respond (by decide) _ _).commit _ _ _))

theorem execBwFlush_answers : Answers [.ok] (execBwFlush s) :=
  answers_onBw fun _ => (answers_respond (by decide) _ _).commit _ _ _

theorem execBwBytesWritten_answers : Answers [.ok] (execBwBytesWritten s) :=
  answers_onBw fun _ => answers_respond (by decide) _ _

theorem execBwClear_answers : Answers [.ok] (execBwClear s) :=
  answers_onBw fun _ => answers_respond (by decide) _ _

theorem execBrInit_answers (lIn : Word32) : Answers [.ok] (execBrInit lIn s) :=
  answers_whenAddressed ((answers_respond (by decide) _ _).ite answers_refuse)

theorem execBrGetValue_answers (w : Word7) : Answers [.ok, .endOfInput] (execBrGetValue w s) :=
  answers_onBr fun _ => answers_refuse.ite
    ((answers_respond (by decide) _ _).ite (answers_respond (by decide) _ _))

theorem execBrGetUleb128_answers : Answers [.ok, .endOfInput, .err] (execBrGetUleb128 s) := by
  refine answers_onBr fun c => ?_
  dsimp only
  split
  case h_1 => exact answers_respond (st := .endOfInput) (by decide) _ _
  case h_2 => exact answers_respond (st := .err) (by decide) _ _
  case h_3 => exact answers_respond (st := .ok) (by decide) _ _

theorem execBrSkipBits_answers (k : Word64) : Answers [.ok, .endOfInput] (execBrSkipBits k s) :=
  answers_onBr fun _ => (answers_respond (by decide) _ _).ite (answers_respond (by decide) _ _)

theorem execBrAlignToByte_answers : Answers [.ok] (execBrAlignToByte s) :=
  answers_onBr fun _ => answers_respond (by decide) _ _

theorem execEncNew_answers (lOut : Word32) (w m : Word7) : Answers [.ok] (execEncNew lOut w m s) :=
  answers_whenAddressed ((answers_respond (by decide) _ _).ite answers_refuse)

theorem execEncPut_answers (value : Word64) : Answers [.ok, .full] (execEncPut value s) :=
  answers_onEnc fun _ => answers_refuse.ite
    ((answers_respond (by decide) _ _).ite ((answers_respond (by decide) _ _).commit _ _ _))

theorem execEncFlush_answers : Answers [.ok] (execEncFlush s) :=
  answers_onEnc fun _ => (answers_respond (by decide) _ _).ite ((answers_respond (by decide) _ _).commit _ _ _)

theorem execEncClear_answers : Answers [.ok] (execEncClear s) :=
  answers_onEnc fun _ => answers_respond (by decide) _ _

theorem execEncMinBufferSize_answers (w : Word7) : Answers [.ok] (execEncMinBufferSize w s) :=
  answers_whenAddressed ((answers_respond (by decide) _ _).ite answers_refuse)

theorem execEncMaxBufferSize_answers (w : Word7) (n : Word32) : Answers [.ok] (execEncMaxBufferSize w n s) :=
  answers_whenAddressed ((answers_respond (by decide) _ _).ite answers_refuse)

/-- Of DEC.NEW and of DEC.RESET. -/
theorem constructDec_answers (lIn : Word32) (w : Word7) : Answers [.ok] (constructDec lIn w s) :=
  answers_whenAddressed ((answers_respond (by decide) _ _).ite answers_refuse)

theorem execDecNextNumRepeats_answers : Answers [.ok] (execDecNextNumRepeats s) :=
  answers_onDec fun _ => answers_respond (by decide) _ _

theorem execDecNextNumLiterals_answers : Answers [.ok] (execDecNextNumLiterals s) :=
  answers_onDec fun _ => answers_respond (by decide) _ _

theorem execDecGetRepeatedValue_answers (n : Word32) : Answers [.ok] (execDecGetRepeatedValue n s) := by
  refine answers_onDec fun c => ?_
  dsimp only
  split
  case h_1 => exact answers_respond (by decide) _ _
  case h_2 => exact answers_refuse.ite (answers_respond (by decide) _ _)
  case h_3 => exact answers_refuse
  case h_4 => exact answers_refuse

/-- The one command whose status is itself chosen: whether all the values asked for were delivered. -/
theorem execDecGetLiteralValues_answers (n : Word32) : Answers [.ok, .isFalse] (execDecGetLiteralValues n s) :=
  answers_onDec fun _ => (answers_respond (by decide) _ _).ite
    (answers_refuse.ite (answers_respond (by split <;> decide) _ _))

theorem execDecGetSingleValue_answers : Answers [.ok, .isFalse] (execDecGetSingleValue s) := by
  refine answers_onDec fun c => ?_
  split
  · exact answers_respond (st := .isFalse) (by decide) _ _
  · exact answers_respond (st := .ok) (by decide) _ _

theorem execDecGetValues_answers (n : Word32) : Answers [.ok] (execDecGetValues n s) :=
  answers_onDec fun _ => answers_respond (by decide) _ _

theorem execDecSkipValues_answers (n : Word32) : Answers [.ok] (execDecSkipValues n s) :=
  answers_onDec fun _ => answers_respond (by decide) _ _

/-- Every command answers, and only what R176's table lists for it. -/
theorem exec_answers {i : Instr} (hi : ∀ n len, i ≠ .wireRepeatedRun n len ∧ i ≠ .wireLiteralRun n len) :
    Answers (statusesOf i) (exec i s) := by
  cases i with
  | bwInit lOut => exact execBwInit_answers s lOut
  | bwPutValue value w => exact execBwPutValue_answers s value w
  | bwPutUleb128 x => exact execBwPutUleb128_answers s x
  | bwFlush => exact execBwFlush_answers s
  | bwBytesWritten => exact execBwBytesWritten_answers s
  | bwClear => exact execBwClear_answers s
  | brInit lIn => exact execBrInit_answers s lIn
  | brGetValue w => exact execBrGetValue_answers s w
  | brGetUleb128 => exact execBrGetUleb128_answers s
  | brSkipBits k => exact execBrSkipBits_answers s k
  | brAlignToByte => exact execBrAlignToByte_answers s
  | encNew lOut w m => exact execEncNew_answers s lOut w m
  | encPut value => exact execEncPut_answers s value
  | encFlush => exact execEncFlush_answers s
  | encClear => exact execEncClear_answers s
  | encMinBufferSize w => exact execEncMinBufferSize_answers s w
  | encMaxBufferSize w n => exact execEncMaxBufferSize_answers s w n
  | decNew lIn w => exact constructDec_answers s lIn w
  | decReset lIn w => exact constructDec_answers s lIn w
  | decNextNumRepeats => exact execDecNextNumRepeats_answers s
  | decNextNumLiterals => exact execDecNextNumLiterals_answers s
  | decGetRepeatedValue n => exact execDecGetRepeatedValue_answers s n
  | decGetLiteralValues n => exact execDecGetLiteralValues_answers s n
  | decGetSingleValue => exact execDecGetSingleValue_answers s
  | decGetValues n => exact execDecGetValues_answers s n
  | decSkipValues n => exact execDecSkipValues_answers s n
  | wireRepeatedRun count len => exact absurd rfl (hi count len).1
  | wireLiteralRun groups len => exact absurd rfl (hi groups len).2

end

/-! ### The table read by status -/

section
variable {i : Instr}

theorem of_full_mem_statusesOf (h : .full ∈ statusesOf i) :
    (∃ v w, i = .bwPutValue v w) ∨ (∃ x, i = .bwPutUleb128 x) ∨ ∃ v, i = .encPut v := by
  cases i <;> simp [statusesOf] at h ⊢

theorem of_endOfInput_mem_statusesOf (h : .endOfInput ∈ statusesOf i) :
    (∃ w, i = .brGetValue w) ∨ (∃ k, i = .brSkipBits k) ∨ i = .brGetUleb128 := by
  cases i <;> simp [statusesOf] at h ⊢

theorem of_err_mem_statusesOf (h : .err ∈ statusesOf i) : i = .brGetUleb128 := by
  cases i <;> simp [statusesOf] at h ⊢

theorem of_isFalse_mem_statusesOf (h : .isFalse ∈ statusesOf i) :
    i = .decGetSingleValue ∨ ∃ n, i = .decGetLiteralValues n := by
  cases i <;> simp [statusesOf] at h ⊢

end

/-- Settles O59: the codes of R176's table. -/
theorem statusWordsHaveTheirCodes : Obligations.StatusWordsHaveTheirCodes := ⟨rfl, rfl, rfl, rfl, rfl, rfl⟩

/-- Settles O60: a status other than REFUSED is listed for the command by `statusesOf`, and each is listed only for the
commands named. -/
theorem statusesComeFromTheirCommands : Obligations.StatusesComeFromTheirCommands := by
  intro s t i h hi
  obtain ⟨st, ht, hst⟩ := exec_answers s hi t h
  have listed (st' : Status) (h' : t.status = some st') (hr : st' ≠ .refused) : st' ∈ statusesOf i := by
    obtain rfl : st = st' := Option.some.inj (ht.symm.trans h')
    exact hst.resolve_left hr
  exact ⟨fun h' => of_full_mem_statusesOf (listed _ h' (by decide)),
    fun h' => of_endOfInput_mem_statusesOf (listed _ h' (by decide)),
    fun h' => of_err_mem_statusesOf (listed _ h' (by decide)),
    fun h' => of_isFalse_mem_statusesOf (listed _ h' (by decide)), by simp [ht]⟩

end Sys2Proof.Machine

section
/-! ## The invariant of one unit is kept by what its commands make of the unit

10_state.md R22 to R32 and R37, 42_rle_literal_classifier.md R117, 43_run_frame_parser.md R145: for each kind of unit,
the states its commands lead to are good where the state before was. -/

namespace Sys2Proof.Machine

variable {p : Params}

theorem Params.legal_iff : p.legal = true ↔ p.maxRunLengthBuffer % 8 = 0 ∧ 8 ≤ p.maxRunLengthBuffer
    ∧ p.maxRunLengthBuffer ≤ 120 ∧ p.maxBufferLen ≤ 2147483647 := by
  simp [Params.legal, and_assoc]

/-! ### The bit writer (10_state.md R27) -/

theorem BwCore.ok_iff {c : BwCore} :
    c.ok p = true ↔ c.lOut ≤ p.maxBufferLen ∧ ceil8 c.wbits ≤ c.lOut ∧ c.acc.toNat < 2 ^ (c.wbits % 8) := by
  simp [BwCore.ok, and_assoc]

theorem BwCore.fresh_ok {lOut : Nat} (h : lOut ≤ p.maxBufferLen) (buf : Nat) : (BwCore.fresh buf lOut).ok p = true :=
  BwCore.ok_iff.2 ⟨h, by simp [BwCore.fresh, ceil8], by simp [BwCore.fresh]⟩

/-- A field that fits is appended (40_bit_packer_unpacker.md R70). -/
theorem BwCore.pushBits_ok {c : BwCore} (h : c.ok p = true) {w : Nat} (hw : ceil8 (c.wbits + w) ≤ c.lOut) (v : Nat) :
    ({ c with
      wbits := (Packing.pushBits w v { wbits := c.wbits, acc := c.acc, cells := [] }).wbits
      acc := (Packing.pushBits w v { wbits := c.wbits, acc := c.acc, cells := [] }).acc } : BwCore).ok p = true := by
  obtain ⟨hl, -, ha⟩ := BwCore.ok_iff.1 h
  obtain ⟨_, hbits, -, -, hacc, -⟩ :=
    Packing.pushBits_appends w v (x := { wbits := c.wbits, acc := c.acc, cells := [] }) ha
  exact BwCore.ok_iff.2 ⟨hl, by rwa [hbits], hacc⟩

/-- A position at a byte boundary inside the output, with no partial byte (41_uleb128.md R87). -/
theorem BwCore.aligned_ok {c : BwCore} (h : c.ok p = true) {n : Nat} (hn : n ≤ c.lOut) :
    ({ c with wbits := 8 * n, acc := 0 } : BwCore).ok p = true := by
  obtain ⟨hl, -, -⟩ := BwCore.ok_iff.1 h
  exact BwCore.ok_iff.2 ⟨hl, by simp only [ceil8]; omega, by simp⟩

/-! ### The bit reader (10_state.md R28) -/

theorem BrCore.ok_iff {c : BrCore} : c.ok p = true ↔ c.lIn ≤ p.maxBufferLen ∧ c.rbits ≤ 8 * c.lIn := by
  simp [BrCore.ok]

/-- The position may move anywhere inside the input. -/
theorem BrCore.moved_ok {c : BrCore} (h : c.ok p = true) {n : Nat} (hn : n ≤ 8 * c.lIn) :
    ({ c with rbits := n } : BrCore).ok p = true :=
  BrCore.ok_iff.2 ⟨(BrCore.ok_iff.1 h).1, hn⟩

/-- The input ends at a byte boundary, so the next one is inside it (40_bit_packer_unpacker.md R79). -/
theorem BrCore.aligned_ok {c : BrCore} (h : c.ok p = true) :
    ({ c with rbits := 8 * ceil8 c.rbits } : BrCore).ok p = true := by
  obtain ⟨-, hr⟩ := BrCore.ok_iff.1 h
  exact BrCore.moved_ok h (by unfold ceil8; omega)

/-- A varint read from the next byte boundary ends inside the input (41_uleb128.md R90). -/
theorem BrCore.varint_inside {c : BrCore} (h : c.ok p = true) {rd : Nat → Byte} {x used : Nat}
    (hd : ulebDecode (varintWindow rd c.lIn (ceil8 c.rbits)) = .ok x used) :
    8 * (ceil8 c.rbits + used) ≤ 8 * c.lIn := by
  obtain ⟨-, hr⟩ := BrCore.ok_iff.1 h
  have hl := (ulebDecode_ok hd).2.2.1
  simp only [varintWindow, bytesFrom_length, ceil8] at hl ⊢
  omega

/-! ### The decoder (10_state.md R29 to R33) -/

theorem DecCore.ok_iff {c : DecCore} : c.ok p = true ↔ c.w ≤ 64 ∧ c.lIn ≤ p.maxBufferLen ∧ c.rbits ≤ 8 * c.lIn
    ∧ c.runOk = true ∧ (c.run = .dead ↔ c.deadReason ≠ .none) := by
  simp only [DecCore.ok, Bool.and_eq_true, decide_eq_true_eq, beq_iff_eq, decide_eq_decide, and_assoc]

theorem DecCore.fresh_ok {w lIn : Nat} (hw : w ≤ 64) (hl : lIn ≤ p.maxBufferLen) (buf version : Nat) :
    (DecCore.fresh buf version w lIn).ok p = true :=
  DecCore.ok_iff.2 ⟨hw, hl, Nat.zero_le _, by simp [DecCore.fresh, DecCore.runOk], by simp [DecCore.fresh]⟩

variable {c : DecCore}

theorem DecCore.die_ok (h : c.ok p = true) {why : DeadReason} (hy : why ≠ .none) : (c.die why).ok p = true := by
  obtain ⟨hw, hl, hr, -, -⟩ := DecCore.ok_iff.1 h
  exact DecCore.ok_iff.2 ⟨hw, hl, hr, rfl, by simpa [DecCore.die] using hy⟩

/-- A decoder that is not DEAD takes up a position and a look-ahead that go together. -/
theorem DecCore.moved_ok (h : c.ok p = true) (hc : c.run ≠ .dead) {n : Nat} {run : Run} (hn : n ≤ 8 * c.lIn)
    (hd : run ≠ .dead) (hrun : ({ c with rbits := n, run := run } : DecCore).runOk = true) :
    ({ c with rbits := n, run := run } : DecCore).ok p = true := by
  obtain ⟨hw, hl, -, -, hreason⟩ := DecCore.ok_iff.1 h
  exact DecCore.ok_iff.2 ⟨hw, hl, hn, hrun, by simpa [hd, hc] using hreason⟩

variable (policy : PadPolicy) (rd : Nat → Byte)

theorem DecCore.takeRepeatedRun_sameConfig (c : DecCore) (count len : Nat) :
    c.SameConfig (c.takeRepeatedRun policy rd count len) := by
  rcases c.takeRepeatedRun_cases policy rd count len with ⟨_, h, -⟩ | ⟨_, -, -, -, h⟩ <;> rw [h] <;>
    exact ⟨rfl, rfl, rfl, rfl⟩

theorem DecCore.takeLiteralRun_sameConfig (c : DecCore) (groups len : Nat) :
    c.SameConfig (c.takeLiteralRun groups len) := by
  rcases c.takeLiteralRun_cases groups len with ⟨_, h, -⟩ | ⟨-, -, -, h⟩ <;> rw [h] <;> exact ⟨rfl, rfl, rfl, rfl⟩

/-- A header parse (R129): of the counts, `8g ≤ 2^31 - 1` leaves room for 7 more. -/
theorem DecCore.parseHeader_ok (h : c.ok p = true) (he : c.run = .empty) : (c.parseHeader policy rd).ok p = true := by
  have hd : c.run ≠ .dead := by simp [he]
  rcases c.parseHeader_cases policy rd with ⟨why, h', hy⟩ | ⟨v, n, len, h1, hm, -, -, hq, h'⟩ |
    ⟨g, len, h1, hm, -, -, -, hq, h'⟩ <;> rw [h']
  · exact DecCore.die_ok h hy
  · exact DecCore.moved_ok h hd (by omega) (by simp) (by simp [DecCore.runOk, h1, hm])
  · refine DecCore.moved_ok h hd (by omega) (by simp) ?_
    simp only [DecCore.runOk, Bool.and_eq_true, decide_eq_true_eq]
    unfold Config.maxCount at hm ⊢
    have hbits : 8 * (c.rbits / 8 + len) + 8 * g * c.w = 8 * (c.rbits / 8 + len + g * c.w) := by ring
    exact ⟨by omega, by rw [hbits, Nat.mul_mod_right]⟩

theorem DecCore.lookAhead_ok (h : c.ok p = true) : (c.lookAhead policy rd).ok p = true := by
  by_cases he : c.run = .empty
  · rw [DecCore.lookAhead_of_empty policy rd he]
    exact DecCore.parseHeader_ok policy rd h he
  · rwa [DecCore.lookAhead_of_ne policy rd he]

/-- Part of a repeated run is delivered, or all of it (R136, R139). -/
theorem DecCore.rep_taken_ok (h : c.ok p = true) {v : Word64} {rem n : Nat} (hr : c.run = .rep v rem) (hn : n ≤ rem) :
    ({ c with run := if n = rem then .empty else .rep v (rem - n) } : DecCore).ok p = true := by
  obtain ⟨-, -, hb, hrun, -⟩ := DecCore.ok_iff.1 h
  simp only [DecCore.runOk, hr, Bool.and_eq_true, decide_eq_true_eq] at hrun
  refine DecCore.moved_ok (n := c.rbits) h (by simp [hr]) hb (by split <;> simp) ?_
  split <;> simp only [DecCore.runOk, Bool.and_eq_true, decide_eq_true_eq] <;> omega

/-- One value of a literal run is delivered (R136): the bits left over are still whole bytes. -/
theorem DecCore.lit_taken_ok (h : c.ok p = true) {rem : Nat} (hr : c.run = .lit rem) (hb : c.rbits + c.w ≤ 8 * c.lIn) :
    ({ c with rbits := c.rbits + c.w, run := if rem = 1 then .empty else .lit (rem - 1) } : DecCore).ok p = true := by
  obtain ⟨-, -, -, hrun, -⟩ := DecCore.ok_iff.1 h
  simp only [DecCore.runOk, hr, Bool.and_eq_true, decide_eq_true_eq] at hrun
  obtain ⟨⟨h1, hm⟩, h8⟩ := hrun
  refine DecCore.moved_ok h (by simp [hr]) hb (by split <;> simp) ?_
  obtain ⟨k, rfl⟩ : ∃ k, rem = k + 1 := ⟨rem - 1, by omega⟩
  rw [Nat.add_mul, Nat.one_mul, Nat.add_comm (k * c.w), ← Nat.add_assoc] at h8
  split
  · rename_i hk
    obtain rfl : k = 0 := by omega
    simpa [DecCore.runOk] using h8
  · simp only [DecCore.runOk, Nat.add_sub_cancel, Bool.and_eq_true, decide_eq_true_eq]
    omega

theorem DecCore.takeOne_ok (h : c.ok p = true) : (c.takeOne policy rd).1.ok p = true := by
  have hl := DecCore.lookAhead_ok policy rd h
  rcases c.takeOne_cases policy rd with ⟨-, h'⟩ | ⟨v, n, hr, h'⟩ | ⟨n, -, -, h'⟩ | ⟨n, hr, hb, h'⟩ <;> rw [h']
  · exact hl
  · have h1 : 1 ≤ n := by
      obtain ⟨-, -, -, hrun, -⟩ := DecCore.ok_iff.1 hl
      simp only [DecCore.runOk, hr, Bool.and_eq_true, decide_eq_true_eq] at hrun
      omega
    simpa only [eq_comm (a := 1)] using DecCore.rep_taken_ok hl hr h1
  · exact DecCore.die_ok hl (by simp)
  · exact DecCore.lit_taken_ok hl hr hb

theorem DecCore.takeMany_ok (h : c.ok p = true) (n : Nat) : (c.takeMany policy rd n).1.ok p = true := by
  induction n generalizing c with
  | zero => exact h
  | succ n ih =>
    have h1 := DecCore.takeOne_ok policy rd h
    rcases ho : c.takeOne policy rd with ⟨c', _ | v⟩ <;> rw [ho] at h1
    · rwa [DecCore.takeMany_none policy rd n ho]
    · rw [DecCore.takeMany_some policy rd n ho]
      exact ih h1

end Sys2Proof.Machine
end

section
/-! ## The encoder's invariant is kept by what its commands make of it

10_state.md R23 to R26 and R37, 42_rle_literal_classifier.md R117. All of the invariant but the room for a flush is kept
by the helper procedures themselves; the room is what ENC.PUT checks before it commits (R111), and what ENC.FLUSH uses
up (R114). -/

namespace Sys2Proof.Machine

variable {p : Params} {e : EncCore}

theorem EncCore.ok_iff : e.ok p = true ↔ e.configOk p = true ∧ e.modeOk = true ∧ e.litOk = true
    ∧ (∀ v ∈ e.staged, valueFits e.w v = true) ∧ (e.idle = true → e.staged = [] ∧ e.litOpen = false)
    ∧ e.wpos + e.flushBytes ≤ e.lOut := by
  cases hi : e.idle <;> simp [EncCore.ok, hi, and_assoc]

theorem EncCore.configOk_iff : e.configOk p = true ↔ e.w ≤ 64 ∧ e.m % 8 = 0 ∧ e.m ≤ p.maxRunLengthBuffer
    ∧ e.t = threshold e.m ∧ minBufferSize e.w ≤ e.lOut ∧ e.lOut ≤ p.maxBufferLen := by
  simp [EncCore.configOk, and_assoc]

theorem EncCore.modeOk_of_staging (hm : e.mode = .staging) : e.modeOk = true
    ↔ e.repCount = 0 ∧ (e.staged.length ≤ 7 ∨ allEqual e.staged = true ∧ e.staged.length < e.t) := by
  simp [EncCore.modeOk, hm]

theorem EncCore.modeOk_of_repeating (hm : e.mode = .repeating) : e.modeOk = true
    ↔ e.staged = [] ∧ e.litOpen = false ∧ e.idle = false ∧ valueFits e.w e.repValue = true ∧ e.t ≤ e.repCount
      ∧ e.repCount ≤ Config.maxCount := by
  simp [EncCore.modeOk, hm, and_assoc]

/-- The threshold of a legal configuration. -/
theorem EncCore.threshold_bounds (hp : p.legal = true) (hc : e.configOk p = true) : 8 ≤ e.t ∧ e.t ≤ 120 := by
  obtain ⟨-, -, hmax, -⟩ := Params.legal_iff.1 hp
  obtain ⟨-, -, hm, ht, -, -⟩ := EncCore.configOk_iff.1 hc
  rw [ht, threshold]
  omega

/-- A procedure of the encoder keeps its configuration. -/
theorem Draft.Extends.configOk {d d' : Draft} (h : d.Extends d') (hc : d.enc.configOk p = true) :
    d'.enc.configOk p = true := by
  simpa only [EncCore.configOk, h.w, h.m, h.t, h.lOut] using hc

/-! ### The literal run -/

/-- The literal run as the helper procedures keep it: an open run has groups and its header byte behind `wpos`, and the
header's index, open or not, is a 31-bit number or that of a byte behind `wpos`. -/
structure EncCore.LitSound (e : EncCore) : Prop where
  groups : e.groupsOk
  behind : e.litOpen = true → e.litHdrPos < e.wpos
  bounded : e.litHdrPos < 2 ^ 31 ∨ e.litHdrPos < e.wpos

theorem EncCore.litOk_iff : e.litOk = true ↔ e.litHdrPos < 2 ^ 31 ∧ e.groupsOk
    ∧ (e.litOpen = true → e.litHdrPos < e.wpos) := by
  simp only [EncCore.litOk, Bool.and_eq_true, decide_eq_true_eq]
  cases ho : e.litOpen <;> simp [EncCore.groupsOk, Config.maxLiteralGroups, ho, and_assoc]

theorem EncCore.LitSound.of_ok (h : e.ok p = true) : e.LitSound := by
  obtain ⟨-, -, hl, -⟩ := EncCore.ok_iff.1 h
  obtain ⟨h31, hg, hb⟩ := EncCore.litOk_iff.1 hl
  exact ⟨hg, hb, .inl h31⟩

theorem EncCore.LitSound.litOk (h : e.LitSound) (hw : e.wpos < 2 ^ 31) : e.litOk = true :=
  EncCore.litOk_iff.2 ⟨h.bounded.elim id fun hb => by omega, h.groups, h.behind⟩

/-- A closed literal run, with `wpos` moved on or not. -/
theorem EncCore.LitSound.closed (h : e.LitSound) {e' : EncCore} (ho : e'.litOpen = false) (hg : e'.litGroups = 0)
    (hh : e'.litHdrPos = e.litHdrPos) (hw : e.wpos ≤ e'.wpos) : e'.LitSound :=
  ⟨⟨by simp [ho, hg], by omega⟩, by simp [ho], h.bounded.imp (by omega) (by omega)⟩

/-- The header byte of a literal run that is opened by one of the octets lies behind them. -/
theorem EncCore.headerOf_lt (hg : e.groupsOk) {n : Nat} (hn : ¬(n = 0 ∨ (e.litOpen = true ∧ e.litGroups + n ≤ 63)))
    (st : List Word64) : e.headerOf n < (e.afterOctets n st).wpos := by
  obtain ⟨h1, h2⟩ := hg
  rw [EncCore.headerOf, if_neg hn]
  simp only [h1] at hn
  obtain ⟨q, hq⟩ : ∃ q, q = 63 * ((e.litGroups + n - 1) / 63) - e.litGroups := ⟨_, rfl⟩
  have hmul : q * e.w ≤ n * e.w := Nat.mul_le_mul_right _ (by omega)
  simp only [EncCore.octetStart, EncCore.afterOctets, ← hq]
  omega

theorem EncCore.LitSound.afterOctets (h : e.LitSound) (n : Nat) (st : List Word64) : (e.afterOctets n st).LitSound := by
  have hgrow : e.wpos ≤ (e.afterOctets n st).wpos := by simp only [EncCore.afterOctets]; omega
  have hh : (e.afterOctets n st).litHdrPos = e.headerOf n := rfl
  by_cases hn : n = 0 ∨ (e.litOpen = true ∧ e.litGroups + n ≤ 63)
  · have hsame : e.headerOf n = e.litHdrPos := if_pos hn
    refine ⟨EncCore.afterOctets_groupsOk _ _ _, fun ho => ?_, by rw [hh, hsame]; exact h.bounded.imp_right (by omega)⟩
    have hopen : e.litOpen = true := by
      rcases hn with rfl | ⟨hopen, -⟩
      · have hg : e.litGroups % 63 ≠ 0 := by simpa [EncCore.afterOctets] using ho
        exact h.groups.1.2 (by omega)
      · exact hopen
    have := h.behind hopen
    omega
  · have hlt := EncCore.headerOf_lt h.groups hn st
    exact ⟨EncCore.afterOctets_groupsOk _ _ _, fun _ => hlt, .inr hlt⟩

/-! ### An encoder between a value's arrival and the check for room -/

/-- The invariant of an encoder that is not idle, but for its configuration and the room for a flush. -/
structure EncCore.Sound (e : EncCore) : Prop where
  mode : e.modeOk = true
  lit : e.LitSound
  fits : ∀ v ∈ e.staged, valueFits e.w v = true
  busy : e.idle = false

theorem EncCore.Sound.of_ok (h : e.ok p = true) (hi : e.idle = false) : e.Sound := by
  obtain ⟨-, hm, -, hf, -⟩ := EncCore.ok_iff.1 h
  exact ⟨hm, .of_ok h, hf, hi⟩

/-- With the room for a flush it is the whole invariant. -/
theorem EncCore.Sound.ok (h : e.Sound) (hp : p.legal = true) (hc : e.configOk p = true)
    (hroom : e.wpos + e.flushBytes ≤ e.lOut) : e.ok p = true := by
  obtain ⟨-, -, -, hmax⟩ := Params.legal_iff.1 hp
  obtain ⟨-, -, -, -, -, hl⟩ := EncCore.configOk_iff.1 hc
  exact EncCore.ok_iff.2 ⟨hc, h.mode, h.lit.litOk (by omega), h.fits, by simp [h.busy], hroom⟩

/-- The loop over `B` has fuel enough: it stops because fewer than 8 values are staged, or because its condition
fails. -/
theorem Draft.commitWhile_stops (more : List Word64 → Bool) (fuel : Nat) {d : Draft} (h : d.enc.staged.length ≤ fuel) :
    (Draft.commitWhile more fuel d).enc.staged.length ≤ 7
      ∨ more (Draft.commitWhile more fuel d).enc.staged = false := by
  induction fuel generalizing d with
  | zero => exact .inl (by simp only [Draft.commitWhile]; omega)
  | succ fuel ih =>
    rw [Draft.commitWhile]
    split
    · rename_i hc
      simp only [Bool.and_eq_true, decide_eq_true_eq] at hc
      exact ih (by simp only [List.length_drop]; omega)
    · rename_i hc
      simp only [Bool.and_eq_true, decide_eq_true_eq, not_and, Bool.not_eq_true] at hc
      by_cases h8 : 8 ≤ d.enc.staged.length
      · exact .inr (hc h8)
      · exact .inl (by omega)

/-- The octets of mixed values are committed (R106, R108): what stays staged is short, or all equal. -/
theorem Draft.commitMixed_sound {d : Draft} (hm : d.enc.mode = .staging) (hcount : d.enc.repCount = 0)
    (hlit : d.enc.LitSound) (hfits : ∀ v ∈ d.enc.staged, valueFits d.enc.w v = true) (hbusy : d.enc.idle = false)
    (hlen : d.enc.staged.length ≤ d.enc.t) (hcut : allEqual d.enc.staged = true → d.enc.staged.length < d.enc.t) :
    (Draft.commitWhile (fun b => !allEqual b) d.enc.staged.length d).enc.Sound := by
  have hstop := Draft.commitWhile_stops (fun b => !allEqual b) _ (Nat.le_refl d.enc.staged.length)
  obtain ⟨n, hn, hspec, -⟩ := Draft.commitWhile_spec (fun b => !allEqual b) d.enc.staged.length hlit.groups
  have hst : (d.enc.afterOctets n (d.enc.staged.drop (8 * n))).staged = d.enc.staged.drop (8 * n) := rfl
  rw [hspec, hst, Bool.not_eq_false'] at hstop
  rw [hspec]
  refine ⟨(EncCore.modeOk_of_staging (by exact hm)).2 ⟨hcount, hstop.imp_right fun heq => ⟨heq, ?_⟩⟩,
    hlit.afterOctets n _, fun v hv => hfits v (List.mem_of_mem_drop hv), hbusy⟩
  change (d.enc.staged.drop (8 * n)).length < d.enc.t
  rw [List.length_drop]
  rcases Nat.eq_zero_or_pos n with rfl | hpos
  · exact hcut heq
  · omega

/-- A value joins the staged ones (R106 to R108): they reach the threshold, all equal, and become a counted run, or the
octets of mixed values are committed. -/
theorem Draft.stage_sound {d : Draft} (h : d.enc.Sound) (hm : d.enc.mode = .staging) (ht : 8 ≤ d.enc.t)
    (ht' : d.enc.t ≤ Config.maxCount) {v : Word64} (hv : valueFits d.enc.w v = true) : (d.stage v).enc.Sound := by
  obtain ⟨hcount, hlen⟩ := (EncCore.modeOk_of_staging hm).1 h.mode
  have hlen' : (d.enc.staged ++ [v]).length ≤ d.enc.t := by
    rw [List.length_append, List.length_singleton]
    omega
  unfold Draft.stage
  dsimp only
  split
  · have hclose := Draft.closeLiteral_enc h.lit.groups
    refine ⟨(EncCore.modeOk_of_repeating rfl).2 ?_, h.lit.closed ?_ ?_ ?_ ?_, by simp, ?_⟩ <;>
      simp [hclose, h.busy, hv, ht']
  · rename_i hcut
    simp only [Bool.and_eq_true, decide_eq_true_eq, not_and'] at hcut
    refine Draft.commitMixed_sound (d := { d with enc := { d.enc with staged := d.enc.staged ++ [v] } }) hm hcount
      ⟨h.lit.groups, h.lit.behind, h.lit.bounded⟩ (fun x hx => ?_) h.busy hlen'
      (fun heq => lt_of_le_of_ne hlen' (hcut heq))
    rcases List.mem_append.1 hx with hx | hx
    · exact h.fits x hx
    · rwa [List.mem_singleton.1 hx]

/-- A value is taken up (R106, R109, R110). -/
theorem Draft.step_sound {d : Draft} (h : d.enc.Sound) (ht : 8 ≤ d.enc.t) (ht' : d.enc.t ≤ Config.maxCount) {v : Word64}
    (hv : valueFits d.enc.w v = true) : (d.step v).enc.Sound := by
  unfold Draft.step
  split
  · rename_i hm
    obtain ⟨hst, ho, hi, hr, htc, hmax⟩ := (EncCore.modeOk_of_repeating hm).1 h.mode
    split
    · rename_i hcount
      exact ⟨(EncCore.modeOk_of_repeating (by exact hm)).2 ⟨hst, ho, hi, hr, Nat.le_succ_of_le htc, hcount.2⟩,
        ⟨h.lit.groups, h.lit.behind, h.lit.bounded⟩, h.fits, hi⟩
    · refine Draft.stage_sound (d := { d.emitRepeated d.enc.repValue d.enc.repCount with
        enc := { (d.emitRepeated d.enc.repValue d.enc.repCount).enc with mode := .staging, repCount := 0 } })
        ⟨?_, ?_, h.fits, hi⟩ rfl ht ht' hv
      · exact (EncCore.modeOk_of_staging rfl).2 ⟨rfl, .inl (by simp [Draft.emitRepeated, Draft.append, hst])⟩
      · refine h.lit.closed ho ?_ rfl (d.emitRepeated_extends _ _).wpos
        have hnone : ¬1 ≤ d.enc.litGroups := fun h1 => by simp [h.lit.groups.1.2 h1] at ho
        change d.enc.litGroups = 0
        omega
  · rename_i hm
    exact Draft.stage_sound h hm ht ht' hv

/-! ### The commands -/

/-- ENC.PUT with room for the flush (R111). -/
theorem EncCore.put_ok (hp : p.legal = true) (h : e.ok p = true) (hi : e.idle = false) {v : Word64}
    (hv : valueFits e.w v = true)
    (hroom : (Draft.step { enc := e, cells := [] } v).enc.wpos + (Draft.step { enc := e, cells := [] } v).enc.flushBytes
      ≤ e.lOut) : (Draft.step { enc := e, cells := [] } v).enc.ok p = true := by
  have hc := (EncCore.ok_iff.1 h).1
  obtain ⟨ht, ht'⟩ := EncCore.threshold_bounds hp hc
  have hext := Draft.step_extends { enc := e, cells := [] } v
  exact (Draft.step_sound (d := { enc := e, cells := [] }) (.of_ok h hi) ht (ht'.trans (by decide)) hv).ok hp
    (hext.configOk hc) (hroom.trans_eq hext.lOut.symm)

/-- The header index that a flush leaves is a 31-bit number. -/
theorem EncCore.headerOf_flush_lt (hp : p.legal = true) (h : e.ok p = true) (hi : e.idle = false) :
    e.headerOf (ceil8 e.staged.length) < 2 ^ 31 := by
  obtain ⟨hc, hm, hl, -, -, hroom⟩ := EncCore.ok_iff.1 h
  cases hmode : e.mode with
  | staging =>
    obtain ⟨-, -, -, hmax⟩ := Params.legal_iff.1 hp
    obtain ⟨-, -, -, -, -, hlen⟩ := EncCore.configOk_iff.1 hc
    rw [EncCore.flushBytes_staging hi hmode []] at hroom
    refine ((EncCore.LitSound.of_ok h).afterOctets (ceil8 e.staged.length) []).bounded.elim id fun hlt => ?_
    change e.headerOf (ceil8 e.staged.length) < _ at hlt
    omega
  | repeating =>
    obtain ⟨hst, -⟩ := (EncCore.modeOk_of_repeating hmode).1 hm
    rw [hst]
    exact (EncCore.litOk_iff.1 hl).1

/-- An idle encoder needs no room (R113). -/
theorem EncCore.room_of_idle (h : e.idle = true) (hl : e.wpos ≤ e.lOut) : e.wpos + e.flushBytes ≤ e.lOut := by
  rwa [EncCore.flushBytes, if_pos h]

/-- ENC.FLUSH (R114): it uses up the room there was. -/
theorem EncCore.flush_ok (hp : p.legal = true) (h : e.ok p = true) (hi : e.idle = false) :
    (Draft.flush { enc := e, cells := [] }).enc.ok p = true := by
  obtain ⟨hc, hm, -, -, -, hroom⟩ := EncCore.ok_iff.1 h
  rw [Draft.flush_enc (d := { enc := e, cells := [] }) (EncCore.LitSound.of_ok h).groups hi
    (fun hmode => ((EncCore.modeOk_of_staging (e := e) hmode).1 hm).1)
    (fun hmode => by
      obtain ⟨hst, -, -, -, -, hmax⟩ := (EncCore.modeOk_of_repeating (e := e) hmode).1 hm
      unfold Config.maxCount at hmax
      exact ⟨hst, by dsimp only; omega⟩)]
  exact EncCore.ok_iff.2 ⟨hc, (EncCore.modeOk_of_staging rfl).2 ⟨rfl, .inl (Nat.zero_le _)⟩,
    EncCore.litOk_iff.2 ⟨EncCore.headerOf_flush_lt hp h hi, by simp [EncCore.groupsOk], by simp⟩, by simp, by simp,
    EncCore.room_of_idle rfl hroom⟩

/-- ENC.CLEAR (R116), and with it ENC.NEW (R97, R98), starts with nothing pending. -/
theorem EncCore.cleared_ok (hc : e.configOk p = true) (repValue : Word64) {hdrPos : Nat} (hh : hdrPos < 2 ^ 31) :
    (e.cleared repValue hdrPos).ok p = true := by
  refine EncCore.ok_iff.2 ⟨hc, (EncCore.modeOk_of_staging rfl).2 ⟨rfl, .inl (Nat.zero_le _)⟩,
    EncCore.litOk_iff.2 ⟨hh, ⟨by simp [EncCore.cleared], ?_⟩, by simp [EncCore.cleared]⟩,
    by simp [EncCore.cleared], ?_, ?_⟩ <;>
    simp [EncCore.cleared, EncCore.flushBytes, ceil8]

theorem EncCore.fresh_ok {lOut : Word32} {w m : Word7} (h : encNewLegal p lOut w m = true) (buf : Nat)
    (repValue : Word64) {hdrPos : Nat} (hh : hdrPos < 2 ^ 31) :
    (EncCore.fresh buf w.toNat m.toNat lOut.toNat repValue hdrPos).ok p = true := by
  simp only [encNewLegal, widthLegal, lengthLegal, Bool.and_eq_true, decide_eq_true_eq, and_assoc] at h
  obtain ⟨hw, h8, hm, hmin, hl⟩ := h
  exact EncCore.cleared_ok (e := EncCore.fresh buf w.toNat m.toNat lOut.toNat repValue hdrPos)
    (EncCore.configOk_iff.2 ⟨hw, h8, hm, rfl, hmin, hl⟩) repValue hh

end Sys2Proof.Machine
end

section
/-! ## What one instruction may do to the machine

Said once of every instruction: it gives the addressed unit a state and answers, and a bit writer or an encoder may
write into a buffer or take it. The frame, the latched configuration and the invariant are then read off. -/

namespace Sys2Proof.Machine

/-! ### The invariant, unit by unit -/

/-- A bit reader's state is good, and so is its count of the changes of its buffer. So for a decoder's. -/
def State.brOk (s : State) (c : BrCore) : Bool := c.ok s.params && decide (c.version ≤ (s.buf c.buf).version)
def State.decOk (s : State) (c : DecCore) : Bool := c.ok s.params && decide (c.version ≤ (s.buf c.buf).version)

/-- `State.inv`, with the readers' counts of changes told unit by unit. -/
structure State.Good (s : State) : Prop where
  legal : s.params.legal = true
  mem : s.mem.wf = true
  bws : slotsOk (BwCore.ok s.params) s.bws = true
  brs : slotsOk s.brOk s.brs = true
  encs : slotsOk (EncCore.ok s.params) s.encs = true
  decs : slotsOk s.decOk s.decs = true

section
variable {α : Type}

theorem Slot.all_iff {ok : α → Bool} {u : Slot α} : u.all ok = true ↔ ∀ c, u.core = some c → ok c = true := by
  unfold Slot.all
  split <;> simp_all

variable [DecidableEq α] {ok ok' : α → Bool} {m : List (Nat × Slot α)}

theorem slotsOk_and : slotsOk (fun c => ok c && ok' c) m = true
    ↔ slotsOk ok m = true ∧ (m.all fun e => e.2.all ok') = true := by
  simp only [slotsOk, Bool.and_eq_true, List.all_eq_true, Slot.all_iff]
  exact ⟨fun ⟨hw, h⟩ => ⟨⟨hw, fun e he c hc => (h e he c hc).1⟩, fun e he c hc => (h e he c hc).2⟩,
    fun ⟨⟨hw, h⟩, h'⟩ => ⟨hw, fun e he c hc => ⟨h e he c hc, h' e he c hc⟩⟩⟩

theorem slotsOk_mono (h : slotsOk ok m = true) (hok : ∀ c, ok c = true → ok' c = true) : slotsOk ok' m = true := by
  simp only [slotsOk, Bool.and_eq_true, List.all_eq_true, Slot.all_iff] at *
  exact ⟨h.1, fun e he c hc => hok c (h.2 e he c hc)⟩

theorem slotsOk_set (h : slotsOk ok m = true) (id : Nat) {u : Slot α} (hu : u.all ok = true) :
    slotsOk ok (Sparse.set Slot.unbuilt m id u) = true := by
  simp only [slotsOk, Bool.and_eq_true] at *
  exact ⟨Sparse.wf_set h.1 id u, Sparse.all_set (p := Slot.all ok) h.2 id hu⟩

theorem slotsOk_get (h : slotsOk ok m = true) (id : Nat) : (Sparse.get Slot.unbuilt m id).all ok = true := by
  simp only [slotsOk, Bool.and_eq_true] at h
  exact Sparse.get_of_all (p := Slot.all ok) h.2 rfl id

end

variable {s t m : State}

theorem State.inv_iff : s.inv = true ↔ s.Good := by
  have hbr := slotsOk_and (ok := BrCore.ok s.params) (m := s.brs)
    (ok' := fun c => decide (c.version ≤ (s.buf c.buf).version))
  have hdec := slotsOk_and (ok := DecCore.ok s.params) (m := s.decs)
    (ok' := fun c => decide (c.version ≤ (s.buf c.buf).version))
  simp only [State.inv, State.versionsOk, Bool.and_eq_true]
  exact ⟨fun ⟨⟨⟨⟨⟨⟨hp, hm⟩, hbw⟩, hb⟩, he⟩, hd⟩, hvb, hvd⟩ => ⟨hp, hm, hbw, hbr.2 ⟨hb, hvb⟩, he, hdec.2 ⟨hd, hvd⟩⟩,
    fun ⟨hp, hm, hbw, hb, he, hd⟩ =>
      ⟨⟨⟨⟨⟨⟨hp, hm⟩, hbw⟩, (hbr.1 hb).1⟩, he⟩, (hdec.1 hd).1⟩, (hbr.1 hb).2, (hdec.1 hd).2⟩⟩

/-- The memory may be rewritten, so long as no buffer forgets a change. -/
theorem State.Good.of_mem (h : s.Good) (hp : t.params = s.params) (hbw : t.bws = s.bws) (hbr : t.brs = s.brs)
    (he : t.encs = s.encs) (hd : t.decs = s.decs) (hm : t.mem.wf = true)
    (hv : ∀ b, (s.buf b).version ≤ (t.buf b).version) : t.Good where
  legal := hp ▸ h.legal
  mem := hm
  bws := by rw [hp, hbw]; exact h.bws
  brs := by
    rw [hbr]
    refine slotsOk_mono h.brs fun c hc => ?_
    simp only [State.brOk, hp, Bool.and_eq_true, decide_eq_true_eq] at hc ⊢
    exact ⟨hc.1, hc.2.trans (hv _)⟩
  encs := by rw [hp, he]; exact h.encs
  decs := by
    rw [hd]
    refine slotsOk_mono h.decs fun c hc => ?_
    simp only [State.decOk, hp, Bool.and_eq_true, decide_eq_true_eq] at hc ⊢
    exact ⟨hc.1, hc.2.trans (hv _)⟩

theorem State.Good.respond (h : s.Good) (st : Status) (r : Option Word64) (vs : List Word64) :
    (s.respond st r vs).Good :=
  h.of_mem rfl rfl rfl rfl rfl h.mem fun _ => Nat.le_refl _

theorem State.Good.present (h : s.Good) (rest : List Event) (target : Target) (buffer : Nat) :
    (s.present rest target buffer).Good :=
  h.of_mem rfl rfl rfl rfl rfl h.mem fun _ => Nat.le_refl _

theorem State.Good.hostLoad (h : s.Good) (rest : List Event) (b i : Nat) (bytes : List Byte) :
    (s.hostLoad rest b i bytes).Good :=
  h.of_mem rfl rfl rfl rfl rfl (Memory.wf_hostLoad h.mem rest b i bytes) (s.version_le_hostLoad rest b i bytes)

/-- Each unit of a good state is good, and a good state of a unit may be put in its place. -/
theorem State.Good.bw (h : s.Good) (id : Nat) : (s.bw id).all (BwCore.ok s.params) = true := slotsOk_get h.bws id
theorem State.Good.br (h : s.Good) (id : Nat) : (s.br id).all s.brOk = true := slotsOk_get h.brs id
theorem State.Good.enc (h : s.Good) (id : Nat) : (s.enc id).all (EncCore.ok s.params) = true := slotsOk_get h.encs id
theorem State.Good.dec (h : s.Good) (id : Nat) : (s.dec id).all s.decOk = true := slotsOk_get h.decs id

theorem State.Good.setBw (h : s.Good) (id : Nat) {u : Slot BwCore} (hu : u.all (BwCore.ok s.params) = true) :
    (s.setBw id u).Good := ⟨h.legal, h.mem, slotsOk_set h.bws id hu, h.brs, h.encs, h.decs⟩
theorem State.Good.setBr (h : s.Good) (id : Nat) {u : Slot BrCore} (hu : u.all s.brOk = true) :
    (s.setBr id u).Good := ⟨h.legal, h.mem, h.bws, slotsOk_set h.brs id hu, h.encs, h.decs⟩
theorem State.Good.setEnc (h : s.Good) (id : Nat) {u : Slot EncCore} (hu : u.all (EncCore.ok s.params) = true) :
    (s.setEnc id u).Good := ⟨h.legal, h.mem, h.bws, h.brs, slotsOk_set h.encs id hu, h.decs⟩
theorem State.Good.setDec (h : s.Good) (id : Nat) {u : Slot DecCore} (hu : u.all s.decOk = true) :
    (s.setDec id u).Good := ⟨h.legal, h.mem, h.bws, h.brs, h.encs, slotsOk_set h.decs id hu⟩

/-! ### The configuration a construction latches (10_state.md R22) -/

def BwCore.config (c : BwCore) : Nat × Nat := (c.buf, c.lOut)
def BrCore.config (c : BrCore) : Nat × Nat × Nat := (c.buf, c.version, c.lIn)
def EncCore.config (e : EncCore) : Nat × Nat × Nat × Nat × Nat := (e.buf, e.w, e.m, e.t, e.lOut)
def DecCore.config (c : DecCore) : Nat × Nat × Nat × Nat := (c.buf, c.version, c.w, c.lIn)

theorem DecCore.SameConfig.config {c c' : DecCore} (h : c.SameConfig c') : c'.config = c.config := by
  simp only [DecCore.config, h.buf, h.version, h.w, h.lIn]

theorem Draft.Extends.config {d d' : Draft} (h : d.Extends d') : d'.enc.config = d.enc.config := by
  simp only [EncCore.config, h.buf, h.w, h.m, h.t, h.lOut]

/-- A unit that is constructed stays so, with the same configuration. -/
def Slot.Latched {α κ : Type} (config : α → κ) (u u' : Slot α) : Prop :=
  ∀ c, u.core = some c → ∃ c', u'.core = some c' ∧ config c' = config c

theorem Slot.Latched.refl {α κ : Type} {config : α → κ} (u : Slot α) : u.Latched config u := fun c h => ⟨c, h, rfl⟩

theorem Slot.Latched.running {α κ : Type} {config : α → κ} {c c' : α} (h : config c' = config c) :
    (Slot.running c).Latched config (Slot.running c') := by
  rintro _ ⟨⟩
  exact ⟨c', rfl, h⟩

/-- So of every unit of the machine. -/
structure State.Latched (s t : State) : Prop where
  bw : ∀ id, (s.bw id).Latched BwCore.config (t.bw id)
  br : ∀ id, (s.br id).Latched BrCore.config (t.br id)
  enc : ∀ id, (s.enc id).Latched EncCore.config (t.enc id)
  dec : ∀ id, (s.dec id).Latched DecCore.config (t.dec id)

theorem State.Latched.refl (s : State) : s.Latched s :=
  ⟨fun _ => .refl _, fun _ => .refl _, fun _ => .refl _, fun _ => .refl _⟩

theorem State.Latched.respond (h : s.Latched t) (st : Status) (r : Option Word64) (vs : List Word64) :
    s.Latched (t.respond st r vs) := ⟨h.bw, h.br, h.enc, h.dec⟩

theorem State.Latched.setBw {id : Nat} {u : Slot BwCore} (h : (s.bw id).Latched BwCore.config u) :
    s.Latched (s.setBw id u) where
  bw j := by
    by_cases hj : j = id
    · rw [hj, s.bw_setBw_same]; exact h
    · rw [s.bw_setBw_other u hj]; exact .refl _
  br _ := .refl _
  enc _ := .refl _
  dec _ := .refl _

theorem State.Latched.setBr {id : Nat} {u : Slot BrCore} (h : (s.br id).Latched BrCore.config u) :
    s.Latched (s.setBr id u) where
  bw _ := .refl _
  br j := by
    by_cases hj : j = id
    · rw [hj, s.br_setBr_same]; exact h
    · rw [s.br_setBr_other u hj]; exact .refl _
  enc _ := .refl _
  dec _ := .refl _

theorem State.Latched.setEnc {id : Nat} {u : Slot EncCore} (h : (s.enc id).Latched EncCore.config u) :
    s.Latched (s.setEnc id u) where
  bw _ := .refl _
  br _ := .refl _
  enc j := by
    by_cases hj : j = id
    · rw [hj, s.enc_setEnc_same]; exact h
    · rw [s.enc_setEnc_other u hj]; exact .refl _
  dec _ := .refl _

theorem State.Latched.setDec {id : Nat} {u : Slot DecCore} (h : (s.dec id).Latched DecCore.config u) :
    s.Latched (s.setDec id u) where
  bw _ := .refl _
  br _ := .refl _
  enc _ := .refl _
  dec j := by
    by_cases hj : j = id
    · rw [hj, s.dec_setDec_same]; exact h
    · rw [s.dec_setDec_other u hj]; exact .refl _

/-! ### The effect of an instruction -/

/-- The run headers of the wire format, whose operands may be any numbers: only of one that was fetched is it known that
it lies inside the input. -/
def isRunHeader : Instr → Bool
  | .wireRepeatedRun _ _ => true
  | .wireLiteralRun _ _ => true
  | _ => false

/-- The instruction leaves the addressed unit, of the given kind, as `u'`, where it was `u`: only a construction changes
its configuration, and in a good state `u'` is good. -/
structure State.Gives {α κ : Type} (s : State) (i : Instr) (kind : Kind) (config : α → κ) (ok : α → Bool)
    (u u' : Slot α) : Prop where
  addressed : s.port.target.kind = kind
  latched : isConstruction i = false → u.Latched config u'
  good : isRunHeader i = false → s.Good → u'.all ok = true

abbrev State.GivesBw (s : State) (i : Instr) (u : Slot BwCore) : Prop :=
  s.Gives i .bw BwCore.config (BwCore.ok s.params) (s.bw s.port.target.id) u
abbrev State.GivesBr (s : State) (i : Instr) (u : Slot BrCore) : Prop :=
  s.Gives i .br BrCore.config s.brOk (s.br s.port.target.id) u
abbrev State.GivesEnc (s : State) (i : Instr) (u : Slot EncCore) : Prop :=
  s.Gives i .enc EncCore.config (EncCore.ok s.params) (s.enc s.port.target.id) u
abbrev State.GivesDec (s : State) (i : Instr) (u : Slot DecCore) : Prop :=
  s.Gives i .dec DecCore.config s.decOk (s.dec s.port.target.id) u

/-- What the instruction may do to memory: nothing, and for a bit writer or an encoder also a write into a buffer or the
taking of one (20_memory.md R47). -/
inductive Rewrites (i : Instr) (s : State) : State → Prop
  | same : Rewrites i s s
  | wrote (hi : kindOf i = .bw ∨ kindOf i = .enc) (b : Nat) (cells : List Host.Cell) :
    Rewrites i s (s.writeCells b cells)
  | took (hi : kindOf i = .bw ∨ kindOf i = .enc) (b : Nat) : Rewrites i s (s.take b)

/-- The next states an instruction may answer. -/
inductive Effect (i : Instr) (s : State) : State → Prop
  | bw {m : State} {u : Slot BwCore} (hm : Rewrites i s m) (hu : s.GivesBw i u) (st : Status) (r : Option Word64)
    (vs : List Word64) : Effect i s ((m.setBw s.port.target.id u).respond st r vs)
  | br {u : Slot BrCore} (hu : s.GivesBr i u) (st : Status) (r : Option Word64) (vs : List Word64) :
    Effect i s ((s.setBr s.port.target.id u).respond st r vs)
  | enc {m : State} {u : Slot EncCore} (hm : Rewrites i s m) (hu : s.GivesEnc i u) (st : Status) (r : Option Word64)
    (vs : List Word64) : Effect i s ((m.setEnc s.port.target.id u).respond st r vs)
  | dec {u : Slot DecCore} (hu : s.GivesDec i u) (st : Status) (r : Option Word64) (vs : List Word64) :
    Effect i s ((s.setDec s.port.target.id u).respond st r vs)
  /-- The answer alone. -/
  | answered (st : Status) (r : Option Word64) (vs : List Word64) : Effect i s (s.respond st r vs)
  /-- A run header is taken up, or it is not; it answers nothing. -/
  | parsed {u : Slot DecCore} (hu : s.GivesDec i u) : Effect i s (s.setDec s.port.target.id u)
  | held : Effect i s s

variable {i : Instr}

/-! ### What is read off an effect -/

theorem Rewrites.othersKept (h : Rewrites i s m) : s.othersKept m := by
  cases h with
  | same => exact State.othersKept_refl
  | wrote hi b cells => exact State.othersKept_writeCells b cells
  | took hi b => exact State.othersKept_take b

theorem Rewrites.port (h : Rewrites i s m) : m.port = s.port := by
  obtain ⟨-, -, hport, -⟩ := h.othersKept
  exact hport

theorem Rewrites.mem_of_reader (h : Rewrites i s m) (hi : kindOf i = .br ∨ kindOf i = .dec) : m.mem = s.mem := by
  cases h with
  | same => rfl
  | wrote hk => rcases hi with hi | hi <;> simp [hi] at hk
  | took hk => rcases hi with hi | hi <;> simp [hi] at hk

theorem Rewrites.good (h : Rewrites i s m) (hs : s.Good) : m.Good := by
  cases h with
  | same => exact hs
  | wrote hi b cells =>
    exact hs.of_mem rfl rfl rfl rfl rfl (Memory.wf_writeCells hs.mem b cells)
      fun b' => s.version_le_writeCells b b' cells
  | took hi b => exact hs.of_mem rfl rfl rfl rfl rfl (Memory.wf_take hs.mem b) (s.version_le_take b)

/-- 10_state.md R20. -/
theorem Effect.othersKept (h : Effect i s t) : s.othersKept t := by
  cases h with
  | bw hm hu st r vs =>
    refine State.othersKept_trans (State.othersKept_trans hm.othersKept ?_) (State.othersKept_respond st r vs)
    rw [← hm.port]
    exact State.othersKept_setBw (by rw [hm.port]; exact hu.addressed) _
  | br hu st r vs =>
    exact State.othersKept_trans (State.othersKept_setBr hu.addressed _) (State.othersKept_respond st r vs)
  | enc hm hu st r vs =>
    refine State.othersKept_trans (State.othersKept_trans hm.othersKept ?_) (State.othersKept_respond st r vs)
    rw [← hm.port]
    exact State.othersKept_setEnc (by rw [hm.port]; exact hu.addressed) _
  | dec hu st r vs =>
    exact State.othersKept_trans (State.othersKept_setDec hu.addressed _) (State.othersKept_respond st r vs)
  | answered st r vs => exact State.othersKept_respond st r vs
  | parsed hu => exact State.othersKept_setDec hu.addressed _
  | held => exact State.othersKept_refl

/-- 20_memory.md R47. -/
theorem Effect.mem_of_reader (h : Effect i s t) (hi : kindOf i = .br ∨ kindOf i = .dec) : t.mem = s.mem := by
  cases h with
  | bw hm => exact hm.mem_of_reader hi
  | enc hm => exact hm.mem_of_reader hi
  | br | dec | answered | parsed | held => rfl

/-- 10_state.md R22. -/
theorem Effect.latched (h : Effect i s t) (hi : isConstruction i = false) : s.Latched t := by
  cases h with
  | bw hm hu =>
    have hset := State.Latched.setBw (hu.latched hi)
    cases hm <;> exact ⟨hset.bw, hset.br, hset.enc, hset.dec⟩
  | br hu st r vs => exact (State.Latched.setBr (hu.latched hi)).respond st r vs
  | enc hm hu =>
    have hset := State.Latched.setEnc (hu.latched hi)
    cases hm <;> exact ⟨hset.bw, hset.br, hset.enc, hset.dec⟩
  | dec hu st r vs => exact (State.Latched.setDec (hu.latched hi)).respond st r vs
  | answered st r vs => exact (State.Latched.refl s).respond st r vs
  | parsed hu => exact State.Latched.setDec (hu.latched hi)
  | held => exact .refl s

theorem Effect.good (h : Effect i s t) (hi : isRunHeader i = false) (hs : s.Good) : t.Good := by
  cases h with
  | bw hm hu st r vs =>
    obtain ⟨hparams, -⟩ := hm.othersKept
    exact ((hm.good hs).setBw _ (by rw [hparams]; exact hu.good hi hs)).respond st r vs
  | br hu st r vs => exact (hs.setBr _ (hu.good hi hs)).respond st r vs
  | enc hm hu st r vs =>
    obtain ⟨hparams, -⟩ := hm.othersKept
    exact ((hm.good hs).setEnc _ (by rw [hparams]; exact hu.good hi hs)).respond st r vs
  | dec hu st r vs => exact (hs.setDec _ (hu.good hi hs)).respond st r vs
  | answered st r vs => exact hs.respond st r vs
  | parsed hu => exact hs.setDec _ (hu.good hi hs)
  | held => exact hs

end Sys2Proof.Machine
end

section
/-! ## Every instruction has such an effect

One rule for each operation a meaning is made of, and then the commands, one by one. -/

namespace Sys2Proof.Machine

/-- Every next state the outcome may be is an effect of the instruction. -/
def Effects (i : Instr) (s : State) (o : Host.Outcome State Fault Refusal) : Prop := ∀ t, o = .next t → Effect i s t

section
variable {i : Instr} {s : State}

/-! ### What a unit may be given -/

/-- The mark changes nothing else of a unit (60_exceptions.md R180). -/
theorem State.Gives.marked {α κ : Type} {kind : Kind} {config : α → κ} {ok : α → Bool} {u : Slot α}
    (hk : s.port.target.kind = kind) (hok : s.Good → u.all ok = true) : s.Gives i kind config ok u u.marked :=
  ⟨hk, fun _ => .refl u, fun _ => hok⟩

/-- A running unit goes on in another state of the same configuration. -/
theorem State.givesBw {c c' : BwCore} (h : s.runsBw c) (hc : c'.config = c.config)
    (hok : c.ok s.params = true → c'.ok s.params = true) : s.GivesBw i (Slot.running c') := by
  have hu := State.bwIs_of_runs h
  exact ⟨h.1, fun _ => by rw [hu]; exact .running hc, fun _ hs => hok (Slot.all_iff.1 (hs.bw _) c (by rw [hu]; rfl))⟩

theorem State.givesBr {c c' : BrCore} (h : s.runsBr c) (hc : c'.config = c.config)
    (hok : c.ok s.params = true → c'.ok s.params = true) : s.GivesBr i (Slot.running c') := by
  have hu := State.brIs_of_runs h
  refine ⟨h.1, fun _ => by rw [hu]; exact .running hc, fun _ hs => ?_⟩
  have hgood := Slot.all_iff.1 (hs.br _) c (by rw [hu]; rfl)
  simp only [BrCore.config, Prod.mk.injEq] at hc
  simp only [State.brOk, Bool.and_eq_true, Slot.all, Slot.running] at hgood ⊢
  exact ⟨hok hgood.1, by rw [hc.1, hc.2.1]; exact hgood.2⟩

theorem State.givesEnc {e e' : EncCore} (h : s.runsEnc e) (hc : e'.config = e.config)
    (hok : s.params.legal = true → e.ok s.params = true → e'.ok s.params = true) : s.GivesEnc i (Slot.running e') := by
  have hu := State.encIs_of_runs h
  exact ⟨h.1, fun _ => by rw [hu]; exact .running hc,
    fun _ hs => hok hs.legal (Slot.all_iff.1 (hs.enc _) e (by rw [hu]; rfl))⟩

theorem State.Good.runningDec (hs : s.Good) {c c' : DecCore} (h : s.runsDec c) (hc : c'.config = c.config)
    (hok : c.ok s.params = true → c'.ok s.params = true) : (Slot.running c').all s.decOk = true := by
  have hgood := Slot.all_iff.1 (hs.dec _) c (by rw [State.decIs_of_runs h]; rfl)
  simp only [DecCore.config, Prod.mk.injEq] at hc
  simp only [State.decOk, Bool.and_eq_true, Slot.all, Slot.running] at hgood ⊢
  exact ⟨hok hgood.1, by rw [hc.1, hc.2.1]; exact hgood.2⟩

/-- Of what a run header makes of the decoder nothing is claimed here. -/
theorem State.givesDec {c c' : DecCore} (h : s.runsDec c) (hc : c'.config = c.config)
    (hok : isRunHeader i = false → c.ok s.params = true → c'.ok s.params = true) : s.GivesDec i (Slot.running c') :=
  ⟨h.1, fun _ => by rw [State.decIs_of_runs h]; exact .running hc, fun hi hs => hs.runningDec h hc (hok hi)⟩

/-- A construction gives the unit any configuration. -/
theorem State.Gives.constructed {α κ : Type} {kind : Kind} {config : α → κ} {ok : α → Bool} {u : Slot α} {c : α}
    (hk : s.port.target.kind = kind) (hi : isConstruction i = true) (hok : s.Good → ok c = true) :
    s.Gives i kind config ok u (Slot.running c) :=
  ⟨hk, fun hn => by simp [hi] at hn, fun _ => hok⟩

/-! ### One rule for each operation -/

theorem Effect.refused (i : Instr) (s : State) : Effect i s s.refuse := by
  unfold State.refuse
  cases hk : s.port.target.kind with
  | bw => rw [State.mark_of_bw hk]; exact .bw .same (.marked hk fun h => h.bw _) _ _ _
  | br => rw [State.mark_of_br hk]; exact .br (.marked hk fun h => h.br _) _ _ _
  | enc => rw [State.mark_of_enc hk]; exact .enc .same (.marked hk fun h => h.enc _) _ _ _
  | dec => rw [State.mark_of_dec hk]; exact .dec (.marked hk fun h => h.dec _) _ _ _

theorem Effect.effects {t : State} (h : Effect i s t) : Effects i s (.next t) := by
  rintro _ ⟨⟩
  exact h

theorem effects_refuse : Effects i s (.next s.refuse) := (Effect.refused i s).effects

variable {st : Status} {r : Option Word64} {vs : List Word64}

theorem effects_respond : Effects i s (.next (s.respond st r vs)) := (Effect.answered st r vs).effects

theorem effects_ite {p : Prop} [Decidable p] {o o' : Host.Outcome State Fault Refusal} (h : p → Effects i s o)
    (h' : ¬p → Effects i s o') : Effects i s (if p then o else o') := by
  split
  · exact h ‹_›
  · exact h' ‹_›

theorem effects_whenAddressed {k : Kind} {f : Host.Outcome State Fault Refusal}
    (h : s.port.target.kind = k → Effects i s f) : Effects i s (s.whenAddressed k f) := by
  intro t ht
  rcases State.whenAddressed_next ht with rfl | ⟨hk, hf⟩
  · exact .refused i s
  · exact h hk t hf

theorem effects_onBw {f : BwCore → Host.Outcome State Fault Refusal} (h : ∀ c, s.runsBw c → Effects i s (f c)) :
    Effects i s (s.onBw f) := by
  intro t ht
  rcases State.onBw_next ht with rfl | ⟨c, hc, hf⟩
  · exact .refused i s
  · exact h c hc t hf

theorem effects_onBr {f : BrCore → Host.Outcome State Fault Refusal} (h : ∀ c, s.runsBr c → Effects i s (f c)) :
    Effects i s (s.onBr f) := by
  intro t ht
  rcases State.onBr_next ht with rfl | ⟨c, hc, hf⟩
  · exact .refused i s
  · exact h c hc t hf

theorem effects_onEnc {f : EncCore → Host.Outcome State Fault Refusal} (h : ∀ e, s.runsEnc e → Effects i s (f e)) :
    Effects i s (s.onEnc f) := by
  intro t ht
  rcases State.onEnc_next ht with rfl | ⟨e, he, hf⟩
  · exact .refused i s
  · exact h e he t hf

theorem effects_onDec {f : DecCore → Host.Outcome State Fault Refusal} (h : ∀ c, s.runsDec c → Effects i s (f c)) :
    Effects i s (s.onDec f) := by
  intro t ht
  rcases State.onDec_next ht with rfl | ⟨c, hc, hf⟩
  · exact .refused i s
  · exact h c hc t hf

/-- The unit's new state and its answer, and then the command's writes. -/
theorem effects_commitBw (hi : kindOf i = .bw) {c' : BwCore} (h : s.GivesBw i (Slot.running c')) {b lOut : Nat}
    {cells : List Host.Cell} : Effects i s (((s.putBw c').respond st r vs).commit b lOut cells) := by
  intro t ht
  obtain ⟨-, rfl⟩ := State.commit_next ht
  exact .bw (.wrote (.inl hi) b cells) h st r vs

theorem effects_commitEnc (hi : kindOf i = .enc) {e' : EncCore} (h : s.GivesEnc i (Slot.running e')) {b lOut : Nat}
    {cells : List Host.Cell} : Effects i s (((s.putEnc e').respond st r vs).commit b lOut cells) := by
  intro t ht
  obtain ⟨-, rfl⟩ := State.commit_next ht
  exact .enc (.wrote (.inr hi) b cells) h st r vs

/-- A bit writer or an encoder takes a buffer for a new stream. -/
theorem effects_takeBw (hi : kindOf i = .bw) {c' : BwCore} (h : s.GivesBw i (Slot.running c')) {b : Nat} :
    Effects i s (.next (((s.take b).putBw c').respond st r vs)) :=
  (Effect.bw (.took (.inl hi) b) h st r vs).effects

theorem effects_takeEnc (hi : kindOf i = .enc) {e' : EncCore} (h : s.GivesEnc i (Slot.running e')) {b : Nat} :
    Effects i s (.next (((s.take b).putEnc e').respond st r vs)) :=
  (Effect.enc (.took (.inr hi) b) h st r vs).effects

theorem effects_putBr {c' : BrCore} (h : s.GivesBr i (Slot.running c')) :
    Effects i s (.next ((s.putBr c').respond st r vs)) := (Effect.br h st r vs).effects

theorem effects_putDec {c' : DecCore} (h : s.GivesDec i (Slot.running c')) :
    Effects i s (.next ((s.putDec c').respond st r vs)) := (Effect.dec h st r vs).effects

theorem effects_parsed {c' : DecCore} (h : s.GivesDec i (Slot.running c')) : Effects i s (.next (s.putDec c')) :=
  (Effect.parsed h).effects

theorem effects_held : Effects i s (.next s) := Effect.held.effects

end

/-! ### The commands, one by one -/

variable (s : State)

theorem execBwInit_effects (lOut : Word32) : Effects (.bwInit lOut) s (execBwInit lOut s) :=
  effects_whenAddressed fun hk => effects_ite
    (fun hl => effects_takeBw rfl (.constructed hk rfl fun _ => BwCore.fresh_ok (of_decide_eq_true hl) _))
    fun _ => effects_refuse

theorem execBwPutValue_effects (value : Word64) (w : Word7) :
    Effects (.bwPutValue value w) s (execBwPutValue value w s) :=
  effects_onBw fun _ hc => effects_ite (fun _ => effects_refuse) fun _ => effects_ite (fun _ => effects_respond)
    fun hw => effects_commitBw rfl (State.givesBw hc (by rfl) fun hok => BwCore.pushBits_ok hok (Nat.not_lt.1 hw) _)

theorem execBwPutUleb128_effects (x : Word32) : Effects (.bwPutUleb128 x) s (execBwPutUleb128 x s) :=
  effects_onBw fun _ hc => effects_ite (fun _ => effects_refuse) fun _ => effects_ite (fun _ => effects_respond)
    fun hl => effects_commitBw rfl (State.givesBw hc (by rfl) fun hok => BwCore.aligned_ok hok (Nat.not_lt.1 hl))

theorem execBwFlush_effects : Effects .bwFlush s (execBwFlush s) :=
  effects_onBw fun c hc => effects_commitBw rfl (State.givesBw (c' := { c with flushed := true }) hc rfl id)

theorem execBwBytesWritten_effects : Effects .bwBytesWritten s (execBwBytesWritten s) :=
  effects_onBw fun _ _ => effects_respond

theorem execBwClear_effects : Effects .bwClear s (execBwClear s) :=
  effects_onBw fun _ hc => effects_takeBw rfl
    (State.givesBw hc (by rfl) fun hok => BwCore.fresh_ok (BwCore.ok_iff.1 hok).1 _)

theorem execBrInit_effects (lIn : Word32) : Effects (.brInit lIn) s (execBrInit lIn s) := by
  refine effects_whenAddressed fun hk => effects_ite (fun hl => ?_) fun _ => effects_refuse
  refine effects_putBr (.constructed hk rfl fun _ => ?_)
  simp only [lengthLegal, Bool.and_eq_true, decide_eq_true_eq] at hl
  simp [State.brOk, BrCore.ok, hl.1]

theorem execBrGetValue_effects (w : Word7) : Effects (.brGetValue w) s (execBrGetValue w s) :=
  effects_onBr fun _ hc => effects_ite (fun _ => effects_refuse) fun _ => effects_ite (fun _ => effects_respond)
    fun hb => effects_putBr (State.givesBr hc (by rfl) fun hok => BrCore.moved_ok hok (Nat.not_lt.1 hb))

theorem execBrGetUleb128_effects : Effects .brGetUleb128 s (execBrGetUleb128 s) := by
  refine effects_onBr fun c hc => ?_
  dsimp only
  split
  case h_1 => exact effects_respond
  case h_2 => exact effects_respond
  case h_3 hd =>
    exact effects_putBr (State.givesBr hc (by rfl) fun hok => BrCore.moved_ok hok (BrCore.varint_inside hok hd))

theorem execBrSkipBits_effects (k : Word64) : Effects (.brSkipBits k) s (execBrSkipBits k s) :=
  effects_onBr fun _ hc => effects_ite (fun _ => effects_respond)
    fun hb => effects_putBr (State.givesBr hc (by rfl) fun hok => BrCore.moved_ok hok (Nat.not_lt.1 hb))

theorem execBrAlignToByte_effects : Effects .brAlignToByte s (execBrAlignToByte s) :=
  effects_onBr fun _ hc => effects_putBr (State.givesBr hc (by rfl) BrCore.aligned_ok)

theorem execEncNew_effects (lOut : Word32) (w m : Word7) : Effects (.encNew lOut w m) s (execEncNew lOut w m s) :=
  effects_whenAddressed fun hk => effects_ite
    (fun hl => effects_takeEnc rfl (.constructed hk rfl fun _ => EncCore.fresh_ok hl _ _ (BitVec.isLt _)))
    fun _ => effects_refuse

theorem execEncPut_effects (value : Word64) : Effects (.encPut value) s (execEncPut value s) := by
  refine effects_onEnc fun e he => effects_ite (fun _ => effects_refuse) fun hl =>
    effects_ite (fun _ => effects_respond) fun hroom => effects_commitEnc rfl
      (State.givesEnc he (Draft.step_extends _ _).config fun hp hok => ?_)
  obtain ⟨hi, hv⟩ : e.idle = false ∧ valueFits e.w value = true := by simpa using hl
  exact EncCore.put_ok hp hok hi hv (Nat.not_lt.1 hroom)

theorem execEncFlush_effects : Effects .encFlush s (execEncFlush s) :=
  effects_onEnc fun _ he => effects_ite (fun _ => effects_respond) fun hi => effects_commitEnc rfl
    (State.givesEnc he (Draft.flush_extends _).config fun hp hok => EncCore.flush_ok hp hok (by simpa using hi))

theorem execEncClear_effects : Effects .encClear s (execEncClear s) :=
  effects_onEnc fun _ he => effects_takeEnc rfl
    (State.givesEnc he (by rfl) fun _ hok => EncCore.cleared_ok (EncCore.ok_iff.1 hok).1 _ (BitVec.isLt _))

theorem execEncMinBufferSize_effects (w : Word7) : Effects (.encMinBufferSize w) s (execEncMinBufferSize w s) :=
  effects_whenAddressed fun _ => effects_ite (fun _ => effects_respond) fun _ => effects_refuse

theorem execEncMaxBufferSize_effects (w : Word7) (n : Word32) :
    Effects (.encMaxBufferSize w n) s (execEncMaxBufferSize w n s) :=
  effects_whenAddressed fun _ => effects_ite (fun _ => effects_respond) fun _ => effects_refuse

/-- Of DEC.NEW and of DEC.RESET. -/
theorem constructDec_effects {i : Instr} (hi : isConstruction i = true) (lIn : Word32) (w : Word7) :
    Effects i s (constructDec lIn w s) := by
  refine effects_whenAddressed fun hk => effects_ite (fun hl => ?_) fun _ => effects_refuse
  simp only [decNewLegal, widthLegal, lengthLegal, Bool.and_eq_true, decide_eq_true_eq] at hl
  obtain ⟨⟨hw, hlen⟩, -⟩ := hl
  exact effects_putDec (.constructed hk hi fun _ =>
    Bool.and_eq_true_iff.2 ⟨DecCore.fresh_ok hw hlen _ _, decide_eq_true (Nat.le_refl _)⟩)

theorem execDecNextNumRepeats_effects : Effects .decNextNumRepeats s (execDecNextNumRepeats s) :=
  effects_onDec fun c hc => effects_putDec
    (State.givesDec hc (c.lookAhead_sameConfig _ _).config fun _ => DecCore.lookAhead_ok _ _)

theorem execDecNextNumLiterals_effects : Effects .decNextNumLiterals s (execDecNextNumLiterals s) :=
  effects_onDec fun c hc => effects_putDec
    (State.givesDec hc (c.lookAhead_sameConfig _ _).config fun _ => DecCore.lookAhead_ok _ _)

theorem execDecGetRepeatedValue_effects (n : Word32) :
    Effects (.decGetRepeatedValue n) s (execDecGetRepeatedValue n s) := by
  refine effects_onDec fun c hc => ?_
  have hcfg := (c.lookAhead_sameConfig s.params.padPolicy (s.readByte c.buf)).config
  have hok (h : c.ok s.params = true) := DecCore.lookAhead_ok s.params.padPolicy (s.readByte c.buf) h
  dsimp only
  split
  case h_1 => exact effects_putDec (State.givesDec hc hcfg fun _ => hok)
  case h_2 hr =>
    exact effects_ite (fun _ => effects_refuse) fun hn => effects_putDec
      (State.givesDec hc (by exact hcfg) fun _ h => DecCore.rep_taken_ok (hok h) hr (Nat.not_lt.1 hn))
  case h_3 => exact effects_refuse
  case h_4 => exact effects_refuse

theorem execDecGetLiteralValues_effects (n : Word32) :
    Effects (.decGetLiteralValues n) s (execDecGetLiteralValues n s) := by
  refine effects_onDec fun c hc => ?_
  have hcfg := c.lookAhead_sameConfig s.params.padPolicy (s.readByte c.buf)
  have hok (h : c.ok s.params = true) := DecCore.lookAhead_ok s.params.padPolicy (s.readByte c.buf) h
  exact effects_ite (fun _ => effects_putDec (State.givesDec hc hcfg.config fun _ => hok)) fun _ =>
    effects_ite (fun _ => effects_refuse) fun _ => effects_putDec
      (State.givesDec hc (hcfg.trans (DecCore.takeMany_sameConfig _ _ _ _)).config
        fun _ h => DecCore.takeMany_ok _ _ (hok h) _)

theorem execDecGetSingleValue_effects : Effects .decGetSingleValue s (execDecGetSingleValue s) := by
  refine effects_onDec fun c hc => ?_
  have hcfg := (c.takeOne_sameConfig s.params.padPolicy (s.readByte c.buf)).config
  have hok (h : c.ok s.params = true) := DecCore.takeOne_ok s.params.padPolicy (s.readByte c.buf) h
  split <;> rename_i ho <;> rw [ho] at hcfg hok <;>
    exact effects_putDec (State.givesDec hc hcfg fun _ => hok)

theorem execDecGetValues_effects (n : Word32) : Effects (.decGetValues n) s (execDecGetValues n s) :=
  effects_onDec fun c hc => effects_putDec
    (State.givesDec hc (c.takeMany_sameConfig _ _ _).config fun _ h => DecCore.takeMany_ok _ _ h _)

theorem execDecSkipValues_effects (n : Word32) : Effects (.decSkipValues n) s (execDecSkipValues n s) := by
  refine effects_onDec fun c hc => ?_
  rw [DecCore.skipMany_eq]
  exact effects_putDec
    (State.givesDec hc (c.takeMany_sameConfig _ _ _).config fun _ h => DecCore.takeMany_ok _ _ h _)

theorem execWireRepeatedRun_effects (count : BitVec 31) (len : Nat) :
    Effects (.wireRepeatedRun count len) s (execWireRepeatedRun count len s) :=
  effects_onDec fun c hc => effects_ite
    (fun _ => effects_parsed (State.givesDec hc (c.takeRepeatedRun_sameConfig _ _ _ _).config nofun))
    fun _ => effects_held

theorem execWireLiteralRun_effects (groups : BitVec 31) (len : Nat) :
    Effects (.wireLiteralRun groups len) s (execWireLiteralRun groups len s) :=
  effects_onDec fun c hc => effects_ite
    (fun _ => effects_parsed (State.givesDec hc (c.takeLiteralRun_sameConfig _ _).config nofun))
    fun _ => effects_held

/-- Every next state of an instruction is an effect of it. -/
theorem exec_effects (i : Instr) : Effects i s (exec i s) := by
  cases i with
  | bwInit lOut => exact execBwInit_effects s lOut
  | bwPutValue value w => exact execBwPutValue_effects s value w
  | bwPutUleb128 x => exact execBwPutUleb128_effects s x
  | bwFlush => exact execBwFlush_effects s
  | bwBytesWritten => exact execBwBytesWritten_effects s
  | bwClear => exact execBwClear_effects s
  | brInit lIn => exact execBrInit_effects s lIn
  | brGetValue w => exact execBrGetValue_effects s w
  | brGetUleb128 => exact execBrGetUleb128_effects s
  | brSkipBits k => exact execBrSkipBits_effects s k
  | brAlignToByte => exact execBrAlignToByte_effects s
  | encNew lOut w m => exact execEncNew_effects s lOut w m
  | encPut value => exact execEncPut_effects s value
  | encFlush => exact execEncFlush_effects s
  | encClear => exact execEncClear_effects s
  | encMinBufferSize w => exact execEncMinBufferSize_effects s w
  | encMaxBufferSize w n => exact execEncMaxBufferSize_effects s w n
  | decNew lIn w => exact constructDec_effects s rfl lIn w
  | decReset lIn w => exact constructDec_effects s rfl lIn w
  | decNextNumRepeats => exact execDecNextNumRepeats_effects s
  | decNextNumLiterals => exact execDecNextNumLiterals_effects s
  | decGetRepeatedValue n => exact execDecGetRepeatedValue_effects s n
  | decGetLiteralValues n => exact execDecGetLiteralValues_effects s n
  | decGetSingleValue => exact execDecGetSingleValue_effects s
  | decGetValues n => exact execDecGetValues_effects s n
  | decSkipValues n => exact execDecSkipValues_effects s n
  | wireRepeatedRun count len => exact execWireRepeatedRun_effects s count len
  | wireLiteralRun groups len => exact execWireLiteralRun_effects s groups len

/-! ### One step -/

variable {s}

/-- A refusal is an effect of every instruction, so that any one of them shows this. -/
theorem State.Good.refuse (h : s.Good) : s.refuse.Good := (Effect.refused .bwFlush s).good rfl h

/-- What a decoder makes of the header at its position (43_run_frame_parser.md R129). -/
theorem State.Good.parseHeader (h : s.Good) {c : DecCore} (hc : s.runsDec c) (hrun : c.run = .empty)
    (policy : PadPolicy) (rd : Nat → Byte) : (s.putDec (c.parseHeader policy rd)).Good :=
  h.setDec _ (h.runningDec hc (c.parseHeader_sameConfig policy rd).config fun hok =>
    DecCore.parseHeader_ok policy rd hok hrun)

/-- The block's commands are no run headers: the two encodings never meet (log entry 6). -/
theorem decodeCommand_not_runHeader {word : CmdWord} {i : Instr} (h : decode (.command word) = .ok i) :
    isRunHeader i = false := by
  simp only [decode, decodeCommand] at h
  split at h
  case h_27 => split at h <;> cases h
  all_goals cases h; rfl

/-- Everything a decoder's parse event can find. -/
theorem State.parse_cases (hk : s.port.target.kind = .dec) :
    s.parse = .done s.refuse ∨ s.parse = .done s
      ∨ ∃ c, s.runsDec c ∧ c.run = .empty
        ∧ ((∃ why, c.fetchRun (s.readByte c.buf) = .error why ∧ s.parse = .done (s.putDec (c.rejectRun why)))
          ∨ ∃ i, c.fetchRun (s.readByte c.buf) = .ok i ∧ s.parse = .run i) := by
  cases hready : (s.dec s.port.target.id).ready with
  | none => exact .inl (by simp [State.parse, hready])
  | some c =>
    cases hchanged : (s.buf c.buf).changedSince c.version c.lIn with
    | true => exact .inl (by simp [State.parse, hready, hchanged])
    | false =>
      by_cases hrun : c.run = .empty
      · refine .inr (.inr ⟨c, ⟨hk, hready, hchanged⟩, hrun, ?_⟩)
        cases hf : c.fetchRun (s.readByte c.buf) with
        | error why => exact .inl ⟨why, rfl, by simp [State.parse, hready, hchanged, hrun, hf]⟩
        | ok i => exact .inr ⟨i, rfl, by simp [State.parse, hready, hchanged, hrun, hf]⟩
      · exact .inr (.inl (by simp [State.parse, hready, hchanged, hrun]))

/-- Performing the run that was fetched, as an instruction, is parsing its header (log entry 7). -/
theorem exec_fetchedRun {c : DecCore} (hc : s.runsDec c) (hrun : c.run = .empty) {i : Instr}
    (hf : c.fetchRun (s.readByte c.buf) = .ok i) :
    exec i s = .next (s.putDec (c.parseHeader s.params.padPolicy (s.readByte c.buf))) := by
  rw [DecCore.parseHeader, hf]
  rcases decodeWire_ok hf with ⟨count, len, rfl, -⟩ | ⟨groups, len, rfl, -⟩ <;>
    exact (State.onDec_of_runs hc _).trans (if_pos hrun)

/-- Everything the parse event can come to: it is refused, it finds a look-ahead and does nothing, or the decoder parses
its next header. -/
theorem step_parse_cases {id : Nat} {rest : List Event} (h : s.pending = .parse id :: rest) {s' : State}
    (hs' : s' = s.present rest { kind := .dec, id := id } s.port.buffer) :
    step s = .next s'.refuse ∨ step s = .next s'
      ∨ ∃ c, s'.runsDec c ∧ c.run = .empty
        ∧ step s = .next (s'.putDec (c.parseHeader s'.params.padPolicy (s'.readByte c.buf))) := by
  rcases State.parse_cases (s := s') (by rw [hs']; rfl) with hp | hp | ⟨c, hc, hrun, ⟨why, hf, hp⟩ | ⟨i, hf, hp⟩⟩
  · exact .inl (by simp only [step, h, ← hs', hp])
  · exact .inr (.inl (by simp only [step, h, ← hs', hp]))
  · exact .inr (.inr ⟨c, hc, hrun, by simp only [step, h, ← hs', hp, DecCore.parseHeader, hf]⟩)
  · exact .inr (.inr ⟨c, hc, hrun, by simp only [step, h, ← hs', hp, exec_fetchedRun hc hrun hf]⟩)

/-- Every step keeps the invariant, by the entry at the head of the host's list. -/
theorem step_good {t : State} (hs : s.Good) (h : step s = .next t) : t.Good := by
  cases hp : s.pending with
  | nil => simp [step, hp] at h
  | cons event rest =>
    cases event with
    | command target buffer word =>
      have hs' := hs.present rest target buffer
      simp only [step, hp] at h
      split at h
      · exact (exec_effects _ _ t h).good (decodeCommand_not_runHeader ‹_›) hs'
      · cases h
        exact hs'.refuse
    | parse id =>
      have hs' := hs.present rest { kind := .dec, id := id } s.port.buffer
      rcases step_parse_cases hp rfl with h' | h' | ⟨c, hc, hrun, h'⟩ <;>
        obtain rfl := Host.Outcome.next.inj (h'.symm.trans h)
      · exact hs'.refuse
      · exact hs'
      · exact hs'.parseHeader hc hrun _ _
    | load buffer index bytes =>
      simp only [step, hp] at h
      cases h
      exact hs.hostLoad rest buffer index bytes

end Sys2Proof.Machine
end

section
/-! ## The statements on the whole machine (10_state.md R20 to R22, R38; 20_memory.md R47, R50) -/

namespace Sys2Proof.Machine

/-- Settles O55: the invariant is told unit by unit, and every step keeps it so. -/
theorem stepKeepsTheInvariant : Obligations.StepKeepsTheInvariant := fun _ _ hs h =>
  State.inv_iff.2 (step_good (State.inv_iff.1 hs) h)

/-- Settles O57: every instruction has an `Effect`, and an effect has this frame. -/
theorem onlyTheAddressedUnitChanges : Obligations.OnlyTheAddressedUnitChanges := fun s t i h =>
  have heffect := exec_effects s i t h
  ⟨heffect.othersKept, heffect.mem_of_reader⟩

/-- Settles O58: only a construction's effect changes a configuration. -/
theorem configurationIsLatched : Obligations.ConfigurationIsLatched := by
  intro s t i h hi
  obtain ⟨hbw, hbr, henc, hdec⟩ := (exec_effects s i t h).latched hi
  refine ⟨fun id c hc => ?_, fun id c hc => ?_, fun id e he => ?_, fun id c hc => ?_⟩
  · obtain ⟨c', hc', hcfg⟩ := hbw id c hc
    simp only [BwCore.config, Prod.mk.injEq] at hcfg
    exact ⟨c', hc', hcfg⟩
  · obtain ⟨c', hc', hcfg⟩ := hbr id c hc
    simp only [BrCore.config, Prod.mk.injEq] at hcfg
    exact ⟨c', hc', hcfg.1, hcfg.2.2⟩
  · obtain ⟨e', he', hcfg⟩ := henc id e he
    simp only [EncCore.config, Prod.mk.injEq] at hcfg
    exact ⟨e', he', hcfg⟩
  · obtain ⟨c', hc', hcfg⟩ := hdec id c hc
    simp only [DecCore.config, Prod.mk.injEq] at hcfg
    exact ⟨c', hc', hcfg.1, hcfg.2.2⟩

/-- Settles O4: one unfolding of `step`. -/
theorem stepPerformsTheDecodedCommand : Obligations.StepPerformsTheDecodedCommand := by
  intro s target buffer word rest i hp hd
  simp only [step, hp, hd]
  rfl

/-- Settles O54: at reset every list is empty. -/
theorem invariantHoldsAtReset : Obligations.InvariantHoldsAtReset :=
  ⟨rfl, rfl, fun _ => rfl, fun _ => rfl, fun _ => rfl, fun _ => rfl⟩

end Sys2Proof.Machine
end

section
/-! ## Encoding and decoding (30_encoding.md R53 to R64) -/

namespace Sys2Proof

/-! ### A varint of a given length (30_encoding.md R57, 41_uleb128.md R89, R93) -/

/-- The loop reads back the bytes of `x`, whatever it has read before: it adds `x` at the bit it has reached. -/
theorem ulebLoop_ulebBytes {n left i acc x : Nat} (hn : n + 1 ≤ left) (hx : x < 2 ^ (7 * (n + 1)))
    (hfits : acc + x * 2 ^ (7 * i) < 2 ^ 32) :
    ulebLoop left i acc (ulebBytes (n + 1) x) = .ok (acc + x * 2 ^ (7 * i)) (i + (n + 1)) := by
  induction n generalizing left i acc x with
  | zero =>
    obtain ⟨left, rfl⟩ : ∃ k, left = k + 1 := ⟨left - 1, by omega⟩
    have hmod : x % 128 = x := by omega
    have hbyte : (BitVec.ofNat 8 x).toNat = x := by rw [BitVec.toNat_ofNat]; omega
    simp only [ulebBytes, ulebLoop, hmod, hbyte]
    rw [if_pos (by omega), if_pos hfits]
  | succ n ih =>
    obtain ⟨left, rfl⟩ : ∃ k, left = k + 1 := ⟨left - 1, by omega⟩
    have hbyte : (BitVec.ofNat 8 (x % 128 + 128)).toNat = x % 128 + 128 := by rw [BitVec.toNat_ofNat]; omega
    have hpow : 2 ^ (7 * (i + 1)) = 128 * 2 ^ (7 * i) := by rw [Nat.mul_succ, Nat.pow_add]; omega
    have hsum : acc + x % 128 * 2 ^ (7 * i) + x / 128 * 2 ^ (7 * (i + 1)) = acc + x * 2 ^ (7 * i) := by
      rw [hpow, ← Nat.mul_assoc, Nat.add_assoc, ← Nat.add_mul, Nat.mod_add_div']
    have hrest : x / 128 < 2 ^ (7 * (n + 1)) := by
      rw [Nat.mul_succ, Nat.pow_add] at hx
      omega
    have hread := ih (left := left) (i := i + 1) (acc := acc + x % 128 * 2 ^ (7 * i)) (by omega) hrest (hsum ▸ hfits)
    simp only [ulebBytes, ulebLoop, hbyte]
    rw [if_neg (by omega), Nat.add_mod_right, Nat.mod_mod, hread, hsum, Nat.add_right_comm, Nat.add_assoc]

/-- So the reader gives back a value and the length it was written with. -/
theorem ulebDecode_ulebBytes {len x : Nat} (hfits : varintFits len x = true) (hx : x < 2 ^ 32) :
    ulebDecode (ulebBytes len x) = .ok x len := by
  simp only [varintFits, Bool.and_eq_true, decide_eq_true_eq] at hfits
  obtain ⟨⟨hpos, hmax⟩, hlen⟩ := hfits
  obtain ⟨n, rfl⟩ : ∃ n, len = n + 1 := ⟨len - 1, by omega⟩
  simpa [ulebDecode] using ulebLoop_ulebBytes (i := 0) (acc := 0) hmax hlen (by simpa using hx)

/-! ### Run headers (30_encoding.md R53, R56) -/

theorem decodeWire_ulebBytes {len h : Nat} (hfits : varintFits len h = true) (hh : h < 2 ^ 32) :
    decodeWire (ulebBytes len h) = if h % 2 = 0 then .ok (.wireRepeatedRun (BitVec.ofNat 31 (h / 2)) len)
      else .ok (.wireLiteralRun (BitVec.ofNat 31 (h / 2)) len) := by
  rw [decodeWire, ulebDecode_ulebBytes hfits hh]

theorem decode_encode_wireRepeatedRun {count : BitVec 31} {len : Nat}
    (hfits : varintFits len (repeatedHeaderWord count) = true) :
    decode (encode (.wireRepeatedRun count len)) = .ok (.wireRepeatedRun count len) := by
  have hvariant : repeatedHeaderWord count % 2 = 0 := by unfold repeatedHeaderWord; omega
  have hcount : repeatedHeaderWord count / 2 = count.toNat := by unfold repeatedHeaderWord; omega
  refine (decodeWire_ulebBytes hfits (by omega)).trans ?_
  rw [if_pos hvariant, hcount, BitVec.ofNat_toNat, BitVec.setWidth_eq]

theorem decode_encode_wireLiteralRun {groups : BitVec 31} {len : Nat}
    (hfits : varintFits len (literalHeaderWord groups) = true) :
    decode (encode (.wireLiteralRun groups len)) = .ok (.wireLiteralRun groups len) := by
  have hvariant : literalHeaderWord groups % 2 ≠ 0 := by unfold literalHeaderWord; omega
  have hgroups : literalHeaderWord groups / 2 = groups.toNat := by unfold literalHeaderWord; omega
  refine (decodeWire_ulebBytes hfits (by omega)).trans ?_
  rw [if_neg hvariant, hgroups, BitVec.ofNat_toNat, BitVec.setWidth_eq]

/-- Settles O2: a run header's varint reads back at every length it may have; of the commands, ENC.NEW alone moves an
operand through a field of another width, whose low bits are the operand (R62). -/
theorem encodedInstructionsDecodeBack : Obligations.EncodedInstructionsDecodeBack := by
  intro i hi
  cases i with
  | wireRepeatedRun count len => exact decode_encode_wireRepeatedRun hi
  | wireLiteralRun groups len => exact decode_encode_wireLiteralRun hi
  | encNew lOut w m =>
    have hm : (m.setWidth 64).setWidth 7 = m := by simp
    exact congrArg (fun m' => Except.ok (Instr.encNew lOut w m')) hm
  | _ => rfl

/-- Settles O1: each word and each header is run through the decoder. -/
theorem writtenOutWordsDecode : Obligations.WrittenOutWordsDecode :=
  ⟨rfl, rfl, rfl, rfl, rfl, rfl, rfl, rfl, rfl, rfl, rfl, rfl, rfl⟩

namespace Machine

/-! ### What is refused (30_encoding.md R64, 60_exceptions.md R178 cases 1 and 2) -/

/-- Only a word with one of the 26 opcodes of R63 is a command. -/
theorem isCommandOp_of_decode {word : CmdWord} {i : Instr} (h : decode (.command word) = .ok i) :
    isCommandOp word.op.toNat = true := by
  simp only [decode, decodeCommand] at h
  split at h
  case h_27 => split at h <;> cases h
  all_goals simp [isCommandOp, *]

theorem step_command_of_error {s : State} {target : Target} {buffer : Nat} {word : CmdWord} {rest : List Event}
    {why : Reject} (hp : s.pending = .command target buffer word :: rest) (hd : decode (.command word) = .error why) :
    step s = .next (s.present rest target buffer).refuse := by
  simp only [step, hp, hd]

/-- Every instruction asks first whether it is addressed to a unit of its own kind. -/
theorem exec_whenAddressed (i : Instr) (s : State) : ∃ f, exec i s = s.whenAddressed (kindOf i) f := by
  cases i <;> exact ⟨_, rfl⟩

/-- Settles O3: an unlisted opcode does not decode, and an instruction for a unit of another kind is not performed. -/
theorem illegalAndMisdirectedCommandsAreRefused : Obligations.IllegalAndMisdirectedCommandsAreRefused := by
  refine ⟨fun s target buffer word rest hp hop => ?_, fun i s hk => ?_⟩
  · cases hd : decode (.command word) with
    | error why => exact step_command_of_error hp hd
    | ok i =>
      have hlisted := isCommandOp_of_decode hd
      simp only [isCommandOp, Bool.or_eq_true, Bool.and_eq_true, decide_eq_true_eq] at hlisted
      simp only [List.mem_cons, List.not_mem_nil, or_false] at hop
      omega
  · obtain ⟨f, hf⟩ := exec_whenAddressed i s
    rw [hf]
    exact State.whenAddressed_misdirected (Ne.symm hk) f

end Machine
end Sys2Proof
end

section
/-! ## The bit writer's stream (10_state.md R27; 40_bit_packer_unpacker.md R70, R71)

A number's bits, and with them what the bytes of a writer's buffer and its accumulator say of the output stream after a
field has been appended. -/

namespace Sys2Proof.Machine

/-! ### The bits of a number -/

/-- The bits below the `k`-th are not changed by a multiple of `2 ^ k`. -/
theorem bit_add_low {k i : Nat} (a b : Nat) (h : i < k) : (a + 2 ^ k * b) / 2 ^ i % 2 = a / 2 ^ i % 2 := by
  obtain ⟨d, rfl⟩ : ∃ d, k = i + (d + 1) := ⟨k - i - 1, by omega⟩
  rw [Nat.pow_add, Nat.mul_assoc, Nat.add_mul_div_left _ _ (Nat.two_pow_pos i), Nat.pow_succ', Nat.mul_assoc,
    Nat.add_mul_mod_self_left]

/-- From the `k`-th bit on there stands what was added at it. -/
theorem bit_add_high {k a : Nat} (h : a < 2 ^ k) (b i : Nat) : (a + 2 ^ k * b) / 2 ^ (k + i) % 2 = b / 2 ^ i % 2 := by
  rw [Nat.pow_add, ← Nat.div_div_eq_div_mul, Nat.add_mul_div_left _ _ (Nat.two_pow_pos k), Nat.div_eq_of_lt h,
    Nat.zero_add]

theorem bit_mod_two_pow {w i : Nat} (v : Nat) (h : i < w) : v % 2 ^ w / 2 ^ i % 2 = v / 2 ^ i % 2 := by
  rw [← bit_add_low (v % 2 ^ w) (v / 2 ^ w) h, Nat.mod_add_div]

/-! ### The stream as a number -/

/-- Bytes that stand in a buffer are what is read there. -/
theorem bytesFrom_of_read {rd : Nat → Byte} {p : Nat} {bytes : List Byte}
    (h : ∀ k (hk : k < bytes.length), rd (p + k) = bytes[k]) : bytesFrom rd p bytes.length = bytes := by
  induction bytes generalizing p with
  | nil => rfl
  | cons b bytes ih =>
    have hhead : rd p = b := h 0 (by simp)
    have htail : bytesFrom rd (p + 1) bytes.length = bytes := ih fun k hk => by
      simpa only [Nat.add_assoc, Nat.add_comm 1, List.getElem_cons_succ] using h (k + 1) (Nat.succ_lt_succ hk)
    rw [List.length_cons, bytesFrom, hhead, htail]

/-- From the byte boundary `8 * p` on, where the writer's last whole bytes are `bytes`, its stream is one number: the
bytes, and the accumulator above them. -/
theorem State.writerBit_of_bytes {t : State} {c : BwCore} {p k : Nat} {bytes : List Byte}
    (hread : ∀ k (hk : k < bytes.length), t.readByte c.buf (p + k) = bytes[k])
    (hlen : p + bytes.length = c.wbits / 8) (hk : k < 8 * bytes.length + 8) :
    t.writerBit c (8 * p + k) = (leNumber bytes + 256 ^ bytes.length * c.acc.toNat) / 2 ^ k % 2 := by
  have hpow : 256 ^ bytes.length = 2 ^ (8 * bytes.length) := by rw [Nat.pow_mul]
  have hlt := leNumber_lt bytes
  rw [hpow] at hlt ⊢
  unfold State.writerBit
  by_cases hwhole : k < 8 * bytes.length
  · rw [if_pos (by omega), bit_add_low _ _ hwhole, ← inField_bit _ _ _ _ hwhole, ← leNumber_bytesFrom,
      bytesFrom_of_read hread]
  · obtain ⟨i, rfl⟩ : ∃ i, k = 8 * bytes.length + i := ⟨k - 8 * bytes.length, by omega⟩
    rw [if_neg (by omega), bit_add_high hlt, show (8 * p + (8 * bytes.length + i)) % 8 = i by omega]

/-! ### A field appended to the stream -/

/-- The field BW.PUT_VALUE starts to append (R70). -/
def BwCore.packing (c : BwCore) : Packing := { wbits := c.wbits, acc := c.acc, cells := [] }

/-- The writer with the appended field's position and accumulator. -/
def BwCore.packed (c : BwCore) (x : Packing) : BwCore := { c with wbits := x.wbits, acc := x.acc }

section
variable {c : BwCore} {x : Packing} {w v : Nat}

theorem Packing.Appends.packed_eq (h : c.packing.Appends x w v) :
    c.packed x = { c with wbits := c.wbits + w, acc := x.acc } := by
  obtain ⟨-, hbits, -⟩ := h
  rw [BwCore.packed, hbits]
  rfl

theorem Packing.Appends.acc_lt (h : c.packing.Appends x w v) : x.acc.toNat < 2 ^ ((c.wbits + w) % 8) := by
  obtain ⟨-, hbits, -, -, hacc, -⟩ := h
  rwa [hbits] at hacc

variable {m : State}

/-- From the partial byte on, the stream is the number that the loop computes: the accumulator's old bits, and the field
above them. -/
theorem Packing.Appends.writerBit_from_partial (h : c.packing.Appends x w v) {k : Nat}
    (hk : 8 * (c.wbits / 8) + k < 8 * ((c.wbits + w) / 8) + 8) :
    (m.writeCells c.buf x.cells).writerBit (c.packed x) (8 * (c.wbits / 8) + k)
      = (c.acc.toNat + 2 ^ (c.wbits % 8) * v) / 2 ^ k % 2 := by
  have hpacked := h.packed_eq
  obtain ⟨bytes, -, hcells, hlen, -, hnumber⟩ := h
  simp only [BwCore.packing] at hcells hlen hnumber
  rw [List.nil_append] at hcells
  rw [hcells, hpacked, ← hnumber]
  exact State.writerBit_of_bytes (fun k hk => m.readByte_writeCells_cellsFrom c.buf hk) hlen (by omega)

/-- The bits appended before stay as they are: no whole byte is written again, and the accumulator's bits stand below the
field. -/
theorem Packing.Appends.writerBit_old (h : c.packing.Appends x w v) {j : Nat} (hj : j < c.wbits) :
    (m.writeCells c.buf x.cells).writerBit (c.packed x) j = m.writerBit c j := by
  by_cases hwhole : j / 8 < c.wbits / 8
  · have hkept : (m.writeCells c.buf x.cells).readByte c.buf (j / 8) = m.readByte c.buf (j / 8) :=
      m.readByte_writeCells_other fun _ cell hcell => (hwhole.trans_le (h.cells_inside hcell rfl).1).ne'
    rw [h.packed_eq, State.writerBit, State.writerBit, if_pos (by dsimp only; omega), if_pos hwhole]
    exact inBit_congr _ _ hkept
  · obtain ⟨k, hk, rfl⟩ : ∃ k, k < c.wbits % 8 ∧ j = 8 * (c.wbits / 8) + k := ⟨j % 8, by omega, by omega⟩
    rw [h.writerBit_from_partial (by omega), bit_add_low _ _ hk, State.writerBit, if_neg hwhole,
      show (8 * (c.wbits / 8) + k) % 8 = k by omega]

/-- The field's bits are the number's, the lowest first. -/
theorem Packing.Appends.writerBit_new (h : c.packing.Appends x w v) (hacc : c.acc.toNat < 2 ^ (c.wbits % 8)) {i : Nat}
    (hi : i < w) : (m.writeCells c.buf x.cells).writerBit (c.packed x) (c.wbits + i) = v / 2 ^ i % 2 := by
  rw [show c.wbits + i = 8 * (c.wbits / 8) + (c.wbits % 8 + i) by omega, h.writerBit_from_partial (by omega),
    bit_add_high hacc]

/-! ### The partial byte -/

theorem BwCore.partialCell_of_partial (h : c.wbits % 8 ≠ 0) : c.partialCell = cellsFrom (c.wbits / 8) [c.acc] := if_neg h

theorem BwCore.mem_partialCell {cell : Host.Cell} (h : cell ∈ c.partialCell) :
    c.wbits % 8 ≠ 0 ∧ cell.1 = c.wbits / 8 := by
  unfold BwCore.partialCell at h
  split at h
  · cases h
  · rw [List.mem_singleton.1 h]
    exact ⟨‹_›, rfl⟩

theorem State.readByte_partialCell (m : State) (h : c.wbits % 8 ≠ 0) :
    (m.writeCells c.buf c.partialCell).readByte c.buf (c.wbits / 8) = c.acc := by
  rw [BwCore.partialCell_of_partial h]
  exact m.readByte_writeCells_cellsFrom c.buf (k := 0) (by simp)

/-- Once the partial byte is committed too, the buffer shows the whole stream (R71). -/
theorem State.inBit_partialCell (m : State) {j : Nat} (hj : j < c.wbits) :
    inBit ((m.writeCells c.buf c.partialCell).readByte c.buf) j = m.writerBit c j := by
  unfold State.writerBit
  split
  · rename_i hwhole
    refine inBit_congr _ _ (m.readByte_writeCells_other fun _ cell hcell => ?_)
    rw [(BwCore.mem_partialCell hcell).2]
    exact hwhole.ne'
  · have hpartial : c.wbits % 8 ≠ 0 := by omega
    rw [inBit, show j / 8 = c.wbits / 8 by omega, m.readByte_partialCell hpartial]

end

end Sys2Proof.Machine
end

section
/-! ## The bit writer's commands (40_bit_packer_unpacker.md R69 to R74, R82 to R84; 41_uleb128.md R87) -/

namespace Sys2Proof.Machine

section
variable {s m t : State} {c c' : BwCore}

/-! ### What a command leaves, by how it ends -/

/-- The writer goes on as `c'`, cells of its buffer are written, and OK is answered. -/
def State.bwWrote (s : State) (c' : BwCore) (r : Option Word64) (cells : List Host.Cell) : State :=
  ((s.putBw c').respond .ok r).writeCells c'.buf cells

/-- The writer is given the state `c'` over a buffer that it has just taken, and OK is answered. -/
def State.bwTook (s : State) (c' : BwCore) : State := ((s.take c'.buf).putBw c').respond .ok

theorem State.bytesKeptBut_of_mem {b : Nat} {written : Nat → Prop} (hm : m.mem = s.mem)
    (h : m.bytesKeptBut t b written) : s.bytesKeptBut t b written := by
  simpa only [State.bytesKeptBut, State.bufferKept, State.holdKept, State.inputKept, State.buf_congr hm,
    State.readByte_congr hm] using h

section
variable {r : Option Word64} {cells : List Host.Cell}

theorem State.bwWrote_othersKept (hk : s.port.target.kind = .bw) : s.othersKept (s.bwWrote c' r cells) :=
  State.othersKept_trans (State.othersKept_putBw hk c' _ _ _) (State.othersKept_writeCells _ _)

theorem State.bwWrote_bwIs : (s.bwWrote c' r cells).bwIs c' := s.putBw_bwIs c'

theorem State.bwWrote_bytesKeptBut {written : Nat → Prop} (h : ∀ cell ∈ cells, written cell.1) :
    s.bytesKeptBut (s.bwWrote c' r cells) c'.buf written :=
  State.bytesKeptBut_of_mem (m := (s.putBw c').respond .ok r) rfl (State.bytesKeptBut_writeCells _ h)

/-- The writer may go on: it still has its buffer to itself. -/
theorem State.bwWrote_runsBw (h : s.runsBw c) (hbuf : c'.buf = c.buf) : (s.bwWrote c' r cells).runsBw c' := by
  obtain ⟨hk, -, hholds⟩ := h
  refine ⟨hk, Slot.ready_eq_some.2 State.bwWrote_bwIs, ?_⟩
  rw [State.bwWrote, State.holds_writeCells, hbuf]
  exact hholds

end

theorem State.bwTook_othersKept (hk : s.port.target.kind = .bw) : s.othersKept (s.bwTook c') :=
  State.othersKept_trans (State.othersKept_take c'.buf) (State.othersKept_putBw (s := s.take c'.buf) hk c' _ _ _)

theorem State.bwTook_bwIs : (s.bwTook c').bwIs c' := (s.take c'.buf).putBw_bwIs c'

theorem State.bwTook_bytesGivenUp : s.bytesGivenUp (s.bwTook c') c'.buf := s.bytesGivenUp_take c'.buf

variable {i : Instr}

/-- A command of a running writer that does no more than answer. -/
theorem State.runsBw.answersOnly (h : s.runsBw c) {st : Status} {r : Option Word64} {vs : List Word64}
    (he : exec i s = .next (s.respond st r vs)) :
    ∃ t, exec i s = .next t ∧ t.answers st r vs ∧ s.othersKept t ∧ s.bytesKept t ∧ t.bwIs c :=
  ⟨_, he, rfl, State.othersKept_respond _ _ _, State.bytesKept_of_mem rfl, State.bwIs_of_runs h⟩

/-- A command that constructs or clears the writer. -/
theorem State.takes_of_exec (hk : s.port.target.kind = .bw) (he : exec i s = .next (s.bwTook c')) :
    ∃ t, exec i s = .next t ∧ t.answers .ok none [] ∧ s.othersKept t ∧ s.bytesGivenUp t c'.buf ∧ t.bwIs c' :=
  ⟨_, he, rfl, State.bwTook_othersKept hk, State.bwTook_bytesGivenUp, State.bwTook_bwIs⟩

/-! ### The commands, by what they find -/

/-- The capacity a writer needs is there for the partial byte it has, and its accumulator holds no bit above it. -/
theorem BwCore.bounds_of_ok {p : Params} (h : c.ok p = true) :
    ceil8 c.wbits ≤ c.lOut ∧ c.acc.toNat < 2 ^ (c.wbits % 8) := (BwCore.ok_iff.1 h).2

theorem commit_bwWrote {r : Option Word64} {cells : List Host.Cell} (hin : ∀ cell ∈ cells, cell.1 < c'.lOut) :
    ((s.putBw c').respond .ok r).commit c'.buf c'.lOut cells = .next (s.bwWrote c' r cells) :=
  State.commit_of_inside _ hin

variable {value : Word64} {w : Word7} {x : Word32}

theorem exec_bwPutValue_refused (h : s.runsBw c) (hbad : 64 < w.toNat ∨ c.flushed = true) :
    exec (.bwPutValue value w) s = .next s.refuse := by
  refine (State.onBw_of_runs h _).trans (if_pos ?_)
  simpa [widthLegal] using hbad

section
variable (h : s.runsBw c) (hf : c.flushed = false)
include h hf

theorem exec_bwPutValue_full (hw : w.toNat ≤ 64) (hfull : c.lOut < ceil8 (c.wbits + w.toNat)) :
    exec (.bwPutValue value w) s = .next (s.respond .full) :=
  (State.onBw_of_runs h _).trans ((if_neg (by simp [widthLegal, hw, hf])).trans (if_pos hfull))

/-- Where the field fits, the loop's cells are written. -/
theorem exec_bwPutValue_ok (hok : c.ok s.params = true) (hw : w.toNat ≤ 64)
    (hroom : ceil8 (c.wbits + w.toNat) ≤ c.lOut) :
    ∃ x, c.packing.Appends x w.toNat (value.toNat % 2 ^ w.toNat)
      ∧ exec (.bwPutValue value w) s = .next (s.bwWrote (c.packed x) none x.cells) := by
  have happ := Packing.pushBits_appends w.toNat value.toNat (x := c.packing) (BwCore.bounds_of_ok hok).2
  refine ⟨_, happ, ?_⟩
  refine (State.onBw_of_runs h _).trans ((if_neg (by simp [widthLegal, hw, hf])).trans ?_)
  refine (if_neg (Nat.not_lt.2 hroom)).trans (commit_bwWrote (c' := c.packed _) fun cell hcell => ?_)
  have := (happ.cells_inside hcell rfl).2
  unfold ceil8 at hroom
  simp only [BwCore.packing, BwCore.packed] at this ⊢
  omega

theorem exec_bwPutUleb128_full (hfull : c.lOut < ceil8 c.wbits + (ulebEncode x.toNat).length) :
    exec (.bwPutUleb128 x) s = .next (s.respond .full) :=
  (State.onBw_of_runs h _).trans ((if_neg (by simp [hf])).trans (if_pos hfull))

theorem exec_bwPutUleb128_ok (hok : c.ok s.params = true)
    (hroom : ceil8 c.wbits + (ulebEncode x.toNat).length ≤ c.lOut) :
    exec (.bwPutUleb128 x) s = .next (s.bwWrote
      { c with wbits := 8 * (ceil8 c.wbits + (ulebEncode x.toNat).length), acc := 0 } none
      (c.partialCell ++ cellsFrom (ceil8 c.wbits) (ulebEncode x.toNat))) := by
  refine (State.onBw_of_runs h _).trans ((if_neg (by simp [hf])).trans ((if_neg (Nat.not_lt.2 hroom)).trans ?_))
  refine commit_bwWrote (c' := { c with wbits := _, acc := 0 }) fun cell hcell => ?_
  rcases List.mem_append.1 hcell with hcell | hcell
  · exact BwCore.partialCell_inside (BwCore.bounds_of_ok hok).1 cell hcell
  · exact (mem_cellsFrom hcell).2.trans_le hroom

end

theorem exec_bwPutUleb128_refused (h : s.runsBw c) (hf : c.flushed = true) :
    exec (.bwPutUleb128 x) s = .next s.refuse :=
  (State.onBw_of_runs h _).trans (if_pos hf)

theorem exec_bwFlush (h : s.runsBw c) (hok : c.ok s.params = true) :
    exec .bwFlush s = .next (s.bwWrote { c with flushed := true } (resultOf (ceil8 c.wbits)) c.partialCell) :=
  (State.onBw_of_runs h _).trans
    (commit_bwWrote (c' := { c with flushed := true }) (BwCore.partialCell_inside (BwCore.bounds_of_ok hok).1))

theorem exec_bwBytesWritten (h : s.runsBw c) :
    exec .bwBytesWritten s = .next (s.respond .ok (resultOf (ceil8 c.wbits))) := State.onBw_of_runs h _

theorem exec_bwClear (h : s.runsBw c) : exec .bwClear s = .next (s.bwTook (BwCore.fresh c.buf c.lOut)) :=
  State.onBw_of_runs h _

theorem exec_bwInit {lOut : Word32} (hk : s.port.target.kind = .bw) (hl : lOut.toNat ≤ s.params.maxBufferLen) :
    exec (.bwInit lOut) s = .next (s.bwTook (BwCore.fresh s.port.buffer lOut.toNat)) :=
  (if_pos hk).trans (if_pos (decide_eq_true hl))

theorem exec_encPut_idle {e : EncCore} (h : s.runsEnc e) (hi : e.idle = true) (v : Word64) :
    exec (.encPut v) s = .next s.refuse :=
  (State.onEnc_of_runs h _).trans (if_pos (by simp [hi]))

/-- The number of bytes of a legal output fits the result `R`. -/
theorem BwCore.toNat_result {p : Params} (hp : p.legal = true) (hok : c.ok p = true) :
    (BitVec.ofNat 64 (ceil8 c.wbits)).toNat = ceil8 c.wbits := by
  obtain ⟨-, -, -, hmax⟩ := Params.legal_iff.1 hp
  obtain ⟨hl, hroom, -⟩ := BwCore.ok_iff.1 hok
  rw [BitVec.toNat_ofNat]
  omega

/-- A write that answers FULL under a condition, and then does no more, and else OK. -/
theorem State.runsBw.full_iff (h : s.runsBw c) {needs : Prop} (hfull : needs → exec i s = .next (s.respond .full))
    (hok : ¬needs → ∃ c' cells, exec i s = .next (s.bwWrote c' none cells)) :
    ∃ t, exec i s = .next t ∧ (t.status = some .full ↔ needs) ∧ (t.status = some .full ∨ t.status = some .ok)
      ∧ (t.status = some .full → t.bwIs c ∧ s.othersKept t ∧ s.bytesKept t) := by
  by_cases hn : needs
  · obtain ⟨t, he, hans, hothers, hbytes, hbw⟩ := h.answersOnly (hfull hn)
    have hst : t.status = some .full := by rw [State.status, hans]; rfl
    exact ⟨t, he, iff_of_true hst hn, .inl hst, fun _ => ⟨hbw, hothers, hbytes⟩⟩
  · obtain ⟨c', cells, he⟩ := hok hn
    have hst : (s.bwWrote c' none cells).status = some .ok := rfl
    have hne : (s.bwWrote c' none cells).status ≠ some .full := by rw [hst]; decide
    exact ⟨_, he, iff_of_false hne hn, .inr hst, fun hfull => absurd hfull hne⟩

end

/-! ### The statements -/

/-- Settles O14: the loop's bytes and accumulator are the old stream with the field above it
(`Packing.Appends.writerBit_old`, `Packing.Appends.writerBit_new`). -/
theorem putValueAppendsTheLowBits : Obligations.PutValueAppendsTheLowBits := by
  intro s c value w h hok
  refine ⟨exec_bwPutValue_refused h, fun hw hf hfull => h.answersOnly (exec_bwPutValue_full h hf hw hfull),
    fun hw hf hroom => ?_⟩
  obtain ⟨x, happ, he⟩ := exec_bwPutValue_ok (value := value) h hf hok hw hroom
  refine ⟨_, x.acc, he, rfl, State.bwWrote_othersKept h.1, ?_, happ.acc_lt, ?_, ?_, ?_⟩
  · rw [← happ.packed_eq]
    exact State.bwWrote_bwIs
  · rw [← happ.packed_eq]
    exact fun j hj => happ.writerBit_old hj
  · rw [← happ.packed_eq]
    exact fun i hi => (happ.writerBit_new (BwCore.bounds_of_ok hok).2 hi).trans (bit_mod_two_pow _ hi)
  · exact State.bwWrote_bytesKeptBut (c' := c.packed x) fun cell hcell => happ.cells_inside hcell rfl

/-- Settles O15: each of the two writing commands asks for its room first. -/
theorem writerIsFullExactlyAtItsCapacity : Obligations.WriterIsFullExactlyAtItsCapacity := by
  intro s c h hok hf
  refine ⟨fun value w hw => h.full_iff (exec_bwPutValue_full h hf hw) fun hroom => ?_, fun x => ?_⟩
  · obtain ⟨x, -, he⟩ := exec_bwPutValue_ok (value := value) h hf hok hw (Nat.not_lt.1 hroom)
    exact ⟨_, _, he⟩
  · rw [← ulebEncode_length x.isLt]
    exact h.full_iff (exec_bwPutUleb128_full h hf)
      fun hroom => ⟨_, _, exec_bwPutUleb128_ok h hf hok (Nat.not_lt.1 hroom)⟩

/-- Settles O17: the accumulator is zero above its bits, so that it is the padded byte. -/
theorem flushCommitsThePartialByte : Obligations.FlushCommitsThePartialByte := by
  intro s c h hp hok
  refine ⟨⟨_, _, exec_bwFlush h hok, rfl, BwCore.toNat_result hp hok, State.bwWrote_othersKept h.1,
    State.bwWrote_bwIs, fun hpartial => State.readByte_partialCell _ hpartial, ?_⟩, ?_⟩
  · exact State.bwWrote_bytesKeptBut (c' := { c with flushed := true }) fun cell => BwCore.mem_partialCell
  · obtain ⟨u, he, hans, hkept⟩ := h.answersOnly (exec_bwBytesWritten h)
    exact ⟨u, _, he, hans, BwCore.toNat_result hp hok, hkept⟩

/-- Settles O11. -/
theorem writesAfterFlushAreRefused : Obligations.WritesAfterFlushAreRefused := by
  refine ⟨fun s c h hf => ⟨fun value w => exec_bwPutValue_refused h (.inr hf),
    fun x => exec_bwPutUleb128_refused h hf, fun hok => ?_⟩, fun s e h hi => exec_encPut_idle h hi⟩
  have hsame : ({ c with flushed := true } : BwCore) = c := by rw [← hf]
  have hflush := exec_bwFlush h hok
  rw [hsame] at hflush
  exact ⟨_, _, hflush, exec_bwBytesWritten h, rfl, rfl, State.bwWrote_bwIs, State.bwIs_of_runs h⟩

/-- Settles O13: BW.INIT takes the buffer. -/
theorem writerIsConstructed : Obligations.WriterIsConstructed := fun _ _ hk hl =>
  State.takes_of_exec hk (exec_bwInit hk hl)

/-- Settles O18: BW.CLEAR takes the buffer again. -/
theorem writerIsCleared : Obligations.WriterIsCleared := fun _ _ h => State.takes_of_exec h.1 (exec_bwClear h)

end Sys2Proof.Machine
end

section
/-! ## The bit reader's commands (40_bit_packer_unpacker.md R76 to R79, R82, R83) -/

namespace Sys2Proof.Machine

section
variable {s : State} {c c' : BrCore} {i : Instr}

/-! ### What a command leaves, by how it ends -/

/-- The reader goes on as `c'`, and OK is answered. -/
def State.brMoved (s : State) (c' : BrCore) (r : Option Word64) : State := (s.putBr c').respond .ok r

/-- A command of a running reader that does no more than answer. -/
theorem State.runsBr.answersOnly (h : s.runsBr c) {st : Status} {r : Option Word64} {vs : List Word64}
    (he : exec i s = .next (s.respond st r vs)) :
    ∃ t, exec i s = .next t ∧ t.answers st r vs ∧ s.othersKept t ∧ s.bytesKept t ∧ t.brIs c :=
  ⟨_, he, rfl, State.othersKept_respond _ _ _, State.bytesKept_of_mem rfl, State.brIs_of_runs h⟩

/-- Constructing or moving the reader changes the reader alone. -/
theorem State.brMoved_frame (hk : s.port.target.kind = .br) (r : Option Word64) :
    s.othersKept (s.brMoved c' r) ∧ s.bytesKept (s.brMoved c' r) ∧ (s.brMoved c' r).brIs c' :=
  ⟨State.othersKept_putBr hk c' _ _ _, State.bytesKept_of_mem rfl, s.putBr_brIs c'⟩

/-- The reader may go on, where its input has not changed. -/
theorem State.brMoved_runsBr {r : Option Word64} (hk : s.port.target.kind = .br)
    (hkept : (s.buf c'.buf).changedSince c'.version c'.lIn = false) : (s.brMoved c' r).runsBr c' :=
  ⟨hk, Slot.ready_eq_some.2 (s.putBr_brIs c'), hkept⟩

/-! ### Buffers in use (70_reset_and_hazards.md R200) -/

section
variable {b id : Nat}

theorem State.inUse_of_bw (hh : (s.buf b).holder = some { kind := .bw, id := id }) :
    s.inUse b = true ↔ ∃ c, (s.bw id).core = some c ∧ c.buf = b ∧ c.flushed = false := by
  simp only [State.inUse, State.outputOf, hh]
  cases (s.bw id).core with
  | none => simp
  | some c => by_cases hb : c.buf = b <;> simp [hb]

theorem State.inUse_of_enc (hh : (s.buf b).holder = some { kind := .enc, id := id }) :
    s.inUse b = true ↔ ∃ e, (s.enc id).core = some e ∧ e.buf = b ∧ e.idle = false := by
  simp only [State.inUse, State.outputOf, hh]
  cases (s.enc id).core with
  | none => simp
  | some e => by_cases hb : e.buf = b <;> simp [hb]

/-- A buffer is in use by a bit writer or by an encoder. -/
theorem State.holder_of_inUse (h : s.inUse b = true) :
    ∃ id, (s.buf b).holder = some { kind := .bw, id := id } ∨ (s.buf b).holder = some { kind := .enc, id := id } := by
  cases hh : (s.buf b).holder with
  | none => simp [State.inUse, State.outputOf, hh] at h
  | some u =>
    obtain ⟨kind, id⟩ := u
    cases kind with
    | bw => exact ⟨id, .inl rfl⟩
    | enc => exact ⟨id, .inr rfl⟩
    | br | dec => simp [State.inUse, State.outputOf, hh] at h

end

/-! ### The commands, by what they find -/

theorem exec_brInit_refused {lIn : Word32} (hk : s.port.target.kind = .br)
    (hbad : s.params.maxBufferLen < lIn.toNat ∨ s.inUse s.port.buffer = true) :
    exec (.brInit lIn) s = .next s.refuse := by
  refine (if_pos hk).trans (if_neg ?_)
  rcases hbad with hl | hu
  · simp [lengthLegal, hl]
  · simp [hu]

theorem exec_brInit_ok {lIn : Word32} (hk : s.port.target.kind = .br) (hl : lIn.toNat ≤ s.params.maxBufferLen)
    (hu : s.inUse s.port.buffer = false) :
    exec (.brInit lIn) s = .next (s.brMoved
      { buf := s.port.buffer, version := (s.buf s.port.buffer).version, lIn := lIn.toNat, rbits := 0 } none) :=
  (if_pos hk).trans (if_pos (by simp [lengthLegal, hl, hu]))

/-- The reader constructed may go on, and it reads the buffer as it stood. -/
theorem exec_brInit_runs {lIn : Word32} (hk : s.port.target.kind = .br) (hl : lIn.toNat ≤ s.params.maxBufferLen)
    (hu : s.inUse s.port.buffer = false) :
    ∃ v, exec (.brInit lIn) s = .next v ∧ v.readByte = s.readByte
      ∧ v.runsBr { buf := s.port.buffer, version := (s.buf s.port.buffer).version, lIn := lIn.toNat, rbits := 0 } :=
  ⟨_, exec_brInit_ok hk hl hu, rfl, State.brMoved_runsBr hk (Buffer.changedSince_version _ _)⟩

section
variable (h : s.runsBr c)
include h

theorem exec_brGetValue_refused {w : Word7} (hw : 64 < w.toNat) : exec (.brGetValue w) s = .next s.refuse :=
  (State.onBr_of_runs h _).trans (if_pos (by simp [widthLegal, hw]))

theorem exec_brGetValue_end {w : Word7} (hw : w.toNat ≤ 64) (hend : 8 * c.lIn < c.rbits + w.toNat) :
    exec (.brGetValue w) s = .next (s.respond .endOfInput) :=
  (State.onBr_of_runs h _).trans ((if_neg (by simp [widthLegal, hw])).trans (if_pos hend))

theorem exec_brGetValue_ok {w : Word7} (hw : w.toNat ≤ 64) (hin : c.rbits + w.toNat ≤ 8 * c.lIn) :
    exec (.brGetValue w) s = .next (s.brMoved { c with rbits := c.rbits + w.toNat }
      (resultOf (inField (s.readByte c.buf) c.rbits w.toNat))) :=
  (State.onBr_of_runs h _).trans ((if_neg (by simp [widthLegal, hw])).trans (if_neg (Nat.not_lt.2 hin)))

theorem exec_brSkipBits_end {k : Word64} (hend : 8 * c.lIn < c.rbits + k.toNat) :
    exec (.brSkipBits k) s = .next (s.respond .endOfInput) :=
  (State.onBr_of_runs h _).trans (if_pos hend)

theorem exec_brSkipBits_ok {k : Word64} (hin : c.rbits + k.toNat ≤ 8 * c.lIn) :
    exec (.brSkipBits k) s = .next (s.brMoved { c with rbits := c.rbits + k.toNat } none) :=
  (State.onBr_of_runs h _).trans (if_neg (Nat.not_lt.2 hin))

theorem exec_brAlignToByte :
    exec .brAlignToByte s = .next (s.brMoved { c with rbits := 8 * ceil8 c.rbits } none) :=
  State.onBr_of_runs h _

end

/-- A field of at most 64 bits fits the result `R`. -/
theorem toNat_inField {w : Nat} (hw : w ≤ 64) (rd : Nat → Byte) (p : Nat) :
    (BitVec.ofNat 64 (inField rd p w)).toNat = inField rd p w := by
  rw [BitVec.toNat_ofNat]
  exact Nat.mod_eq_of_lt ((inField_lt rd p w).trans_le (Nat.pow_le_pow_right (by omega) hw))

end

/-! ### The statements -/

/-- Settles O20: a construction is refused for the length, and for a buffer in use by the writer that holds it. -/
theorem readerIsConstructed : Obligations.ReaderIsConstructed := by
  intro s lIn hk
  refine ⟨fun hl => exec_brInit_refused hk (.inl hl), fun id c hh hc hb hf => ?_, fun id e hh he hb hi => ?_,
    fun hl hbw henc => ?_⟩
  · exact exec_brInit_refused hk (.inr ((State.inUse_of_bw hh).2 ⟨c, hc, hb, hf⟩))
  · exact exec_brInit_refused hk (.inr ((State.inUse_of_enc hh).2 ⟨e, he, hb, hi⟩))
  · have hu : s.inUse s.port.buffer ≠ true := fun hu => by
      obtain ⟨id, hh | hh⟩ := State.holder_of_inUse hu
      · obtain ⟨c, hc, hb, hf⟩ := (State.inUse_of_bw hh).1 hu
        simp [hbw id c hh hc hb] at hf
      · obtain ⟨e, he, hb, hi⟩ := (State.inUse_of_enc hh).1 hu
        simp [henc id e hh he hb] at hi
    exact ⟨_, exec_brInit_ok hk hl (Bool.eq_false_of_not_eq_true hu), rfl, State.brMoved_frame hk _⟩

/-- Settles O21: the field's bits are the input's (`inField_bit`). -/
theorem getValueReadsTheField : Obligations.GetValueReadsTheField := by
  intro s c w h
  refine ⟨exec_brGetValue_refused h, fun hw hend => h.answersOnly (exec_brGetValue_end h hw hend),
    fun hw hin => ?_⟩
  obtain ⟨hothers, hbytes, hbr⟩ := State.brMoved_frame (c' := { c with rbits := c.rbits + w.toNat }) h.1
    (resultOf (inField (s.readByte c.buf) c.rbits w.toNat))
  refine ⟨_, _, exec_brGetValue_ok h hw hin, rfl, hothers, hbytes, hbr, ?_⟩
  rw [toNat_inField hw]
  exact ⟨inField_lt _ _ _, fun i hi => inField_bit _ _ _ _ hi⟩

/-- Settles O22: the input ends at a byte boundary, so that the next one is inside it. -/
theorem skipAndAlignMoveThePosition : Obligations.SkipAndAlignMoveThePosition := by
  intro s c h hok
  refine ⟨fun k hend => h.answersOnly (exec_brSkipBits_end h hend),
    fun k hin => ⟨_, exec_brSkipBits_ok h hin, rfl, State.brMoved_frame h.1 none⟩, ?_⟩
  obtain ⟨hothers, hbytes, hbr⟩ := State.brMoved_frame (c' := { c with rbits := 8 * ceil8 c.rbits }) h.1 none
  have hinside := (BrCore.ok_iff.1 (BrCore.aligned_ok hok)).2
  refine ⟨_, 8 * ceil8 c.rbits, exec_brAlignToByte h, rfl, hothers, hbytes, hbr, by omega, ?_, ?_, hinside⟩ <;>
    unfold ceil8 <;> omega

end Sys2Proof.Machine
end

section
/-! ## A field through a writer and a reader (20_memory.md R40, R41; 40_bit_packer_unpacker.md R70, R71, R77) -/

namespace Sys2Proof.Machine

/-- A flushed writer's buffer may be read. -/
theorem State.inUse_of_flushed {s : State} {c : BwCore} (h : s.runsBw c) (hf : c.flushed = true) :
    s.inUse c.buf = false := by
  obtain ⟨hk, hready, hholds⟩ := h
  have hcore : (s.bw s.port.target.id).core = some c := by rw [Slot.ready_eq_some.1 hready]; rfl
  have hholder : (s.buf c.buf).holder = some s.port.target := by
    simp only [State.holds, Bool.and_eq_true, decide_eq_true_eq] at hholds
    exact hholds.1
  have hholder' : (s.buf c.buf).holder = some { kind := .bw, id := s.port.target.id } := by rw [hholder, ← hk]
  rw [State.inUse_of_outputOf (State.outputOf_bw hcore hholder'), hf]
  rfl

/-- A field put by a writer and flushed stands in the writer's buffer, which may then be read. -/
theorem put_flush {s : State} {c : BwCore} (h : s.runsBw c) (hok : c.ok s.params = true) (hf : c.flushed = false)
    {w : Word7} (hw : w.toNat ≤ 64) (hroom : ceil8 (c.wbits + w.toNat) ≤ c.lOut) (value : Word64) :
    ∃ t u, exec (.bwPutValue value w) s = .next t ∧ exec .bwFlush t = .next u ∧ u.params = s.params
      ∧ u.inUse c.buf = false
      ∧ inField (u.readByte c.buf) c.wbits w.toNat = value.toNat % 2 ^ w.toNat := by
  obtain ⟨x, happ, hput⟩ := exec_bwPutValue_ok (value := value) h hf hok hw hroom
  have hruns : (s.bwWrote (c.packed x) none x.cells).runsBw (c.packed x) := State.bwWrote_runsBw h rfl
  have hpacked : (c.packed x).ok s.params = true := by
    rw [happ.packed_eq]
    exact BwCore.ok_iff.2 ⟨(BwCore.ok_iff.1 hok).1, hroom, happ.acc_lt⟩
  refine ⟨_, _, hput, exec_bwFlush hruns hpacked, rfl,
    State.inUse_of_flushed (c := { c.packed x with flushed := true }) (State.bwWrote_runsBw hruns rfl) rfl, ?_⟩
  refine eq_of_bits (inField_lt _ _ _) (Nat.mod_lt _ (Nat.two_pow_pos _)) fun i hi => ?_
  have hi' : c.wbits + i < (c.packed x).wbits := by rw [happ.packed_eq]; exact Nat.add_lt_add_left hi _
  rw [inField_bit _ _ _ _ hi]
  calc _ = (s.bwWrote (c.packed x) none x.cells).writerBit (c.packed x) (c.wbits + i) :=
        State.inBit_partialCell (c := c.packed x) _ hi'
    _ = _ := happ.writerBit_new (BwCore.bounds_of_ok hok).2 hi

/-- A reader that is moved on and asked for a field finds the field there. -/
theorem State.runsBr.skip_get {s : State} {c : BrCore} (h : s.runsBr c) {k : Word64} {w : Word7} (hw : w.toNat ≤ 64)
    (hin : c.rbits + k.toNat + w.toNat ≤ 8 * c.lIn) :
    ∃ x y r, exec (.brSkipBits k) s = .next x ∧ exec (.brGetValue w) x = .next y ∧ y.answers .ok (some r) []
      ∧ r.toNat = inField (s.readByte c.buf) (c.rbits + k.toNat) w.toNat := by
  have hmoved : (s.brMoved { c with rbits := c.rbits + k.toNat } none).runsBr { c with rbits := c.rbits + k.toNat } :=
    State.brMoved_runsBr h.1 h.2.2
  exact ⟨_, _, _, exec_brSkipBits_ok h (by omega), exec_brGetValue_ok hmoved hw hin, rfl, toNat_inField hw _ _⟩

/-- Settles O19: the field stands in the buffer (`put_flush`), and a reader moved to it finds it there
(`State.runsBr.skip_get`). -/
theorem putThenGetReturnsTheField : Obligations.PutThenGetReturnsTheField := by
  intro s c value w reader lIn h hok hp hf hw hroom hin hlen
  obtain ⟨t, u, hput, hflush, hparams, hunused, hfield⟩ := put_flush h hok hf hw hroom value
  have hpos : (BitVec.ofNat 64 c.wbits).toNat = c.wbits := by
    obtain ⟨-, -, -, hmax⟩ := Params.legal_iff.1 hp
    rw [BitVec.toNat_ofNat]
    omega
  obtain ⟨v, hinit, hread, hreader⟩ := exec_brInit_runs
    (s := { u with port := { target := { kind := .br, id := reader }, buffer := c.buf } }) rfl (hparams ▸ hlen) hunused
  obtain ⟨x, y, r, hskip, hget, hans, hr⟩ := hreader.skip_get (k := BitVec.ofNat 64 c.wbits) hw (by dsimp only; omega)
  refine ⟨t, u, v, x, y, r, hput, hflush, hinit, hskip, hget, hans, hr.trans ?_⟩
  rw [hpos, Nat.zero_add, hread]
  exact hfield

end Sys2Proof.Machine
end

section
/-! ## Varints (41_uleb128.md R86 to R95) -/

namespace Sys2Proof.Machine

/-! ### A value's own encoding (R86, R88, R95) -/

/-- The minimal encoding is the varint of its own length. -/
theorem ulebEncodeWithin_eq_ulebBytes {k x : Nat} (h : x < 128 ^ k) :
    ulebEncodeWithin k x = ulebBytes (ulebEncodeWithin k x).length x := by
  induction k generalizing x with
  | zero => rfl
  | succ k ih =>
    have hrest : x / 128 < 128 ^ k := by rw [Nat.pow_succ] at h; omega
    rw [ulebEncodeWithin]
    split
    · rfl
    · have hpos : 0 < (ulebEncodeWithin k (x / 128)).length := by
        refine ulebEncodeWithin_length_of_le (Nat.pos_of_ne_zero ?_) (by rw [Nat.pow_zero]; omega)
        rintro rfl
        omega
      obtain ⟨n, hn⟩ := Nat.exists_eq_add_one.2 hpos
      rw [List.length_cons, hn, ulebBytes, ← hn, ← ih hrest]

theorem ulebEncode_eq_ulebBytes {x : Nat} (h : x < 2 ^ 32) : ulebEncode x = ulebBytes (ulebLen x) x := by
  rw [← ulebEncode_length h]
  exact ulebEncodeWithin_eq_ulebBytes (h.trans (by decide))

/-- `uleb_len(x)` groups of 7 bits hold `x` (R88). -/
theorem varintFits_ulebLen {x : Nat} (h : x < 2 ^ 32) : varintFits (ulebLen x) x = true := by
  simp only [varintFits, Bool.and_eq_true, decide_eq_true_eq, Config.maxUlebBytes]
  unfold ulebLen
  split_ifs <;> norm_num <;> omega

theorem ulebLen_eq_one_iff {x : Nat} : ulebLen x = 1 ↔ x < 128 := by
  unfold ulebLen
  split_ifs <;> omega

/-- Settles O24: the encoding is one of the varints that read back (`ulebDecode_ulebBytes`), and what follows a varint
is not looked at (`ulebLoop_append`). -/
theorem varintsRoundTrip : Obligations.VarintsRoundTrip := by
  refine ⟨fun x rest hx => ⟨ulebLoop_append ?_ rest, ulebEncode_length hx⟩, fun c v hv => ?_⟩
  · rw [ulebEncode_eq_ulebBytes hx]
    exact ulebDecode_ulebBytes (varintFits_ulebLen hx) hx
  · rw [ulebLen_eq_one_iff]
    omega

/-! ### A varint written (R87) -/

/-- Bytes written one after another are read back, whatever is written before them. -/
theorem State.readByte_writeCells_append_cellsFrom (s : State) (b : Nat) (cells : List Host.Cell) {bs : List Byte}
    {i k : Nat} (h : k < bs.length) : (s.writeCells b (cells ++ cellsFrom i bs)).readByte b (i + k) = bs[k] := by
  rw [State.readByte_writeCells, if_pos rfl, putCells_append, lookup_putCells_cellsFrom _ h]

section
variable {c : BwCore}

/-- Bytes at the next byte boundary follow the partial byte. -/
theorem BwCore.partialCell_append_cellsFrom (h : c.wbits % 8 ≠ 0) (bs : List Byte) :
    c.partialCell ++ cellsFrom (ceil8 c.wbits) bs = cellsFrom (c.wbits / 8) (c.acc :: bs) := by
  have hnext : ceil8 c.wbits = c.wbits / 8 + 1 := by unfold ceil8; omega
  rw [BwCore.partialCell_of_partial h, hnext]
  rfl

/-- The partial byte and the bytes at the next byte boundary lie from the writer's position on. -/
theorem BwCore.mem_partialCell_append {bs : List Byte} {cell : Host.Cell}
    (h : cell ∈ c.partialCell ++ cellsFrom (ceil8 c.wbits) bs) (hbs : 0 < bs.length) :
    c.wbits / 8 ≤ cell.1 ∧ cell.1 < ceil8 c.wbits + bs.length := by
  unfold ceil8 at *
  rcases List.mem_append.1 h with h | h
  · obtain ⟨hpartial, hidx⟩ := BwCore.mem_partialCell h
    omega
  · have := mem_cellsFrom h
    omega

end

/-- Settles O16: the accumulator is zero above its bits, so that it is the padded byte. -/
theorem putUlebAppendsTheVarint : Obligations.PutUlebAppendsTheVarint := by
  rintro s c x _ h hok rfl
  refine ⟨exec_bwPutUleb128_refused h, fun hf hfull => h.answersOnly (exec_bwPutUleb128_full h hf hfull),
    fun hf hroom => ⟨_, exec_bwPutUleb128_ok h hf hok hroom, rfl, State.bwWrote_othersKept h.1, State.bwWrote_bwIs,
      fun hpartial => ?_, fun k hk => ?_, ?_⟩⟩
  · rw [BwCore.partialCell_append_cellsFrom hpartial]
    have hpadded : (c.wbits + 7) / 8 - 1 = c.wbits / 8 := by omega
    rw [hpadded]
    exact State.readByte_writeCells_cellsFrom _ c.buf (bs := c.acc :: _) (k := 0) (Nat.succ_pos _)
  · rw [List.getD_eq_getElem _ _ hk]
    exact State.readByte_writeCells_append_cellsFrom _ c.buf _ hk
  · refine State.bwWrote_bytesKeptBut (c' := { c with wbits := _, acc := 0 }) fun cell hcell =>
      BwCore.mem_partialCell_append hcell ?_
    rw [ulebEncode_length x.isLt]
    exact ulebLen_pos _

/-! ### A varint read (R89 to R94) -/

section
variable (rd : Nat → Byte) (p : Nat)

/-- What the 7-bit groups of `n` bytes from index `p` on add up to (R89). -/
def groupSum (n : Nat) : Nat := ((List.range n).map fun i => (rd (p + i)).toNat % 128 * 2 ^ (7 * i)).sum

theorem groupSum_succ (n : Nat) : groupSum rd p (n + 1) = groupSum rd p n + (rd (p + n)).toNat % 128 * 2 ^ (7 * n) := by
  simp [groupSum, List.range_succ]

variable {rd p} {n lIn : Nat}

/-- The loop goes past `n` bytes that each say that another follows. -/
theorem ulebLoop_continues (hcont : ∀ i, i < n → 128 ≤ (rd (p + i)).toNat) (left m : Nat) :
    ulebLoop (left + n) 0 0 (bytesFrom rd p (m + n)) = ulebLoop left n (groupSum rd p n) (bytesFrom rd (p + n) m) := by
  induction n generalizing left m with
  | zero => rfl
  | succ n ih =>
    have hbefore := ih (fun i hi => hcont i (by omega)) (left + 1) (m + 1)
    have hbyte := hcont n (by omega)
    rw [show left + (n + 1) = left + 1 + n by omega, show m + (n + 1) = m + 1 + n by omega, hbefore, bytesFrom,
      ulebLoop, if_neg (by omega), groupSum_succ, Nat.add_assoc p]

/-- A varint of `n + 1` bytes: the value the groups add up to, or ERR where it is 2^32 or more (R92). -/
theorem ulebDecode_varintWindow_of_last (hn : n < 5) (hin : p + n < lIn)
    (hcont : ∀ i, i < n → 128 ≤ (rd (p + i)).toNat) (hlast : (rd (p + n)).toNat < 128) :
    ulebDecode (varintWindow rd lIn p) =
      if groupSum rd p (n + 1) < 2 ^ 32 then .ok (groupSum rd p (n + 1)) (n + 1) else .err := by
  obtain ⟨left, hleft⟩ : ∃ left, 5 = left + 1 + n := ⟨4 - n, by omega⟩
  obtain ⟨m, hm⟩ : ∃ m, min 5 (lIn - p) = m + 1 + n := ⟨min 5 (lIn - p) - n - 1, by omega⟩
  rw [varintWindow, ulebDecode, Config.maxUlebBytes, hm, hleft, ulebLoop_continues hcont, bytesFrom, ulebLoop,
    if_pos hlast, groupSum_succ]

/-- More than 5 bytes (R91). -/
theorem ulebDecode_varintWindow_of_long (hin : p + 5 ≤ lIn) (hcont : ∀ i, i < 5 → 128 ≤ (rd (p + i)).toNat) :
    ulebDecode (varintWindow rd lIn p) = .err := by
  have hm : min Config.maxUlebBytes (lIn - p) = 0 + 5 := by unfold Config.maxUlebBytes; omega
  rw [varintWindow, hm]
  exact ulebLoop_continues hcont 0 0

/-- The input ends before the varint does (R94). -/
theorem ulebDecode_varintWindow_of_cut (hend : lIn < p + 5) (hcont : ∀ i, p + i < lIn → 128 ≤ (rd (p + i)).toNat) :
    ulebDecode (varintWindow rd lIn p) = .endOfInput := by
  obtain ⟨left, hleft⟩ : ∃ left, 5 = left + 1 + (lIn - p) := ⟨4 - (lIn - p), by omega⟩
  have hm : min 5 (lIn - p) = 0 + (lIn - p) := by omega
  rw [varintWindow, ulebDecode, Config.maxUlebBytes, hm, hleft, ulebLoop_continues fun i hi => hcont i (by omega)]
  rfl

end

section
variable {s : State} {c : BrCore} (h : s.runsBr c)
include h

theorem exec_brGetUleb128_end
    (hd : ulebDecode (varintWindow (s.readByte c.buf) c.lIn (ceil8 c.rbits)) = .endOfInput) :
    exec .brGetUleb128 s = .next (s.respond .endOfInput) :=
  (State.onBr_of_runs h _).trans (by simp only [hd])

theorem exec_brGetUleb128_err (hd : ulebDecode (varintWindow (s.readByte c.buf) c.lIn (ceil8 c.rbits)) = .err) :
    exec .brGetUleb128 s = .next (s.respond .err) :=
  (State.onBr_of_runs h _).trans (by simp only [hd])

theorem exec_brGetUleb128_ok {x used : Nat}
    (hd : ulebDecode (varintWindow (s.readByte c.buf) c.lIn (ceil8 c.rbits)) = .ok x used) :
    exec .brGetUleb128 s = .next (s.brMoved { c with rbits := 8 * (ceil8 c.rbits + used) } (resultOf x)) :=
  (State.onBr_of_runs h _).trans (by simp only [hd, State.brMoved])

end

/-- Settles O23: the window is decoded by the byte that ends the varint, where there is one among the 5. -/
theorem getUlebReadsTheVarint : Obligations.GetUlebReadsTheVarint := by
  rintro s c _ h rfl
  refine ⟨fun n hpos hmax hin hcont hlast => ?_,
    fun hin hcont => h.answersOnly (exec_brGetUleb128_err h (ulebDecode_varintWindow_of_long hin hcont)),
    fun hend hcont => h.answersOnly (exec_brGetUleb128_end h (ulebDecode_varintWindow_of_cut hend hcont))⟩
  obtain ⟨n, rfl⟩ : ∃ k, n = k + 1 := ⟨n - 1, by omega⟩
  have hd := ulebDecode_varintWindow_of_last (Nat.lt_of_succ_le hmax) (Nat.lt_of_succ_le hin)
    (fun i hi => hcont i (Nat.succ_lt_succ hi)) hlast
  refine ⟨fun hsmall => ?_, fun hlarge => h.answersOnly (exec_brGetUleb128_err h (hd.trans (if_neg hlarge.not_gt)))⟩
  obtain ⟨hothers, hbytes, hbr⟩ := State.brMoved_frame
    (c' := { c with rbits := 8 * (ceil8 c.rbits + (n + 1)) }) h.1
    (resultOf (groupSum (s.readByte c.buf) (ceil8 c.rbits) (n + 1)))
  refine ⟨_, _, exec_brGetUleb128_ok h (hd.trans (if_pos hsmall)), rfl, hothers, hbytes, hbr, ?_⟩
  rw [BitVec.toNat_ofNat]
  exact Nat.mod_eq_of_lt (hsmall.trans (by decide))

end Sys2Proof.Machine
end

section
/-! ## Bytes under a list of writes (00_scope.md R10, 20_memory.md R42)

What a buffer shows after the cells of a command have been written into it, as a function of what it showed before. -/

namespace Sys2Proof.Machine

/-- The bytes `rd` with cells put over them, one after another. -/
def overwrite (rd : Nat → Byte) (cells : List Host.Cell) : Nat → Byte :=
  cells.foldl (fun rd c => Function.update rd c.1 c.2) rd

/-- From index `p` on stand the bytes `bs`. -/
def Shows (rd : Nat → Byte) (p : Nat) (bs : List Byte) : Prop := ∀ k (hk : k < bs.length), rd (p + k) = bs[k]

section
variable {rd rd' : Nat → Byte} {p : Nat} {bs cs : List Byte} {cells : List Host.Cell}

@[simp] theorem overwrite_nil (rd : Nat → Byte) : overwrite rd [] = rd := rfl

theorem overwrite_cons (rd : Nat → Byte) (c : Host.Cell) (cells : List Host.Cell) :
    overwrite rd (c :: cells) = overwrite (Function.update rd c.1 c.2) cells := rfl

theorem overwrite_append (rd : Nat → Byte) (xs ys : List Host.Cell) :
    overwrite rd (xs ++ ys) = overwrite (overwrite rd xs) ys := List.foldl_append

theorem overwrite_singleton_same (rd : Nat → Byte) (i : Nat) (x : Byte) : overwrite rd [(i, x)] i = x :=
  Function.update_self (β := fun _ => Byte) i x rd

/-- An index no cell names is as before. -/
theorem overwrite_other {i : Nat} (h : ∀ c ∈ cells, c.1 ≠ i) : overwrite rd cells i = rd i := by
  induction cells generalizing rd with
  | nil => rfl
  | cons c cells ih =>
    rw [overwrite_cons, ih fun x hx => h x (List.mem_cons_of_mem _ hx)]
    exact Function.update_of_ne (h c List.mem_cons_self).symm _ _

/-- So with the bytes in a list, where an index not listed has a value of its own. -/
theorem lookup_putCells_getD {bytes : List Host.Cell} {free : Nat → Byte}
    (h : ∀ i, (Sparse.lookup bytes i).getD (free i) = rd i) (cells : List Host.Cell) (i : Nat) :
    (Sparse.lookup (putCells bytes cells) i).getD (free i) = overwrite rd cells i := by
  induction cells generalizing bytes rd with
  | nil => exact h i
  | cons c cells ih =>
    refine ih (rd := Function.update rd c.1 c.2) fun j => ?_
    by_cases hj : j = c.1
    · rw [hj, Sparse.lookup_insert_same, Function.update_self, Option.getD_some]
    · rw [Sparse.lookup_insert_other _ _ hj, Function.update_of_ne hj, h j]

theorem State.readByte_eq_getD (s : State) (b i : Nat) : s.readByte b i
    = (Sparse.lookup (s.buf b).bytes i).getD (Config.freeByte b (s.buf b).epoch i ((s.buf b).spoilt.count i)) := by
  unfold State.readByte Buffer.read?
  cases Sparse.lookup (s.buf b).bytes i <;> rfl

/-- Reading after a command's writes. -/
theorem State.readByte_writeCells_same (s : State) (b : Nat) (cells : List Host.Cell) :
    (s.writeCells b cells).readByte b = overwrite (s.readByte b) cells := by
  funext i
  rw [State.readByte_eq_getD, ← lookup_putCells_getD (fun j => (s.readByte_eq_getD b j).symm) cells i,
    s.buf_writeCells_same, Buffer.write_epoch, Buffer.write_spoilt]
  exact congrArg (Option.getD · _) ((s.buf b).write_read? cells i)

theorem Shows.nil : Shows rd p [] := fun _ hk => absurd hk (Nat.not_lt_zero _)

/-- Bytes stay where nothing is written over them. -/
theorem Shows.congr (h : Shows rd p bs) (hrd : ∀ i, p ≤ i → i < p + bs.length → rd' i = rd i) : Shows rd' p bs :=
  fun k hk => (hrd _ (Nat.le_add_right _ _) (Nat.add_lt_add_left hk p)).trans (h k hk)

theorem Shows.overwrite (h : Shows rd p bs) (hc : ∀ c ∈ cells, c.1 < p ∨ p + bs.length ≤ c.1) :
    Shows (overwrite rd cells) p bs :=
  h.congr fun i hl hr => overwrite_other fun c hcm => by have := hc c hcm; omega

theorem Shows.append : Shows rd p (bs ++ cs) ↔ Shows rd p bs ∧ Shows rd (p + bs.length) cs := by
  refine ⟨fun h => ⟨fun k hk => ?_, fun k hk => ?_⟩, fun ⟨h, h'⟩ k hk => ?_⟩
  · rw [h k (by rw [List.length_append]; omega), List.getElem_append_left hk]
  · rw [Nat.add_assoc, h _ (by rw [List.length_append]; omega), List.getElem_append_right (Nat.le_add_right _ _)]
    simp only [Nat.add_sub_cancel_left]
  · rw [List.length_append] at hk
    rcases Nat.lt_or_ge k bs.length with hl | hl
    · rw [h k hl, List.getElem_append_left hl]
    · rw [List.getElem_append_right hl, ← h' _ (by omega)]
      congr 1
      omega

theorem Shows.cons {b : Byte} : Shows rd p (b :: bs) ↔ rd p = b ∧ Shows rd (p + 1) bs := by
  rw [← List.singleton_append, Shows.append]
  refine and_congr_left fun _ => ⟨fun h => h 0 Nat.one_pos, fun h k hk => ?_⟩
  obtain rfl : k = 0 := Nat.lt_one_iff.1 hk
  exact h

/-- Bytes written one after another stand there. -/
theorem shows_cellsFrom (rd : Nat → Byte) (p : Nat) (bs : List Byte) : Shows (overwrite rd (cellsFrom p bs)) p bs := by
  induction bs generalizing rd p with
  | nil => exact .nil
  | cons b bs ih =>
    refine Shows.cons.2 ⟨?_, ih _ _⟩
    rw [cellsFrom, overwrite_cons, overwrite_other fun c hc => by have := mem_cellsFrom hc; omega]
    exact Function.update_self _ _ _

theorem Shows.bytesFrom (h : Shows rd p bs) : bytesFrom rd p bs.length = bs := bytesFrom_of_read h

theorem Shows.getD (h : Shows rd p bs) {k : Nat} (hk : k < bs.length) : rd (p + k) = bs.getD k 0 := by
  rw [h k hk, List.getD_eq_getElem _ _ hk]

/-- Bytes that stand in an input are a field of it (20_memory.md R40). -/
theorem Shows.inField (h : Shows rd p bs) : inField rd (8 * p) (8 * bs.length) = leNumber bs := by
  rw [← leNumber_bytesFrom, h.bytesFrom]

end

end Sys2Proof.Machine
end

section
/-! ## The encoder's commands (42_rle_literal_classifier.md R97 to R100, R111 to R116) -/

namespace Sys2Proof.Machine

section
variable {s t : State} {e e' : EncCore} {i : Instr} {v : Word64}

/-! ### What a command leaves, by how it ends -/

/-- The encoder goes on as `e'`, cells of its buffer are written, and OK is answered. -/
def State.encWrote (s : State) (e' : EncCore) (r : Option Word64) (cells : List Host.Cell) : State :=
  ((s.putEnc e').respond .ok r).writeCells e'.buf cells

/-- The encoder is given the state `e'` over a buffer that it has just taken, and OK is answered. -/
def State.encTook (s : State) (e' : EncCore) : State := ((s.take e'.buf).putEnc e').respond .ok

section
variable {r : Option Word64} {cells : List Host.Cell}

theorem State.encWrote_othersKept (hk : s.port.target.kind = .enc) : s.othersKept (s.encWrote e' r cells) :=
  State.othersKept_trans (State.othersKept_putEnc hk e' _ _ _) (State.othersKept_writeCells _ _)

theorem State.encWrote_encIs : (s.encWrote e' r cells).encIs e' := s.putEnc_encIs e'

theorem State.encWrote_bytesKeptBut {written : Nat → Prop} (h : ∀ cell ∈ cells, written cell.1) :
    s.bytesKeptBut (s.encWrote e' r cells) e'.buf written :=
  State.bytesKeptBut_of_mem (m := (s.putEnc e').respond .ok r) rfl (State.bytesKeptBut_writeCells _ h)

theorem State.encWrote_buf_nil (b : Nat) : (s.encWrote e' r []).buf b = s.buf b := by
  by_cases hb : b = e'.buf
  · rw [hb]
    exact State.buf_writeCells_same _ _ _
  · exact State.buf_writeCells_other _ _ hb

theorem State.encWrote_bytesKept : s.bytesKept (s.encWrote e' r []) := fun b =>
  State.bufferKept_of_buf (State.encWrote_buf_nil b)

theorem State.encWrote_readByte : (s.encWrote e' r cells).readByte e'.buf = overwrite (s.readByte e'.buf) cells :=
  State.readByte_writeCells_same _ _ _

/-- The encoder may go on: it still has its buffer to itself. -/
theorem State.encWrote_runsEnc (h : s.runsEnc e) (hbuf : e'.buf = e.buf) : (s.encWrote e' r cells).runsEnc e' := by
  obtain ⟨hk, -, hholds⟩ := h
  refine ⟨hk, Slot.ready_eq_some.2 State.encWrote_encIs, ?_⟩
  rw [State.encWrote, State.holds_writeCells, hbuf]
  exact hholds

end

theorem State.encTook_othersKept (hk : s.port.target.kind = .enc) : s.othersKept (s.encTook e') :=
  State.othersKept_trans (State.othersKept_take e'.buf) (State.othersKept_putEnc (s := s.take e'.buf) hk e' _ _ _)

theorem State.encTook_encIs : (s.encTook e').encIs e' := (s.take e'.buf).putEnc_encIs e'

theorem State.encTook_runsEnc (hk : s.port.target.kind = .enc) : (s.encTook e').runsEnc e' :=
  ⟨hk, Slot.ready_eq_some.2 State.encTook_encIs, State.holds_take⟩

theorem State.encTook_bytesGivenUp : s.bytesGivenUp (s.encTook e') e'.buf := s.bytesGivenUp_take e'.buf

/-- A command of a running encoder that does no more than answer. -/
theorem State.runsEnc.answersOnly (h : s.runsEnc e) {st : Status} {r : Option Word64} {vs : List Word64}
    (he : exec i s = .next (s.respond st r vs)) :
    ∃ t, exec i s = .next t ∧ t.answers st r vs ∧ s.othersKept t ∧ s.bytesKept t ∧ t.encIs e :=
  ⟨_, he, rfl, State.othersKept_respond _ _ _, State.bytesKept_of_mem rfl, State.encIs_of_runs h⟩

/-! ### The commands, by what they find -/

theorem exec_encNew {lOut : Word32} {w m : Word7} (hk : s.port.target.kind = .enc)
    (hl : encNewLegal s.params lOut w m = true) :
    exec (.encNew lOut w m) s = .next (s.encTook (EncCore.fresh s.port.buffer w.toNat m.toNat lOut.toNat
      (s.freshRepValue s.port.buffer) (s.freshHdrPos s.port.buffer))) :=
  (if_pos hk).trans (if_pos hl)

theorem exec_encClear (h : s.runsEnc e) :
    exec .encClear s = .next (s.encTook (e.cleared (s.freshRepValue e.buf) (s.freshHdrPos e.buf))) :=
  State.onEnc_of_runs h _

/-- The working copy in which ENC.PUT takes up the value (R106, R111). -/
def EncCore.put (e : EncCore) (v : Word64) : Draft := Draft.step { enc := e, cells := [] } v

/-- The working copy in which ENC.FLUSH writes what is pending (R114). -/
def EncCore.flushing (e : EncCore) : Draft := Draft.flush { enc := e, cells := [] }

/-- The bytes of the output that the encoder has used, or will use up when it is flushed (10_state.md R37). -/
def EncCore.demand (e : EncCore) : Nat := e.wpos + e.flushBytes

theorem exec_encPut_unfit (h : s.runsEnc e) (hv : valueFits e.w v = false) :
    exec (.encPut v) s = .next s.refuse :=
  (State.onEnc_of_runs h _).trans (if_pos (by simp [hv]))

section
variable {d : Draft} (hd : Draft.Extends { enc := e, cells := [] } d)
include hd

/-- Where a command writes: between the encoder's old position and the new one, or the open literal run's header. -/
theorem Draft.Extends.written : ∀ cell ∈ d.cells,
    (e.wpos ≤ cell.1 ∧ cell.1 < d.enc.wpos) ∨ (e.litOpen = true ∧ cell.1 = e.litHdrPos) := by
  obtain ⟨new, hnew, hmem⟩ := hd.cells
  rw [List.nil_append] at hnew
  rw [hnew]
  exact hmem

theorem Draft.Extends.inside (hlit : e.litOpen = true → e.litHdrPos < e.wpos) {n : Nat} (hn : d.enc.wpos ≤ n) :
    ∀ cell ∈ d.cells, cell.1 < n := by
  have hgrow : e.wpos ≤ d.enc.wpos := hd.wpos
  intro cell hcell
  rcases hd.written cell hcell with ⟨-, hlt⟩ | ⟨ho, hat⟩
  · omega
  · have := hlit ho
    omega

end

theorem EncCore.put_extends (e : EncCore) (v : Word64) : Draft.Extends { enc := e, cells := [] } (e.put v) :=
  Draft.step_extends _ v

theorem EncCore.flushing_extends (e : EncCore) : Draft.Extends { enc := e, cells := [] } e.flushing :=
  Draft.flush_extends _

section
variable (h : s.runsEnc e) (hi : e.idle = false)
include h hi

section
variable (hv : valueFits e.w v = true)
include hv

theorem exec_encPut_full (hfull : e.lOut < (e.put v).enc.demand) : exec (.encPut v) s = .next (s.respond .full) :=
  (State.onEnc_of_runs h _).trans ((if_neg (by simp [hi, hv])).trans (if_pos hfull))

/-- Where a flush still fits after the value, what the working copy wrote is committed. -/
theorem exec_encPut_ok (hlit : e.litOpen = true → e.litHdrPos < e.wpos) (hroom : (e.put v).enc.demand ≤ e.lOut) :
    exec (.encPut v) s = .next (s.encWrote (e.put v).enc none (e.put v).cells) := by
  refine (State.onEnc_of_runs h _).trans ((if_neg (by simp [hi, hv])).trans ((if_neg (Nat.not_lt.2 hroom)).trans ?_))
  refine (State.commit_of_inside _ ((e.put_extends v).inside hlit (Nat.le_of_add_right_le hroom))).trans ?_
  rw [State.encWrote, (e.put_extends v).buf]
  rfl

end

/-- So for ENC.FLUSH. -/
theorem exec_encFlush (hlit : e.litOpen = true → e.litHdrPos < e.wpos) (hroom : e.flushing.enc.wpos ≤ e.lOut) :
    exec .encFlush s = .next (s.encWrote e.flushing.enc (resultOf e.flushing.enc.wpos) e.flushing.cells) := by
  refine (State.onEnc_of_runs h _).trans ((if_neg (by simp [hi])).trans ?_)
  refine (State.commit_of_inside _ (e.flushing_extends.inside hlit hroom)).trans ?_
  rw [State.encWrote, e.flushing_extends.buf]
  rfl

end

theorem exec_encFlush_idle (h : s.runsEnc e) (hi : e.idle = true) :
    exec .encFlush s = .next (s.respond .ok (resultOf e.wpos)) :=
  (State.onEnc_of_runs h _).trans (if_pos hi)

section
variable {w : Word7} (hk : s.port.target.kind = .enc)
include hk

theorem exec_capacityHelpers_refused (hw : 64 < w.toNat) : exec (.encMinBufferSize w) s = .next s.refuse
    ∧ ∀ n, exec (.encMaxBufferSize w n) s = .next s.refuse := by
  have hbad : ¬widthLegal w = true := by simpa [widthLegal] using hw
  exact ⟨(if_pos hk).trans (if_neg hbad), fun n => (if_pos hk).trans (if_neg hbad)⟩

theorem exec_encMinBufferSize (hw : w.toNat ≤ 64) :
    exec (.encMinBufferSize w) s = .next (s.respond .ok (resultOf (minBufferSize w.toNat))) :=
  (if_pos hk).trans (if_pos (decide_eq_true hw))

theorem exec_encMaxBufferSize (hw : w.toNat ≤ 64) (n : Word32) :
    exec (.encMaxBufferSize w n) s = .next (s.respond .ok (resultOf (maxBufferSize w.toNat n.toNat))) :=
  (if_pos hk).trans (if_pos (decide_eq_true hw))

end

theorem minBufferSize_lt {w : Nat} (hw : w ≤ 64) : minBufferSize w < 2 ^ 64 := by
  unfold minBufferSize cb ceil8
  omega

theorem maxBufferSize_lt {w n : Nat} (hw : w ≤ 64) (hn : n < 2 ^ 32) : maxBufferSize w n < 2 ^ 64 := by
  have hbytes : max (w + 1) (cb w + 5) ≤ 65 := by unfold cb ceil8; omega
  have hoctets : ceil8 n ≤ 2 ^ 29 := by unfold ceil8; omega
  exact (Nat.mul_le_mul hoctets hbytes).trans_lt (by decide)

end

/-! ### The statements -/

/-- Settles O12: the width is asked for before the room. -/
theorem valuesAboveTheWidthAreRefused : Obligations.ValuesAboveTheWidthAreRefused := fun s e v h hw hv =>
  exec_encPut_unfit h (by simp [valueFits, hw, hv])

/-- Settles O25: ENC.NEW takes the buffer. -/
theorem encoderIsConstructed : Obligations.EncoderIsConstructed := by
  intro s lOut w m hk hw h8 hm hmin hl
  have hlegal : encNewLegal s.params lOut w m = true := by
    simp only [encNewLegal, widthLegal, lengthLegal, Bool.and_eq_true, decide_eq_true_eq]
    exact ⟨⟨⟨⟨hw, h8⟩, hm⟩, hmin⟩, hl⟩
  exact ⟨_, _, _, exec_encNew hk hlegal, rfl, State.encTook_othersKept hk, State.encTook_bytesGivenUp, BitVec.isLt _,
    State.encTook_encIs⟩

/-- Settles O36: ENC.CLEAR takes the buffer again. -/
theorem encoderIsCleared : Obligations.EncoderIsCleared := fun _ _ h =>
  ⟨_, _, _, exec_encClear h, rfl, State.encTook_othersKept h.1, State.encTook_bytesGivenUp, BitVec.isLt _,
    State.encTook_encIs⟩

/-- Settles O26: the results fit 64 bits. -/
theorem capacityHelpersAnswerInEveryState : Obligations.CapacityHelpersAnswerInEveryState := by
  refine fun s w hk => ⟨exec_capacityHelpers_refused hk, fun hw =>
    ⟨⟨_, _, exec_encMinBufferSize hk hw, rfl, ?_, rfl⟩, fun n => ⟨_, _, exec_encMaxBufferSize hk hw n, rfl, ?_, rfl⟩⟩⟩
  · exact Nat.mod_eq_of_lt (minBufferSize_lt hw)
  · exact Nat.mod_eq_of_lt (maxBufferSize_lt hw n.isLt)

end Sys2Proof.Machine
end

section
/-! ## A value taken up by the encoder, case by case (42_rle_literal_classifier.md R105 to R113) -/

namespace Sys2Proof.Machine

/-! ### The staging buffer -/

theorem allEqual_replicate (k : Nat) (x : Word64) : allEqual (List.replicate k x) = true := by
  cases k with
  | zero => rfl
  | succ k => simp [List.replicate_succ, allEqual]

/-- A run of equal values and another one. -/
theorem allEqual_replicate_append {k : Nat} {x v : Word64} (hk : 1 ≤ k) (hv : v ≠ x) :
    allEqual (List.replicate k x ++ [v]) = false := by
  obtain ⟨k, rfl⟩ : ∃ j, k = j + 1 := ⟨k - 1, by omega⟩
  simp [List.replicate_succ, allEqual, hv]

section
variable {d : Draft} {v : Word64} {more : List Word64 → Bool}

/-- The loop over `B` that is done before it begins. -/
theorem Draft.commitWhile_done (h : d.enc.staged.length < 8 ∨ more d.enc.staged = false) (fuel : Nat) :
    Draft.commitWhile more fuel d = d := by
  cases fuel with
  | zero => rfl
  | succ fuel =>
    refine if_neg ?_
    rcases h with h | h <;> simp [h]

/-- The loop over `B` that goes on as long as there are 8 values. -/
theorem Draft.commitWhile_whole (hg : d.enc.groupsOk)
    (hmore : ∀ n, 8 ≤ (d.enc.staged.drop (8 * n)).length → more (d.enc.staged.drop (8 * n)) = true) :
    (Draft.commitWhile more d.enc.staged.length d).enc
        = d.enc.afterOctets (d.enc.staged.length / 8) (d.enc.staged.drop (8 * (d.enc.staged.length / 8)))
      ∧ (Draft.commitWhile more d.enc.staged.length d).cells
        = d.cells ++ d.enc.octetCells d.enc.staged (d.enc.staged.length / 8) := by
  have hstop := Draft.commitWhile_stops more d.enc.staged.length (Nat.le_refl _) (d := d)
  obtain ⟨n, hn, henc, hcells⟩ := Draft.commitWhile_spec more d.enc.staged.length hg
  have hrest : (d.enc.staged.drop (8 * n)).length ≤ 7 := by
    rw [henc] at hstop
    by_contra hlong
    exact hstop.elim hlong fun hfalse => by simp [EncCore.afterOctets, hmore n (by omega)] at hfalse
  rw [List.length_drop] at hrest
  obtain rfl : n = d.enc.staged.length / 8 := by omega
  exact ⟨henc, hcells⟩

/-! ### Staging a value (R106 to R108) -/

/-- The working copy with one more value staged. -/
def Draft.push (d : Draft) (v : Word64) : Draft := { d with enc := { d.enc with staged := d.enc.staged ++ [v] } }

theorem Draft.stage_below (h : (d.enc.staged ++ [v]).length ≠ d.enc.t ∨ allEqual (d.enc.staged ++ [v]) = false) :
    d.stage v = Draft.commitWhile (fun b => !allEqual b) (d.enc.staged ++ [v]).length (d.push v) := by
  refine if_neg ?_
  rcases h with h | h <;> simp only [Bool.and_eq_true, decide_eq_true_eq, h, false_and, and_false, not_false_eq_true,
    Bool.false_eq_true]

/-- Fewer than 8 values, or equal ones below the threshold, are held. -/
theorem Draft.stage_held (ht : (d.enc.staged ++ [v]).length ≠ d.enc.t)
    (h : (d.enc.staged ++ [v]).length < 8 ∨ allEqual (d.enc.staged ++ [v]) = true) : d.stage v = d.push v :=
  (Draft.stage_below (.inl ht)).trans (Draft.commitWhile_done (h.imp_right fun h => by simp [Draft.push, h]) _)

/-- The threshold is reached. -/
theorem Draft.stage_threshold (hg : d.enc.groupsOk) (ht : (d.enc.staged ++ [v]).length = d.enc.t)
    (h : allEqual (d.enc.staged ++ [v]) = true) : (d.stage v).enc = { d.enc with
        mode := .repeating, repValue := v, repCount := d.enc.t, staged := [], litOpen := false, litGroups := 0 }
      ∧ (d.stage v).cells = d.closeLiteral.cells := by
  have hstage : d.stage v = { d.closeLiteral with enc := { d.closeLiteral.enc with
      mode := .repeating, repValue := v, repCount := d.enc.t, staged := [] } } :=
    if_pos (by simp only [ht, h, decide_true, Bool.and_self])
  rw [hstage, Draft.closeLiteral_enc hg]
  exact ⟨rfl, rfl⟩

/-- Values that stay mixed while there are 8 of them are committed as octets. -/
theorem Draft.stage_mixed (hg : d.enc.groupsOk) (h8 : 8 ≤ (d.enc.staged ++ [v]).length)
    (hmixed : ∀ n, 8 ≤ ((d.enc.staged ++ [v]).drop (8 * n)).length →
      allEqual ((d.enc.staged ++ [v]).drop (8 * n)) = false) :
    (d.stage v).enc = d.enc.afterOctets ((d.enc.staged ++ [v]).length / 8)
        ((d.enc.staged ++ [v]).drop (8 * ((d.enc.staged ++ [v]).length / 8)))
      ∧ (d.stage v).cells = d.cells ++ d.enc.octetCells (d.enc.staged ++ [v]) ((d.enc.staged ++ [v]).length / 8) := by
  rw [Draft.stage_below (.inr (hmixed 0 h8))]
  exact Draft.commitWhile_whole (d := d.push v) (more := fun b => !allEqual b) hg fun n hn => by
    simpa [Draft.push] using hmixed n hn

end

/-! ### A repeated run in the stream (R104) -/

/-- A repeated run's header and value. -/
def repeatedRunBytes (w : Nat) (value : Word64) (count : Nat) : List Byte :=
  ulebEncode (2 * count) ++ leBytes (cb w) value.toNat

theorem repeatedRunBytes_length (w : Nat) (value : Word64) {count : Nat} (h : 2 * count < 2 ^ 32) :
    (repeatedRunBytes w value count).length = ulebLen (2 * count) + cb w := by
  rw [repeatedRunBytes, List.length_append, ulebEncode_length h, leBytes_length]

theorem Draft.emitRepeated_cells_eq (d : Draft) (v : Word64) (n : Nat) :
    (d.emitRepeated v n).cells = d.cells ++ cellsFrom d.enc.wpos (repeatedRunBytes d.enc.w v n) := by
  rw [Draft.emitRepeated_cells, repeatedRunBytes, cellsFrom_append, List.append_assoc]

theorem State.holdsRepeatedRun_of_shows {t : State} {buf p w count : Nat} {value : Word64}
    (h : Shows (t.readByte buf) p (repeatedRunBytes w value count)) (hc : 2 * count < 2 ^ 32) :
    t.holdsRepeatedRun buf p w value count := by
  obtain ⟨hheader, hvalue⟩ := Shows.append.1 h
  rw [ulebEncode_length hc] at hvalue
  refine ⟨fun k hk => hheader.getD (by rwa [ulebEncode_length hc]), fun k hk => ?_⟩
  rw [hvalue.getD (by rwa [leBytes_length]), leBytes_getD (cb w) _ _ hk, Nat.pow_mul]

/-! ### The encoder that takes up a value -/

section
variable {p : Params} {e : EncCore} {v : Word64}

theorem EncCore.ok.threshold_eq (hok : e.ok p = true) : e.t = max 8 e.m :=
  (EncCore.configOk_iff.1 (EncCore.ok_iff.1 hok).1).2.2.2.1

theorem EncCore.ok.groups_eq_zero (hok : e.ok p = true) (ho : e.litOpen = false) : e.litGroups = 0 := by
  have hopen := (EncCore.groupsOk_of_ok hok).1
  simp only [ho, Bool.false_eq_true, false_iff] at hopen
  omega

/-- In REPEAT mode nothing is staged, no literal run is open, and the count is below 2^31. -/
theorem EncCore.ok.repeating (hok : e.ok p = true) (hm : e.mode = .repeating) :
    e.staged = [] ∧ e.litOpen = false ∧ e.idle = false ∧ valueFits e.w e.repValue = true
      ∧ e.repCount ≤ Config.maxCount ∧ 2 * e.repCount < 2 ^ 32 := by
  obtain ⟨hst, ho, hi, hfits, -, hmax⟩ := (EncCore.modeOk_of_repeating hm).1 (EncCore.ok_iff.1 hok).2.1
  refine ⟨hst, ho, hi, hfits, hmax, ?_⟩
  unfold Config.maxCount at hmax
  omega

theorem EncCore.put_of_staging (hm : e.mode = .staging) : e.put v = Draft.stage { enc := e, cells := [] } v := by
  simp only [EncCore.put, Draft.step, hm]

/-- An equal value is counted (R109). -/
theorem EncCore.put_counted (hm : e.mode = .repeating) (hc : e.repCount < Config.maxCount) :
    e.put e.repValue = { enc := { e with repCount := e.repCount + 1 }, cells := [] } := by
  simp only [EncCore.put, Draft.step, hm, hc, and_self, if_true]

/-- Another value breaks the counted run (R110). -/
theorem EncCore.put_broken (hok : e.ok p = true) (hm : e.mode = .repeating)
    (hv : v ≠ e.repValue ∨ e.repCount = Config.maxCount) :
    e.put v = { enc := { e with
                  mode := .staging, staged := [v], repCount := 0
                  wpos := e.wpos + (ulebLen (2 * e.repCount) + cb e.w) }
                cells := cellsFrom e.wpos (repeatedRunBytes e.w e.repValue e.repCount) } := by
  obtain ⟨hst, -, -, -, -, hc⟩ := EncCore.ok.repeating hok hm
  have hbreak : ¬(v = e.repValue ∧ e.repCount < Config.maxCount) := fun ⟨hveq, hlt⟩ =>
    hv.elim (absurd hveq) fun hmax => absurd hmax hlt.ne
  have ht := EncCore.ok.threshold_eq hok
  simp only [EncCore.put, Draft.step, hm, if_neg hbreak]
  rw [Draft.stage_held, Draft.push, Draft.emitRepeated_cells_eq]
  · simp only [Draft.emitRepeated_enc _ _ hc, hst, List.nil_append]
  · simp only [Draft.emitRepeated_enc _ _ hc, hst, List.nil_append, List.length_singleton]
    omega
  · exact .inl (by simp [Draft.emitRepeated_enc _ _ hc, hst])

/-! ### What is then pending (R111, R113) -/

theorem EncCore.demand_repeating (hi : e.idle = false) (hm : e.mode = .repeating) :
    e.demand = e.wpos + ulebLen (2 * e.repCount) + cb e.w := by
  simp [EncCore.demand, EncCore.flushBytes, hi, hm, Nat.add_assoc]

theorem EncCore.demand_staging (hi : e.idle = false) (hm : e.mode = .staging) : e.demand = e.wpos
    + (ceil8 e.staged.length * e.w + ((e.litGroups + ceil8 e.staged.length + 62) / 63 - (e.litGroups + 62) / 63)) := by
  simp [EncCore.demand, EncCore.flushBytes, hi, hm]

/-- One octet, with a header byte where no literal run is open. -/
theorem EncCore.demand_one (hg : e.groupsOk) (hi : e.idle = false) (hm : e.mode = .staging)
    (hlen : ceil8 e.staged.length = 1) : e.demand = e.wpos + e.w + (if e.litOpen = true then 0 else 1) := by
  obtain ⟨hopen, hlt⟩ := hg
  rw [EncCore.demand_staging hi hm, hlen, Nat.one_mul, ← Nat.add_assoc]
  split
  · rename_i ho
    have := hopen.1 ho
    omega
  · rename_i ho
    rw [hopen] at ho
    omega

/-- Committing whole octets changes nothing of it. -/
theorem EncCore.demand_afterOctets (hg : e.groupsOk) (hi : e.idle = false) (hm : e.mode = .staging) {n : Nat}
    (hn : 8 * n ≤ e.staged.length) : (e.afterOctets n (e.staged.drop (8 * n))).demand = e.demand := by
  have hcount : n + ceil8 (e.staged.drop (8 * n)).length = ceil8 e.staged.length := by
    rw [List.length_drop]
    unfold ceil8
    omega
  unfold EncCore.demand
  rw [EncCore.flushBytes_staging hi hm [], EncCore.flushBytes_staging (by exact hi) (by exact hm) [],
    EncCore.afterOctets_afterOctets hg, ← hcount]
  rfl

end

end Sys2Proof.Machine
end

section
/-! ## Where committed octets stand in the output (42_rle_literal_classifier.md R101 to R103; 40_bit_packer_unpacker.md R75) -/

namespace Sys2Proof.Machine

/-! ### The number an octet is packed into -/

theorem packNumber_lt (w : Nat) (vals : List Word64) : packNumber w vals < 2 ^ (vals.length * w) := by
  induction vals with
  | nil => simp [packNumber]
  | cons v vals ih =>
    have hv : v.toNat % 2 ^ w < 2 ^ w := Nat.mod_lt _ (Nat.two_pow_pos w)
    have hmul : 2 ^ w * (packNumber w vals + 1) ≤ 2 ^ w * 2 ^ (vals.length * w) := Nat.mul_le_mul_left _ ih
    rw [packNumber, List.length_cons, Nat.succ_mul, Nat.add_comm (vals.length * w), Nat.pow_add]
    rw [Nat.mul_succ] at hmul
    omega

theorem packNumber_append (w : Nat) (xs ys : List Word64) :
    packNumber w (xs ++ ys) = packNumber w xs + 2 ^ (xs.length * w) * packNumber w ys := by
  induction xs with
  | nil => simp [packNumber]
  | cons x xs ih =>
    rw [List.cons_append, packNumber, packNumber, ih, List.length_cons, Nat.succ_mul, Nat.add_comm (xs.length * w),
      Nat.pow_add, Nat.mul_add, Nat.mul_assoc, Nat.add_assoc]

/-- Lane `i` begins at bit `i * w`. -/
theorem packNumber_bit {w b : Nat} (hb : b < w) (vals : List Word64) (i : Nat) :
    packNumber w vals / 2 ^ (i * w + b) % 2 = (vals.getD i 0).toNat / 2 ^ b % 2 := by
  induction vals generalizing i with
  | nil => simp [packNumber]
  | cons v vals ih =>
    rw [packNumber]
    cases i with
    | zero => rw [Nat.zero_mul, Nat.zero_add, bit_add_low _ _ hb, bit_mod_two_pow _ hb, List.getD_cons_zero]
    | succ i =>
      rw [Nat.succ_mul, Nat.add_comm (i * w), Nat.add_assoc, bit_add_high (Nat.mod_lt _ (Nat.two_pow_pos w)), ih,
        List.getD_cons_succ]

/-- An octet that stands in the output has its values' bits there. -/
theorem Shows.packOctet_bit {rd : Nat → Byte} {p w i b : Nat} {vals : List Word64} (h : Shows rd p (packOctet w vals))
    (hi : i < 8) (hb : b < w) : inBit rd (8 * p + i * w + b) = (vals.getD i 0).toNat / 2 ^ b % 2 := by
  have hlane : i * w + b < 8 * w := by
    have := Nat.mul_le_mul_right w (Nat.succ_le_of_lt hi)
    rw [Nat.succ_mul] at this
    omega
  have hfield := h.inField
  rw [packOctet_length, packOctet, leNumber_leBytes, show 256 = 2 ^ 8 from rfl, ← Nat.pow_mul] at hfield
  rw [Nat.add_assoc, ← inField_bit rd (8 * p) (8 * w) _ hlane, hfield, bit_mod_two_pow _ hlane, packNumber_bit hb]

/-! ### Octets and headers lie apart -/

section
variable {e : EncCore} {n q i : Nat}

theorem EncCore.octetStart_add_le (e : EncCore) (h : q < n) : e.octetStart q + e.w ≤ e.octetStart n := by
  have hmul := Nat.mul_le_mul_right e.w (Nat.succ_le_of_lt h)
  rw [Nat.succ_mul] at hmul
  unfold EncCore.octetStart
  omega

/-- The first octet of a literal run leaves a byte for the header. -/
theorem EncCore.octetStart_add_lt (e : EncCore) (h : q < n) (hn : (e.litGroups + n) % 63 = 0) :
    e.octetStart q + e.w < e.octetStart n := by
  have hmul := Nat.mul_le_mul_right e.w (Nat.succ_le_of_lt h)
  rw [Nat.succ_mul] at hmul
  unfold EncCore.octetStart
  omega

theorem EncCore.octetStart_mono (e : EncCore) (h : q ≤ n) : e.octetStart q ≤ e.octetStart n := by
  rcases Nat.eq_or_lt_of_le h with rfl | h
  · exact Nat.le_refl _
  · exact (Nat.le_add_right _ _).trans (e.octetStart_add_le h)

theorem EncCore.wpos_le_octetStart (e : EncCore) (q : Nat) : e.wpos ≤ e.octetStart q := by
  unfold EncCore.octetStart
  omega

/-- The header byte of the run that octet `n` goes into: that of the open run, or the byte before the first octet of a
new one. -/
theorem EncCore.headerOf_succ_cases (hg : e.groupsOk) (n : Nat) :
    (e.litOpen = true ∧ e.litGroups + n + 1 ≤ 63 ∧ e.headerOf (n + 1) = e.litHdrPos)
      ∨ ∃ q, q ≤ n ∧ (e.litGroups + q) % 63 = 0 ∧ e.litGroups + n < e.litGroups + q + 63
        ∧ e.headerOf (n + 1) + 1 = e.octetStart q := by
  obtain ⟨hopen, hlt⟩ := hg
  unfold EncCore.headerOf
  split
  · rename_i h
    obtain ⟨ho, hn⟩ := h.resolve_left n.succ_ne_zero
    exact .inl ⟨ho, hn, rfl⟩
  · rename_i h
    rw [hopen] at h
    refine .inr ⟨63 * ((e.litGroups + n) / 63) - e.litGroups, by omega, by omega, by omega, ?_⟩
    rw [← Nat.add_assoc, Nat.add_sub_cancel]
    unfold EncCore.octetStart
    omega

/-- The byte `i` lies outside the first `n` octets and the headers of the runs that are full with one of them. -/
def EncCore.ClearOf (e : EncCore) (n i : Nat) : Prop :=
  ∀ q, q < n → (i < e.octetStart q ∨ e.octetStart q + e.w ≤ i)
    ∧ ((e.litGroups + q + 1) % 63 = 0 → i ≠ e.headerOf (q + 1))

section
variable (hg : e.groupsOk) (hlit : e.litOpen = true → e.litHdrPos < e.wpos)
include hg hlit

theorem EncCore.headerOf_succ_lt (n : Nat) : e.headerOf (n + 1) < e.octetStart n := by
  rcases e.headerOf_succ_cases hg n with ⟨ho, -, heq⟩ | ⟨q, hq, -, -, heq⟩
  · have := hlit ho
    have := e.wpos_le_octetStart n
    omega
  · have := e.octetStart_mono hq
    omega

theorem EncCore.clearOf_of_le (h : e.octetStart n ≤ i) : e.ClearOf n i := fun q hq =>
  ⟨.inr ((e.octetStart_add_le hq).trans h), fun _ =>
    (((EncCore.headerOf_succ_lt hg hlit q).trans_le (e.octetStart_mono hq.le)).trans_le h).ne'⟩

/-- A header byte lies outside the octets before and differs from the headers before. -/
theorem EncCore.clearOf_headerOf (n : Nat) : e.ClearOf n (e.headerOf (n + 1)) := by
  intro q hq
  have hbelow := EncCore.headerOf_succ_lt hg hlit q
  rcases e.headerOf_succ_cases hg n with ⟨ho, hn, heq⟩ | ⟨q', hq', hfirst, hrun, heq⟩
  · have := hlit ho
    have := e.wpos_le_octetStart q
    exact ⟨.inl (by omega), by omega⟩
  · rcases Nat.lt_or_ge q q' with hlt | hge
    · have := e.octetStart_add_lt hlt hfirst
      exact ⟨.inr (by omega), by omega⟩
    · have := e.octetStart_mono hge
      exact ⟨.inl (by omega), by omega⟩

/-- So does that of the run that is open after the octets. -/
theorem EncCore.clearOf_headerOf_open (hn : (e.litGroups + n) % 63 ≠ 0) : e.ClearOf n (e.headerOf n) := by
  cases n with
  | zero => exact fun q hq => absurd hq (Nat.not_lt_zero _)
  | succ n =>
    intro q hq
    rcases Nat.lt_succ_iff_lt_or_eq.1 hq with hlt | rfl
    · exact EncCore.clearOf_headerOf hg hlit n q hlt
    · exact ⟨.inl (EncCore.headerOf_succ_lt hg hlit q), fun h => absurd h hn⟩

end

/-! ### What the bytes show -/

variable {rd : Nat → Byte} {vals : List Word64}

/-- The first `n` octets of `vals`, committed from `e` on, and the headers of the runs that are full with one of them,
stand in the bytes. -/
def EncCore.OctetsShown (e : EncCore) (rd : Nat → Byte) (vals : List Word64) (n : Nat) : Prop :=
  ∀ q, q < n → Shows rd (e.octetStart q) (packOctet e.w ((vals.drop (8 * q)).take 8))
    ∧ ((e.litGroups + q + 1) % 63 = 0 → rd (e.headerOf (q + 1)) = 127)

theorem EncCore.OctetsShown.overwrite (h : e.OctetsShown rd vals n) {cells : List Host.Cell}
    (hc : ∀ c ∈ cells, e.ClearOf n c.1) : e.OctetsShown (overwrite rd cells) vals n := by
  intro q hq
  obtain ⟨hoctet, hheader⟩ := h q hq
  refine ⟨hoctet.overwrite fun c hcm => ?_, fun hfull => ?_⟩
  · rw [packOctet_length]
    exact (hc c hcm q hq).1
  · rw [overwrite_other fun c hcm => (hc c hcm q hq).2 hfull]
    exact hheader hfull

/-- What the loop over `B` writes stands there afterwards. -/
theorem EncCore.octetsShown_octetCells (hg : e.groupsOk) (hlit : e.litOpen = true → e.litHdrPos < e.wpos)
    (rd : Nat → Byte) (vals : List Word64) (n : Nat) :
    e.OctetsShown (Machine.overwrite rd (e.octetCells vals n)) vals n := by
  induction n with
  | zero => exact fun q hq => absurd hq (Nat.not_lt_zero _)
  | succ n ih =>
    rw [EncCore.octetCells_append, overwrite_append, overwrite_append]
    have hoctet := shows_cellsFrom (Machine.overwrite rd (e.octetCells vals n)) (e.octetStart n)
      (packOctet e.w ((vals.drop (8 * n)).take 8))
    have hbefore := ih.overwrite (cells := cellsFrom (e.octetStart n) (packOctet e.w ((vals.drop (8 * n)).take 8)))
      fun c hc => EncCore.clearOf_of_le hg hlit (mem_cellsFrom hc).1
    have hheader := EncCore.headerOf_succ_lt hg hlit n
    intro q hq
    split
    · rcases Nat.lt_succ_iff_lt_or_eq.1 hq with hlt | rfl
      · refine hbefore.overwrite (fun c hc => ?_) q hlt
        rw [List.mem_singleton.1 hc]
        exact EncCore.clearOf_headerOf hg hlit n
      · refine ⟨hoctet.overwrite fun c hc => ?_, fun _ => overwrite_singleton_same _ _ _⟩
        rw [List.mem_singleton.1 hc]
        exact .inl hheader
    · rename_i hopen
      rcases Nat.lt_succ_iff_lt_or_eq.1 hq with hlt | rfl
      · exact hbefore q hlt
      · exact ⟨hoctet, fun hfull => absurd hfull hopen⟩

/-- So in the words of the claims, in which values past the end are zeros. -/
theorem EncCore.OctetsShown.holdsOctets {t : State} {vals' : List Word64} (h : e.OctetsShown (t.readByte e.buf) vals n)
    (hvals : ∀ j, vals.getD j 0 = vals'.getD j 0) : t.holdsOctets e vals' n := by
  refine ⟨fun q i b hq hi hb => ?_, fun q hq hfull => by rw [(h q hq).2 hfull]; rfl⟩
  rw [(h q hq).1.packOctet_bit hi hb, ← hvals]
  simp [List.getD_eq_getElem?_getD, List.getElem?_drop, hi]

/-- One octet is written where it begins, and its run's header where the run is full with it. -/
theorem EncCore.mem_octetCells_one {c : Host.Cell} (h : c ∈ e.octetCells vals 1) :
    (e.octetStart 0 ≤ c.1 ∧ c.1 < e.octetStart 0 + e.w)
      ∨ ((e.litGroups + 1) % 63 = 0 ∧ c.1 = e.headerOf 1) := by
  rw [EncCore.octetCells_append, EncCore.octetCells_zero, List.nil_append] at h
  rcases List.mem_append.1 h with h | h
  · exact .inl (by simpa using mem_cellsFrom h)
  · split at h
    · rename_i hfull
      exact .inr ⟨hfull, by rw [List.mem_singleton.1 h]⟩
    · cases h

end

end Sys2Proof.Machine
end

section
/-! ## ENC.PUT and ENC.FLUSH, one command at a time (42_rle_literal_classifier.md R101 to R115) -/

namespace Sys2Proof.Machine

section
variable {s : State} {e : EncCore} {v : Word64} {p : Params}

/-! ### What a command that writes leaves -/

/-- The encoder goes on as the working copy `d`, its writes are in the output, and OK is answered: in the words of the
claims. -/
structure State.Wrote (s t : State) (e : EncCore) (d : Draft) (r : Option Word64) : Prop where
  answers : t.answers .ok r []
  others : s.othersKept t
  encIs : t.encIs d.enc
  reads : t.readByte e.buf = overwrite (s.readByte e.buf) d.cells
  kept : d.cells = [] → s.bytesKept t
  keptBut : ∀ {written : Nat → Prop}, (∀ cell ∈ d.cells, written cell.1) → s.bytesKeptBut t e.buf written

theorem State.encWrote_wrote (h : s.runsEnc e) {d : Draft} (hd : Draft.Extends { enc := e, cells := [] } d)
    (r : Option Word64) : s.Wrote (s.encWrote d.enc r d.cells) e d r := by
  have hbuf : d.enc.buf = e.buf := hd.buf
  refine ⟨rfl, State.encWrote_othersKept h.1, State.encWrote_encIs, ?_, fun hnone => ?_, fun hwritten => ?_⟩
  · rw [← hbuf]
    exact State.encWrote_readByte
  · rw [hnone]
    exact State.encWrote_bytesKept
  · rw [← hbuf]
    exact State.encWrote_bytesKeptBut hwritten

theorem EncCore.ok.behind (hok : e.ok p = true) : e.litOpen = true → e.litHdrPos < e.wpos :=
  (EncCore.LitSound.of_ok hok).behind

theorem State.runsEnc.accepts (h : s.runsEnc e) (hok : e.ok s.params = true) (hi : e.idle = false)
    (hv : valueFits e.w v = true) (hroom : (e.put v).enc.demand ≤ e.lOut) :
    ∃ t, exec (.encPut v) s = .next t ∧ s.Wrote t e (e.put v) none :=
  ⟨_, exec_encPut_ok h hi hv (EncCore.ok.behind hok) hroom, State.encWrote_wrote h (e.put_extends v) none⟩

/-! ### Staging (R106 to R108) -/

section
variable (hok : e.ok p = true) (hm : e.mode = .staging)
include hok hm

theorem EncCore.put_staged (hlen : e.staged.length < 7) :
    e.put v = { enc := { e with staged := e.staged ++ [v] }, cells := [] } := by
  have ht := EncCore.ok.threshold_eq hok
  rw [EncCore.put_of_staging hm]
  refine Draft.stage_held ?_ (.inl ?_) <;> simp only [List.length_append, List.length_singleton] <;> omega

theorem EncCore.put_held {k : Nat} {x : Word64} (hst : e.staged = List.replicate k x) (hk : k + 1 < max 8 e.m) :
    e.put x = { enc := { e with staged := List.replicate (k + 1) x }, cells := [] } := by
  have ht := EncCore.ok.threshold_eq hok
  have hnext : e.staged ++ [x] = List.replicate (k + 1) x := by rw [hst, List.replicate_succ']
  rw [EncCore.put_of_staging hm, Draft.stage_held]
  · rw [Draft.push, hnext]
  · simp only [hnext, List.length_replicate]
    omega
  · exact .inr (by rw [hnext]; exact allEqual_replicate _ _)

theorem EncCore.put_threshold (hst : e.staged = List.replicate (max 8 e.m - 1) v) :
    e.put v = { enc := { e with
                  mode := .repeating, repValue := v, repCount := max 8 e.m, staged := [], litOpen := false
                  litGroups := 0 }
                cells := if e.litGroups = 0 then [] else [(e.litHdrPos, BitVec.ofNat 8 (2 * e.litGroups + 1))] } := by
  have hg := EncCore.groupsOk_of_ok hok
  have ht := EncCore.ok.threshold_eq hok
  have hnext : e.staged ++ [v] = List.replicate (max 8 e.m) v := by
    rw [hst, ← List.replicate_succ']
    congr 1
    omega
  obtain ⟨henc, hcells⟩ := Draft.stage_threshold (d := { enc := e, cells := [] }) (v := v) hg
    (by rw [hnext, List.length_replicate, ht]) (by rw [hnext]; exact allEqual_replicate _ _)
  rw [Draft.closeLiteral_cells hg, List.nil_append] at hcells
  rw [ht] at henc
  rw [EncCore.put_of_staging hm, ← henc, ← hcells]

/-- Mixed values are committed as octets, until fewer than 8 are left. -/
theorem EncCore.put_mixed {k : Nat} (hk : (e.staged ++ [v]).length = k) (h8 : 8 ≤ k)
    (hmixed : ∀ n, 8 ≤ ((e.staged ++ [v]).drop (8 * n)).length → allEqual ((e.staged ++ [v]).drop (8 * n)) = false) :
    e.put v = { enc := e.afterOctets (k / 8) ((e.staged ++ [v]).drop (8 * (k / 8)))
                cells := e.octetCells (e.staged ++ [v]) (k / 8) } := by
  subst hk
  obtain ⟨henc, hcells⟩ := Draft.stage_mixed (d := { enc := e, cells := [] }) (EncCore.groupsOk_of_ok hok) h8 hmixed
  rw [List.nil_append] at hcells
  rw [EncCore.put_of_staging hm, ← henc, ← hcells]

theorem EncCore.put_mixed_demand (hi : e.idle = false) {k : Nat} (hk : (e.staged ++ [v]).length = k) :
    (e.afterOctets (k / 8) ((e.staged ++ [v]).drop (8 * (k / 8)))).demand
      = e.wpos + (ceil8 k * e.w + ((e.litGroups + ceil8 k + 62) / 63 - (e.litGroups + 62) / 63)) := by
  subst hk
  have hg := EncCore.groupsOk_of_ok hok
  have hall := EncCore.demand_staging (e := { e with staged := e.staged ++ [v] }) hi hm
  rw [← hall]
  exact EncCore.demand_afterOctets (e := { e with staged := e.staged ++ [v] }) hg hi hm
    (Nat.mul_div_le _ 8)

end

/-- One octet, in the words of the claims (R101, R102). -/
theorem EncCore.afterOctets_one (hg : e.groupsOk) (st : List Word64) :
    e.octetStart 0 = e.wpos + (if e.litOpen = true then 0 else 1)
      ∧ e.headerOf 1 = (if e.litOpen = true then e.litHdrPos else e.wpos)
      ∧ e.afterOctets 1 st = { e with
          staged := st, wpos := e.wpos + (if e.litOpen = true then 0 else 1) + e.w
          litHdrPos := if e.litOpen = true then e.litHdrPos else e.wpos
          litOpen := decide (e.litGroups + 1 ≠ 63)
          litGroups := if e.litGroups + 1 = 63 then 0 else e.litGroups + 1 } := by
  obtain ⟨hopen, hlt⟩ := hg
  have hstart : e.octetStart 0 = e.wpos + (if e.litOpen = true then 0 else 1) := by
    simp only [EncCore.octetStart, Nat.zero_mul, hopen]
    split <;> omega
  have hheader : e.headerOf 1 = (if e.litOpen = true then e.litHdrPos else e.wpos) := by
    rw [EncCore.headerOf]
    split
    · rename_i ho
      rw [if_pos (ho.resolve_left Nat.one_ne_zero).1]
    · rename_i ho
      have hclosed : ¬e.litOpen = true := fun h => ho (.inr ⟨h, hlt⟩)
      have hnone : e.litGroups = 0 := by rw [hopen] at hclosed; omega
      rw [if_neg hclosed, hnone]
      simp only [Nat.zero_add, Nat.sub_self, Nat.zero_div, Nat.mul_zero]
      rw [hstart, if_neg hclosed, Nat.add_sub_cancel]
  refine ⟨hstart, hheader, ?_⟩
  simp only [EncCore.afterOctets, hheader, EncCore.mk.injEq, true_and, and_true]
  refine ⟨decide_eq_decide.2 (by omega), ?_, ?_⟩
  · split <;> omega
  · simp only [EncCore.octetStart] at hstart
    omega

end

/-! ### The statements on single values -/

/-- Settles O27 (`EncCore.put_counted`). -/
theorem equalValuesAreCounted : Obligations.EqualValuesAreCounted := by
  intro s e h hok hm hc
  obtain ⟨-, -, hi, hv, -⟩ := EncCore.ok.repeating hok hm
  have hput := EncCore.put_counted hm hc
  have hdemand := EncCore.demand_repeating (e := { e with repCount := e.repCount + 1 }) hi hm
  refine ⟨fun hroom => ?_, fun hfull => h.answersOnly (exec_encPut_full h hi hv (by rw [hput, hdemand]; exact hfull))⟩
  obtain ⟨t, he, hacc⟩ := h.accepts hok hi hv (by rw [hput, hdemand]; exact hroom)
  rw [hput] at hacc
  exact ⟨t, he, hacc.answers, hacc.others, hacc.kept rfl, hacc.encIs⟩

/-- Settles O28 (`EncCore.put_broken`): the new value will take an octet and its header. -/
theorem brokenRunIsEmitted : Obligations.BrokenRunIsEmitted := by
  rintro s e v _ h hok hm hbreak hv rfl
  obtain ⟨-, ho, hi, -, -, hc⟩ := EncCore.ok.repeating hok hm
  have hg := EncCore.groupsOk_of_ok hok
  have hput := EncCore.put_broken hok hm hbreak
  have hdemand : (e.put v).enc.demand = e.wpos + (ulebLen (2 * e.repCount) + (e.w + 7) / 8) + (e.w + 1) := by
    rw [hput]
    refine (EncCore.demand_one (e := { e with mode := .staging, staged := [v], repCount := 0, wpos := _ }) hg hi rfl
      (by simp [ceil8])).trans ?_
    simp only [ho]
    rfl
  refine ⟨fun hroom => ?_, fun hfull => h.answersOnly (exec_encPut_full h hi hv (by rwa [hdemand]))⟩
  obtain ⟨t, he, hacc⟩ := h.accepts hok hi hv (by rwa [hdemand])
  rw [hput] at hacc
  refine ⟨t, he, hacc.answers, hacc.others, hacc.encIs, State.holdsRepeatedRun_of_shows ?_ hc,
    hacc.keptBut fun cell hcell => ?_⟩
  · rw [hacc.reads]
    exact shows_cellsFrom _ _ _
  · have := mem_cellsFrom hcell
    rwa [repeatedRunBytes_length _ _ hc] at this

/-- Settles O29 (`EncCore.put_staged`). -/
theorem fewerThanEightValuesAreStaged : Obligations.FewerThanEightValuesAreStaged := by
  intro s e v h hok hi hm hlen hv
  have hg := EncCore.groupsOk_of_ok hok
  have hput := EncCore.put_staged (v := v) hok hm hlen
  have hdemand : (e.put v).enc.demand = e.wpos + e.w + (if e.litOpen = true then 0 else 1) := by
    rw [hput]
    refine EncCore.demand_one (e := { e with staged := e.staged ++ [v] }) hg hi hm ?_
    simp only [ceil8, List.length_append, List.length_singleton]
    omega
  refine ⟨fun hroom => ?_, fun hfull => h.answersOnly (exec_encPut_full h hi hv (by rwa [hdemand]))⟩
  obtain ⟨t, he, hacc⟩ := h.accepts hok hi hv (by rwa [hdemand])
  rw [hput] at hacc
  exact ⟨t, he, hacc.answers, hacc.others, hacc.kept rfl, hacc.encIs⟩

/-- Settles O30 (`EncCore.put_threshold`). -/
theorem thresholdStartsARepeat : Obligations.ThresholdStartsARepeat := by
  intro s e v h hok hi hm hst hv
  have hput := EncCore.put_threshold hok hm hst
  have hdemand : (e.put v).enc.demand = e.wpos + ulebLen (2 * max 8 e.m) + (e.w + 7) / 8 := by
    rw [hput]
    exact EncCore.demand_repeating hi rfl
  refine ⟨fun hroom => ?_, fun hfull => h.answersOnly (exec_encPut_full h hi hv (by rwa [hdemand]))⟩
  obtain ⟨t, he, hacc⟩ := h.accepts hok hi hv (by rwa [hdemand])
  rw [hput] at hacc
  obtain ⟨hopen, hlt⟩ := EncCore.groupsOk_of_ok hok
  refine ⟨t, he, hacc.answers, hacc.others, hacc.encIs, fun ho => ?_, hacc.keptBut fun cell hcell => ?_⟩
  · have hpos := hopen.1 ho
    rw [hacc.reads, if_neg (by omega), overwrite_singleton_same, BitVec.toNat_ofNat]
    omega
  · split at hcell
    · cases hcell
    · exact ⟨hopen.2 (by omega), by rw [List.mem_singleton.1 hcell]⟩

/-- Settles O31: one more equal value is held (`EncCore.put_held`); another one leaves every octet but the last part
of the run mixed (`EncCore.put_mixed`). -/
theorem runsBelowTheThresholdBecomeOctets : Obligations.RunsBelowTheThresholdBecomeOctets := by
  rintro s e x v k _ _ h - hok hi hm hst hk hbelow hv rfl rfl
  have hlen : (e.staged ++ [v]).length = k + 1 := by simp [hst]
  have hmixed (hne : v ≠ x) : e.put v = { enc := e.afterOctets ((k + 1) / 8) ((e.staged ++ [v]).drop (8 * ((k + 1) / 8)))
                                          cells := e.octetCells (e.staged ++ [v]) ((k + 1) / 8) } := by
    refine EncCore.put_mixed hok hm hlen (by omega) fun n hn => ?_
    rw [List.length_drop, hlen] at hn
    rw [hst, List.drop_append_of_le_length (by rw [List.length_replicate]; omega), List.drop_replicate]
    exact allEqual_replicate_append (by omega) hne
  have hdemand : (e.put v).enc.demand = e.wpos + ((k + 8) / 8 * e.w
      + ((e.litGroups + (k + 8) / 8 + 62) / 63 - (e.litGroups + 62) / 63)) := by
    by_cases hvx : v = x
    · subst hvx
      rw [EncCore.put_held hok hm hst (hbelow rfl), EncCore.demand_staging (by exact hi) (by exact hm),
        List.length_replicate]
      rfl
    · rw [hmixed hvx]
      exact EncCore.put_mixed_demand hok hm hi hlen
  refine ⟨fun hfull => h.answersOnly (exec_encPut_full h hi hv (by rwa [hdemand])), fun hvx hroom => ?_,
    fun hvx hroom => ?_⟩ <;> obtain ⟨t, he, hacc⟩ := h.accepts hok hi hv (by rwa [hdemand])
  · subst hvx
    rw [EncCore.put_held hok hm hst (hbelow rfl)] at hacc
    exact ⟨t, he, hacc.answers, hacc.others, hacc.kept rfl, hacc.encIs⟩
  · have hwritten := (e.put_extends v).written
    rw [hmixed hvx] at hacc hwritten
    rw [← hst]
    refine ⟨t, he, hacc.answers, hacc.others, hacc.encIs, EncCore.OctetsShown.holdsOctets ?_ fun _ => rfl,
      hacc.keptBut hwritten⟩
    rw [hacc.reads]
    exact EncCore.octetsShown_octetCells (EncCore.groupsOk_of_ok hok) (EncCore.ok.behind hok) _ _ _

/-- Settles O32: one octet is committed (`EncCore.put_mixed`), and nothing is then pending. -/
theorem mixedOctetIsCommitted : Obligations.MixedOctetIsCommitted := by
  rintro s e v _ _ h hok hi hm hlen hne hv rfl rfl hroom
  have hg := EncCore.groupsOk_of_ok hok
  have h8 : (e.staged ++ [v]).length = 8 := by simp [hlen]
  have hput : e.put v = { enc := e.afterOctets 1 [], cells := e.octetCells (e.staged ++ [v]) 1 } := by
    have hmixed := EncCore.put_mixed (v := v) hok hm h8 (Nat.le_refl 8) fun n hn => by
      obtain rfl : n = 0 := by rw [List.length_drop] at hn; omega
      exact hne
    rwa [show 8 / 8 = 1 from rfl, List.drop_of_length_le h8.le] at hmixed
  obtain ⟨hstart, hheader, hafter⟩ := EncCore.afterOctets_one hg []
  have hdemand : (e.put v).enc.demand = e.wpos + (if e.litOpen = true then 0 else 1) + e.w := by
    rw [hput, hafter]
    simp [EncCore.demand, EncCore.flushBytes, hi, hm, ceil8]
  obtain ⟨t, he, hacc⟩ := h.accepts hok hi hv (by rwa [hdemand])
  rw [hput] at hacc
  have hshown : e.OctetsShown (t.readByte e.buf) (e.staged ++ [v]) 1 := by
    rw [hacc.reads]
    exact EncCore.octetsShown_octetCells hg (EncCore.ok.behind hok) _ _ _
  have hlast : e.litGroups + 1 = 63 ↔ (e.litGroups + 1) % 63 = 0 := by
    obtain ⟨-, hlt⟩ := hg
    omega
  refine ⟨t, _, he, hacc.answers, hacc.others, rfl, ?_, fun hfull => ?_, fun i b hib hb => ?_,
    hacc.keptBut fun cell hcell => ?_⟩
  · rw [← hafter]
    exact hacc.encIs
  · rw [← hheader, (hshown 0 Nat.one_pos).2 (hlast.1 hfull)]
    rfl
  · rw [← hstart, (hshown.holdsOctets fun _ => rfl).1 0 i b Nat.one_pos hib hb, Nat.mul_zero, Nat.zero_add]
  · rw [← hstart, ← hheader, hlast]
    exact EncCore.mem_octetCells_one hcell

/-- Settles O33: the room is asked for before anything is committed. -/
theorem putIsAcceptedOrFull : Obligations.PutIsAcceptedOrFull := by
  intro s e v h hp hok hi hv
  by_cases hroom : (e.put v).enc.demand ≤ e.lOut
  · obtain ⟨t, he, hacc⟩ := h.accepts hok hi hv hroom
    have hext := e.put_extends v
    exact ⟨t, _, he, hacc.others, hacc.encIs, EncCore.put_ok hp hok hi hv hroom, .inr ⟨hacc.answers,
      hroom.trans_eq hext.lOut.symm, hext.wpos, hext.buf, hext.w, hext.m, hext.t, hext.lOut, hacc.keptBut hext.written⟩⟩
  · obtain ⟨t, he, hans, hothers, hbytes, henc⟩ := h.answersOnly (exec_encPut_full h hi hv (Nat.lt_of_not_le hroom))
    exact ⟨t, e, he, hothers, henc, hok, .inl ⟨hans, rfl, hbytes⟩⟩

/-- ENC.NEW and ENC.CLEAR that answer OK have taken the buffer with every field at its reset value. -/
theorem State.took_of_fresh {s t : State} {i : Instr} (hi : i = .encClear ∨ ∃ lOut w m, i = .encNew lOut w m)
    (h : exec i s = .next t) (hst : t.status = some .ok) : s.port.target.kind = .enc
      ∧ ∃ (e : EncCore) (repValue : Word64) (hdrPos : Nat), t = s.encTook (e.cleared repValue hdrPos) := by
  have hne : t ≠ s.refuse := by
    rintro rfl
    cases hst
  rcases hi with rfl | ⟨lOut, w, m, rfl⟩
  · obtain ⟨e, hruns, -⟩ := (State.onEnc_next h).resolve_left hne
    rw [exec_encClear hruns] at h
    cases h
    exact ⟨hruns.1, e, _, _, rfl⟩
  · obtain ⟨hk, hnew⟩ := (State.whenAddressed_next h).resolve_left hne
    split at hnew
    · rename_i hl
      rw [exec_encNew hk hl] at h
      cases h
      exact ⟨hk, EncCore.fresh _ _ _ _ 0 0, _, _, rfl⟩
    · cases hnew
      exact absurd rfl hne

/-- Settles O34: the smallest legal output holds an octet and its header. -/
theorem firstValueIsAccepted : Obligations.FirstValueIsAccepted := by
  intro s t e v i hi hs he hst henc hv
  have hgood := (exec_effects s i t he).good (by rcases hi with rfl | ⟨_, _, _, rfl⟩ <;> rfl) (State.inv_iff.1 hs)
  have hok : e.ok t.params = true := Slot.all_iff.1 (hgood.enc _) e (by rw [henc]; rfl)
  obtain ⟨hk, e₀, r, hdr, rfl⟩ := State.took_of_fresh hi he hst
  have hsame := (State.encTook_encIs (s := s) (e' := e₀.cleared r hdr)).symm.trans henc
  obtain rfl : e₀.cleared r hdr = e := by simpa [Slot.running] using hsame
  obtain ⟨-, -, -, -, hmin, -⟩ := EncCore.configOk_iff.1 (EncCore.ok_iff.1 hok).1
  refine (fewerThanEightValuesAreStaged _ _ v (State.encTook_runsEnc hk) hok rfl rfl (Nat.zero_lt_succ 6) hv).1 ?_
  simp only [minBufferSize, EncCore.cleared, Bool.false_eq_true, if_false] at hmin ⊢
  omega

end Sys2Proof.Machine
end

section
/-! ## ENC.FLUSH (42_rle_literal_classifier.md R113 to R115) -/

namespace Sys2Proof.Machine

section
variable {e : EncCore} {p : Params}

/-- What a flush writes in REPEAT mode. -/
theorem EncCore.flushing_cells_of_repeating (hm : e.mode = .repeating) (ho : e.litOpen = false) :
    e.flushing.cells = cellsFrom e.wpos (repeatedRunBytes e.w e.repValue e.repCount) := by
  have hemit := Draft.emitRepeated_cells_eq { enc := e, cells := [] } e.repValue e.repCount
  simp only [EncCore.flushing, Draft.flush, hm]
  rw [Draft.closeLiteral, if_neg (by simp [Draft.emitRepeated, Draft.append, ho])]
  exact hemit

/-- What a flush writes in STAGING mode: the staged values, filled up with zeros, as octets, and the header of the run
that is open after them. -/
theorem EncCore.flushing_cells_of_staging (hg : e.groupsOk) (hm : e.mode = .staging) :
    e.flushing.cells = e.octetCells e.padded (ceil8 e.staged.length)
      ++ if (e.litGroups + ceil8 e.staged.length) % 63 = 0 then []
        else [(e.headerOf (ceil8 e.staged.length),
          BitVec.ofNat 8 (2 * ((e.litGroups + ceil8 e.staged.length) % 63) + 1))] := by
  obtain ⟨henc, hcells⟩ := Draft.flushStaged_spec (d := { enc := e, cells := [] }) hg
  simp only [EncCore.flushing, Draft.flush, hm]
  rw [Draft.closeLiteral_cells (by rw [henc]; exact EncCore.afterOctets_groupsOk _ _ _), henc, hcells, List.nil_append]
  rfl

theorem EncCore.padded_getD (e : EncCore) (j : Nat) : e.padded.getD j 0 = e.staged.getD j 0 := by
  rcases Nat.lt_or_ge j e.staged.length with hj | hj
  · rw [EncCore.padded, List.getD_append _ _ _ _ hj]
  · rw [EncCore.padded, List.getD_append_right _ _ _ _ hj, List.getD_eq_default e.staged _ hj]
    rcases Nat.lt_or_ge (j - e.staged.length) (8 * ceil8 e.staged.length - e.staged.length) with hp | hp
    · exact List.getD_replicate _ hp
    · exact List.getD_eq_default _ _ (by rwa [List.length_replicate])

theorem EncCore.ok.flushing_enc (hok : e.ok p = true) (hi : e.idle = false) : e.flushing.enc = { e with
    mode := .staging, staged := [], repCount := 0, litOpen := false, litHdrPos := e.headerOf (ceil8 e.staged.length)
    litGroups := 0, wpos := e.wpos + e.flushBytes, idle := true } :=
  Draft.flush_enc (d := { enc := e, cells := [] }) (EncCore.groupsOk_of_ok hok) hi
    (fun hm => ((EncCore.modeOk_of_staging hm).1 (EncCore.ok_iff.1 hok).2.1).1)
    fun hm => by
      obtain ⟨hst, -, -, -, -, hc⟩ := EncCore.ok.repeating hok hm
      exact ⟨hst, hc⟩

/-- The octets of a flush, and the header of the run that is open after them, stand in the output. -/
theorem EncCore.ok.flushing_shown (hok : e.ok p = true) (hm : e.mode = .staging) (rd : Nat → Byte) :
    e.OctetsShown (overwrite rd e.flushing.cells) e.padded (ceil8 e.staged.length)
      ∧ ((e.litGroups + ceil8 e.staged.length) % 63 ≠ 0 →
        (overwrite rd e.flushing.cells (e.headerOf (ceil8 e.staged.length))).toNat
          = 2 * ((e.litGroups + ceil8 e.staged.length) % 63) + 1) := by
  have hg := EncCore.groupsOk_of_ok hok
  have hlit := EncCore.ok.behind hok
  have hoctets := EncCore.octetsShown_octetCells hg hlit rd e.padded (ceil8 e.staged.length)
  rw [EncCore.flushing_cells_of_staging hg hm, overwrite_append]
  split
  · rename_i hfull
    exact ⟨hoctets, fun hopen => absurd hfull hopen⟩
  · rename_i hopen
    refine ⟨hoctets.overwrite fun c hc => ?_, fun _ => ?_⟩
    · rw [List.mem_singleton.1 hc]
      exact EncCore.clearOf_headerOf_open hg hlit hopen
    · rw [overwrite_singleton_same, BitVec.toNat_ofNat]
      omega

/-- An idle encoder is as a flush leaves it. -/
theorem EncCore.ok.idle_eq (hok : e.ok p = true) (hi : e.idle = true) : e.staged = [] ∧ e.mode = .staging
    ∧ e.litGroups = 0 ∧ e = { e with
        mode := .staging, staged := [], repCount := 0, litOpen := false
        litHdrPos := e.headerOf (ceil8 e.staged.length), litGroups := 0, wpos := e.wpos + e.flushBytes, idle := true } := by
  obtain ⟨hst, ho⟩ := (EncCore.ok_iff.1 hok).2.2.2.2.1 hi
  have hm : e.mode = .staging := by
    cases hm : e.mode with
    | staging => rfl
    | repeating =>
      obtain ⟨-, -, hbusy, -⟩ := EncCore.ok.repeating hok hm
      rw [hi] at hbusy
      cases hbusy
  have hcount := ((EncCore.modeOk_of_staging hm).1 (EncCore.ok_iff.1 hok).2.1).1
  have hgroups := EncCore.ok.groups_eq_zero hok ho
  refine ⟨hst, hm, hgroups, ?_⟩
  obtain ⟨_, _, _, _, _, _, _, _, _, _, _, _, _, _⟩ := e
  simp_all [EncCore.headerOf, EncCore.flushBytes, ceil8]

theorem EncCore.ok.wpos_lt (hok : e.ok p = true) (hp : p.legal = true) : e.demand < 2 ^ 31 := by
  obtain ⟨-, -, -, hmax⟩ := Params.legal_iff.1 hp
  obtain ⟨hc, -, -, -, -, hroom⟩ := EncCore.ok_iff.1 hok
  obtain ⟨-, -, -, -, -, hl⟩ := EncCore.configOk_iff.1 hc
  unfold EncCore.demand
  omega

end

theorem State.bytesKeptBut_of_kept {s t : State} {b : Nat} {written : Nat → Prop} (h : s.bytesKept t) :
    s.bytesKeptBut t b written := by
  obtain ⟨hhold, hinput, hread⟩ := h b
  exact ⟨fun b' _ => h b', hhold, fun n _ => hinput n, fun i _ => hread i⟩

/-- Settles O35: the flush writes the counted run, or octets and their headers (`EncCore.ok.flushing_shown`), up to the
position that FlushBytes gives (`Draft.flush_enc`). -/
theorem flushWritesExactlyFlushBytes : Obligations.FlushWritesExactlyFlushBytes := by
  rintro s e _ h hp hok rfl
  have hresult : (BitVec.ofNat 64 e.demand).toNat = e.demand := by
    have := EncCore.ok.wpos_lt hok hp
    rw [BitVec.toNat_ofNat]
    omega
  by_cases hi : e.idle = true
  · obtain ⟨hst, hm, hgroups, hsame⟩ := EncCore.ok.idle_eq hok hi
    obtain ⟨t, he, hans, hothers, hbytes, henc⟩ := h.answersOnly (exec_encFlush_idle h hi)
    have hnone : e.demand = e.wpos := by rw [EncCore.demand, EncCore.flushBytes, if_pos hi, Nat.add_zero]
    rw [← hnone] at hans
    refine ⟨t, _, he, hans, hothers, hresult, hsame ▸ henc, State.bytesKeptBut_of_kept hbytes, ?_⟩
    rw [hm, hst, hgroups]
    exact ⟨fun hrep => (nomatch hrep), fun _ => ⟨fun _ _ _ hq => absurd hq (Nat.not_lt_zero _),
      fun _ hq => absurd hq (Nat.not_lt_zero _)⟩, fun _ hopen => absurd rfl hopen, fun _ => hbytes⟩
  · have hbusy : e.idle = false := by simpa using hi
    have henc := EncCore.ok.flushing_enc hok hbusy
    have hwpos : e.flushing.enc.wpos = e.demand := by rw [henc]; rfl
    have hroom : e.flushing.enc.wpos ≤ e.lOut := hwpos.trans_le (EncCore.ok_iff.1 hok).2.2.2.2.2
    have hwrote := State.encWrote_wrote h e.flushing_extends (resultOf e.flushing.enc.wpos)
    have hwritten := e.flushing_extends.written
    rw [hwpos] at hwritten
    refine ⟨_, _, exec_encFlush h hbusy (EncCore.ok.behind hok) hroom, hwrote.answers, hwrote.others,
      by rw [hwpos]; exact hresult, henc ▸ hwrote.encIs, hwrote.keptBut hwritten, fun hm => ?_, fun hm => ?_,
      fun hm hopen => ?_, fun hidle => absurd hidle hi⟩
    · obtain ⟨-, ho, -, -, -, hc⟩ := EncCore.ok.repeating hok hm
      refine State.holdsRepeatedRun_of_shows ?_ hc
      rw [hwrote.reads, EncCore.flushing_cells_of_repeating hm ho]
      exact shows_cellsFrom _ _ _
    · refine EncCore.OctetsShown.holdsOctets (vals := e.padded) ?_ e.padded_getD
      rw [hwrote.reads]
      exact (EncCore.ok.flushing_shown hok hm _).1
    · rw [hwrote.reads]
      exact (EncCore.ok.flushing_shown hok hm _).2 hopen

end Sys2Proof.Machine
end

section
/-! ## The runs an encoder builds (42_rle_literal_classifier.md R96, R101 to R110, R114)

The encoder's procedures without positions and bytes: a list of closed runs, the octets of the open literal run, and what
is pending. They show which values the stream stands for and how long it is; that the encoder does the same, and writes
the bytes of these runs, is `EncCore.Refines` below. -/

namespace Sys2Proof.Machine

/-- A run of the stream (30_encoding.md R53). -/
inductive StreamRun where
  | repeated (value : Word64) (count : Nat)
  | literal (octets : List (List Word64))

namespace StreamRun

/-- The values the run stands for. -/
def values : StreamRun → List Word64
  | repeated value count => List.replicate count value
  | literal octets => octets.flatten

/-- The run's bytes: its header, and the value or the packed octets (R102 to R104). -/
def bytes (w : Nat) : StreamRun → List Byte
  | repeated value count => repeatedRunBytes w value count
  | literal octets => BitVec.ofNat 8 (2 * octets.length + 1) :: octets.flatMap (packOctet w)

/-- The run has a count the header can hold and the encoder makes: 8 to 2^31 - 1 values, or 1 to 63 octets. -/
def Wf : StreamRun → Prop
  | repeated _ count => 8 ≤ count ∧ count ≤ Config.maxCount
  | literal octets => octets ≠ [] ∧ octets.length ≤ Config.maxLiteralGroups ∧ ∀ o ∈ octets, o.length = 8

end StreamRun

/-- The values and the bytes of runs one after another. -/
def runsValues (runs : List StreamRun) : List Word64 := runs.flatMap StreamRun.values
def runsBytes (w : Nat) (runs : List StreamRun) : List Byte := runs.flatMap (StreamRun.bytes w)

@[simp] theorem runsValues_append (rs rs' : List StreamRun) : runsValues (rs ++ rs') = runsValues rs ++ runsValues rs' :=
  List.flatMap_append

@[simp] theorem runsValues_singleton (r : StreamRun) : runsValues [r] = r.values := List.flatMap_singleton _ _

theorem runsBytes_append_singleton (w : Nat) (rs : List StreamRun) (r : StreamRun) :
    runsBytes w (rs ++ [r]) = runsBytes w rs ++ r.bytes w := by
  simp [runsBytes]

/-- What an encoder has made of its values: the closed runs, the octets of the open literal run, the staged values, and
in REPEAT mode the value that is counted and its count. -/
structure Encoding where
  runs : List StreamRun
  octets : List (List Word64)
  staged : List Word64
  counted : Option (Word64 × Nat)

namespace Encoding

/-- After ENC.NEW or ENC.CLEAR. -/
def start : Encoding := { runs := [], octets := [], staged := [], counted := none }

/-- CloseLiteral (R103). -/
def close (a : Encoding) : Encoding :=
  if a.octets = [] then a else { a with runs := a.runs ++ [.literal a.octets], octets := [] }

/-- CommitOctet (R102). -/
def commit (a : Encoding) (vals : List Word64) : Encoding :=
  if a.octets.length + 1 = Config.maxLiteralGroups then
    { a with runs := a.runs ++ [.literal (a.octets ++ [vals])], octets := [] }
  else { a with octets := a.octets ++ [vals] }

/-- The loop over `B` (R106, R114). -/
def commitWhile (more : List Word64 → Bool) : (fuel : Nat) → Encoding → Encoding
  | 0, a => a
  | fuel + 1, a =>
    if decide (8 ≤ a.staged.length) && more a.staged then
      commitWhile more fuel { a.commit (a.staged.take 8) with staged := a.staged.drop 8 }
    else a

/-- A value goes into the staging buffer, under the threshold `t` (R106 to R108). -/
def stage (t : Nat) (a : Encoding) (v : Word64) : Encoding :=
  if (a.staged ++ [v]).length = t && allEqual (a.staged ++ [v]) then
    { a.close with counted := some (v, t), staged := [] }
  else commitWhile (fun b => !allEqual b) (a.staged ++ [v]).length { a with staged := a.staged ++ [v] }

/-- EmitRepeated (R104). -/
def emit (a : Encoding) (value : Word64) (count : Nat) : Encoding :=
  { a with runs := a.runs ++ [.repeated value count], counted := none }

/-- Step (R106, R109, R110). -/
def step (t : Nat) (a : Encoding) (v : Word64) : Encoding :=
  match a.counted with
  | none => a.stage t v
  | some (x, n) =>
    if v = x ∧ n < Config.maxCount then { a with counted := some (x, n + 1) } else (a.emit x n).stage t v

/-- The staged values are committed, the last ones filled up with zeros (R114). -/
def flushStaged (a : Encoding) : Encoding :=
  let a' := commitWhile (fun _ => true) a.staged.length a
  if a'.staged.length = 0 then a'
  else { a'.commit (a'.staged ++ List.replicate (8 - a'.staged.length) 0) with staged := [] }

/-- The flush (R114). -/
def flush (a : Encoding) : Encoding :=
  match a.counted with
  | some (x, n) => (a.emit x n).close
  | none => a.flushStaged.close

/-! ### The values are kept, in order -/

/-- The values that are counted. -/
def countedValues (a : Encoding) : List Word64 :=
  match a.counted with
  | none => []
  | some (x, n) => List.replicate n x

/-- Every value taken up so far. -/
def values (a : Encoding) : List Word64 := runsValues a.runs ++ a.octets.flatten ++ a.staged ++ a.countedValues

/-- The runs are ones the encoder makes, the open run is not full, and while values are counted nothing else is
pending. -/
structure Wf (a : Encoding) : Prop where
  runs : ∀ r ∈ a.runs, r.Wf
  few : a.octets.length < Config.maxLiteralGroups
  octets : ∀ o ∈ a.octets, o.length = 8
  counted : ∀ x n, a.counted = some (x, n) → a.octets = [] ∧ a.staged = [] ∧ 8 ≤ n ∧ n ≤ Config.maxCount

theorem start_wf : start.Wf := ⟨by simp [start], by decide, by simp [start], by simp [start]⟩

section
variable {a : Encoding} {v : Word64} {t : Nat}

@[simp] theorem close_octets : a.close.octets = [] := by
  unfold close
  split
  · assumption
  · rfl
@[simp] theorem close_staged : a.close.staged = a.staged := by unfold close; split <;> rfl
@[simp] theorem close_counted : a.close.counted = a.counted := by unfold close; split <;> rfl

theorem close_runsValues : runsValues a.close.runs = runsValues a.runs ++ a.octets.flatten := by
  unfold close
  split
  · rename_i h
    simp [h]
  · simp [StreamRun.values]

theorem close_runs_wf (h : a.Wf) : ∀ r ∈ a.close.runs, r.Wf := by
  unfold close
  split
  · exact h.runs
  · rename_i hne
    intro r hr
    rcases List.mem_append.1 hr with hr | hr
    · exact h.runs r hr
    · rw [List.mem_singleton.1 hr]
      exact ⟨hne, h.few.le, h.octets⟩

@[simp] theorem commit_staged (vals : List Word64) : (a.commit vals).staged = a.staged := by
  unfold commit; split <;> rfl
@[simp] theorem commit_counted (vals : List Word64) : (a.commit vals).counted = a.counted := by
  unfold commit; split <;> rfl

theorem commit_runsValues (vals : List Word64) : runsValues (a.commit vals).runs ++ (a.commit vals).octets.flatten
    = runsValues a.runs ++ a.octets.flatten ++ vals := by
  unfold commit
  split <;> simp [StreamRun.values]

/-- An octet is committed, and other values are staged. -/
theorem Wf.commit (h : a.Wf) (hc : a.counted = none) {vals : List Word64} (hvals : vals.length = 8)
    (staged : List Word64) : ({ a.commit vals with staged := staged } : Encoding).Wf := by
  have hoctets : ∀ o ∈ a.octets ++ [vals], o.length = 8 := by
    intro o ho
    rcases List.mem_append.1 ho with ho | ho
    · exact h.octets o ho
    · rwa [List.mem_singleton.1 ho]
  have hfew := h.few
  unfold Encoding.commit
  split
  · rename_i hfull
    refine ⟨fun r hr => ?_, (by decide : 0 < 63), by simp, by simp [hc]⟩
    rcases List.mem_append.1 hr with hr | hr
    · exact h.runs r hr
    · rw [List.mem_singleton.1 hr]
      exact ⟨by simp, by simp [hfull], hoctets⟩
  · exact ⟨h.runs, by simp only [List.length_append, List.length_singleton]; omega, hoctets, by simp [hc]⟩

theorem Wf.commitWhile (h : a.Wf) (hc : a.counted = none) (more : List Word64 → Bool) (fuel : Nat) :
    (a.commitWhile more fuel).Wf ∧ (a.commitWhile more fuel).counted = none
      ∧ (a.commitWhile more fuel).values = a.values := by
  induction fuel generalizing a with
  | zero => exact ⟨h, hc, rfl⟩
  | succ fuel ih =>
    rw [Encoding.commitWhile]
    split
    · rename_i hmore
      simp only [Bool.and_eq_true, decide_eq_true_eq] at hmore
      have hnext := h.commit hc (vals := a.staged.take 8) (by rw [List.length_take]; omega) (a.staged.drop 8)
      obtain ⟨hwf, hcount, hvalues⟩ := ih hnext (by exact (commit_counted _).trans hc)
      refine ⟨hwf, hcount, hvalues.trans ?_⟩
      simp only [values, countedValues, commit_counted, commit_runsValues]
      rw [List.append_assoc _ (a.staged.take 8), List.take_append_drop]
    · exact ⟨h, hc, rfl⟩

/-- Equal values are copies of the last. -/
theorem eq_replicate_of_allEqual {xs : List Word64} (h : allEqual (xs ++ [v]) = true) :
    xs ++ [v] = List.replicate (xs ++ [v]).length v := by
  refine List.eq_replicate_iff.2 ⟨rfl, fun x hx => ?_⟩
  have hhead : ∃ y, ∀ z ∈ xs ++ [v], z = y := by
    cases hl : xs ++ [v] with
    | nil => exact ⟨0, by simp⟩
    | cons y ys =>
      rw [hl] at h
      exact ⟨y, by simpa [allEqual] using h⟩
  obtain ⟨y, hy⟩ := hhead
  rw [hy x hx, hy v (by simp)]

theorem Wf.stage (h : a.Wf) (hc : a.counted = none) (ht : 8 ≤ t) (ht' : t ≤ Config.maxCount) (v : Word64) :
    (a.stage t v).Wf ∧ (a.stage t v).values = a.values ++ [v] := by
  unfold Encoding.stage
  split
  · rename_i hfull
    simp only [Bool.and_eq_true, decide_eq_true_eq] at hfull
    obtain ⟨hlen, heq⟩ := hfull
    refine ⟨⟨close_runs_wf h, by simp [Config.maxLiteralGroups], by simp, fun x n hxn => ?_⟩, ?_⟩
    · simp only [Option.some.injEq, Prod.mk.injEq] at hxn
      obtain ⟨rfl, rfl⟩ := hxn
      exact ⟨close_octets, rfl, ht, ht'⟩
    · have hrun := eq_replicate_of_allEqual heq
      rw [hlen] at hrun
      simp [values, countedValues, hc, close_runsValues, ← hrun]
  · have hnext : ({ a with staged := a.staged ++ [v] } : Encoding).Wf :=
      ⟨h.runs, h.few, h.octets, fun x n hxn => by simp [hc] at hxn⟩
    obtain ⟨hwf, -, hvalues⟩ := hnext.commitWhile hc (fun b => !allEqual b) (a.staged ++ [v]).length
    refine ⟨hwf, hvalues.trans ?_⟩
    simp [values, countedValues, hc]

theorem Wf.emit (h : a.Wf) {x : Word64} {n : Nat} (hc : a.counted = some (x, n)) :
    (a.emit x n).Wf ∧ (a.emit x n).values = a.values := by
  obtain ⟨ho, hst, hmin, hmax⟩ := h.counted x n hc
  refine ⟨⟨fun r hr => ?_, h.few, h.octets, fun y m hym => by cases hym⟩, ?_⟩
  · rcases List.mem_append.1 hr with hr | hr
    · exact h.runs r hr
    · rw [List.mem_singleton.1 hr]
      exact ⟨hmin, hmax⟩
  · simp [values, countedValues, Encoding.emit, hc, ho, hst, StreamRun.values]

theorem Wf.step (h : a.Wf) (ht : 8 ≤ t) (ht' : t ≤ Config.maxCount) (v : Word64) :
    (a.step t v).Wf ∧ (a.step t v).values = a.values ++ [v] := by
  unfold Encoding.step
  split
  · rename_i hc
    exact h.stage hc ht ht' v
  · rename_i x n hc
    obtain ⟨ho, hst, hmin, hmax⟩ := h.counted x n hc
    split
    · rename_i hcount
      obtain ⟨rfl, hlt⟩ := hcount
      refine ⟨⟨h.runs, h.few, h.octets, fun y m hym => ?_⟩, ?_⟩
      · simp only [Option.some.injEq, Prod.mk.injEq] at hym
        obtain ⟨rfl, rfl⟩ := hym
        exact ⟨ho, hst, by omega, hlt⟩
      · simp [values, countedValues, hc, List.replicate_succ']
    · obtain ⟨hwf, hvalues⟩ := h.emit hc
      rw [← hvalues]
      exact hwf.stage rfl ht ht' v

/-- Taking up values one after another. -/
theorem Wf.steps (h : a.Wf) (ht : 8 ≤ t) (ht' : t ≤ Config.maxCount) (vs : List Word64) :
    (vs.foldl (Encoding.step t) a).Wf ∧ (vs.foldl (Encoding.step t) a).values = a.values ++ vs := by
  induction vs generalizing a with
  | nil => exact ⟨h, (List.append_nil _).symm⟩
  | cons v vs ih =>
    obtain ⟨hwf, hvalues⟩ := h.step ht ht' v
    obtain ⟨hwf', hvalues'⟩ := ih hwf
    exact ⟨hwf', by rw [List.foldl_cons, hvalues', hvalues, List.append_assoc, List.singleton_append]⟩

theorem commitWhile_staged_length (fuel : Nat) (h : a.staged.length ≤ fuel) :
    (a.commitWhile (fun _ => true) fuel).staged.length < 8 := by
  induction fuel generalizing a with
  | zero => rw [Encoding.commitWhile]; omega
  | succ fuel ih =>
    rw [Encoding.commitWhile]
    split
    · rename_i hmore
      exact ih (by simp at hmore; simp only [List.length_drop]; omega)
    · rename_i hmore
      simpa using hmore

theorem Wf.flushStaged (h : a.Wf) (hc : a.counted = none) : a.flushStaged.Wf ∧ a.flushStaged.staged = []
    ∧ a.flushStaged.counted = none ∧ ∃ pad ≤ 7, a.flushStaged.values = a.values ++ List.replicate pad 0 := by
  obtain ⟨hwf, hcount, hvalues⟩ := h.commitWhile hc (fun _ => true) a.staged.length
  have hlen := commitWhile_staged_length _ (Nat.le_refl a.staged.length)
  unfold Encoding.flushStaged
  dsimp only
  split
  · rename_i hnone
    exact ⟨hwf, List.length_eq_zero_iff.1 hnone, hcount, 0, by omega, by simp [hvalues]⟩
  · rename_i hsome
    refine ⟨hwf.commit hcount (by simp only [List.length_append, List.length_replicate]; omega) [], rfl,
      (commit_counted _).trans hcount, 8 - (a.commitWhile (fun _ => true) a.staged.length).staged.length, by omega, ?_⟩
    rw [← hvalues]
    simp only [values, countedValues, commit_counted, commit_runsValues, hcount, List.append_nil, List.append_assoc]

/-- A flushed encoding is closed runs alone: they stand for the values taken up, and at most 7 zeros. -/
theorem Wf.flush (h : a.Wf) : (∀ r ∈ a.flush.runs, r.Wf) ∧ a.flush.octets = []
    ∧ ∃ pad ≤ 7, runsValues a.flush.runs = a.values ++ List.replicate pad 0 := by
  unfold Encoding.flush
  split
  · rename_i x n hc
    obtain ⟨ho, hst, -, -⟩ := h.counted x n hc
    obtain ⟨hwf, hvalues⟩ := h.emit hc
    refine ⟨close_runs_wf hwf, close_octets, 0, by omega, ?_⟩
    rw [close_runsValues, ← hvalues]
    simp [values, countedValues, Encoding.emit, hst]
  · rename_i hc
    obtain ⟨hwf, hst, hcount, pad, hpad, hvalues⟩ := h.flushStaged hc
    refine ⟨close_runs_wf hwf, close_octets, pad, hpad, ?_⟩
    rw [close_runsValues, ← hvalues]
    simp [values, countedValues, hst, hcount]

end

end Encoding

/-! ### The length of the stream (R119) -/

theorem packedOctets_length (w : Nat) (octets : List (List Word64)) :
    (octets.flatMap (packOctet w)).length = octets.length * w := by
  simp [List.length_flatMap]

theorem flatten_length_of_octets {octets : List (List Word64)} (h : ∀ o ∈ octets, o.length = 8) :
    octets.flatten.length = 8 * octets.length := by
  rw [List.length_flatten, List.map_congr_left h]
  simp [Nat.mul_comm]

/-- A run takes no more bytes than are allowed for each 8 of its values. -/
theorem StreamRun.Wf.bytes_length_le {r : StreamRun} (h : r.Wf) (w : Nat) :
    (r.bytes w).length ≤ r.values.length / 8 * max (w + 1) (cb w + 5) := by
  cases r with
  | repeated value count =>
    obtain ⟨hmin, -⟩ := h
    have hheader : (ulebEncode (2 * count)).length ≤ 5 := ulebEncodeWithin_length_le _ _
    have hone : 1 * max (w + 1) (cb w + 5) ≤ count / 8 * max (w + 1) (cb w + 5) := Nat.mul_le_mul_right _ (by omega)
    simp only [StreamRun.bytes, StreamRun.values, repeatedRunBytes, List.length_append, leBytes_length,
      List.length_replicate]
    omega
  | literal octets =>
    obtain ⟨hne, -, hoctets⟩ := h
    have hvalues := flatten_length_of_octets hoctets
    have hpos : 1 ≤ octets.length := List.length_pos_iff.2 hne
    have hmul : octets.length * (w + 1) ≤ octets.length * max (w + 1) (cb w + 5) :=
      Nat.mul_le_mul_left _ (Nat.le_max_left _ _)
    simp only [StreamRun.bytes, StreamRun.values, List.length_cons, packedOctets_length, hvalues,
      Nat.mul_div_cancel_left _ (Nat.zero_lt_succ 7)]
    rw [Nat.mul_succ] at hmul
    omega

theorem runsBytes_length_le {rs : List StreamRun} (h : ∀ r ∈ rs, r.Wf) (w : Nat) :
    (runsBytes w rs).length ≤ (runsValues rs).length / 8 * max (w + 1) (cb w + 5) := by
  induction rs with
  | nil => exact Nat.zero_le _
  | cons r rs ih =>
    have hr := (h r List.mem_cons_self).bytes_length_le w
    have hrs := ih fun r' hr' => h r' (List.mem_cons_of_mem _ hr')
    have hsum : r.values.length / 8 + (runsValues rs).length / 8 ≤ (r.values.length + (runsValues rs).length) / 8 := by
      omega
    calc (runsBytes w (r :: rs)).length = (r.bytes w).length + (runsBytes w rs).length := by simp [runsBytes]
      _ ≤ (r.values.length / 8 + (runsValues rs).length / 8) * max (w + 1) (cb w + 5) := by
        rw [Nat.add_mul]; exact Nat.add_le_add hr hrs
      _ ≤ (r.values.length + (runsValues rs).length) / 8 * max (w + 1) (cb w + 5) := Nat.mul_le_mul_right _ hsum
      _ = (runsValues (r :: rs)).length / 8 * max (w + 1) (cb w + 5) := by simp [runsValues]

end Sys2Proof.Machine
end

section
/-! ## The encoder writes the bytes of those runs

A simulation: each of the encoder's procedures does to its fields and its output what the procedure of the same name does
to the list of runs. -/

namespace Sys2Proof.Machine

/-- The encoder counts these values, or stages. -/
def EncCore.Counts (e : EncCore) : Option (Word64 × Nat) → Prop
  | none => e.mode = .staging ∧ e.repCount = 0
  | some (x, n) => e.mode = .repeating ∧ e.repValue = x ∧ e.repCount = n

/-- The encoder is at `a`, and its output, of which `rd` gives the bytes, holds the closed runs and after the byte
reserved for its header the open run's octets. -/
structure EncCore.Refines (e : EncCore) (rd : Nat → Byte) (a : Encoding) : Prop where
  staged : e.staged = a.staged
  counts : e.Counts a.counted
  groupsOk : e.groupsOk
  groups : e.litGroups = a.octets.length
  header : a.octets ≠ [] → e.litHdrPos = (runsBytes e.w a.runs).length
  wpos : e.wpos = (runsBytes e.w a.runs).length + (if a.octets = [] then 0 else 1) + a.octets.length * e.w
  closed : Shows rd 0 (runsBytes e.w a.runs)
  opened : Shows rd ((runsBytes e.w a.runs).length + 1) (a.octets.flatMap (packOctet e.w))

/-- So for a working copy, whose writes are put over the bytes `rd`. -/
def Draft.Refines (d : Draft) (rd : Nat → Byte) (a : Encoding) : Prop := d.enc.Refines (overwrite rd d.cells) a

/-- A literal run's header completes it. -/
theorem shows_literal {rd : Nat → Byte} {w : Nat} {runs : List StreamRun} {octets : List (List Word64)}
    (hclosed : Shows rd 0 (runsBytes w runs))
    (hopened : Shows rd ((runsBytes w runs).length + 1) (octets.flatMap (packOctet w))) :
    Shows (overwrite rd [((runsBytes w runs).length, BitVec.ofNat 8 (2 * octets.length + 1))]) 0
      (runsBytes w (runs ++ [.literal octets])) := by
  rw [runsBytes_append_singleton, StreamRun.bytes, Shows.append, Shows.cons, Nat.zero_add]
  refine ⟨hclosed.overwrite fun c hc => ?_, overwrite_singleton_same _ _ _, hopened.overwrite fun c hc => ?_⟩ <;>
    rw [List.mem_singleton.1 hc] <;> dsimp only <;> omega

theorem runsBytes_literal_length (w : Nat) (runs : List StreamRun) (octets : List (List Word64)) :
    (runsBytes w (runs ++ [.literal octets])).length = (runsBytes w runs).length + 1 + octets.length * w := by
  rw [runsBytes_append_singleton, StreamRun.bytes, List.length_append, List.length_cons, packedOctets_length]
  omega

section
variable {e : EncCore} {rd : Nat → Byte} {a : Encoding}

theorem EncCore.Refines.litOpen_iff (h : e.Refines rd a) : e.litOpen = true ↔ a.octets ≠ [] := by
  rw [h.groupsOk.1, h.groups, ← List.length_pos_iff]
  exact Iff.rfl

theorem EncCore.Refines.behind (h : e.Refines rd a) (ho : e.litOpen = true) : e.litHdrPos < e.wpos := by
  have hne := h.litOpen_iff.1 ho
  rw [h.header hne, h.wpos, if_neg hne]
  omega

theorem EncCore.Refines.setIdle (h : e.Refines rd a) (idle : Bool) :
    ({ e with idle := idle } : EncCore).Refines rd a :=
  ⟨h.staged, h.counts, h.groupsOk, h.groups, h.header, h.wpos, h.closed, h.opened⟩

/-- What is pending depends on the encoding alone (R113). -/
theorem EncCore.Refines.demand_eq {f : EncCore} {rd' : Nat → Byte} (he : e.Refines rd a) (hf : f.Refines rd' a)
    (hi : e.idle = false) (hi' : f.idle = false) (hw : f.w = e.w) : f.demand = e.demand := by
  have hst := hf.staged.trans he.staged.symm
  have hg := hf.groups.trans he.groups.symm
  have hwpos : f.wpos = e.wpos := by rw [hf.wpos, he.wpos, hw]
  have hce := he.counts
  have hcf := hf.counts
  unfold EncCore.demand EncCore.flushBytes
  cases hc : a.counted <;> rw [hc] at hce hcf
  · rw [hce.1, hcf.1, hi, hi', hst, hg, hwpos, hw]
  · rw [hce.1, hcf.1, hi, hi', hce.2.2, hcf.2.2, hwpos, hw]

/-- Where the next octet begins, and the header byte of its run. -/
theorem EncCore.Refines.octet_position (h : e.Refines rd a) :
    e.octetStart 0 = (runsBytes e.w a.runs).length + 1 + a.octets.length * e.w
      ∧ e.headerOf 1 = (runsBytes e.w a.runs).length := by
  obtain ⟨hstart, hheader, -⟩ := EncCore.afterOctets_one h.groupsOk []
  rw [hstart, hheader, h.wpos]
  by_cases ho : a.octets = []
  · have hclosed : ¬e.litOpen = true := by simp [h.litOpen_iff, ho]
    simp [if_neg hclosed, ho]
  · simp only [if_pos (h.litOpen_iff.2 ho), if_neg ho, h.header ho, and_true]
    omega

end

section
variable {d : Draft} {rd : Nat → Byte} {a : Encoding}

/-- CloseLiteral. -/
theorem Draft.Refines.close (h : d.Refines rd a) : d.closeLiteral.Refines rd a.close := by
  unfold Draft.Refines
  rw [Draft.closeLiteral_enc h.groupsOk, Draft.closeLiteral_cells h.groupsOk, overwrite_append, h.groups]
  by_cases ho : a.octets = []
  · rw [Encoding.close, if_pos ho, ho]
    exact ⟨h.staged, h.counts, by simp [EncCore.groupsOk], by rw [ho]; rfl, fun hne => absurd ho hne, h.wpos, h.closed,
      h.opened⟩
  · rw [Encoding.close, if_neg ho, if_neg (List.length_pos_iff.2 ho).ne', h.header ho]
    refine ⟨h.staged, h.counts, by simp [EncCore.groupsOk], rfl, fun hnil => absurd rfl hnil, ?_,
      shows_literal h.closed h.opened, .nil⟩
    rw [runsBytes_literal_length, h.wpos, if_neg ho]
    simp

/-- CommitOctet; other values may then be staged. -/
theorem Draft.Refines.commit (h : d.Refines rd a) (vals staged : List Word64) :
    Draft.Refines { d.commitOctet vals with enc := { (d.commitOctet vals).enc with staged := staged } } rd
      { a.commit vals with staged := staged } := by
  obtain ⟨hstart, hheader⟩ := h.octet_position
  obtain ⟨-, -, hafter⟩ := EncCore.afterOctets_one h.groupsOk d.enc.staged
  have hwpos : (d.enc.afterOctets 1 d.enc.staged).wpos
      = (runsBytes d.enc.w a.runs).length + 1 + (a.octets ++ [vals]).length * d.enc.w := by
    obtain ⟨hst, -⟩ := EncCore.afterOctets_one h.groupsOk d.enc.staged
    rw [hafter, List.length_append, List.length_singleton, Nat.succ_mul]
    dsimp only
    omega
  have hok := d.enc.afterOctets_groupsOk 1 d.enc.staged
  have hgroups := h.groups
  obtain ⟨-, hlt⟩ := h.groupsOk
  unfold Draft.Refines
  rw [Draft.commitOctet_enc h.groupsOk, Draft.commitOctet_cells h.groupsOk, overwrite_append, overwrite_append, hstart,
    hheader]
  have hclosed := h.closed.overwrite (cells := cellsFrom ((runsBytes d.enc.w a.runs).length + 1 + a.octets.length * d.enc.w)
    (packOctet d.enc.w vals)) fun c hc => by have := mem_cellsFrom hc; omega
  have hopened : Shows (overwrite (overwrite rd d.cells) (cellsFrom
      ((runsBytes d.enc.w a.runs).length + 1 + a.octets.length * d.enc.w) (packOctet d.enc.w vals)))
      ((runsBytes d.enc.w a.runs).length + 1) ((a.octets ++ [vals]).flatMap (packOctet d.enc.w)) := by
    rw [List.flatMap_append, List.flatMap_singleton, Shows.append, packedOctets_length]
    refine ⟨h.opened.overwrite fun c hc => ?_, shows_cellsFrom _ _ _⟩
    rw [packedOctets_length]
    have := mem_cellsFrom hc
    omega
  unfold Encoding.commit Config.maxLiteralGroups
  by_cases hfull : a.octets.length + 1 = 63
  · have h63 : (a.octets ++ [vals]).length = 63 := by simpa using hfull
    have hrun := shows_literal hclosed hopened
    rw [h63] at hrun
    rw [if_pos hfull, if_pos (by omega)]
    refine ⟨rfl, h.counts, hok, ?_, fun hnil => absurd rfl hnil, ?_, hrun, .nil⟩
    · change (d.enc.litGroups + 1) % 63 = 0
      omega
    · refine hwpos.trans ?_
      rw [← runsBytes_literal_length, if_pos rfl, List.length_nil, Nat.zero_mul]
      rfl
  · rw [if_neg hfull, if_neg (by omega), overwrite_nil]
    refine ⟨rfl, h.counts, hok, ?_, fun _ => hheader, ?_, hclosed, hopened⟩
    · change (d.enc.litGroups + 1) % 63 = _
      rw [List.length_append, List.length_singleton]
      omega
    · rw [if_neg (by simp)]
      exact hwpos

/-- The loop over `B`. -/
theorem Draft.Refines.commitWhile (h : d.Refines rd a) (more : List Word64 → Bool) (fuel : Nat) :
    (Draft.commitWhile more fuel d).Refines rd (a.commitWhile more fuel) := by
  induction fuel generalizing d a with
  | zero => exact h
  | succ fuel ih =>
    rw [Draft.commitWhile, Encoding.commitWhile, h.staged]
    split
    · exact ih (h.commit _ _)
    · exact h

/-- EmitRepeated, in REPEAT mode. -/
theorem Draft.Refines.emit (h : d.Refines rd a) (ho : a.octets = []) {x : Word64} {n : Nat} (hn : 2 * n < 2 ^ 32) :
    Draft.Refines { d.emitRepeated x n with enc := { (d.emitRepeated x n).enc with mode := .staging, repCount := 0 } } rd
      (a.emit x n) := by
  have hwpos := h.wpos
  rw [if_pos ho, ho, List.length_nil, Nat.zero_mul] at hwpos
  unfold Draft.Refines
  rw [Draft.emitRepeated_enc _ _ hn, Draft.emitRepeated_cells_eq, overwrite_append, hwpos]
  refine ⟨h.staged, ⟨rfl, rfl⟩, h.groupsOk, h.groups, fun hne => absurd ho hne, ?_, ?_, ?_⟩
  · simp only [Encoding.emit, runsBytes_append_singleton, StreamRun.bytes, List.length_append,
      repeatedRunBytes_length _ _ hn, ho]
    simp
  · simp only [Encoding.emit, runsBytes_append_singleton, StreamRun.bytes]
    rw [Shows.append, Nat.zero_add]
    exact ⟨h.closed.overwrite fun c hc => by have := mem_cellsFrom hc; omega, shows_cellsFrom _ _ _⟩
  · simp only [Encoding.emit, ho]
    exact .nil

/-- A value is staged. -/
theorem Draft.Refines.stage (h : d.Refines rd a) (hc : a.counted = none) (v : Word64) :
    (d.stage v).Refines rd (a.stage d.enc.t v) := by
  have hcounts := h.counts
  rw [hc] at hcounts
  unfold Draft.stage Encoding.stage
  rw [h.staged]
  dsimp only
  split
  · have hclose := h.close
    exact ⟨rfl, ⟨rfl, rfl, rfl⟩, hclose.groupsOk, hclose.groups, hclose.header, hclose.wpos, hclose.closed, hclose.opened⟩
  · refine Draft.Refines.commitWhile (d := { d with enc := { d.enc with staged := a.staged ++ [v] } })
      (a := { a with staged := a.staged ++ [v] }) ⟨rfl, ?_, h.groupsOk, h.groups, h.header, h.wpos, h.closed, h.opened⟩ _ _
    rw [hc]
    exact hcounts

/-- Step. -/
theorem Draft.Refines.step (h : d.Refines rd a) (ha : a.Wf) (v : Word64) :
    (d.step v).Refines rd (a.step d.enc.t v) := by
  have hcounts := h.counts
  unfold Draft.step Encoding.step
  cases hc : a.counted with
  | none =>
    rw [hc] at hcounts
    rw [hcounts.1]
    exact h.stage hc v
  | some xn =>
    obtain ⟨x, n⟩ := xn
    obtain ⟨ho, -, -, hmax⟩ := ha.counted x n hc
    rw [hc] at hcounts
    obtain ⟨hm, rfl, rfl⟩ := hcounts
    rw [hm]
    dsimp only
    split
    · exact ⟨h.staged, ⟨hm, rfl, rfl⟩, h.groupsOk, h.groups, h.header, h.wpos, h.closed, h.opened⟩
    · exact (h.emit ho (by unfold Config.maxCount at hmax; omega)).stage rfl v

/-- The staged values are committed. -/
theorem Draft.Refines.flushStaged (h : d.Refines rd a) : d.flushStaged.Refines rd a.flushStaged := by
  have hloop := h.commitWhile (fun _ => true) a.staged.length
  unfold Draft.flushStaged Encoding.flushStaged
  rw [h.staged]
  dsimp only
  rw [hloop.staged]
  split
  · exact hloop
  · exact hloop.commit _ []

/-- The flush. -/
theorem Draft.Refines.flush (h : d.Refines rd a) (ha : a.Wf) : d.flush.Refines rd a.flush := by
  have hcounts := h.counts
  unfold Draft.flush Encoding.flush
  cases hc : a.counted with
  | none =>
    rw [hc] at hcounts
    rw [hcounts.1]
    exact h.flushStaged.close.setIdle true
  | some xn =>
    obtain ⟨x, n⟩ := xn
    obtain ⟨ho, -, -, hmax⟩ := ha.counted x n hc
    rw [hc] at hcounts
    obtain ⟨hm, rfl, rfl⟩ := hcounts
    rw [hm]
    have hn : 2 * d.enc.repCount < 2 ^ 32 := by unfold Config.maxCount at hmax; omega
    exact (h.emit ho hn).close.setIdle true

/-- After the flush the output is the closed runs' bytes. -/
theorem Draft.Refines.flush_shows (h : d.Refines rd a) (ha : a.Wf) :
    d.flush.enc.wpos = (runsBytes d.enc.w a.flush.runs).length
      ∧ Shows (overwrite rd d.flush.cells) 0 (runsBytes d.enc.w a.flush.runs) := by
  have hflush := h.flush ha
  have hwpos := hflush.wpos
  have hclosed := hflush.closed
  obtain ⟨-, ho, -⟩ := ha.flush
  rw [if_pos ho, ho, List.length_nil, Nat.zero_mul] at hwpos
  rw [d.flush_extends.w] at hwpos hclosed
  exact ⟨hwpos, hclosed⟩

end

end Sys2Proof.Machine
end

section
/-! ## Whole encodings (42_rle_literal_classifier.md R117 to R122) -/

namespace Sys2Proof.Machine

/-! ### A value leaves the encoder busy -/

theorem Draft.stage_idle {d : Draft} (hg : d.enc.groupsOk) (v : Word64) : (d.stage v).enc.idle = d.enc.idle := by
  unfold Draft.stage
  dsimp only
  split
  · rw [Draft.closeLiteral_enc hg]
  · obtain ⟨n, -, henc, -⟩ := Draft.commitWhile_spec (fun b => !allEqual b) (d.enc.staged ++ [v]).length
      (d := { d with enc := { d.enc with staged := d.enc.staged ++ [v] } }) hg
    rw [henc]
    rfl

theorem EncCore.put_idle {e : EncCore} (hg : e.groupsOk) (v : Word64) : (e.put v).enc.idle = e.idle := by
  unfold EncCore.put Draft.step
  split
  · split
    · rfl
    · exact Draft.stage_idle hg v
  · exact Draft.stage_idle hg v

/-! ### An encoder at work -/

/-- The addressed encoder, in the state `e`, is at `a`, and can be flushed. -/
structure State.Encodes (s : State) (e : EncCore) (a : Encoding) : Prop where
  runs : s.runsEnc e
  busy : e.idle = false
  room : e.demand ≤ e.lOut
  refines : e.Refines (s.readByte e.buf) a
  wf : a.Wf

section
variable {s u : State} {e f : EncCore} {a : Encoding} {v : Word64}

/-- So it is after ENC.NEW and ENC.CLEAR (R97, R116). -/
theorem State.Encodes.of_fresh (h : s.runsEnc e) {buf w m lOut hdrPos : Nat} {repValue : Word64}
    (he : e = EncCore.fresh buf w m lOut repValue hdrPos) : s.Encodes e .start := by
  subst he
  have hdemand : (EncCore.fresh buf w m lOut repValue hdrPos).demand = 0 := by
    simp [EncCore.demand, EncCore.flushBytes, EncCore.fresh, ceil8]
  exact ⟨h, rfl, hdemand.trans_le (Nat.zero_le _), ⟨rfl, ⟨rfl, rfl⟩, by simp [EncCore.groupsOk, EncCore.fresh], rfl,
    fun hne => absurd rfl hne, by simp [EncCore.fresh, Encoding.start, runsBytes], .nil, .nil⟩, Encoding.start_wf⟩

/-- A value that is accepted fits the width, and leaves the room for a flush. -/
theorem State.Encodes.of_accepted (h : s.Encodes e a) {t : State} (ht : execEncPut v s = .next t)
    (hst : t.status = some .ok) : valueFits e.w v = true ∧ (e.put v).enc.demand ≤ e.lOut := by
  have hfits : valueFits e.w v = true := by
    by_contra hv
    have hnext := (exec_encPut_unfit h.runs (by simpa using hv)).symm.trans ht
    cases hnext
    cases hst
  refine ⟨hfits, Nat.not_lt.1 fun hfull => ?_⟩
  have hnext := (exec_encPut_full h.runs h.busy hfits hfull).symm.trans ht
  cases hnext
  cases hst

/-- The state after an accepted value. -/
def State.afterPut (s : State) (e : EncCore) (v : Word64) : State := s.encWrote (e.put v).enc none (e.put v).cells

theorem State.Encodes.put (h : s.Encodes e a) (hmin : 8 ≤ e.t) (hmax : e.t ≤ Config.maxCount)
    (hv : valueFits e.w v = true) (hroom : (e.put v).enc.demand ≤ e.lOut) :
    execEncPut v s = .next (s.afterPut e v) ∧ (s.afterPut e v).Encodes (e.put v).enc (a.step e.t v) := by
  have hext := e.put_extends v
  have hrefines := Draft.Refines.step (d := { enc := e, cells := [] }) h.refines h.wf v
  refine ⟨exec_encPut_ok h.runs h.busy hv h.refines.behind hroom, State.encWrote_runsEnc h.runs hext.buf,
    (EncCore.put_idle h.refines.groupsOk v).trans h.busy, hroom.trans_eq hext.lOut.symm, ?_, (h.wf.step hmin hmax v).1⟩
  rw [State.afterPut, State.encWrote_readByte, hext.buf]
  exact hrefines

/-- Two encoders of one configuration that are at the same point accept the same values, and are at the same point
then. -/
theorem State.Encodes.putAll (h : s.Encodes e a) (h' : u.Encodes f a) (hw : f.w = e.w) (ht : f.t = e.t)
    (hl : f.lOut = e.lOut) (hmin : 8 ≤ e.t) (hmax : e.t ≤ Config.maxCount) {vs : List Word64} {s1 : State}
    (hput : putAll vs s = some s1) : ∃ u1 e1 f1, Machine.putAll vs u = some u1
      ∧ s1.Encodes e1 (vs.foldl (Encoding.step e.t) a) ∧ u1.Encodes f1 (vs.foldl (Encoding.step e.t) a)
      ∧ e1.config = e.config ∧ f1.config = f.config ∧ s1.params = s.params ∧ ∀ v ∈ vs, valueFits e.w v = true := by
  induction vs generalizing s u e f a with
  | nil =>
    cases hput
    exact ⟨u, e, f, rfl, h, h', rfl, rfl, rfl, fun v hv => by cases hv⟩
  | cons v vs ih =>
    rw [Machine.putAll] at hput
    split at hput
    · rename_i t hnext
      split at hput
      · rename_i hst
        obtain ⟨hv, hroom⟩ := h.of_accepted hnext hst
        obtain ⟨hs, hafter⟩ := h.put hmin hmax hv hroom
        cases hs.symm.trans hnext
        have hex := e.put_extends v
        have hfx := f.put_extends v
        have hgo := Draft.Refines.step (d := { enc := f, cells := [] }) h'.refines h'.wf v
        rw [show ({ enc := f, cells := [] } : Draft).enc.t = e.t from ht] at hgo
        have hroom' : (f.put v).enc.demand ≤ f.lOut := by
          rw [hl]
          exact (hafter.refines.demand_eq hgo hafter.busy ((EncCore.put_idle h'.refines.groupsOk v).trans h'.busy)
            (hfx.w.trans (hw.trans hex.w.symm))).trans_le hroom
        obtain ⟨hu, hafter'⟩ := h'.put (ht ▸ hmin) (ht ▸ hmax) (hw ▸ hv) hroom'
        rw [ht] at hafter'
        obtain ⟨u1, e1, f1, hrest, henc, henc', hcfg, hcfg', hparams, hfits⟩ := ih hafter hafter'
          (hfx.w.trans (hw.trans hex.w.symm)) (hfx.t.trans (ht.trans hex.t.symm))
          (hfx.lOut.trans (hl.trans hex.lOut.symm)) (hex.t ▸ hmin) (hex.t ▸ hmax) hput
        rw [hex.t] at henc henc'
        refine ⟨u1, e1, f1, ?_, henc, henc', hcfg.trans hex.config, hcfg'.trans hfx.config, hparams,
          List.forall_mem_cons.2 ⟨hv, fun x hx => hex.w ▸ hfits x hx⟩⟩
        rw [Machine.putAll, hu]
        exact hrest
      · cases hput
    · cases hput

/-- The state after a flush. -/
def State.afterFlush (s : State) (e : EncCore) : State :=
  s.encWrote e.flushing.enc (resultOf e.flushing.enc.wpos) e.flushing.cells

/-- A flush leaves the closed runs' bytes as the whole stream (R114). -/
theorem State.Encodes.flush (h : s.Encodes e a) : exec .encFlush s = .next (s.afterFlush e)
    ∧ (s.afterFlush e).answers .ok (resultOf (runsBytes e.w a.flush.runs).length) []
    ∧ (runsBytes e.w a.flush.runs).length ≤ e.lOut
    ∧ Shows ((s.afterFlush e).readByte e.buf) 0 (runsBytes e.w a.flush.runs) := by
  obtain ⟨hwpos, hshows⟩ := Draft.Refines.flush_shows (d := { enc := e, cells := [] }) h.refines h.wf
  have hcounts := h.refines.counts
  have henc := Draft.flush_enc (d := { enc := e, cells := [] }) h.refines.groupsOk h.busy
    (fun hm => by
      cases hc : a.counted with
      | none => exact (hc ▸ hcounts : e.Counts none).2
      | some xn => exact absurd ((hc ▸ hcounts : e.Counts (some xn)).1.symm.trans hm) (by decide))
    (fun hm => by
      cases hc : a.counted with
      | none => exact absurd ((hc ▸ hcounts : e.Counts none).1.symm.trans hm) (by decide)
      | some xn =>
        obtain ⟨-, hst, -, hmax⟩ := h.wf.counted xn.1 xn.2 hc
        refine ⟨h.refines.staged.trans hst, ?_⟩
        dsimp only
        rw [(hc ▸ hcounts : e.Counts (some xn)).2.2]
        unfold Config.maxCount at hmax
        omega)
  have hdemand : e.flushing.enc.wpos = e.demand := congrArg EncCore.wpos henc
  have hroom : e.flushing.enc.wpos ≤ e.lOut := hdemand.trans_le h.room
  refine ⟨exec_encFlush h.runs h.busy h.refines.behind hroom, ?_, hwpos ▸ hroom, ?_⟩
  · rw [← hwpos]
    rfl
  · have hreads := (State.encWrote_wrote h.runs e.flushing_extends (resultOf e.flushing.enc.wpos)).reads
    rw [State.afterFlush, hreads]
    exact hshows

end

end Sys2Proof.Machine
end

section
/-! ## What a decoder delivers from such runs (43_run_frame_parser.md R129 to R142; 42_rle_literal_classifier.md R118) -/

namespace Sys2Proof.Machine

section
variable (policy : PadPolicy) (rd : Nat → Byte)

/-- However many values are asked for, the decoder delivers as many of `vals` as there are. -/
def DecCore.Delivers (c : DecCore) (vals : List Word64) : Prop := ∀ n, (c.takeMany policy rd n).2 = vals.take n

variable {policy rd} {c c' : DecCore} {vals : List Word64} {v : Word64}

theorem DecCore.Delivers.nil (h : c.takeOne policy rd = (c', none)) : c.Delivers policy rd [] := by
  intro n
  cases n with
  | zero => rfl
  | succ n => rw [DecCore.takeMany_none policy rd n h, List.take_nil]

theorem DecCore.Delivers.cons (h : c.takeOne policy rd = (c', some v)) (h' : c'.Delivers policy rd vals) :
    c.Delivers policy rd (v :: vals) := by
  intro n
  cases n with
  | zero => rfl
  | succ n => rw [DecCore.takeMany_some policy rd n h, List.take_succ_cons, h' n]

/-- Looking ahead delivers nothing. -/
theorem DecCore.Delivers.of_lookAhead (h : (c.lookAhead policy rd).Delivers policy rd vals) :
    c.Delivers policy rd vals := by
  intro n
  rw [← h n]
  cases n with
  | zero => rfl
  | succ n => simp only [DecCore.takeMany, DecCore.takeOne_lookAhead]

/-- A repeated run, and what comes after it. -/
theorem DecCore.Delivers.repeated {k : Nat} (hrun : c.run = .rep v (k + 1))
    (h : DecCore.Delivers policy rd { c with run := .empty } vals) :
    c.Delivers policy rd (List.replicate (k + 1) v ++ vals) := by
  induction k generalizing c with
  | zero => exact .cons (DecCore.takeOne_rep policy rd hrun) h
  | succ k ih =>
    rw [List.replicate_succ, List.cons_append]
    exact .cons (DecCore.takeOne_rep policy rd hrun) (ih rfl h)

/-- A literal run whose payload is packed values, and what comes after it. -/
theorem DecCore.Delivers.literal {w : Nat} {xs : List Word64} (hw : c.w = w) (hne : xs ≠ [])
    (hrun : c.run = .lit xs.length) (hfits : ∀ x ∈ xs, x.toNat < 2 ^ w)
    (hin : c.rbits + xs.length * w ≤ 8 * c.lIn)
    (hpacked : inField rd c.rbits (xs.length * w) = packNumber w xs)
    (h : DecCore.Delivers policy rd { c with rbits := c.rbits + xs.length * w, run := .empty } vals) :
    c.Delivers policy rd (xs ++ vals) := by
  subst hw
  induction xs generalizing c with
  | nil => exact absurd rfl hne
  | cons x xs ih =>
    rw [List.length_cons, Nat.succ_mul, Nat.add_comm (xs.length * c.w)] at hin hpacked h
    rw [inField_add, packNumber, Nat.mod_eq_of_lt (hfits x List.mem_cons_self)] at hpacked
    have hx : inField rd c.rbits c.w = x.toNat := by
      have hmod := congrArg (· % 2 ^ c.w) hpacked
      simpa [Nat.add_mul_mod_self_left, Nat.mod_eq_of_lt (inField_lt _ _ _),
        Nat.mod_eq_of_lt (hfits x List.mem_cons_self)] using hmod
    have hrest : inField rd (c.rbits + c.w) (xs.length * c.w) = packNumber c.w xs := by
      rw [hx] at hpacked
      exact Nat.eq_of_mul_eq_mul_left (Nat.two_pow_pos c.w) (Nat.add_left_cancel hpacked)
    have htake := DecCore.takeOne_lit policy rd hrun (by omega)
    rw [hx, BitVec.ofNat_toNat, BitVec.setWidth_eq, List.length_cons, Nat.add_sub_cancel] at htake
    refine .cons htake ?_
    by_cases hnil : xs = []
    · subst hnil
      simpa using h
    · have hlen : ¬xs.length + 1 = 1 := by
        have := List.length_pos_iff.2 hnil
        omega
      rw [if_neg hlen]
      refine ih hnil rfl (fun y hy => hfits y (List.mem_cons_of_mem _ hy)) ?_ hrest ?_
      · dsimp only
        omega
      · dsimp only
        rwa [Nat.add_assoc]

/-! ### A header parsed (R129 to R134) -/

theorem bytesFrom_add (rd : Nat → Byte) (p m n : Nat) :
    bytesFrom rd p (m + n) = bytesFrom rd p m ++ bytesFrom rd (p + m) n := by
  induction m generalizing p with
  | zero => simp [bytesFrom]
  | succ m ih => rw [Nat.succ_add, bytesFrom, bytesFrom, ih, List.cons_append, Nat.add_right_comm p 1 m, Nat.add_assoc p]

theorem ulebEncode_of_lt {x : Nat} (h : x < 128) : ulebEncode x = [BitVec.ofNat 8 x] := by
  rw [ulebEncode, Config.maxUlebBytes, ulebEncodeWithin, if_pos (Nat.div_eq_of_lt h), Nat.mod_eq_of_lt h]

section
variable {p : Nat} (hrun : c.run = .empty) (hp : c.rbits = 8 * p)
include hp

/-- The header of a run is found where its bytes stand. -/
theorem DecCore.fetchRun_of_shows {x : Nat} (hx : x < 2 ^ 32) (hshows : Shows rd p (ulebEncode x))
    (hend : p + ulebLen x ≤ c.lIn) : c.fetchRun rd = if x % 2 = 0
      then .ok (.wireRepeatedRun (BitVec.ofNat 31 (x / 2)) (ulebLen x))
      else .ok (.wireLiteralRun (BitVec.ofNat 31 (x / 2)) (ulebLen x)) := by
  obtain ⟨hread, hlen⟩ := varintsRoundTrip.1 x (bytesFrom rd (p + ulebLen x) (min 5 (c.lIn - p) - ulebLen x)) hx
  have hmax : ulebLen x ≤ 5 := hlen ▸ ulebEncodeWithin_length_le _ _
  have hheader := hshows.bytesFrom
  rw [hlen] at hheader
  have hwindow : varintWindow rd c.lIn (c.rbits / 8)
      = ulebEncode x ++ bytesFrom rd (p + ulebLen x) (min 5 (c.lIn - p) - ulebLen x) := by
    rw [hp, Nat.mul_div_cancel_left p (Nat.zero_lt_succ 7), varintWindow, Config.maxUlebBytes, ← hheader,
      ← bytesFrom_add]
    congr 1
    omega
  rw [DecCore.fetchRun, hwindow, decode, decodeWire, hread]

/-- At the end of the input there is none. -/
theorem DecCore.fetchRun_of_end (hend : p = c.lIn) : c.fetchRun rd = .error .headerCutOff := by
  rw [DecCore.fetchRun, hp, Nat.mul_div_cancel_left p (Nat.zero_lt_succ 7), varintWindow, hend, Nat.sub_self]
  rfl

include hrun

/-- A repeated run is taken up (R131 to R133): its value is below `2 ^ w`, so that no pad policy concerns it. -/
theorem DecCore.lookAhead_repeated {n : Nat} (hv : v.toNat < 2 ^ c.w) (hn : 1 ≤ n)
    (hmax : n ≤ Config.maxCount) (hshows : Shows rd p (repeatedRunBytes c.w v n))
    (hend : p + (repeatedRunBytes c.w v n).length ≤ c.lIn) : c.lookAhead policy rd
      = { c with rbits := 8 * (p + (repeatedRunBytes c.w v n).length), run := .rep v n } := by
  unfold Config.maxCount at hmax
  have hx : 2 * n < 2 ^ 32 := by omega
  obtain ⟨hheader, hvalue⟩ := Shows.append.1 hshows
  rw [ulebEncode_length hx] at hvalue
  rw [repeatedRunBytes_length _ _ hx] at hend ⊢
  have hpow : 2 ^ c.w ≤ 256 ^ cb c.w := by
    rw [show 256 = 2 ^ 8 from rfl, ← Nat.pow_mul]
    exact Nat.pow_le_pow_right Nat.two_pos (by unfold cb ceil8; omega)
  have hread : leNumber (bytesFrom rd (p + ulebLen (2 * n)) (cb c.w)) = v.toNat := by
    have hbytes := hvalue.bytesFrom
    rw [leBytes_length] at hbytes
    rw [hbytes, leNumber_leBytes, Nat.mod_eq_of_lt (hv.trans_le hpow)]
  have hcount : (BitVec.ofNat 31 n).toNat = n := by rw [BitVec.toNat_ofNat]; omega
  have hpad : padPolicy policy c.w v.toNat = some v.toNat := if_pos hv
  rw [DecCore.lookAhead_of_empty policy rd hrun, DecCore.parseHeader,
    DecCore.fetchRun_of_shows hp hx hheader (by omega), if_pos (Nat.mul_mod_right 2 n),
    Nat.mul_div_cancel_left n Nat.two_pos]
  simp only [DecCore.takeRun, DecCore.takeRepeatedRun, hcount, hp, Nat.mul_div_cancel_left p (Nat.zero_lt_succ 7), hread]
  rw [if_neg (by omega), if_neg (by unfold Config.maxCount; omega), if_neg (by omega), hpad]
  simp only [BitVec.ofNat_toNat, BitVec.setWidth_eq, Nat.add_assoc]

/-- A literal run is taken up (R134). -/
theorem DecCore.lookAhead_literal {g : Nat} (hw : c.w ≤ 64) (hg : 1 ≤ g) (hmax : g ≤ Config.maxLiteralGroups)
    (hheader : rd p = BitVec.ofNat 8 (2 * g + 1)) (hend : p + 1 ≤ c.lIn) :
    c.lookAhead policy rd = { c with rbits := 8 * (p + 1), run := .lit (8 * g) } := by
  unfold Config.maxLiteralGroups at hmax
  have hsmall : 2 * g + 1 < 128 := by omega
  have hlen : ulebLen (2 * g + 1) = 1 := ulebLen_eq_one_iff.2 hsmall
  have hshows : Shows rd p (ulebEncode (2 * g + 1)) := by
    rw [ulebEncode_of_lt hsmall]
    exact Shows.cons.2 ⟨hheader, .nil⟩
  have hcount : (BitVec.ofNat 31 g).toNat = g := by rw [BitVec.toNat_ofNat]; omega
  have hfetch := DecCore.fetchRun_of_shows hp (by omega) hshows (by omega)
  rw [if_neg (by omega), hlen, show (2 * g + 1) / 2 = g by omega] at hfetch
  have hbits : 1 ≤ c.w → 8 * g ≤ (2 ^ 32 - 1) / c.w := fun hpos =>
    (by omega : 8 * g ≤ (2 ^ 32 - 1) / 64).trans (Nat.div_le_div_left hw hpos)
  rw [DecCore.lookAhead_of_empty policy rd hrun, DecCore.parseHeader, hfetch]
  simp only [DecCore.takeRun, DecCore.takeLiteralRun, hcount, hp, Nat.mul_div_cancel_left p (Nat.zero_lt_succ 7)]
  rw [if_neg (by omega), if_neg (by unfold Config.maxCount; omega), if_neg]
  rintro ⟨hpos, hlt⟩
  have := hbits hpos
  omega

end

/-! ### Runs one after another -/

theorem leNumber_packOctet {w : Nat} {o : List Word64} (ho : o.length = 8) :
    leNumber (packOctet w o) = packNumber w o := by
  have hlt := packNumber_lt w o
  rw [packOctet, leNumber_leBytes, Nat.mod_eq_of_lt]
  rwa [show 256 = 2 ^ 8 from rfl, ← Nat.pow_mul, ← ho]

/-- The payload of a literal run is its values packed one after another. -/
theorem leNumber_packedOctets {w : Nat} {octets : List (List Word64)} (h : ∀ o ∈ octets, o.length = 8) :
    leNumber (octets.flatMap (packOctet w)) = packNumber w octets.flatten := by
  induction octets with
  | nil => rfl
  | cons o octets ih =>
    have ho := h o List.mem_cons_self
    rw [List.flatMap_cons, List.flatten_cons, leNumber_append, packNumber_append, packOctet_length, leNumber_packOctet ho,
      ih fun o' ho' => h o' (List.mem_cons_of_mem _ ho'), ho, show 256 = 2 ^ 8 from rfl, ← Nat.pow_mul]

/-- One run, and what comes after it. -/
theorem DecCore.Delivers.of_run {r : StreamRun} {p : Nat} (hr : r.Wf) (hfits : ∀ x ∈ r.values, x.toNat < 2 ^ c.w)
    (hw : c.w ≤ 64) (hrun : c.run = .empty) (hp : c.rbits = 8 * p) (hshows : Shows rd p (r.bytes c.w))
    (hend : p + (r.bytes c.w).length ≤ c.lIn)
    (h : DecCore.Delivers policy rd { c with rbits := 8 * (p + (r.bytes c.w).length), run := .empty } vals) :
    c.Delivers policy rd (r.values ++ vals) := by
  cases r with
  | repeated x n =>
    obtain ⟨hmin, hmax⟩ := hr
    obtain ⟨k, rfl⟩ : ∃ k, n = k + 1 := ⟨n - 1, by omega⟩
    have hx : x.toNat < 2 ^ c.w := hfits x (List.mem_replicate.2 ⟨k.succ_ne_zero, rfl⟩)
    refine .of_lookAhead ?_
    rw [DecCore.lookAhead_repeated hrun hp hx (by omega) hmax hshows hend]
    exact .repeated rfl h
  | literal octets =>
    obtain ⟨hne, hmax, hoctets⟩ := hr
    have hg : 1 ≤ octets.length := List.length_pos_iff.2 hne
    have hlen := flatten_length_of_octets hoctets
    obtain ⟨hheader, hpayload⟩ := Shows.cons.1 hshows
    have hfield := hpayload.inField
    rw [leNumber_packedOctets hoctets, packedOctets_length, ← Nat.mul_assoc, ← hlen] at hfield
    have hbits : 8 * (p + 1) + octets.flatten.length * c.w = 8 * (p + ((StreamRun.literal octets).bytes c.w).length) := by
      rw [StreamRun.bytes, List.length_cons, packedOctets_length, hlen, Nat.mul_assoc]
      omega
    have hnil : octets.flatten ≠ [] := List.ne_nil_of_length_pos (by omega)
    have hin : 8 * (p + 1) + octets.flatten.length * c.w ≤ 8 * c.lIn := hbits.trans_le (Nat.mul_le_mul_left 8 hend)
    have hheaderIn : p + 1 ≤ c.lIn := by
      rw [StreamRun.bytes, List.length_cons] at hend
      omega
    rw [← hbits] at h
    refine .of_lookAhead ?_
    rw [DecCore.lookAhead_literal hrun hp hw hg hmax hheader hheaderIn, ← hlen]
    exact .literal (c := { c with rbits := 8 * (p + 1), run := .lit octets.flatten.length }) rfl hnil rfl hfits hin hfield h

/-- Runs that fill the rest of the input are delivered, and nothing after them. -/
theorem DecCore.Delivers.of_runs {rs : List StreamRun} {p : Nat} (hrs : ∀ r ∈ rs, r.Wf)
    (hfits : ∀ x ∈ runsValues rs, x.toNat < 2 ^ c.w) (hw : c.w ≤ 64) (hrun : c.run = .empty) (hp : c.rbits = 8 * p)
    (hshows : Shows rd p (runsBytes c.w rs)) (hend : p + (runsBytes c.w rs).length = c.lIn) :
    c.Delivers policy rd (runsValues rs) := by
  induction rs generalizing c p with
  | nil =>
    have hdead : (c.lookAhead policy rd).run = .dead := by
      rw [DecCore.lookAhead_of_empty policy rd hrun, DecCore.parseHeader, DecCore.fetchRun_of_end hp hend]
      rfl
    exact .of_lookAhead (.nil (DecCore.takeOne_dead policy rd hdead))
  | cons r rs ih =>
    have hbytes : runsBytes c.w (r :: rs) = r.bytes c.w ++ runsBytes c.w rs := List.flatMap_cons
    have hvalues : runsValues (r :: rs) = r.values ++ runsValues rs := List.flatMap_cons
    rw [hbytes] at hshows hend
    rw [hvalues] at hfits ⊢
    rw [List.length_append, ← Nat.add_assoc] at hend
    obtain ⟨hhead, htail⟩ := Shows.append.1 hshows
    refine .of_run (hrs r List.mem_cons_self) (fun x hx => hfits x (List.mem_append_left _ hx)) hw hrun hp hhead (by omega) ?_
    exact ih (fun r' hr' => hrs r' (List.mem_cons_of_mem _ hr')) (fun x hx => hfits x (List.mem_append_right _ hx)) hw rfl
      rfl htail hend

end

end Sys2Proof.Machine
end

section
/-! ## The statements on whole encodings (42_rle_literal_classifier.md R118, R119, R122) -/

namespace Sys2Proof.Machine

section
variable {s s1 : State} {e : EncCore} {a : Encoding} {vs : List Word64}

/-! ### From a fresh encoder to the flush -/

/-- What an encoder of threshold `t` makes of values (R106 to R110). -/
def encodingOf (t : Nat) (vs : List Word64) : Encoding := vs.foldl (Encoding.step t) .start

theorem encodingOf_wf {t : Nat} (hmin : 8 ≤ t) (hmax : t ≤ Config.maxCount) (vs : List Word64) :
    (encodingOf t vs).Wf ∧ (encodingOf t vs).values = vs :=
  Encoding.start_wf.steps hmin hmax vs

/-- The values put into a fresh encoder, all accepted, are at `encodingOf`. -/
theorem State.runsEnc.putAll_fresh (h : s.runsEnc e) (hmin : 8 ≤ e.t) (hmax : e.t ≤ Config.maxCount)
    (he : e = EncCore.fresh e.buf e.w e.m e.lOut e.repValue e.litHdrPos) (hput : putAll vs s = some s1) :
    ∃ e1, s1.Encodes e1 (encodingOf e.t vs) ∧ e1.config = e.config ∧ s1.params = s.params
      ∧ ∀ v ∈ vs, valueFits e.w v = true := by
  have hstart := State.Encodes.of_fresh h he
  obtain ⟨-, e1, -, -, henc, -, hcfg, -, hparams, hfits⟩ := hstart.putAll hstart rfl rfl rfl hmin hmax hput
  exact ⟨e1, henc, hcfg, hparams, hfits⟩

theorem EncCore.ok.threshold_bounds (hok : e.ok s.params = true) (hp : s.params.legal = true) :
    8 ≤ e.t ∧ e.t ≤ Config.maxCount := by
  obtain ⟨hmin, hmax⟩ := EncCore.threshold_bounds hp (EncCore.ok_iff.1 hok).1
  exact ⟨hmin, hmax.trans (by decide)⟩

/-- The length of a stream fits the result `R`. -/
theorem EncCore.ok.toNat_length (hok : e.ok s.params = true) (hp : s.params.legal = true) {n : Nat} (hn : n ≤ e.lOut) :
    n ≤ s.params.maxBufferLen ∧ n < 2 ^ 31 ∧ (BitVec.ofNat 64 n).toNat = n := by
  obtain ⟨-, -, -, hmax⟩ := Params.legal_iff.1 hp
  obtain ⟨-, -, -, -, -, hl⟩ := EncCore.configOk_iff.1 (EncCore.ok_iff.1 hok).1
  refine ⟨by omega, by omega, ?_⟩
  rw [BitVec.toNat_ofNat]
  omega

/-! ### A decoder over a flushed stream -/

/-- A flushed encoder's buffer may be read. -/
theorem State.inUse_of_idle (h : s.runsEnc e) (hi : e.idle = true) : s.inUse e.buf = false := by
  obtain ⟨hk, hready, hholds⟩ := h
  have hcore : (s.enc s.port.target.id).core = some e := by rw [Slot.ready_eq_some.1 hready]; rfl
  simp only [State.holds, Bool.and_eq_true, decide_eq_true_eq] at hholds
  have hholder : (s.buf e.buf).holder = some { kind := .enc, id := s.port.target.id } := by rw [hholds.1, ← hk]
  rw [State.inUse_of_outputOf (State.outputOf_enc hcore hholder), hi]
  rfl

theorem State.afterFlush_inUse (h : s.runsEnc e) : (s.afterFlush e).inUse e.buf = false := by
  have hbuf := e.flushing_extends.buf
  have hunused := State.inUse_of_idle (State.encWrote_runsEnc (r := resultOf e.flushing.enc.wpos)
    (cells := e.flushing.cells) h hbuf) rfl
  rwa [hbuf] at hunused

/-- The decoder constructed may go on, and it reads the buffer as it stood. -/
theorem exec_decNew_runs {lIn : Word32} {w : Word7} (hk : s.port.target.kind = .dec) (hw : w.toNat ≤ 64)
    (hl : lIn.toNat ≤ s.params.maxBufferLen) (hu : s.inUse s.port.buffer = false) :
    ∃ t version, exec (.decNew lIn w) s = .next t ∧ t.readByte = s.readByte
      ∧ t.runsDec (DecCore.fresh s.port.buffer version w.toNat lIn.toNat) := by
  have hlegal : (decNewLegal s.params lIn w && !s.inUse s.port.buffer) = true := by
    simp [decNewLegal, widthLegal, lengthLegal, hw, hl, hu]
  exact ⟨_, _, (if_pos hk).trans (if_pos hlegal), rfl, hk,
    Slot.ready_eq_some.2 (s.putDec_decIs _), Buffer.changedSince_version _ _⟩

theorem exec_decGetValues {c : DecCore} (h : s.runsDec c) {vals : List Word64}
    (hdel : c.Delivers s.params.padPolicy (s.readByte c.buf) vals) (n : Word32) :
    ∃ t len, exec (.decGetValues n) s = .next t ∧ t.answers .ok (some len) (vals.take n.toNat) := by
  refine ⟨_, BitVec.ofNat 64 (c.takeMany s.params.padPolicy (s.readByte c.buf) n.toNat).2.length,
    State.onDec_of_runs h _, ?_⟩
  rw [← hdel n.toNat]
  rfl

end

theorem toNat_lt_of_valueFits {w : Nat} {v : Word64} (h : valueFits w v = true) (hw : w ≤ 64) : v.toNat < 2 ^ w := by
  simp only [valueFits, Bool.or_eq_true, decide_eq_true_eq] at h
  rcases h with h | h
  · obtain rfl : w = 64 := by omega
    exact v.isLt
  · exact h

/-! ### The statements -/

/-- Settles O38: the runs are bounded by their values (`runsBytes_length_le`). -/
theorem encodingIsBounded : Obligations.EncodingIsBounded := by
  intro s s1 e vs h hp hok he hput
  obtain ⟨hmin, hmax⟩ := EncCore.ok.threshold_bounds hok hp
  obtain ⟨e1, henc, hcfg, -, -⟩ := h.putAll_fresh hmin hmax he hput
  simp only [EncCore.config, Prod.mk.injEq] at hcfg
  obtain ⟨-, hw, -, -, hl⟩ := hcfg
  obtain ⟨hflush, hans, hroom, -⟩ := henc.flush
  obtain ⟨hwf, hvalues⟩ := encodingOf_wf hmin hmax vs
  obtain ⟨hruns, -, pad, hpad, hall⟩ := hwf.flush
  rw [hw] at hans hroom
  refine ⟨_, _, hflush, hans, ?_⟩
  rw [(EncCore.ok.toNat_length hok hp (hl ▸ hroom)).2.2]
  refine (runsBytes_length_le hruns e.w).trans (Nat.mul_le_mul_right _ ?_)
  rw [hall, hvalues, List.length_append, List.length_replicate]
  omega

/-- Settles O39: the two encoders are at the same point after every value (`State.Encodes.putAll`), and their streams are
the bytes of the same runs. -/
theorem equalValuesGiveEqualBytes : Obligations.EqualValuesGiveEqualBytes := by
  intro s s1 u e f vs h h' hp hok he hf hput
  obtain ⟨hmin, hmax⟩ := EncCore.ok.threshold_bounds hok hp
  have hwf : f.w = e.w := (congrArg EncCore.w hf :)
  have ht : f.t = e.t := (congrArg EncCore.t hf).trans (congrArg EncCore.t he).symm
  have hlf : f.lOut = e.lOut := (congrArg EncCore.lOut hf :)
  obtain ⟨u1, e1, f1, hput', henc, henc', hcfg, hcfg', -⟩ := (State.Encodes.of_fresh h he).putAll
    (State.Encodes.of_fresh h' hf) hwf ht hlf hmin hmax hput
  simp only [EncCore.config, Prod.mk.injEq] at hcfg hcfg'
  obtain ⟨hb, hw, -, -, hl⟩ := hcfg
  obtain ⟨hb', hw', -⟩ := hcfg'
  obtain ⟨hflush, hans, hroom, hshows⟩ := henc.flush
  obtain ⟨hflush', hans', -, hshows'⟩ := henc'.flush
  rw [hw] at hans hroom hshows
  rw [hw', hwf] at hans' hshows'
  rw [hb] at hshows
  rw [hb'] at hshows'
  refine ⟨u1, _, _, _, hput', hflush, hflush', hans, hans', fun i hi => ?_⟩
  rw [(EncCore.ok.toNat_length hok hp (hl ▸ hroom)).2.2] at hi
  rw [← Nat.zero_add i, hshows' i hi, hshows i hi]

/-- Settles O37: the flushed stream is the bytes of runs that stand for the values and the padding
(`Encoding.Wf.flush`), and a decoder delivers the values of such runs (`DecCore.Delivers.of_runs`). -/
theorem encodedValuesDecodeBack : Obligations.EncodedValuesDecodeBack := by
  intro s s1 e vs decoder h hp hok he hput
  obtain ⟨hmin, hmax⟩ := EncCore.ok.threshold_bounds hok hp
  obtain ⟨hw64, -⟩ := EncCore.configOk_iff.1 (EncCore.ok_iff.1 hok).1
  obtain ⟨e1, henc, hcfg, hparams, hfits⟩ := h.putAll_fresh hmin hmax he hput
  simp only [EncCore.config, Prod.mk.injEq] at hcfg
  obtain ⟨hb, hw, -, -, hl⟩ := hcfg
  obtain ⟨hflush, hans, hroom, hshows⟩ := henc.flush
  obtain ⟨hwf, hvalues⟩ := encodingOf_wf hmin hmax vs
  obtain ⟨hruns, -, pad, hpad, hall⟩ := hwf.flush
  rw [hvalues] at hall
  rw [hw] at hans hroom hshows
  rw [hb] at hshows
  obtain ⟨hlen, hlt, hresult⟩ := EncCore.ok.toNat_length hok hp (hl ▸ hroom)
  have hlIn : ((BitVec.ofNat 64 (runsBytes e.w (encodingOf e.t vs).flush.runs).length).setWidth 32).toNat
      = (runsBytes e.w (encodingOf e.t vs).flush.runs).length := by
    rw [BitVec.toNat_setWidth, hresult]
    omega
  have hwidth : (BitVec.ofNat 7 e.w).toNat = e.w := by
    rw [BitVec.toNat_ofNat]
    omega
  obtain ⟨s3, version, hnew, hread, hdec⟩ := exec_decNew_runs
    (s := { s1.afterFlush e1 with port := { target := { kind := .dec, id := decoder }, buffer := e.buf } })
    (lIn := (BitVec.ofNat 64 (runsBytes e.w (encodingOf e.t vs).flush.runs).length).setWidth 32)
    (w := BitVec.ofNat 7 e.w) rfl (hwidth.trans_le hw64) (by rw [hlIn]; exact hparams ▸ hlen)
    (hb ▸ State.afterFlush_inUse henc.runs)
  rw [hlIn, hwidth] at hdec
  have hvals : ∀ x ∈ runsValues (encodingOf e.t vs).flush.runs, x.toNat < 2 ^ e.w := by
    intro x hx
    rw [hall] at hx
    rcases List.mem_append.1 hx with hx | hx
    · exact toNat_lt_of_valueFits (hfits x hx) hw64
    · rw [List.eq_of_mem_replicate hx]
      exact Nat.two_pow_pos _
  have hdel : (DecCore.fresh e.buf version e.w (runsBytes e.w (encodingOf e.t vs).flush.runs).length).Delivers
      s3.params.padPolicy (s3.readByte e.buf) (vs ++ List.replicate pad 0) := by
    rw [← hall, hread]
    exact .of_runs (p := 0) hruns hvals hw64 rfl rfl hshows (Nat.zero_add _)
  exact ⟨_, _, s3, pad, hflush, hans, hnew, hpad, fun n => exec_decGetValues hdec hdel n⟩

end Sys2Proof.Machine
end

section
/-! ## The decoder's commands (43_run_frame_parser.md R127 to R144), by what they find -/

namespace Sys2Proof.Machine

section
variable {s : State} {c c' d : DecCore} {i : Instr} {st : Status} {r : Option Word64} {vs : List Word64}

/-! ### What a command leaves -/

/-- The decoder goes on as `c'`, and the command is answered. -/
def State.decAnswered (s : State) (c' : DecCore) (st : Status) (r : Option Word64 := none) (vs : List Word64 := []) :
    State := (s.putDec c').respond st r vs

@[simp] theorem State.decAnswered_status : (s.decAnswered c' st r vs).status = some st := rfl

theorem State.decAnswered_othersKept (hk : s.port.target.kind = .dec) : s.othersKept (s.decAnswered c' st r vs) :=
  State.othersKept_putDec hk c' st r vs

theorem State.decAnswered_bytesKept : s.bytesKept (s.decAnswered c' st r vs) := State.bytesKept_of_mem rfl

theorem State.decAnswered_decIs : (s.decAnswered c' st r vs).decIs c' := s.putDec_decIs c'

/-- Of two states the decoder is given in turn, the second counts. -/
@[simp] theorem State.decAnswered_putDec : (s.putDec c).decAnswered c' st r vs = s.decAnswered c' st r vs := by
  change ((s.putDec c).putDec c').respond st r vs = _
  rw [State.putDec_putDec]
  rfl

/-- A decoder with the same configuration may go on, over the same input. -/
theorem State.runsDec.putDec (h : s.runsDec c) (hcfg : c.SameConfig c') : (s.putDec c').runsDec c' := by
  obtain ⟨hk, -, hkept⟩ := h
  refine ⟨hk, Slot.ready_eq_some.2 (s.putDec_decIs c'), ?_⟩
  rw [hcfg.buf, hcfg.version, hcfg.lIn]
  exact hkept

theorem State.decAnswered_runsDec (h : s.runsDec c) (hcfg : c.SameConfig c') :
    (s.decAnswered c' st r vs).runsDec c' := h.putDec hcfg

/-- A command that answers and moves the decoder on changes nothing else. -/
theorem State.runsDec.answers (h : s.runsDec c) (he : exec i s = .next (s.decAnswered c' st r vs)) :
    ∃ t, exec i s = .next t ∧ t.answers st r vs ∧ s.othersKept t ∧ s.bytesKept t ∧ t.decIs c' :=
  ⟨_, he, rfl, State.decAnswered_othersKept h.1, State.decAnswered_bytesKept, State.decAnswered_decIs⟩

/-! ### The commands on the look-ahead `d` -/

section
variable (h : s.runsDec c) (hd : c.lookAhead s.params.padPolicy (s.readByte c.buf) = d)
include h hd

theorem exec_decNextNumRepeats :
    exec .decNextNumRepeats s = .next (s.decAnswered d .ok (resultOf d.run.repeats)) :=
  hd ▸ State.onDec_of_runs h _

theorem exec_decNextNumLiterals :
    exec .decNextNumLiterals s = .next (s.decAnswered d .ok (resultOf d.run.literals)) :=
  hd ▸ State.onDec_of_runs h _

theorem exec_decGetRepeatedValue_rep {n : Word32} {v : Word64} {rem : Nat} (hr : d.run = .rep v rem)
    (hn : n.toNat ≤ rem) :
    exec (.decGetRepeatedValue n) s = .next (s.decAnswered
      { d with run := if n.toNat = rem then .empty else .rep v (rem - n.toNat) } .ok (some v)) :=
  (State.onDec_of_runs h _).trans (by simp only [hd, hr, if_neg (Nat.not_lt.2 hn), State.decAnswered])

theorem exec_decGetRepeatedValue_above {n : Word32} {v : Word64} {rem : Nat} (hr : d.run = .rep v rem)
    (hn : rem < n.toNat) : exec (.decGetRepeatedValue n) s = .next s.refuse :=
  (State.onDec_of_runs h _).trans (by simp only [hd, hr, if_pos hn])

theorem exec_decGetRepeatedValue_lit {rem : Nat} (hr : d.run = .lit rem) (n : Word32) :
    exec (.decGetRepeatedValue n) s = .next s.refuse :=
  (State.onDec_of_runs h _).trans (by simp only [hd, hr])

theorem exec_decGetRepeatedValue_dead (hr : d.run = .dead) (n : Word32) :
    exec (.decGetRepeatedValue n) s = .next (s.decAnswered d .ok (some 0)) :=
  (State.onDec_of_runs h _).trans (by simp only [hd, hr]; rfl)

theorem exec_decGetLiteralValues_dead (hr : d.run = .dead) (n : Word32) :
    exec (.decGetLiteralValues n) s = .next (s.decAnswered d .isFalse) :=
  (State.onDec_of_runs h _).trans (by simp only [hd, hr, if_pos, State.decAnswered])

theorem exec_decGetLiteralValues_above {n : Word32} (hr : d.run ≠ .dead) (hn : d.run.literals < n.toNat) :
    exec (.decGetLiteralValues n) s = .next s.refuse :=
  (State.onDec_of_runs h _).trans (by simp only [hd, if_neg hr, if_pos hn])

theorem exec_decGetLiteralValues_taken {n : Word32} (hr : d.run ≠ .dead) (hn : n.toNat ≤ d.run.literals)
    (ht : d.takeMany s.params.padPolicy (s.readByte c.buf) n.toNat = (c', vs)) :
    exec (.decGetLiteralValues n) s
      = .next (s.decAnswered c' (if vs.length = n.toNat then .ok else .isFalse) none vs) :=
  (State.onDec_of_runs h _).trans
    (by simp only [hd, if_neg hr, if_neg (Nat.not_lt.2 hn), ht, State.decAnswered])

end

/-! ### The commands that take values -/

section
variable (h : s.runsDec c)
include h

theorem exec_decGetSingleValue_some {v : Word64}
    (ho : c.takeOne s.params.padPolicy (s.readByte c.buf) = (c', some v)) :
    exec .decGetSingleValue s = .next (s.decAnswered c' .ok (some v)) :=
  (State.onDec_of_runs h _).trans (by simp only [ho, State.decAnswered])

theorem exec_decGetSingleValue_none (ho : c.takeOne s.params.padPolicy (s.readByte c.buf) = (c', none)) :
    exec .decGetSingleValue s = .next (s.decAnswered c' .isFalse) :=
  (State.onDec_of_runs h _).trans (by simp only [ho, State.decAnswered])

section
variable {n : Word32} (ht : c.takeMany s.params.padPolicy (s.readByte c.buf) n.toNat = (c', vs))
include ht

theorem exec_decGetValues_taken :
    exec (.decGetValues n) s = .next (s.decAnswered c' .ok (resultOf vs.length) vs) :=
  (State.onDec_of_runs h _).trans (by simp only [ht, State.decAnswered])

theorem exec_decSkipValues_taken :
    exec (.decSkipValues n) s = .next (s.decAnswered c' .ok (resultOf vs.length)) :=
  (State.onDec_of_runs h _).trans (by simp only [DecCore.skipMany_eq, ht, State.decAnswered])

end

/-! ### Commands that deliver nothing -/

/-- The bulk commands where no value is taken. -/
theorem exec_bulk_nothing {n : Word32}
    (ht : c.takeMany s.params.padPolicy (s.readByte c.buf) n.toNat = (c', [])) :
    ∀ i ∈ [Instr.decGetValues n, .decSkipValues n], exec i s = .next (s.decAnswered c' .ok (some 0)) := by
  simp only [List.forall_mem_cons]
  exact ⟨exec_decGetValues_taken h ht, exec_decSkipValues_taken h ht, nofun⟩

/-- The accessors of a decoder whose look-ahead is DEAD. -/
theorem exec_accessors_dead (hd : c.lookAhead s.params.padPolicy (s.readByte c.buf) = d) (hr : d.run = .dead) :
    ∀ i ∈ [Instr.decNextNumRepeats, .decNextNumLiterals], exec i s = .next (s.decAnswered d .ok (some 0)) := by
  simp only [List.forall_mem_cons]
  refine ⟨?_, ?_, nofun⟩
  · rw [exec_decNextNumRepeats h hd, hr]
    rfl
  · rw [exec_decNextNumLiterals h hd, hr]
    rfl

end

/-! ### Run headers (43_run_frame_parser.md R129) -/

/-- What taking up a run header leaves. -/
theorem State.putDec_frame (hk : s.port.target.kind = .dec) :
    (s.putDec c').decIs c' ∧ s.othersKept (s.putDec c') ∧ s.bytesKept (s.putDec c')
      ∧ (s.putDec c').response = s.response :=
  ⟨s.putDec_decIs c', State.othersKept_setDec hk _, State.bytesKept_of_mem rfl, rfl⟩

theorem exec_wireRepeatedRun_empty (h : s.runsDec c) (hrun : c.run = .empty) (count : BitVec 31) (len : Nat) :
    exec (.wireRepeatedRun count len) s
      = .next (s.putDec (c.takeRepeatedRun s.params.padPolicy (s.readByte c.buf) count.toNat len)) :=
  (State.onDec_of_runs h _).trans (if_pos hrun)

theorem exec_wireLiteralRun_empty (h : s.runsDec c) (hrun : c.run = .empty) (groups : BitVec 31) (len : Nat) :
    exec (.wireLiteralRun groups len) s = .next (s.putDec (c.takeLiteralRun groups.toNat len)) :=
  (State.onDec_of_runs h _).trans (if_pos hrun)

/-- A header of either kind is taken up only while the look-ahead is EMPTY. -/
theorem exec_wireRun_held (h : s.runsDec c) (hrun : c.run ≠ .empty) (n : BitVec 31) (len : Nat) :
    exec (.wireRepeatedRun n len) s = .next s ∧ exec (.wireLiteralRun n len) s = .next s :=
  ⟨(State.onDec_of_runs h _).trans (if_neg hrun), (State.onDec_of_runs h _).trans (if_neg hrun)⟩

/-! ### Construction (43_run_frame_parser.md R127, R128) -/

section
variable {lIn : Word32} {w : Word7} (hk : s.port.target.kind = .dec)
include hk

theorem exec_decNew_refused
    (hbad : 64 < w.toNat ∨ s.params.maxBufferLen < lIn.toNat ∨ s.inUse s.port.buffer = true) :
    exec (.decNew lIn w) s = .next s.refuse := by
  refine (if_pos hk).trans (if_neg ?_)
  rcases hbad with hw | hl | hu
  · simp [decNewLegal, widthLegal, hw]
  · simp [decNewLegal, lengthLegal, hl]
  · simp [hu]

theorem exec_decNew_ok (hw : w.toNat ≤ 64) (hl : lIn.toNat ≤ s.params.maxBufferLen)
    (hu : s.inUse s.port.buffer = false) :
    exec (.decNew lIn w) s = .next (s.decAnswered
      (DecCore.fresh s.port.buffer (s.buf s.port.buffer).version w.toNat lIn.toNat) .ok) :=
  (if_pos hk).trans (if_pos (by simp [decNewLegal, widthLegal, lengthLegal, hw, hl, hu]))

end

end

/-! ### The statements on construction and run headers -/

/-- Settles O40: DEC.RESET is DEC.NEW, and a buffer is in use as the writer that holds it says
(`State.inUse_of_outputOf`). -/
theorem decoderIsConstructed : Obligations.DecoderIsConstructed :=
  ⟨fun _ _ _ => rfl, fun _ _ _ hk hbad => exec_decNew_refused hk hbad,
    fun _ _ _ hc hh => State.inUse_of_outputOf (State.outputOf_bw hc hh),
    fun _ _ _ he hh => State.inUse_of_outputOf (State.outputOf_enc he hh),
    fun _ _ _ hk hw hl hu => ⟨_, exec_decNew_ok hk hw hl hu, exec_decNew_ok hk hw hl hu, rfl,
      State.decAnswered_othersKept hk, State.decAnswered_bytesKept, State.decAnswered_decIs⟩⟩

section
variable {c : DecCore} {policy : PadPolicy} {rd : Nat → Byte} {count groups len w val : Nat}

/-- A value that fits its width, or a policy that lets every value through (R133). -/
theorem padPolicy_kept (h : val < 2 ^ w ∨ policy = .raw) : padPolicy policy w val = some val := by
  unfold padPolicy
  split_ifs with hv
  · rfl
  · rw [h.resolve_left hv]

theorem padPolicy_mask (h : 2 ^ w ≤ val) : padPolicy .mask w val = some (val % 2 ^ w) := if_neg h.not_gt

theorem padPolicy_malformed (h : 2 ^ w ≤ val) : padPolicy .malformed w val = none := if_neg h.not_gt

theorem DecCore.takeRepeatedRun_zero : c.takeRepeatedRun policy rd 0 len = c.die .zero := by
  simp [DecCore.takeRepeatedRun]

section
variable (h0 : count ≠ 0) (hmax : count ≤ Config.maxCount)
include h0 hmax

theorem DecCore.takeRepeatedRun_truncated (hend : c.lIn < c.rbits / 8 + len + cb c.w) :
    c.takeRepeatedRun policy rd count len = c.die .truncated :=
  (if_neg h0).trans ((if_neg hmax.not_gt).trans (if_pos hend))

variable (hin : c.rbits / 8 + len + cb c.w ≤ c.lIn)
  (hval : leNumber (bytesFrom rd (c.rbits / 8 + len) (cb c.w)) = val)
include hin hval

theorem DecCore.takeRepeatedRun_rep {value : Nat} (hpad : padPolicy policy c.w val = some value) :
    c.takeRepeatedRun policy rd count len =
      { c with rbits := 8 * (c.rbits / 8 + len + cb c.w), run := .rep (BitVec.ofNat 64 value) count } := by
  simp only [DecCore.takeRepeatedRun, if_neg h0, if_neg hmax.not_gt, if_neg hin.not_gt, hval, hpad]

theorem DecCore.takeRepeatedRun_overflow (hpad : padPolicy policy c.w val = none) :
    c.takeRepeatedRun policy rd count len = c.die .overflow := by
  simp only [DecCore.takeRepeatedRun, if_neg h0, if_neg hmax.not_gt, if_neg hin.not_gt, hval, hpad]

end

theorem DecCore.takeLiteralRun_zero : c.takeLiteralRun 0 len = c.die .zero := if_pos rfl

theorem DecCore.takeLiteralRun_overflow (h0 : groups ≠ 0)
    (hbig : Config.maxCount < 8 * groups ∨ (1 ≤ c.w ∧ (2 ^ 32 - 1) / c.w < 8 * groups)) :
    c.takeLiteralRun groups len = c.die .overflow := by
  rw [DecCore.takeLiteralRun, if_neg h0]
  split_ifs with h1 h2
  · rfl
  · rfl
  · exact absurd hbig (not_or.2 ⟨h1, h2⟩)

theorem DecCore.takeLiteralRun_lit (h0 : groups ≠ 0) (hmax : 8 * groups ≤ Config.maxCount)
    (hbits : 1 ≤ c.w → 8 * groups ≤ (2 ^ 32 - 1) / c.w) :
    c.takeLiteralRun groups len = { c with rbits := 8 * (c.rbits / 8 + len), run := .lit (8 * groups) } :=
  (if_neg h0).trans ((if_neg hmax.not_gt).trans (if_neg fun h => (hbits h.1).not_gt h.2))

end

/-- Settles O41: a 31-bit count is never too large, so that the payload and the pad policy decide. -/
theorem repeatedRunIsTakenUp : Obligations.RepeatedRunIsTakenUp := by
  rintro s c count len q val h - hrun rfl hval
  replace hval := (leNumber_bytesFrom_eq_sum (s.readByte c.buf) (c.rbits / 8 + len) (cb c.w)).trans hval.symm
  have hmax : count.toNat ≤ Config.maxCount := by
    have := count.isLt
    unfold Config.maxCount
    omega
  have h0 (hc : count ≠ 0) : count.toNat ≠ 0 := BitVec.toNat_ne.1 hc
  obtain ⟨hdec, hothers, hbytes, hresp⟩ := State.putDec_frame (s := s) h.1
  refine ⟨_, _, exec_wireRepeatedRun_empty h hrun count len, hdec, hothers, hbytes, hresp, ?_, ?_, ?_, ?_, ?_⟩
  · rintro rfl
    exact DecCore.takeRepeatedRun_zero
  · exact fun hc hend => DecCore.takeRepeatedRun_truncated (h0 hc) hmax hend
  · exact fun hc hin hfits => DecCore.takeRepeatedRun_rep (h0 hc) hmax hin hval (padPolicy_kept hfits)
  · intro hc hin hbig hp
    rw [hp]
    exact DecCore.takeRepeatedRun_rep (h0 hc) hmax hin hval (padPolicy_mask hbig)
  · intro hc hin hbig hp
    rw [hp]
    exact DecCore.takeRepeatedRun_overflow (h0 hc) hmax hin hval (padPolicy_malformed hbig)

/-- Settles O42: the bounds on the group count decide, and a look-ahead that is held lets nothing happen. -/
theorem literalRunIsTakenUp : Obligations.LiteralRunIsTakenUp := by
  refine ⟨fun s c groups len h hrun => ?_, fun _ _ n len h hrun => exec_wireRun_held h hrun n len⟩
  have h0 (hg : groups ≠ 0) : groups.toNat ≠ 0 := BitVec.toNat_ne.1 hg
  obtain ⟨hdec, hothers, hbytes, hresp⟩ := State.putDec_frame (s := s) h.1
  refine ⟨_, _, exec_wireLiteralRun_empty h hrun groups len, hdec, hothers, hbytes, hresp, ?_,
    fun hg => DecCore.takeLiteralRun_overflow (h0 hg), fun hg => DecCore.takeLiteralRun_lit (h0 hg)⟩
  rintro rfl
  exact DecCore.takeLiteralRun_zero

/-! ### The parse event (log entry 7) -/

section
variable {s : State} {c : DecCore} (h : s.runsDec c) (hrun : c.run = .empty)
include h hrun

theorem State.parse_run {i : Instr} (hf : c.fetchRun (s.readByte c.buf) = .ok i) : s.parse = .run i := by
  obtain ⟨-, hready, hkept⟩ := h
  simp [State.parse, hready, hkept, hrun, hf]

theorem State.parse_reject {why : Reject} (hf : c.fetchRun (s.readByte c.buf) = .error why) :
    s.parse = .done (s.putDec (c.rejectRun why)) := by
  obtain ⟨-, hready, hkept⟩ := h
  simp [State.parse, hready, hkept, hrun, hf]

end

section
variable {s s' : State} {c : DecCore} {id : Nat} {rest : List Event} (hp : s.pending = .parse id :: rest)
  (hs' : s' = s.present rest { kind := .dec, id := id } s.port.buffer) (h : s'.runsDec c) (hrun : c.run = .empty)
include hp hs' h hrun

theorem step_parse_run {i : Instr} (hf : c.fetchRun (s'.readByte c.buf) = .ok i) : step s = exec i s' := by
  simp only [step, hp, ← hs', State.parse_run h hrun hf]

theorem step_parse_reject {why : Reject} (hf : c.fetchRun (s'.readByte c.buf) = .error why) :
    step s = .next (s'.putDec (c.rejectRun why)) := by
  simp only [step, hp, ← hs', State.parse_reject h hrun hf]

end

/-- The reason of 43_run_frame_parser.md R129 for a header that is no instruction. -/
theorem DecCore.rejectRun_eq (c : DecCore) (why : Reject) :
    c.rejectRun why =
      c.die (if why = .headerCutOff then (if c.rbits / 8 = c.lIn then .endOfInput else .truncated) else .uleb) := by
  cases why <;> rfl

/-- Settles O5: the step is the parse event's, whose state reads the bytes that stood there before. -/
theorem stepPerformsTheNextRun : Obligations.StepPerformsTheNextRun := by
  intro s s' id rest c hp hs' h hrun
  have hread : s'.readByte = s.readByte := by rw [hs']; rfl
  have hresp : s'.response = s.response := by rw [hs']
  rw [← hread]
  refine ⟨fun i hf => step_parse_run hp hs' h hrun hf, fun why hf => ?_⟩
  obtain ⟨hdec, hothers, hbytes, hkept⟩ := State.putDec_frame (c' := c.rejectRun why) h.1
  refine ⟨_, step_parse_reject hp hs' h hrun hf, hothers, hbytes, hkept.trans hresp, ?_⟩
  rw [DecCore.rejectRun_eq] at hdec ⊢
  exact hdec

end Sys2Proof.Machine
end

section
/-! ## The statements on the decoder's values (43_run_frame_parser.md R136 to R148) -/

namespace Sys2Proof.Machine

/-! ### The accessors and the repeated run -/

section
variable {policy : PadPolicy} {rd : Nat → Byte} {c : DecCore}

theorem Run.repeats_eq_zero {r : Run} (h : ∀ v rem, r ≠ .rep v rem) : r.repeats = 0 := by
  cases r with
  | rep v rem => exact absurd rfl (h v rem)
  | empty | lit | dead => rfl

theorem Run.literals_eq_zero {r : Run} (h : ∀ rem, r ≠ .lit rem) : r.literals = 0 := by
  cases r with
  | lit rem => exact absurd rfl (h rem)
  | empty | rep | dead => rfl

/-- Where no run can be taken up, looking ahead leaves the decoder DEAD where it stands. -/
theorem DecCore.lookAhead_of_reject {why : Reject} (hrun : c.run = .empty) (hf : c.fetchRun rd = .error why) :
    ∃ reason, c.lookAhead policy rd = c.die reason := by
  obtain ⟨reason, hdie, -⟩ := c.rejectRun_eq_die why
  exact ⟨reason, by rw [DecCore.lookAhead_of_empty _ _ hrun, DecCore.parseHeader, hf, ← hdie]⟩

end

/-- Settles O43: the decoder that goes on is the one whose look-ahead is filled. -/
theorem accessorsReportTheRun : Obligations.AccessorsReportTheRun := by
  intro s c h
  refine ⟨c.lookAhead s.params.padPolicy (s.readByte c.buf), fun hrun => DecCore.lookAhead_of_ne _ _ hrun,
    fun i u hrun hf hu => ?_, fun why hrun hf => ?_, ?_, ?_⟩
  · rw [exec_fetchedRun h hrun hf] at hu
    cases hu
    rw [DecCore.lookAhead_of_empty _ _ hrun]
    exact s.putDec_decIs _
  · obtain ⟨reason, hdie⟩ := DecCore.lookAhead_of_reject hrun hf
    rw [hdie]
    rfl
  · obtain ⟨t, he, hans, hothers, hbytes, hdec⟩ := h.answers (exec_decNextNumRepeats h rfl)
    refine ⟨t, _, he, hans, hothers, hbytes, hdec, fun v rem hr => by rw [hr]; rfl, fun hr => ?_⟩
    rw [Run.repeats_eq_zero hr]
    rfl
  · obtain ⟨t, he, hans, hothers, hbytes, hdec⟩ := h.answers (exec_decNextNumLiterals h rfl)
    refine ⟨t, _, he, hans, hothers, hbytes, hdec, fun rem hr => by rw [hr]; rfl, fun hr => ?_⟩
    rw [Run.literals_eq_zero hr]
    rfl

/-- Settles O44, by the run held. -/
theorem repeatedValueIsDelivered : Obligations.RepeatedValueIsDelivered := by
  intro s c n h
  refine ⟨fun v rem hr hn => ?_, fun v rem hr hn => ?_, fun rem hr => ?_, fun hr => ?_⟩ <;>
    have hd := DecCore.lookAhead_of_ne s.params.padPolicy (s.readByte c.buf) (c := c) (by simp [hr])
  · exact h.answers (exec_decGetRepeatedValue_rep h hd hr hn)
  · exact exec_decGetRepeatedValue_above h hd hr hn
  · exact exec_decGetRepeatedValue_lit h hd hr n
  · exact h.answers (exec_decGetRepeatedValue_dead h hd hr n)

/-! ### One value (R141) -/

/-- Settles O46, by the run held; a field's bits are the input's (`inField_bit`). -/
theorem singleValueIsDelivered : Obligations.SingleValueIsDelivered := by
  intro s c h
  refine ⟨fun v rem hr => ?_, fun rem hr hw hin => ?_, fun rem hr hcut => ?_, fun hr => ?_⟩
  · exact h.answers (exec_decGetSingleValue_some h (DecCore.takeOne_rep _ _ hr))
  · obtain ⟨t, he, hans, hothers, hbytes, hdec⟩ :=
      h.answers (exec_decGetSingleValue_some h (DecCore.takeOne_lit _ _ hr hin))
    have hv := toNat_inField hw (s.readByte c.buf) c.rbits
    refine ⟨t, _, he, hans, hothers, hbytes, by rw [hv]; exact inField_lt _ _ _, fun b hb => ?_, hdec⟩
    rw [hv, inField_bit _ _ _ _ hb]
  · exact h.answers (exec_decGetSingleValue_none h (DecCore.takeOne_lit_cut _ _ hr hcut))
  · exact h.answers (exec_decGetSingleValue_none h (DecCore.takeOne_dead _ _ hr))

/-! ### Many values of a literal run (R140) -/

section
variable (policy : PadPolicy) (rd : Nat → Byte) {c : DecCore} {rem k n : Nat}

/-- The first `k` fields of `c.w` bits from the decoder's position on. -/
def DecCore.fields (rd : Nat → Byte) (c : DecCore) (k : Nat) : List Word64 :=
  (List.range k).map fun i => BitVec.ofNat 64 (inField rd (c.rbits + i * c.w) c.w)

@[simp] theorem DecCore.fields_length : (c.fields rd k).length = k := by simp [DecCore.fields]

theorem DecCore.fields_succ : c.fields rd (k + 1)
    = c.fields rd k ++ [BitVec.ofNat 64 (inField rd (c.rbits + k * c.w) c.w)] := by
  simp [DecCore.fields, List.range_succ]

/-- A literal run of which `k` values were taken. -/
def DecCore.literalsTaken (c : DecCore) (rem k : Nat) : DecCore :=
  { c with rbits := c.rbits + k * c.w, run := if k = rem then .empty else .lit (rem - k) }

variable {policy rd}

theorem DecCore.literalsTaken_zero (hr : c.run = .lit rem) (hpos : 1 ≤ rem) : c.literalsTaken rem 0 = c := by
  have hne : ¬0 = rem := by omega
  simp only [DecCore.literalsTaken, if_neg hne, Nat.zero_mul, Nat.add_zero, Nat.sub_zero, ← hr]

theorem DecCore.literalsTaken_run (hk : k < rem) : (c.literalsTaken rem k).run = .lit (rem - k) := if_neg hk.ne

theorem DecCore.add_succ_mul_w (c : DecCore) (k : Nat) : c.rbits + (k + 1) * c.w = c.rbits + k * c.w + c.w := by ring

/-- Fields that are whole are delivered one after another. -/
theorem DecCore.takeMany_lit (hr : c.run = .lit rem) (hpos : 1 ≤ rem) (hk : k ≤ rem)
    (hin : c.rbits + k * c.w ≤ 8 * c.lIn) :
    c.takeMany policy rd k = (c.literalsTaken rem k, c.fields rd k) := by
  induction k with
  | zero => exact Prod.ext (DecCore.literalsTaken_zero hr hpos).symm rfl
  | succ k ih =>
    rw [DecCore.add_succ_mul_w] at hin
    have hone := DecCore.takeOne_lit policy rd (DecCore.literalsTaken_run (c := c) hk) hin
    have hlast : rem - k = 1 ↔ k + 1 = rem := by omega
    rw [DecCore.takeMany_add, ih (by omega) (by omega), DecCore.takeMany_some policy rd 0 hone, DecCore.fields_succ]
    refine Prod.ext ?_ rfl
    simp only [DecCore.takeMany, DecCore.literalsTaken, DecCore.add_succ_mul_w, Nat.sub_sub, hlast]

/-- Where the payload is cut off, the fields before that are delivered, and the decoder is DEAD. -/
theorem DecCore.takeMany_lit_cut (hr : c.run = .lit rem) (hn : n ≤ rem) (hpos : c.rbits ≤ 8 * c.lIn)
    (hcut : 8 * c.lIn < c.rbits + n * c.w) :
    (8 * c.lIn - c.rbits) / c.w < n
      ∧ c.takeMany policy rd n = ((c.literalsTaken rem ((8 * c.lIn - c.rbits) / c.w)).die .truncated,
        c.fields rd ((8 * c.lIn - c.rbits) / c.w)) := by
  have hw : 0 < c.w := Nat.pos_of_ne_zero fun hw => by
    rw [hw] at hcut
    omega
  have hwhole : (8 * c.lIn - c.rbits) / c.w < n := (Nat.div_lt_iff_lt_mul hw).2 (by omega)
  have hin := Nat.div_mul_le_self (8 * c.lIn - c.rbits) c.w
  have hend := Nat.lt_div_mul_add (a := 8 * c.lIn - c.rbits) hw
  refine ⟨hwhole, ?_⟩
  generalize (8 * c.lIn - c.rbits) / c.w = k at hwhole hin hend ⊢
  obtain ⟨m, rfl⟩ : ∃ m, n = k + (m + 1) := ⟨n - k - 1, by omega⟩
  have hnone := DecCore.takeOne_lit_cut policy rd (c := c.literalsTaken rem k)
    (DecCore.literalsTaken_run (by omega)) (by dsimp only [DecCore.literalsTaken]; omega)
  rw [DecCore.takeMany_add, DecCore.takeMany_lit hr (by omega) (by omega) (by omega),
    DecCore.takeMany_none policy rd m hnone, List.append_nil]

theorem DecCore.lit_pos_of_ok {p : Params} (hok : c.ok p = true) (hr : c.run = .lit rem) : 1 ≤ rem := by
  obtain ⟨-, -, -, hrun, -⟩ := DecCore.ok_iff.1 hok
  simp only [DecCore.runOk, hr, Bool.and_eq_true, decide_eq_true_eq] at hrun
  exact hrun.1.1

end

/-- Settles O45: a literal run held delivers the fields that are whole (`DecCore.takeMany_lit`,
`DecCore.takeMany_lit_cut`). -/
theorem literalValuesAreDelivered : Obligations.LiteralValuesAreDelivered := by
  intro s c n h hok
  obtain ⟨-, -, hpos, -⟩ := DecCore.ok_iff.1 hok
  refine ⟨fun rem hr hn hin => ?_, fun rem hr hn hcut => ?_, fun rem hr hn => ?_, fun v rem hr hn => ?_,
    fun v rem hr hn => ?_, fun hr => ?_⟩ <;>
    have hd := DecCore.lookAhead_of_ne s.params.padPolicy (s.readByte c.buf) (c := c) (by simp [hr])
  · have ht := DecCore.takeMany_lit (policy := s.params.padPolicy) (rd := s.readByte c.buf) hr
      (DecCore.lit_pos_of_ok hok hr) hn hin
    obtain ⟨t, he, hans, hothers, hbytes, hdec⟩ :=
      h.answers (exec_decGetLiteralValues_taken h hd (by simp [hr]) (by rwa [hr]) ht)
    rw [DecCore.fields_length, if_pos rfl] at hans
    exact ⟨t, he, hothers, hbytes, hans, hdec⟩
  · obtain ⟨hshort, ht⟩ := DecCore.takeMany_lit_cut (policy := s.params.padPolicy) (rd := s.readByte c.buf)
      hr hn hpos hcut
    obtain ⟨t, he, hans, hothers, hbytes, hdec⟩ :=
      h.answers (exec_decGetLiteralValues_taken h hd (by simp [hr]) (by rwa [hr]) ht)
    rw [DecCore.fields_length, if_neg hshort.ne] at hans
    exact ⟨t, he, hothers, hbytes, hans, hdec⟩
  · exact exec_decGetLiteralValues_above h hd (by simp [hr]) (by rwa [hr])
  · refine exec_decGetLiteralValues_above h hd (by simp [hr]) ?_
    rw [hr]
    exact Nat.pos_of_ne_zero (BitVec.toNat_ne.1 hn)
  · subst hn
    exact h.answers (exec_decGetLiteralValues_taken h hd (by simp [hr]) (Nat.zero_le _) rfl)
  · exact h.answers (exec_decGetLiteralValues_dead h hd hr n)

/-! ### The bulk commands (R142, R143, R148) -/

theorem DecCore.takeMany_length_toNat (policy : PadPolicy) (rd : Nat → Byte) (c : DecCore) (n : Word32) :
    (BitVec.ofNat 64 (c.takeMany policy rd n.toNat).2.length).toNat = (c.takeMany policy rd n.toNat).2.length := by
  have hle := c.takeMany_length_le policy rd n.toNat
  have hn := n.isLt
  rw [BitVec.toNat_ofNat]
  omega

/-- Single values taken until there are `n`, or the first FALSE, are those of TakeOne's loop. -/
theorem singles_eq_takeMany {s : State} {c : DecCore} (h : s.runsDec c) (n : Nat) :
    ∃ u, singles n s = some (u, (c.takeMany s.params.padPolicy (s.readByte c.buf) n).2)
      ∧ u.dec s.port.target.id = Slot.running (c.takeMany s.params.padPolicy (s.readByte c.buf) n).1 := by
  induction n generalizing s c with
  | zero => exact ⟨s, rfl, State.decIs_of_runs h⟩
  | succ n ih =>
    have hcfg := c.takeOne_sameConfig s.params.padPolicy (s.readByte c.buf)
    rcases ho : c.takeOne s.params.padPolicy (s.readByte c.buf) with ⟨c', _ | v⟩ <;> rw [ho] at hcfg
    · have he : execDecGetSingleValue s = _ := exec_decGetSingleValue_none h ho
      rw [DecCore.takeMany_none _ _ n ho]
      exact ⟨s.decAnswered c' .isFalse, by rw [singles, he]; rfl, s.putDec_decIs c'⟩
    · have he : execDecGetSingleValue s = _ := exec_decGetSingleValue_some h ho
      obtain ⟨u, hu, hdec⟩ := ih (State.decAnswered_runsDec (st := .ok) (r := some v) (vs := []) h hcfg)
      rw [hcfg.buf] at hu hdec
      rw [DecCore.takeMany_some _ _ n ho]
      refine ⟨u, ?_, hdec⟩
      rw [singles, he]
      exact congrArg (Option.map fun r => (r.1, v :: r.2)) hu

/-- Settles O48: both are TakeOne's loop (`singles_eq_takeMany`). -/
theorem bulkReadEqualsSingleReads : Obligations.BulkReadEqualsSingleReads := by
  intro s c n h
  obtain ⟨u, hsingles, hu⟩ := singles_eq_takeMany h n.toNat
  exact ⟨_, u, _, _, hsingles, exec_decGetValues_taken h rfl, rfl, DecCore.takeMany_length_toNat _ _ c n,
    (s.putDec_decIs _).trans hu.symm, State.decAnswered_othersKept h.1, State.decAnswered_bytesKept⟩

/-- Settles O49: skipping is taking with the values counted (`DecCore.skipMany_eq`). -/
theorem skipLeavesTheStateOfTheBulkRead : Obligations.SkipLeavesTheStateOfTheBulkRead := by
  intro s c n h
  exact ⟨_, _, _, _, exec_decSkipValues_taken h rfl, exec_decGetValues_taken h rfl, rfl, rfl, rfl,
    State.decAnswered_othersKept h.1, State.decAnswered_bytesKept⟩

/-- Settles O50: taking `a` values and then `b` is taking `a + b` (`DecCore.takeMany_add`). -/
theorem bulkReadsCompose : Obligations.BulkReadsCompose := by
  intro s c a b h hlt
  have hall := c.takeMany_add s.params.padPolicy (s.readByte c.buf) a.toNat b.toNat
  have hcfg := c.takeMany_sameConfig s.params.padPolicy (s.readByte c.buf) a.toNat
  rcases ha : c.takeMany s.params.padPolicy (s.readByte c.buf) a.toNat with ⟨c1, va⟩
  rcases hb : c1.takeMany s.params.padPolicy (s.readByte c.buf) b.toNat with ⟨c2, vb⟩
  rw [ha] at hcfg hall
  rw [hb, ← Nat.mod_eq_of_lt hlt, ← BitVec.toNat_add] at hall
  have hafter : (s.decAnswered c1 .ok (resultOf va.length) va).runsDec c1 := State.decAnswered_runsDec h hcfg
  rw [← hcfg.buf] at hb
  exact ⟨_, _, _, _, _, _, _, _, exec_decGetValues_taken h ha, exec_decGetValues_taken hafter hb,
    exec_decGetValues_taken h hall, rfl, rfl, rfl, (s.putDec_decIs c2).trans (State.putDec_decIs _ c2).symm⟩

/-! ### DEAD (R144) -/

/-- A command of a running decoder that does no more than answer. -/
theorem State.runsDec.answersOnly {s : State} {c : DecCore} {i : Instr} {st : Status} {r : Option Word64}
    (h : s.runsDec c) (he : exec i s = .next (s.decAnswered c st r)) :
    ∃ t, exec i s = .next t ∧ t.answers st r [] ∧ t.decIs c ∧ s.othersKept t ∧ s.bytesKept t :=
  ⟨_, he, rfl, State.decAnswered_decIs, State.decAnswered_othersKept h.1, State.decAnswered_bytesKept⟩

/-- Settles O51: a DEAD look-ahead stays, and no value is taken. -/
theorem deadIsSticky : Obligations.DeadIsSticky := by
  intro s c h hr
  have hd := DecCore.lookAhead_of_ne s.params.padPolicy (s.readByte c.buf) (c := c) (by simp [hr])
  exact ⟨fun i hi => h.answersOnly (exec_accessors_dead h hd hr i hi),
    h.answersOnly (exec_decGetSingleValue_none h (DecCore.takeOne_dead _ _ hr)), fun n =>
    ⟨h.answersOnly (exec_decGetRepeatedValue_dead h hd hr n),
      h.answersOnly (exec_decGetLiteralValues_dead h hd hr n), fun i hi =>
      h.answersOnly (exec_bulk_nothing h (DecCore.takeMany_dead _ _ _ hr) i hi)⟩⟩

/-! ### Two passes (R128, R148) -/

section
variable {s t : State}

/-- Whether a buffer is in use is said by the buffers, the bit writers and the encoders. -/
theorem State.inUse_congr (hm : t.mem = s.mem) (hbw : ∀ id, t.bw id = s.bw id) (henc : ∀ id, t.enc id = s.enc id)
    (b : Nat) : t.inUse b = s.inUse b := by
  simp only [State.inUse, State.outputOf, State.buf_congr hm, hbw, henc]

/-- What a decoder's command leaves as it was, a construction's included. -/
theorem ground_of_exec_dec {i : Instr} (hk : s.port.target.kind = .dec) (hi : kindOf i = .dec)
    (he : exec i s = .next t) :
    t.params = s.params ∧ t.port = s.port ∧ t.mem = s.mem ∧ ∀ b, t.inUse b = s.inUse b := by
  obtain ⟨⟨hparams, -, hport, hbw, -, henc, -⟩, hmem⟩ := onlyTheAddressedUnitChanges s t i he
  exact ⟨hparams, hport, hmem (.inr hi), State.inUse_congr (hmem (.inr hi))
    (fun id => hbw id fun ht => by simp [ht] at hk) fun id => henc id fun ht => by simp [ht] at hk⟩

/-- A construction that answers OK was inside the contract. -/
theorem legal_of_exec_decNew {lIn : Word32} {w : Word7} (hk : s.port.target.kind = .dec)
    (he : exec (.decNew lIn w) s = .next t) (hst : t.status = some .ok) :
    w.toNat ≤ 64 ∧ lIn.toNat ≤ s.params.maxBufferLen ∧ s.inUse s.port.buffer = false := by
  have hgood : ¬(64 < w.toNat ∨ s.params.maxBufferLen < lIn.toNat ∨ s.inUse s.port.buffer = true) := fun hbad => by
    rw [exec_decNew_refused hk hbad] at he
    cases he
    cases hst
  simpa only [not_or, Nat.not_lt, Bool.not_eq_true] using hgood

/-- The decoder just constructed may go on. -/
theorem State.decAnswered_fresh_runsDec (hk : s.port.target.kind = .dec) {b version : Nat}
    (hv : version = (s.buf b).version) (w lIn : Nat) {st : Status} :
    (s.decAnswered (DecCore.fresh b version w lIn) st).runsDec (DecCore.fresh b version w lIn) := by
  subst hv
  exact ⟨hk, Slot.ready_eq_some.2 (s.putDec_decIs _), Buffer.changedSince_version _ _⟩

end

/-- Settles O52: between the two constructions neither memory nor the use of a buffer changes, so that they give the
same decoder over the same bytes. -/
theorem resetStartsTheSamePassAgain : Obligations.ResetStartsTheSamePassAgain := by
  intro s s1 s2 u lIn n w i hk hi hnew hst hbetween hreset
  obtain ⟨hw, hl, hu⟩ := legal_of_exec_decNew hk hnew hst
  obtain ⟨hparams1, hport1, hmem1, huse1⟩ := ground_of_exec_dec hk rfl hnew
  obtain ⟨hparams2, hport2, hmem2, huse2⟩ := ground_of_exec_dec (hport1 ▸ hk) hi hbetween
  have hparams := hparams2.trans hparams1
  have hport := hport2.trans hport1
  have hmem := hmem2.trans hmem1
  have hk2 : s2.port.target.kind = .dec := hport ▸ hk
  have hagain := exec_decNew_ok hk2 hw (hparams ▸ hl) (by rw [huse2, huse1, hport]; exact hu)
  rw [hport] at hagain
  obtain rfl := Host.Outcome.next.inj ((exec_decNew_ok hk hw hl hu).symm.trans hnew)
  obtain rfl := Host.Outcome.next.inj (hagain.symm.trans hreset)
  have hbuf := State.buf_congr hmem s.port.buffer
  have hread : s2.readByte s.port.buffer = s.readByte s.port.buffer := funext (State.readByte_congr hmem _)
  have h1 := State.decAnswered_fresh_runsDec hk (b := s.port.buffer) rfl w.toNat lIn.toNat (st := .ok)
  have h2 := State.decAnswered_fresh_runsDec hk2 (congrArg Buffer.version hbuf.symm) w.toNat lIn.toNat (st := .ok)
  rcases ht : (DecCore.fresh s.port.buffer (s.buf s.port.buffer).version w.toNat lIn.toNat).takeMany
    s.params.padPolicy (s.readByte s.port.buffer) n.toNat with ⟨c', vs⟩
  have ht2 := ht
  rw [← hparams, ← hread] at ht2
  rw [hbuf]
  exact ⟨_, _, _, _, exec_decGetValues_taken h1 ht, exec_decGetValues_taken h2 ht2, rfl, rfl⟩

end Sys2Proof.Machine
end

section
/-! ## Two states in which a decoder finds the same (43_run_frame_parser.md R129, R136 to R144) -/

namespace Sys2Proof.Machine

section
variable {i : Instr} {s u : State} {c d e : DecCore} {n : Word32}

/-- The instruction answers alike in both states, and leaves the decoder alike. -/
def BothAnswer (i : Instr) (s u : State) : Prop :=
  ∃ c' st r vs, st ≠ .refused ∧ exec i s = .next (s.decAnswered c' st r vs)
    ∧ exec i u = .next (u.decAnswered c' st r vs)

/-- The instruction is refused in both states. -/
def BothRefuse (i : Instr) (s u : State) : Prop := exec i s = .next s.refuse ∧ exec i u = .next u.refuse

variable (h : s.runsDec c) (h' : u.runsDec e)
include h h'

/-! ### The same values are taken -/

theorem bothAnswer_decGetSingleValue (ho : c.takeOne s.params.padPolicy (s.readByte c.buf)
    = e.takeOne u.params.padPolicy (u.readByte e.buf)) : BothAnswer .decGetSingleValue s u := by
  rcases ho' : e.takeOne u.params.padPolicy (u.readByte e.buf) with ⟨c', _ | v⟩ <;> rw [ho'] at ho
  · exact ⟨c', _, _, _, by simp, exec_decGetSingleValue_none h ho, exec_decGetSingleValue_none h' ho'⟩
  · exact ⟨c', _, _, _, by simp, exec_decGetSingleValue_some h ho, exec_decGetSingleValue_some h' ho'⟩

theorem bothAnswer_bulk (ht : c.takeMany s.params.padPolicy (s.readByte c.buf) n.toNat
    = e.takeMany u.params.padPolicy (u.readByte e.buf) n.toNat) :
    BothAnswer (.decGetValues n) s u ∧ BothAnswer (.decSkipValues n) s u := by
  rcases ht' : e.takeMany u.params.padPolicy (u.readByte e.buf) n.toNat with ⟨c', vs⟩
  rw [ht'] at ht
  exact ⟨⟨c', _, _, _, by simp, exec_decGetValues_taken h ht, exec_decGetValues_taken h' ht'⟩,
    ⟨c', _, _, _, by simp, exec_decSkipValues_taken h ht, exec_decSkipValues_taken h' ht'⟩⟩

/-! ### The same look-ahead is found -/

variable (hd : c.lookAhead s.params.padPolicy (s.readByte c.buf) = d)
  (hd' : e.lookAhead u.params.padPolicy (u.readByte e.buf) = d)
include hd hd'

theorem bothAnswer_accessors : BothAnswer .decNextNumRepeats s u ∧ BothAnswer .decNextNumLiterals s u :=
  ⟨⟨d, _, _, _, by simp, exec_decNextNumRepeats h hd, exec_decNextNumRepeats h' hd'⟩,
    ⟨d, _, _, _, by simp, exec_decNextNumLiterals h hd, exec_decNextNumLiterals h' hd'⟩⟩

theorem alike_decGetRepeatedValue (n : Word32) :
    BothRefuse (.decGetRepeatedValue n) s u ∨ BothAnswer (.decGetRepeatedValue n) s u := by
  cases hr : d.run with
  | empty => exact absurd hr (hd ▸ c.lookAhead_run_ne_empty _ _)
  | dead =>
    exact .inr
      ⟨_, _, _, _, by simp, exec_decGetRepeatedValue_dead h hd hr n, exec_decGetRepeatedValue_dead h' hd' hr n⟩
  | lit rem => exact .inl ⟨exec_decGetRepeatedValue_lit h hd hr n, exec_decGetRepeatedValue_lit h' hd' hr n⟩
  | rep v rem =>
    rcases Nat.lt_or_ge rem n.toNat with hn | hn
    · exact .inl ⟨exec_decGetRepeatedValue_above h hd hr hn, exec_decGetRepeatedValue_above h' hd' hr hn⟩
    · exact .inr
        ⟨_, _, _, _, by simp, exec_decGetRepeatedValue_rep h hd hr hn, exec_decGetRepeatedValue_rep h' hd' hr hn⟩

theorem alike_decGetLiteralValues (ht : d.takeMany s.params.padPolicy (s.readByte c.buf) n.toNat
    = d.takeMany u.params.padPolicy (u.readByte e.buf) n.toNat) :
    BothRefuse (.decGetLiteralValues n) s u ∨ BothAnswer (.decGetLiteralValues n) s u := by
  by_cases hr : d.run = .dead
  · exact .inr
      ⟨_, _, _, _, by simp, exec_decGetLiteralValues_dead h hd hr n, exec_decGetLiteralValues_dead h' hd' hr n⟩
  rcases Nat.lt_or_ge d.run.literals n.toNat with hn | hn
  · exact .inl ⟨exec_decGetLiteralValues_above h hd hr hn, exec_decGetLiteralValues_above h' hd' hr hn⟩
  · rcases ht' : d.takeMany u.params.padPolicy (u.readByte e.buf) n.toNat with ⟨c', vs⟩
    rw [ht'] at ht
    exact .inr ⟨_, _, _, _, by split <;> simp, exec_decGetLiteralValues_taken h hd hr hn ht,
      exec_decGetLiteralValues_taken h' hd' hr hn ht'⟩

end

end Sys2Proof.Machine
end

section
/-! ## The next run is taken up first (43_run_frame_parser.md R129, R136 to R144; log entry 10) -/

namespace Sys2Proof.Machine

/-- A bulk command that takes a value looks ahead first. -/
theorem DecCore.takeMany_lookAhead (policy : PadPolicy) (rd : Nat → Byte) (c : DecCore) {n : Nat} (hn : n ≠ 0) :
    (c.lookAhead policy rd).takeMany policy rd n = c.takeMany policy rd n := by
  cases n with
  | zero => exact absurd rfl hn
  | succ n => simp only [DecCore.takeMany, DecCore.takeOne_lookAhead]

section
variable {i : Instr} {s t : State} {d : DecCore}

/-- An answer is the same where the run was taken up before. -/
theorem BothAnswer.exec_eq (h : BothAnswer i s (s.putDec d)) : exec i s = exec i (s.putDec d) := by
  obtain ⟨c', st, r, vs, -, hs, hu⟩ := h
  rw [hs, hu, State.decAnswered_putDec]

/-- A refusal where the run was taken up before has, without that, the refusal as its only effect. -/
theorem exec_asTakenUp (h : BothRefuse i s (s.putDec d) ∨ BothAnswer i s (s.putDec d))
    (ht : exec i (s.putDec d) = .next t) :
    exec i s = .next (if t.status = some .refused then s.refuse else t) := by
  rcases h with ⟨hs, hu⟩ | h
  · obtain rfl := Host.Outcome.next.inj (hu.symm.trans ht)
    rw [hs, if_pos State.refuse_status]
  · obtain ⟨c', st, r, vs, hst, -, hu⟩ := id h
    obtain rfl := Host.Outcome.next.inj (hu.symm.trans ht)
    rw [h.exec_eq, hu, if_neg (by simpa using hst)]

end

/-- The decoder with its look-ahead filled may go on, reads the same input, and looks no further ahead. -/
theorem State.runsDec.takenUp {s : State} {c d : DecCore} (h : s.runsDec c)
    (hd : c.lookAhead s.params.padPolicy (s.readByte c.buf) = d) :
    (s.putDec d).runsDec d ∧ (s.putDec d).readByte d.buf = s.readByte c.buf
      ∧ ∀ policy rd, d.lookAhead policy rd = d := by
  subst hd
  have hcfg := c.lookAhead_sameConfig s.params.padPolicy (s.readByte c.buf)
  exact ⟨h.putDec hcfg, by rw [hcfg.buf]; rfl,
    fun policy rd => DecCore.lookAhead_of_ne policy rd (c.lookAhead_run_ne_empty _ _)⟩

/-- Settles O47: performing the fetched run fills the look-ahead, so that the decoder finds the same in both states; a
look-ahead that is DEAD delivers nothing. -/
theorem emptyLookAheadParsesFirst : Obligations.EmptyLookAheadParsesFirst := by
  refine ⟨fun s u c i h hrun hf hu => ?_, fun s c why h hrun hf => ?_, fun s c h i hi => ?_⟩
  · have hone := c.takeOne_lookAhead s.params.padPolicy (s.readByte c.buf)
    have hmany (n : Word32) (hn : n ≠ 0) :=
      DecCore.takeMany_lookAhead s.params.padPolicy (s.readByte c.buf) c (BitVec.toNat_ne.1 hn)
    rw [exec_fetchedRun h hrun hf, ← DecCore.lookAhead_of_empty _ _ hrun] at hu
    generalize hd : c.lookAhead s.params.padPolicy (s.readByte c.buf) = d at hu hone hmany
    obtain rfl := Host.Outcome.next.inj hu
    obtain ⟨h', hread, hd'⟩ := h.takenUp hd
    obtain ⟨hrepeats, hliterals⟩ := bothAnswer_accessors h h' hd (hd' _ _)
    refine ⟨(bothAnswer_decGetSingleValue h h' (hread ▸ hone.symm)).exec_eq, hrepeats.exec_eq, hliterals.exec_eq,
      fun n hn => ?_, fun n t => ⟨exec_asTakenUp (alike_decGetRepeatedValue h h' hd (hd' _ _) n),
        exec_asTakenUp (alike_decGetLiteralValues h h' hd (hd' _ _) (hread ▸ rfl))⟩⟩
    obtain ⟨hvalues, hskip⟩ := bothAnswer_bulk (n := n) h h' (hread ▸ (hmany n hn).symm)
    exact ⟨hvalues.exec_eq, hskip.exec_eq⟩
  · obtain ⟨reason, hd⟩ := DecCore.lookAhead_of_reject (policy := s.params.padPolicy) hrun hf
    have hr : (c.die reason).run = .dead := rfl
    have hone := c.takeOne_lookAhead s.params.padPolicy (s.readByte c.buf)
    rw [hd, DecCore.takeOne_dead _ _ hr] at hone
    refine ⟨reason, h.answers (exec_decGetSingleValue_none h hone.symm),
      fun i hi => h.answers (exec_accessors_dead h hd hr i hi), fun n =>
      ⟨h.answers (exec_decGetRepeatedValue_dead h hd hr n), h.answers (exec_decGetLiteralValues_dead h hd hr n),
        fun hn i hi => ?_⟩⟩
    have hmany := DecCore.takeMany_lookAhead s.params.padPolicy (s.readByte c.buf) c (BitVec.toNat_ne.1 hn)
    rw [hd, DecCore.takeMany_dead _ _ _ hr] at hmany
    exact h.answers (exec_bulk_nothing h hmany.symm i hi)
  · exact h.answers (exec_bulk_nothing h rfl i hi)

end Sys2Proof.Machine
end

section
/-! ## Nothing beyond the input is read (20_memory.md R48; 43_run_frame_parser.md R146) -/

namespace Sys2Proof.Machine

/-- Both complete, with the same answer and the same state of a unit. -/
def SameFor {α : Type} (unit : State → α) (o o' : Host.Outcome State Fault Refusal) : Prop :=
  ∃ t u, o = .next t ∧ o' = .next u ∧ u.response = t.response ∧ unit u = unit t

section
variable {i : Instr} {s : State} (m : Memory)

/-- A refusal does not look at the memory. -/
theorem State.refuse_withMem : ({ s with mem := m } : State).refuse = { s.refuse with mem := m } := by
  unfold State.refuse State.mark
  dsimp only
  split <;> rfl

theorem BothRefuse.sameFor {α : Type} {unit : State → α} (h : BothRefuse i s { s with mem := m })
    (hunit : ∀ t : State, unit { t with mem := m } = unit t) :
    SameFor unit (exec i s) (exec i { s with mem := m }) := by
  obtain ⟨hs, hu⟩ := h
  rw [State.refuse_withMem] at hu
  exact ⟨_, _, hs, hu, rfl, hunit _⟩

/-! ### The decoder -/

section
variable {c : DecCore}

theorem sameFor_putDec (c' : DecCore) : SameFor (State.dec · s.port.target.id) (.next (s.putDec c'))
    (.next (({ s with mem := m } : State).putDec c')) := ⟨_, _, rfl, rfl, rfl, rfl⟩

theorem BothAnswer.sameFor (h : BothAnswer i s { s with mem := m }) :
    SameFor (State.dec · s.port.target.id) (exec i s) (exec i { s with mem := m }) := by
  obtain ⟨c', st, r, vs, -, hs, hu⟩ := h
  exact ⟨_, _, hs, hu, rfl, rfl⟩

theorem sameFor_of_alike (h : BothRefuse i s { s with mem := m } ∨ BothAnswer i s { s with mem := m }) :
    SameFor (State.dec · s.port.target.id) (exec i s) (exec i { s with mem := m }) :=
  h.elim (·.sameFor m fun _ => rfl) (·.sameFor m)

/-- The look-ahead, and the values taken, depend on the input's bytes alone. -/
theorem exec_dec_sameFor (h : s.runsDec c) (hi : kindOf i = .dec) (hc : isConstruction i = false)
    (h' : ({ s with mem := m } : State).runsDec c)
    (hread : ∀ j, j < c.lIn → ({ s with mem := m } : State).readByte c.buf j = s.readByte c.buf j) :
    SameFor (State.dec · s.port.target.id) (exec i s) (exec i { s with mem := m }) := by
  have hd' := DecCore.lookAhead_congr s.params.padPolicy hread
  have hone := (DecCore.takeOne_congr s.params.padPolicy hread).symm
  have hmany (n) := (DecCore.takeMany_congr s.params.padPolicy hread n).symm
  cases i with
  | decNextNumRepeats => exact (bothAnswer_accessors h h' rfl hd').1.sameFor m
  | decNextNumLiterals => exact (bothAnswer_accessors h h' rfl hd').2.sameFor m
  | decGetRepeatedValue n => exact sameFor_of_alike m (alike_decGetRepeatedValue h h' rfl hd' n)
  | decGetLiteralValues n =>
    refine sameFor_of_alike m (alike_decGetLiteralValues h h' rfl hd' (DecCore.takeMany_congr _ ?_ _))
    rw [(c.lookAhead_sameConfig _ _).lIn]
    exact fun j hj => (hread j hj).symm
  | decGetSingleValue => exact (bothAnswer_decGetSingleValue h h' hone).sameFor m
  | decGetValues n => exact (bothAnswer_bulk h h' (hmany _)).1.sameFor m
  | decSkipValues n => exact (bothAnswer_bulk h h' (hmany _)).2.sameFor m
  | wireRepeatedRun count len =>
    by_cases hrun : c.run = .empty
    · rw [exec_wireRepeatedRun_empty h hrun, exec_wireRepeatedRun_empty h' hrun,
        DecCore.takeRepeatedRun_congr _ hread]
      exact sameFor_putDec m _
    · exact ⟨_, _, (exec_wireRun_held h hrun count len).1, (exec_wireRun_held h' hrun count len).1, rfl, rfl⟩
  | wireLiteralRun groups len =>
    by_cases hrun : c.run = .empty
    · rw [exec_wireLiteralRun_empty h hrun, exec_wireLiteralRun_empty h' hrun]
      exact sameFor_putDec m _
    · exact ⟨_, _, (exec_wireRun_held h hrun groups len).2, (exec_wireRun_held h' hrun groups len).2, rfl, rfl⟩
  | decNew | decReset => cases hc
  | _ => cases hi

end

/-! ### The bit reader -/

/-- A field and a varint depend on the input's bytes alone. -/
theorem exec_br_sameFor {c : BrCore} (h : s.runsBr c) (hi : kindOf i = .br) (hc : isConstruction i = false)
    (h' : ({ s with mem := m } : State).runsBr c)
    (hread : ∀ j, j < c.lIn → ({ s with mem := m } : State).readByte c.buf j = s.readByte c.buf j) :
    SameFor (State.br · s.port.target.id) (exec i s) (exec i { s with mem := m }) := by
  cases i with
  | brGetValue w =>
    rcases Nat.lt_or_ge 64 w.toNat with hw | hw
    · exact BothRefuse.sameFor m ⟨exec_brGetValue_refused h hw, exec_brGetValue_refused h' hw⟩ fun _ => rfl
    rcases Nat.lt_or_ge (8 * c.lIn) (c.rbits + w.toNat) with hend | hin
    · exact ⟨_, _, exec_brGetValue_end h hw hend, exec_brGetValue_end h' hw hend, rfl, rfl⟩
    · have hfield : inField (({ s with mem := m } : State).readByte c.buf) c.rbits w.toNat
          = inField (s.readByte c.buf) c.rbits w.toNat :=
        inField_congr _ _ fun k hk => inBit_congr _ _ (hread _ (by omega))
      have hget := exec_brGetValue_ok h' hw hin
      rw [hfield] at hget
      exact ⟨_, _, exec_brGetValue_ok h hw hin, hget, rfl, rfl⟩
  | brGetUleb128 =>
    have hwindow : varintWindow (({ s with mem := m } : State).readByte c.buf) c.lIn (ceil8 c.rbits)
        = varintWindow (s.readByte c.buf) c.lIn (ceil8 c.rbits) := bytesFrom_congr _ _ fun k hk => hread _ (by omega)
    cases hd : ulebDecode (varintWindow (s.readByte c.buf) c.lIn (ceil8 c.rbits)) with
    | endOfInput =>
      exact ⟨_, _, exec_brGetUleb128_end h hd, exec_brGetUleb128_end h' (hwindow ▸ hd), rfl, rfl⟩
    | err => exact ⟨_, _, exec_brGetUleb128_err h hd, exec_brGetUleb128_err h' (hwindow ▸ hd), rfl, rfl⟩
    | ok x used => exact ⟨_, _, exec_brGetUleb128_ok h hd, exec_brGetUleb128_ok h' (hwindow ▸ hd), rfl, rfl⟩
  | brSkipBits k =>
    rcases Nat.lt_or_ge (8 * c.lIn) (c.rbits + k.toNat) with hend | hin
    · exact ⟨_, _, exec_brSkipBits_end h hend, exec_brSkipBits_end h' hend, rfl, rfl⟩
    · exact ⟨_, _, exec_brSkipBits_ok h hin, exec_brSkipBits_ok h' hin, rfl, rfl⟩
  | brAlignToByte => exact ⟨_, _, exec_brAlignToByte h, exec_brAlignToByte h', rfl, rfl⟩
  | brInit => cases hc
  | _ => cases hi

end

/-- Settles O53, for each of the two units by its commands. -/
theorem nothingBeyondTheInputIsRead : Obligations.NothingBeyondTheInputIsRead :=
  ⟨fun _ _ m _ h hi hc h' hread => exec_dec_sameFor m h hi hc h' hread,
    fun _ _ m _ h hi hc h' hread => exec_br_sameFor m h hi hc h' hread⟩

end Sys2Proof.Machine
end

section
/-! ## Refusals (60_exceptions.md R178 to R180) -/

namespace Sys2Proof.Machine

section
variable {s : State}

/-! ### What a refusal does -/

theorem State.refuse_bw (hk : s.port.target.kind = .bw) :
    s.refuse.bw s.port.target.id = (s.bw s.port.target.id).marked := by
  rw [State.refuse, State.mark_of_bw hk]
  exact s.bw_setBw_same s.port.target.id (s.bw s.port.target.id).marked

theorem State.refuse_br (hk : s.port.target.kind = .br) :
    s.refuse.br s.port.target.id = (s.br s.port.target.id).marked := by
  rw [State.refuse, State.mark_of_br hk]
  exact s.br_setBr_same s.port.target.id (s.br s.port.target.id).marked

theorem State.refuse_enc (hk : s.port.target.kind = .enc) :
    s.refuse.enc s.port.target.id = (s.enc s.port.target.id).marked := by
  rw [State.refuse, State.mark_of_enc hk]
  exact s.enc_setEnc_same s.port.target.id (s.enc s.port.target.id).marked

theorem State.refuse_dec (hk : s.port.target.kind = .dec) :
    s.refuse.dec s.port.target.id = (s.dec s.port.target.id).marked := by
  rw [State.refuse, State.mark_of_dec hk]
  exact s.dec_setDec_same s.port.target.id (s.dec s.port.target.id).marked

/-- A refusal is an effect of every instruction, so that any one of them shows this. -/
theorem State.othersKept_refuse : s.othersKept s.refuse := (Effect.refused .bwFlush s).othersKept

/-- Of a unit that a refusal changes only the mark changes. -/
theorem core_eq_of_refusal {α : Type} {u u' : Slot α} {addressed : Prop} (h : addressed → u' = u.marked)
    (h' : ¬addressed → u' = u) : u'.core = u.core := by
  by_cases ha : addressed
  · rw [h ha, Slot.core_marked]
  · rw [h' ha]

theorem State.ne_target_of_kind {k : Kind} (hk : s.port.target.kind ≠ k) (id : Nat) :
    s.port.target ≠ { kind := k, id := id } := fun ht => hk (congrArg Target.kind ht)

/-! ### A unit that may not perform a command -/

theorem Slot.ne_running {α : Type} {u : Slot α} {c : α} (h : u.refused = true ∨ u.core = none) :
    u ≠ Slot.running c := by
  rintro rfl
  simp [Slot.running] at h

theorem Slot.core_of_ready {α : Type} {u : Slot α} {c : α} (h : u.ready = some c) : u.core = some c := by
  rw [Slot.ready_eq_some.1 h, Slot.core_running]

/-- Where no state lets the addressed unit perform its commands, the command is refused. -/
theorem State.onBw_refuses (h : ∀ c, ¬s.runsBw c) (f : BwCore → Host.Outcome State Fault Refusal) :
    s.onBw f = .next s.refuse := by
  by_cases hk : s.port.target.kind = .bw
  · refine (if_pos hk).trans ?_
    split
    case h_1 c hr => exact if_neg fun hh => h c ⟨hk, hr, hh⟩
    case h_2 => rfl
  · exact State.whenAddressed_misdirected hk _

theorem State.onEnc_refuses (h : ∀ e, ¬s.runsEnc e) (f : EncCore → Host.Outcome State Fault Refusal) :
    s.onEnc f = .next s.refuse := by
  by_cases hk : s.port.target.kind = .enc
  · refine (if_pos hk).trans ?_
    split
    case h_1 e hr => exact if_neg fun hh => h e ⟨hk, hr, hh⟩
    case h_2 => rfl
  · exact State.whenAddressed_misdirected hk _

theorem State.onBr_refuses (h : ∀ c, ¬s.runsBr c) (f : BrCore → Host.Outcome State Fault Refusal) :
    s.onBr f = .next s.refuse := by
  by_cases hk : s.port.target.kind = .br
  · refine (if_pos hk).trans ?_
    split
    case h_1 c hr => exact if_pos (by_contra fun hh => h c ⟨hk, hr, Bool.eq_false_of_not_eq_true hh⟩)
    case h_2 => rfl
  · exact State.whenAddressed_misdirected hk _

theorem State.onDec_refuses (h : ∀ c, ¬s.runsDec c) (f : DecCore → Host.Outcome State Fault Refusal) :
    s.onDec f = .next s.refuse := by
  by_cases hk : s.port.target.kind = .dec
  · refine (if_pos hk).trans ?_
    split
    case h_1 c hr => exact if_pos (by_contra fun hh => h c ⟨hk, hr, Bool.eq_false_of_not_eq_true hh⟩)
    case h_2 => rfl
  · exact State.whenAddressed_misdirected hk _

variable {i : Instr}

/-- Every instruction but a construction or a capacity helper is handed to a running unit of its kind. -/
theorem exec_bw_refuses (hi : kindOf i = .bw) (hc : isConstruction i = false) (h : ∀ c, ¬s.runsBw c) :
    exec i s = .next s.refuse := by
  cases i with
  | bwPutValue | bwPutUleb128 | bwFlush | bwBytesWritten | bwClear => exact State.onBw_refuses h _
  | bwInit => cases hc
  | _ => cases hi

theorem exec_br_refuses (hi : kindOf i = .br) (hc : isConstruction i = false) (h : ∀ c, ¬s.runsBr c) :
    exec i s = .next s.refuse := by
  cases i with
  | brGetValue | brGetUleb128 | brSkipBits | brAlignToByte => exact State.onBr_refuses h _
  | brInit => cases hc
  | _ => cases hi

theorem exec_enc_refuses (hi : kindOf i = .enc) (hc : isConstruction i = false) (hq : isCapacityHelper i = false)
    (h : ∀ e, ¬s.runsEnc e) : exec i s = .next s.refuse := by
  cases i with
  | encPut | encFlush | encClear => exact State.onEnc_refuses h _
  | encNew => cases hc
  | encMinBufferSize | encMaxBufferSize => cases hq
  | _ => cases hi

theorem exec_dec_refuses (hi : kindOf i = .dec) (hc : isConstruction i = false) (h : ∀ c, ¬s.runsDec c) :
    exec i s = .next s.refuse := by
  cases i with
  | decNextNumRepeats | decNextNumLiterals | decGetRepeatedValue | decGetLiteralValues | decGetSingleValue
  | decGetValues | decSkipValues | wireRepeatedRun | wireLiteralRun => exact State.onDec_refuses h _
  | decNew | decReset => cases hc
  | _ => cases hi

end

/-! ### A construction outside its contract -/

section
variable {s : State} {lOut : Word32} {w m : Word7}

theorem exec_bwInit_refused (hk : s.port.target.kind = .bw) (hl : s.params.maxBufferLen < lOut.toNat) :
    exec (.bwInit lOut) s = .next s.refuse :=
  (if_pos hk).trans (if_neg (by simp [lengthLegal, hl]))

theorem encNewLegal_eq_false {p : Params} (hbad : 64 < w.toNat ∨ m.toNat % 8 ≠ 0 ∨ p.maxRunLengthBuffer < m.toNat
    ∨ lOut.toNat < minBufferSize w.toNat ∨ p.maxBufferLen < lOut.toNat) : encNewLegal p lOut w m = false := by
  rw [← Bool.not_eq_true]
  simp only [encNewLegal, widthLegal, lengthLegal, Bool.and_eq_true, decide_eq_true_eq]
  omega

theorem exec_encNew_refused (hk : s.port.target.kind = .enc) (hbad : encNewLegal s.params lOut w m = false) :
    exec (.encNew lOut w m) s = .next s.refuse :=
  (if_pos hk).trans (if_neg (by simp [hbad]))

end

/-! ### The statements -/

/-- Settles O7: a refusal marks the addressed unit and answers. -/
theorem refusalOnlySetsTheMark : Obligations.RefusalOnlySetsTheMark := fun s =>
  ⟨s.refuse_response, State.othersKept_refuse, State.bytesKept_of_mem s.refuse_mem, State.refuse_bw, State.refuse_br,
    State.refuse_enc, State.refuse_dec⟩

/-- Settles O8: such a unit does not run, whatever its state is. -/
theorem markedOrUnbuiltUnitsRefuse : Obligations.MarkedOrUnbuiltUnitsRefuse := by
  intro i s hi hc hq hbw hbr henc hdec
  cases hk : s.port.target.kind with
  | bw => exact exec_bw_refuses (hi.trans hk) hc fun c hruns => Slot.ne_running (hbw hk) (State.bwIs_of_runs hruns)
  | br => exact exec_br_refuses (hi.trans hk) hc fun c hruns => Slot.ne_running (hbr hk) (State.brIs_of_runs hruns)
  | enc => exact exec_enc_refuses (hi.trans hk) hc hq fun e hruns => Slot.ne_running (henc hk) (State.encIs_of_runs hruns)
  | dec => exact exec_dec_refuses (hi.trans hk) hc fun c hruns => Slot.ne_running (hdec hk) (State.decIs_of_runs hruns)

/-- Settles O9: each construction asks for its contract first, and a refusal leaves a unit's state
(`core_eq_of_refusal`). -/
theorem illegalConstructionsAreRefused : Obligations.IllegalConstructionsAreRefused := by
  refine ⟨fun s lOut => exec_bwInit_refused, fun s lIn hk hl => exec_brInit_refused hk (.inl hl),
    fun s lOut w m hk hbad => exec_encNew_refused hk (encNewLegal_eq_false hbad), fun s lIn w hk hbad => ?_,
    fun s => ?_⟩
  · have hnew := exec_decNew_refused hk (hbad.imp_right .inl)
    exact ⟨hnew, hnew⟩
  · obtain ⟨-, -, -, hbw, hbr, henc, hdec⟩ := State.othersKept_refuse (s := s)
    exact ⟨core_eq_of_refusal State.refuse_bw fun hk => hbw _ (State.ne_target_of_kind hk _),
      core_eq_of_refusal State.refuse_br fun hk => hbr _ (State.ne_target_of_kind hk _),
      core_eq_of_refusal State.refuse_enc fun hk => henc _ (State.ne_target_of_kind hk _),
      core_eq_of_refusal State.refuse_dec fun hk => hdec _ (State.ne_target_of_kind hk _)⟩

end Sys2Proof.Machine
end

section
/-! ## What a step may do to the host's buffers (20_memory.md R46 to R48; 60_exceptions.md R183, R185)

Said once of every instruction: it leaves the buffers as they were, it takes one, or it commits a running writer's cells
to that writer's output. -/

namespace Sys2Proof.Machine

/-- The addressed unit is a bit writer or an encoder that may perform a command, and its output is the first `n` bytes of
buffer `b`. -/
inductive State.Writes (s : State) : (b n : Nat) → Prop
  | bw {c : BwCore} (h : s.runsBw c) : s.Writes c.buf c.lOut
  | enc {e : EncCore} (h : s.runsEnc e) : s.Writes e.buf e.lOut

/-- What the outcome `o` of the instruction does to the buffers. In a good state the cells that are committed lie inside
the output. -/
inductive MemOutcome (i : Instr) (s : State) (o : Host.Outcome State Fault Refusal) : Prop
  | kept {t : State} (ho : o = .next t) (hm : t.mem = s.mem)
  | took {t : State} {b : Nat} (hi : isConstruction i = true ∨ i = .bwClear ∨ i = .encClear)
    (hk : s.port.target.kind = kindOf i) (ho : o = .next t) (hm : t.mem = (s.take b).mem)
  | wrote {m : State} {b n : Nat} {cells : List Host.Cell} (hw : s.Writes b n)
    (ho : o = m.commit b n cells) (hm : m.mem = s.mem) (hin : s.Good → ∀ cell ∈ cells, cell.1 < n)

section
variable {i : Instr} {s t : State} {b n : Nat}

/-! ### The unit that writes -/

theorem State.Writes.holds (h : s.Writes b n) : s.holds b = true := by
  cases h with
  | bw h => exact h.2.2
  | enc h => exact h.2.2

theorem State.Writes.of_bw (h : s.Writes b n) (hk : s.port.target.kind = .bw) {c : BwCore}
    (hc : (s.bw s.port.target.id).core = some c) : b = c.buf ∧ n = c.lOut := by
  cases h with
  | bw h =>
    obtain rfl := Option.some.inj ((Slot.core_of_ready h.2.1).symm.trans hc)
    exact ⟨rfl, rfl⟩
  | enc h => exact absurd (h.1.symm.trans hk) (by decide)

theorem State.Writes.of_enc (h : s.Writes b n) (hk : s.port.target.kind = .enc) {e : EncCore}
    (he : (s.enc s.port.target.id).core = some e) : b = e.buf ∧ n = e.lOut := by
  cases h with
  | bw h => exact absurd (h.1.symm.trans hk) (by decide)
  | enc h =>
    obtain rfl := Option.some.inj ((Slot.core_of_ready h.2.1).symm.trans he)
    exact ⟨rfl, rfl⟩

theorem State.Good.runningBw (hs : s.Good) {c : BwCore} (h : s.runsBw c) : c.ok s.params = true :=
  Slot.all_iff.1 (hs.bw _) c (Slot.core_of_ready h.2.1)

theorem State.Good.runningEnc (hs : s.Good) {e : EncCore} (h : s.runsEnc e) : e.ok s.params = true :=
  Slot.all_iff.1 (hs.enc _) e (Slot.core_of_ready h.2.1)

/-! ### One rule for each operation -/

theorem memOutcome_refuse : MemOutcome i s (.next s.refuse) := .kept rfl s.refuse_mem

theorem memOutcome_respond {st : Status} {r : Option Word64} {vs : List Word64} :
    MemOutcome i s (.next (s.respond st r vs)) := .kept rfl rfl

theorem memOutcome_ite {p : Prop} [Decidable p] {o o' : Host.Outcome State Fault Refusal} (h : p → MemOutcome i s o)
    (h' : ¬p → MemOutcome i s o') : MemOutcome i s (if p then o else o') := by
  split
  · exact h ‹_›
  · exact h' ‹_›

theorem memOutcome_whenAddressed {k : Kind} {f : Host.Outcome State Fault Refusal}
    (h : s.port.target.kind = k → MemOutcome i s f) : MemOutcome i s (s.whenAddressed k f) :=
  memOutcome_ite h fun _ => memOutcome_refuse

theorem memOutcome_onBw {f : BwCore → Host.Outcome State Fault Refusal} (h : ∀ c, s.runsBw c → MemOutcome i s (f c)) :
    MemOutcome i s (s.onBw f) := by
  by_cases hr : ∃ c, s.runsBw c
  · obtain ⟨c, hc⟩ := hr
    rw [State.onBw_of_runs hc]
    exact h c hc
  · rw [State.onBw_refuses fun c hc => hr ⟨c, hc⟩]
    exact memOutcome_refuse

theorem memOutcome_onEnc {f : EncCore → Host.Outcome State Fault Refusal}
    (h : ∀ e, s.runsEnc e → MemOutcome i s (f e)) : MemOutcome i s (s.onEnc f) := by
  by_cases hr : ∃ e, s.runsEnc e
  · obtain ⟨e, he⟩ := hr
    rw [State.onEnc_of_runs he]
    exact h e he
  · rw [State.onEnc_refuses fun e he => hr ⟨e, he⟩]
    exact memOutcome_refuse

theorem memOutcome_onBr {f : BrCore → Host.Outcome State Fault Refusal} (h : ∀ c, s.runsBr c → MemOutcome i s (f c)) :
    MemOutcome i s (s.onBr f) := by
  by_cases hr : ∃ c, s.runsBr c
  · obtain ⟨c, hc⟩ := hr
    rw [State.onBr_of_runs hc]
    exact h c hc
  · rw [State.onBr_refuses fun c hc => hr ⟨c, hc⟩]
    exact memOutcome_refuse

theorem memOutcome_onDec {f : DecCore → Host.Outcome State Fault Refusal}
    (h : ∀ c, s.runsDec c → MemOutcome i s (f c)) : MemOutcome i s (s.onDec f) := by
  by_cases hr : ∃ c, s.runsDec c
  · obtain ⟨c, hc⟩ := hr
    rw [State.onDec_of_runs hc]
    exact h c hc
  · rw [State.onDec_refuses fun c hc => hr ⟨c, hc⟩]
    exact memOutcome_refuse

end

/-! ### The cells of a writing command lie inside the output -/

theorem BwCore.pushBits_inside {p : Params} {c : BwCore} (hok : c.ok p = true) {w : Nat}
    (hroom : ceil8 (c.wbits + w) ≤ c.lOut) (v : Nat) :
    ∀ cell ∈ (Packing.pushBits w v c.packing).cells, cell.1 < c.lOut := by
  intro cell hcell
  have hlt := ((Packing.pushBits_appends w v (x := c.packing) (BwCore.bounds_of_ok hok).2).cells_inside hcell rfl).2
  unfold ceil8 at hroom
  simp only [BwCore.packing] at hlt
  omega

theorem BwCore.varintCells_inside {p : Params} {c : BwCore} (hok : c.ok p = true) {bs : List Byte}
    (hroom : ceil8 c.wbits + bs.length ≤ c.lOut) :
    ∀ cell ∈ c.partialCell ++ cellsFrom (ceil8 c.wbits) bs, cell.1 < c.lOut := by
  intro cell hcell
  rcases List.mem_append.1 hcell with hcell | hcell
  · exact BwCore.partialCell_inside (BwCore.bounds_of_ok hok).1 cell hcell
  · exact (mem_cellsFrom hcell).2.trans_le hroom

theorem EncCore.put_inside {p : Params} {e : EncCore} (hok : e.ok p = true) {v : Word64}
    (hroom : (e.put v).enc.demand ≤ e.lOut) : ∀ cell ∈ (e.put v).cells, cell.1 < e.lOut :=
  (e.put_extends v).inside (EncCore.LitSound.of_ok hok).behind (Nat.le_of_add_right_le hroom)

/-- A flush uses up the room that the invariant keeps for it (10_state.md R37). -/
theorem EncCore.flushing_inside {p : Params} {e : EncCore} (hok : e.ok p = true) (hi : e.idle = false) :
    ∀ cell ∈ e.flushing.cells, cell.1 < e.lOut := by
  obtain ⟨-, -, -, -, -, hroom⟩ := EncCore.ok_iff.1 hok
  have hwpos : e.flushing.enc.wpos = e.demand := congrArg EncCore.wpos (EncCore.ok.flushing_enc hok hi)
  exact e.flushing_extends.inside (EncCore.LitSound.of_ok hok).behind (hwpos.trans_le hroom)

/-! ### The commands, one by one -/

section
variable (s : State)

theorem execBwPutValue_memOutcome (value : Word64) (w : Word7) :
    MemOutcome (.bwPutValue value w) s (execBwPutValue value w s) :=
  memOutcome_onBw fun _ hc => memOutcome_ite (fun _ => memOutcome_refuse) fun _ =>
    memOutcome_ite (fun _ => memOutcome_respond) fun hroom =>
      .wrote (.bw hc) rfl rfl fun hs => BwCore.pushBits_inside (hs.runningBw hc) (Nat.not_lt.1 hroom) _

theorem execBwPutUleb128_memOutcome (x : Word32) : MemOutcome (.bwPutUleb128 x) s (execBwPutUleb128 x s) :=
  memOutcome_onBw fun _ hc => memOutcome_ite (fun _ => memOutcome_refuse) fun _ =>
    memOutcome_ite (fun _ => memOutcome_respond) fun hroom =>
      .wrote (.bw hc) rfl rfl fun hs => BwCore.varintCells_inside (hs.runningBw hc) (Nat.not_lt.1 hroom)

theorem execBwFlush_memOutcome : MemOutcome .bwFlush s (execBwFlush s) :=
  memOutcome_onBw fun _ hc => .wrote (.bw hc) rfl rfl fun hs =>
    BwCore.partialCell_inside (BwCore.bounds_of_ok (hs.runningBw hc)).1

theorem execBrGetUleb128_memOutcome : MemOutcome .brGetUleb128 s (execBrGetUleb128 s) := by
  refine memOutcome_onBr fun c _ => ?_
  dsimp only
  split
  case h_1 => exact memOutcome_respond
  case h_2 => exact memOutcome_respond
  case h_3 => exact .kept rfl rfl

theorem execEncPut_memOutcome (value : Word64) : MemOutcome (.encPut value) s (execEncPut value s) :=
  memOutcome_onEnc fun _ he => memOutcome_ite (fun _ => memOutcome_refuse) fun _ =>
    memOutcome_ite (fun _ => memOutcome_respond) fun hroom =>
      .wrote (.enc he) rfl rfl fun hs => EncCore.put_inside (hs.runningEnc he) (Nat.not_lt.1 hroom)

theorem execEncFlush_memOutcome : MemOutcome .encFlush s (execEncFlush s) :=
  memOutcome_onEnc fun _ he => memOutcome_ite (fun _ => memOutcome_respond) fun hi =>
    .wrote (.enc he) rfl rfl fun hs =>
      EncCore.flushing_inside (hs.runningEnc he) (Bool.eq_false_of_not_eq_true hi)

theorem execDecGetRepeatedValue_memOutcome (n : Word32) :
    MemOutcome (.decGetRepeatedValue n) s (execDecGetRepeatedValue n s) := by
  refine memOutcome_onDec fun c _ => ?_
  dsimp only
  split
  case h_1 => exact .kept rfl rfl
  case h_2 => exact memOutcome_ite (fun _ => memOutcome_refuse) fun _ => .kept rfl rfl
  case h_3 => exact memOutcome_refuse
  case h_4 => exact memOutcome_refuse

theorem execDecGetSingleValue_memOutcome : MemOutcome .decGetSingleValue s (execDecGetSingleValue s) := by
  refine memOutcome_onDec fun c _ => ?_
  split
  case h_1 => exact .kept rfl rfl
  case h_2 => exact .kept rfl rfl

/-- Of DEC.NEW and of DEC.RESET. -/
theorem constructDec_memOutcome (i : Instr) (lIn : Word32) (w : Word7) : MemOutcome i s (constructDec lIn w s) :=
  memOutcome_whenAddressed fun _ => memOutcome_ite (fun _ => .kept rfl rfl) fun _ => memOutcome_refuse

/-- What every instruction does to the buffers. -/
theorem exec_memOutcome (i : Instr) : MemOutcome i s (exec i s) := by
  cases i with
  | bwInit lOut =>
    exact memOutcome_whenAddressed fun hk => memOutcome_ite (fun _ => .took (.inl rfl) hk rfl rfl)
      fun _ => memOutcome_refuse
  | bwPutValue value w => exact execBwPutValue_memOutcome s value w
  | bwPutUleb128 x => exact execBwPutUleb128_memOutcome s x
  | bwFlush => exact execBwFlush_memOutcome s
  | bwBytesWritten => exact memOutcome_onBw fun _ _ => memOutcome_respond
  | bwClear => exact memOutcome_onBw fun _ hc => .took (.inr (.inl rfl)) hc.1 rfl rfl
  | brInit lIn =>
    exact memOutcome_whenAddressed fun _ => memOutcome_ite (fun _ => .kept rfl rfl) fun _ => memOutcome_refuse
  | brGetValue w =>
    exact memOutcome_onBr fun _ _ => memOutcome_ite (fun _ => memOutcome_refuse) fun _ =>
      memOutcome_ite (fun _ => memOutcome_respond) fun _ => .kept rfl rfl
  | brGetUleb128 => exact execBrGetUleb128_memOutcome s
  | brSkipBits k =>
    exact memOutcome_onBr fun _ _ => memOutcome_ite (fun _ => memOutcome_respond) fun _ => .kept rfl rfl
  | brAlignToByte => exact memOutcome_onBr fun _ _ => .kept rfl rfl
  | encNew lOut w m =>
    exact memOutcome_whenAddressed fun hk => memOutcome_ite (fun _ => .took (.inl rfl) hk rfl rfl)
      fun _ => memOutcome_refuse
  | encPut value => exact execEncPut_memOutcome s value
  | encFlush => exact execEncFlush_memOutcome s
  | encClear => exact memOutcome_onEnc fun _ he => .took (.inr (.inr rfl)) he.1 rfl rfl
  | encMinBufferSize w | encMaxBufferSize w n =>
    exact memOutcome_whenAddressed fun _ => memOutcome_ite (fun _ => memOutcome_respond) fun _ => memOutcome_refuse
  | decNew lIn w | decReset lIn w => exact constructDec_memOutcome s _ lIn w
  | decNextNumRepeats | decNextNumLiterals => exact memOutcome_onDec fun _ _ => .kept rfl rfl
  | decGetRepeatedValue n => exact execDecGetRepeatedValue_memOutcome s n
  | decGetLiteralValues n =>
    exact memOutcome_onDec fun _ _ => memOutcome_ite (fun _ => .kept rfl rfl) fun _ =>
      memOutcome_ite (fun _ => memOutcome_refuse) fun _ => .kept rfl rfl
  | decGetSingleValue => exact execDecGetSingleValue_memOutcome s
  | decGetValues n | decSkipValues n => exact memOutcome_onDec fun _ _ => .kept rfl rfl
  | wireRepeatedRun count len | wireLiteralRun count len =>
    exact memOutcome_onDec fun _ _ => memOutcome_ite (fun _ => .kept rfl rfl) fun _ => .kept rfl rfl

end

/-! ### What is read off an outcome -/

section
variable {i : Instr} {s t : State} {o : Host.Outcome State Fault Refusal}

/-- In a good state nothing is written outside an output, which is the one fault a command can raise. -/
theorem MemOutcome.completes (h : MemOutcome i s o) (hs : s.Good) : ∃ t, o = .next t := by
  cases h with
  | kept ho => exact ⟨_, ho⟩
  | took _ _ ho => exact ⟨_, ho⟩
  | wrote _ ho _ hin => exact ⟨_, ho.trans (State.commit_of_inside _ (hin hs))⟩

/-- The frame of a command of the unit whose output is the first `n` bytes of buffer `b`, but for one that takes the
buffer. -/
theorem MemOutcome.bytesKeptBut (h : MemOutcome i s (.next t)) {b n : Nat}
    (hunit : ∀ b' n', s.Writes b' n' → b' = b ∧ n' = n) (hc : isConstruction i = false)
    (hclear : s.port.target.kind = kindOf i → i ≠ .bwClear ∧ i ≠ .encClear) :
    s.bytesKeptBut t b fun j => j < n := by
  cases h with
  | kept ho hm =>
    cases ho
    exact State.bytesKeptBut_of_kept (State.bytesKept_of_mem hm)
  | took hi hk =>
    obtain ⟨hbw, henc⟩ := hclear hk
    simp [hc, hbw, henc] at hi
  | wrote hw ho hm =>
    obtain ⟨rfl, rfl⟩ := hunit _ _ hw
    obtain ⟨hin, rfl⟩ := State.commit_next ho.symm
    exact State.bytesKeptBut_of_mem hm (State.bytesKeptBut_writeCells _ hin)

end

/-- Settles O56: the cells committed lie inside the output of the unit addressed. -/
theorem everyInstructionCompletes : Obligations.EveryInstructionCompletes := by
  refine ⟨fun s i hs => (exec_memOutcome s i).completes (State.inv_iff.1 hs), fun s t c i hk hcore he hc hclear => ?_,
    fun s t e i hk hcore he hc hclear => ?_⟩
  · refine MemOutcome.bytesKeptBut (he ▸ exec_memOutcome s i) (fun _ _ hw => hw.of_bw hk hcore) hc
      fun hki => ⟨hclear, ?_⟩
    rintro rfl
    simp [hk, kindOf] at hki
  · refine MemOutcome.bytesKeptBut (he ▸ exec_memOutcome s i) (fun _ _ hw => hw.of_enc hk hcore) hc
      fun hki => ⟨?_, hclear⟩
    rintro rfl
    simp [hk, kindOf] at hki

end Sys2Proof.Machine
end

section
/-! ## Buffers that change under a unit that uses them (60_exceptions.md R178 case 10; 70_reset_and_hazards.md R198, R200;
93_implementation_defined.md U6; log entries 9, 18, 24) -/

namespace Sys2Proof.Machine

section
variable {s t : State}

/-! ### What one step may do to the buffers -/

theorem State.holds_iff {b : Nat} :
    s.holds b = true ↔ (s.buf b).holder = some s.port.target ∧ (s.buf b).spoilt = [] := by
  simp [State.holds]

theorem State.writeCells_mem_congr (h : t.mem = s.mem) (b : Nat) (cells : List Host.Cell) :
    (t.writeCells b cells).mem = (s.writeCells b cells).mem := by
  simp only [State.writeCells, State.setBuf, State.buf_congr h, h]

/-- A command changes the buffers by a write into one that the unit addressed holds, or by taking one for that unit. -/
theorem exec_next_mem {i : Instr} (h : exec i s = .next t) : t.mem = s.mem
    ∨ (∃ b cells, (s.buf b).holder = some s.port.target ∧ t.mem = (s.writeCells b cells).mem)
    ∨ ∃ b, t.mem = (s.take b).mem := by
  cases exec_memOutcome s i with
  | kept ho hm =>
    obtain rfl := Host.Outcome.next.inj (ho.symm.trans h)
    exact .inl hm
  | took _ _ ho hm =>
    obtain rfl := Host.Outcome.next.inj (ho.symm.trans h)
    exact .inr (.inr ⟨_, hm⟩)
  | wrote hw ho hm =>
    obtain ⟨-, rfl⟩ := State.commit_next (ho.symm.trans h)
    exact .inr (.inl ⟨_, _, (State.holds_iff.1 hw.holds).1, State.writeCells_mem_congr hm _ _⟩)

/-- A step changes the buffers by the host's load, or by a command. -/
theorem step_next_mem (h : step s = .next t) : t.mem = s.mem
    ∨ (∃ b i bytes rest, s.pending = .load b i bytes :: rest ∧ t = s.hostLoad rest b i bytes)
    ∨ ∃ target buffer word rest, s.pending = .command target buffer word :: rest
      ∧ ((∃ b cells, (s.buf b).holder = some target ∧ t.mem = (s.writeCells b cells).mem)
        ∨ ∃ b, t.mem = ((s.present rest target buffer).take b).mem) := by
  cases hp : s.pending with
  | nil => simp [step, hp] at h
  | cons event rest =>
    cases event with
    | command target buffer word =>
      cases hd : decode (.command word) with
      | error why =>
        obtain rfl := Host.Outcome.next.inj ((step_command_of_error hp hd).symm.trans h)
        exact .inl (State.refuse_mem _)
      | ok i =>
        rw [stepPerformsTheDecodedCommand s target buffer word rest i hp hd] at h
        exact (exec_next_mem h).imp_right fun hm => .inr ⟨target, buffer, word, rest, rfl, hm⟩
    | parse id =>
      rcases step_parse_cases hp rfl with h' | h' | ⟨c, -, -, h'⟩ <;>
        obtain rfl := Host.Outcome.next.inj (h'.symm.trans h)
      · exact .inl (State.refuse_mem _)
      · exact .inl rfl
      · exact .inl rfl
    | load b i bytes =>
      simp only [step, hp] at h
      cases h
      exact .inr (.inl ⟨b, i, bytes, rest, rfl, rfl⟩)

/-! ### For a reader -/

/-- A step after which a byte of an input reads otherwise counts as a change of it. -/
theorem changedSince_of_step (h : step s = .next t) {b j n version : Nat} (hread : t.readByte b j ≠ s.readByte b j)
    (hj : j < n) (hv : version ≤ (s.buf b).version) : (t.buf b).changedSince version n = true := by
  rcases step_next_mem h with hm | ⟨b', i, bytes, rest, -, rfl⟩
    | ⟨target, buffer, -, rest, -, ⟨b', cells, -, hm⟩ | ⟨b', hm⟩⟩
  · exact absurd (State.readByte_congr hm b j) hread
  · exact s.changedSince_hostLoad rest b' i bytes hread hj hv
  · rw [State.readByte_congr hm] at hread
    rw [State.buf_congr hm]
    exact s.changedSince_writeCells hread hj hv
  · rw [State.readByte_congr hm] at hread
    rw [State.buf_congr hm]
    exact (s.present rest target buffer).changedSince_take hread hv

/-- In a good state a reader was constructed after no more changes than its buffer has seen. -/
theorem State.Good.br_version (hs : s.Good) {id : Nat} {c : BrCore} (hc : (s.br id).core = some c) :
    c.version ≤ (s.buf c.buf).version := by
  have hok := Slot.all_iff.1 (hs.br id) c hc
  simp only [State.brOk, Bool.and_eq_true, decide_eq_true_eq] at hok
  exact hok.2

theorem State.Good.dec_version (hs : s.Good) {id : Nat} {c : DecCore} (hc : (s.dec id).core = some c) :
    c.version ≤ (s.buf c.buf).version := by
  have hok := Slot.all_iff.1 (hs.dec id) c hc
  simp only [State.decOk, Bool.and_eq_true, decide_eq_true_eq] at hok
  exact hok.2

/-- A load at or above `L_in` is no change of the input. -/
theorem State.inputKept_hostLoad (s : State) (rest : List Event) {b i n : Nat} (bytes : List Byte) (hn : n ≤ i) :
    s.inputKept (s.hostLoad rest b i bytes) b n := fun version => by
  rw [s.buf_hostLoad_same, Buffer.changedSince_congr (Buffer.load_changes _ _ _)]
  exact Buffer.changedSince_write_other (fun _ hc => hn.trans (mem_cellsFrom hc).1) version

/-! ### For a writer -/

/-- Byte `j` of buffer `b` reads as before, and can be named where it could. -/
def State.byteKept (s t : State) (b j : Nat) : Prop :=
  t.readByte b j = s.readByte b j ∧ (t.buf b).read? j = (s.buf b).read? j

theorem State.byteKept_of_buf {b : Nat} (h : t.buf b = s.buf b) (j : Nat) : s.byteKept t b j := by
  simp [State.byteKept, State.readByte, h]

theorem Buffer.mem_load_spoilt {b : Buffer} {cells : List Host.Cell} {j n : Nat} (h : j ∈ b.differing cells)
    (hj : j < n) : j ∈ (b.load n cells).spoilt := by
  simp [Buffer.load, h, hj]

/-- A load keeps a byte of an output, or that output has a spoilt byte from then on. -/
theorem State.byteKept_hostLoad_or_spoilt (s : State) (rest : List Event) (b' i : Nat) (bytes : List Byte) {b j : Nat}
    (hj : j < s.outputLen b) :
    s.byteKept (s.hostLoad rest b' i bytes) b j ∨ ((s.hostLoad rest b' i bytes).buf b).spoilt ≠ [] := by
  by_cases hb : b = b'
  · subst hb
    by_cases hd : j ∈ (s.buf b).differing (cellsFrom i bytes)
    · refine .inr (List.ne_nil_of_mem (a := j) ?_)
      rw [s.buf_hostLoad_same]
      exact Buffer.mem_load_spoilt hd hj
    · refine .inl ⟨s.readByte_hostLoad_of_not_differing rest b i bytes hd, ?_⟩
      rw [s.buf_hostLoad_same, Buffer.load_read?, if_neg fun hin => hd hin.1, Buffer.write_read?_of_not_differing hd]
  · exact .inl (State.byteKept_of_buf (s.buf_hostLoad_other rest i bytes hb) j)

/-- A step that is no command to the holder of a buffer keeps a byte of its output, or the holder has the buffer to itself
no more. -/
theorem byteKept_or_lost_of_step (h : step s = .next t) {u : Target} {b j : Nat} (hu : (s.buf b).holder = some u)
    (hj : j < s.outputLen b) (hother : ∀ buffer word rest, s.pending ≠ .command u buffer word :: rest) :
    s.byteKept t b j ∨ (t.buf b).holder ≠ some u ∨ (t.buf b).spoilt ≠ [] := by
  rcases step_next_mem h with hm | ⟨b', i, bytes, rest, -, rfl⟩ | ⟨target, buffer, word, rest, hp, hcmd⟩
  · exact .inl (State.byteKept_of_buf (State.buf_congr hm b) j)
  · exact (s.byteKept_hostLoad_or_spoilt rest b' i bytes hj).imp_right .inr
  · have hne : some target ≠ some u := fun heq => hother buffer word rest (Option.some.inj heq ▸ hp)
    rcases hcmd with ⟨b', cells, hb', hm⟩ | ⟨b', hm⟩
    · have hb : b ≠ b' := fun heq => hne (hb'.symm.trans (heq ▸ hu))
      exact .inl (State.byteKept_of_buf ((State.buf_congr hm b).trans (s.buf_writeCells_other cells hb)) j)
    · by_cases hb : b = b'
      · subst hb
        refine .inr (.inl ?_)
        rw [State.buf_congr hm, State.buf_take_same, Buffer.take_holder]
        exact hne
      · exact .inl (State.byteKept_of_buf ((State.buf_congr hm b).trans (State.buf_take_other _ hb)) j)

end

/-- Settles O10: a unit whose buffer has changed does not run; what changes a buffer is said by `step_next_mem`. -/
theorem changedInputIsRefused : Obligations.ChangedInputIsRefused := by
  refine ⟨fun i s c hi hc hk hready hchanged => ?_, fun i s c hi hc hk hready hchanged => ?_,
    fun s t b j hinv hstep hread => ⟨?_, ?_⟩, fun s t b i bytes rest n hp hstep hn => ?_,
    fun i s c hi hc hk hcore hlost => ?_, fun i s e hi hc hq hk hcore hlost => ?_,
    fun s t u b j hstep hu hj hother hread => ?_⟩
  · refine exec_br_refuses hi hc fun c' ⟨_, hready', hkept⟩ => ?_
    obtain rfl := Option.some.inj (hready.symm.trans hready')
    simp [hchanged] at hkept
  · refine exec_dec_refuses hi hc fun c' ⟨_, hready', hkept⟩ => ?_
    obtain rfl := Option.some.inj (hready.symm.trans hready')
    simp [hchanged] at hkept
  · rintro id c hc rfl hj
    exact changedSince_of_step hstep hread hj ((State.inv_iff.1 hinv).br_version hc)
  · rintro id c hc rfl hj
    exact changedSince_of_step hstep hread hj ((State.inv_iff.1 hinv).dec_version hc)
  · simp only [step, hp] at hstep
    cases hstep
    exact s.inputKept_hostLoad rest bytes hn
  · refine exec_bw_refuses hi hc fun c' ⟨_, hready, hholds⟩ => ?_
    obtain rfl := Option.some.inj (hcore.symm.trans (Slot.core_of_ready hready))
    exact not_and_or.2 hlost (State.holds_iff.1 hholds)
  · refine exec_enc_refuses hi hc hq fun e' ⟨_, hready, hholds⟩ => ?_
    obtain rfl := Option.some.inj (hcore.symm.trans (Slot.core_of_ready hready))
    exact not_and_or.2 hlost (State.holds_iff.1 hholds)
  · exact (byteKept_or_lost_of_step hstep hu hj hother).resolve_left (not_and_or.2 hread)

end Sys2Proof.Machine
end

section
/-! ## The end of the host's list, and a load (70_reset_and_hazards.md R195, R202; 10_state.md R39;
93_implementation_defined.md U6; log entries 8, 24) -/

namespace Sys2Proof.Machine

/-! ### The bytes a load shows otherwise -/

theorem getElem?_of_mem_cellsFrom {bs : List Byte} {i k : Nat} {x : Byte} (h : (i + k, x) ∈ cellsFrom i bs) :
    bs[k]? = some x := by
  induction bs generalizing i k with
  | nil => simp [cellsFrom] at h
  | cons b bs ih =>
    rw [cellsFrom, List.mem_cons, Prod.mk.injEq] at h
    rcases h with ⟨hk, rfl⟩ | htail
    · obtain rfl : k = 0 := by omega
      rfl
    · cases k with
      | zero => exact absurd (mem_cellsFrom htail).1 (by simp)
      | succ m => exact ih (by rwa [Nat.add_comm m 1, ← Nat.add_assoc] at htail)

/-- A byte loaded differs where another stands, or none the model can name. -/
theorem Buffer.mem_differing_cellsFrom {b : Buffer} {bytes : List Byte} {i k : Nat} (h : k < bytes.length) :
    i + k ∈ b.differing (cellsFrom i bytes) ↔ b.read? (i + k) ≠ bytes[k]? := by
  rw [Buffer.mem_differing]
  constructor
  · rintro ⟨x, hx, hne⟩
    rwa [getElem?_of_mem_cellsFrom hx]
  · intro hne
    exact ⟨bytes[k], getElem_mem_cellsFrom h, by rwa [List.getElem?_eq_getElem h] at hne⟩

theorem Buffer.not_differing_cellsFrom {b : Buffer} {bytes : List Byte} {i j : Nat} (h : j < i ∨ i + bytes.length ≤ j) :
    j ∉ b.differing (cellsFrom i bytes) :=
  Buffer.not_differing fun c hc heq => by
    have := mem_cellsFrom hc
    omega

/-- A load spoils nothing at or above `L_out`. -/
theorem Buffer.load_spoilt_count_of_le {n j : Nat} (h : n ≤ j) (b : Buffer) (cells : List Host.Cell) :
    (b.load n cells).spoilt.count j = b.spoilt.count j := by
  have hnew : j ∉ (b.differing cells).filter fun i => decide (i < n) := fun hm =>
    Nat.not_lt.2 h (of_decide_eq_true (List.mem_filter.1 hm).2)
  simp only [Buffer.load, List.count_append]
  rw [List.count_eq_zero_of_not_mem hnew, Nat.zero_add]

/-! ### One step -/

theorem step_nil {s : State} (hp : s.pending = []) : step s = .fault .endOfRun := by
  simp only [step, hp]

theorem step_load {s : State} {b i : Nat} {bytes : List Byte} {rest : List Event}
    (hp : s.pending = .load b i bytes :: rest) : step s = .next (s.hostLoad rest b i bytes) := by
  simp only [step, hp]

section
variable (s : State) (rest : List Event) (b i : Nat) (bytes : List Byte)

theorem State.spoilt_count_hostLoad {j : Nat} (h : j < i ∨ i + bytes.length ≤ j ∨ s.outputLen b ≤ j) :
    ((s.hostLoad rest b i bytes).buf b).spoilt.count j = (s.buf b).spoilt.count j := by
  rw [State.buf_hostLoad_same]
  rcases or_assoc.2 h with hout | hlen
  · exact Buffer.load_spoilt_count (Buffer.not_differing_cellsFrom hout) _
  · exact Buffer.load_spoilt_count_of_le hlen _ _

/-- A byte loaded reads as it was loaded, past the output because it is written there, and where it stood already because
it is left alone. -/
theorem State.readByte_hostLoad_of_kept {k : Nat} (h : k < bytes.length)
    (hk : s.outputLen b ≤ i + k ∨ (s.buf b).read? (i + k) = bytes[k]?) :
    (s.hostLoad rest b i bytes).readByte b (i + k) = bytes[k] := by
  rcases hk with hlen | hsame
  · exact s.readByte_hostLoad rest b i bytes h hlen
  · rw [s.readByte_hostLoad_of_not_differing rest b i bytes
      fun hd => (Buffer.mem_differing_cellsFrom h).1 hd hsame]
    simp [State.readByte, hsame, h]

end

/-- Settles O6: without an entry the step faults, and with a load it is `State.hostLoad`, which leaves alone every byte
but those that differ, and of these spoils the ones in an output. -/
theorem listEndsAndHostLoads : Obligations.ListEndsAndHostLoads := by
  refine ⟨fun s hp => step_nil hp, fun s b i bytes rest hp => ⟨_, step_load hp, rfl, rfl, rfl, rfl, rfl, rfl, rfl, rfl,
    fun b' hb => ?_, ?_, fun n hn => ?_, fun j hj => ?_, fun j hj => ?_, fun k hk hkept => ?_,
    fun k hk hlen hne => ⟨?_, ?_⟩⟩⟩
  · exact State.bufferKept_of_buf (s.buf_hostLoad_other rest i bytes hb)
  · rw [State.buf_hostLoad_same, Buffer.load_holder]
  · exact s.inputKept_hostLoad rest bytes hn
  · exact s.readByte_hostLoad_of_not_differing rest b i bytes (Buffer.not_differing_cellsFrom hj)
  · exact s.spoilt_count_hostLoad rest b i bytes hj
  · rw [s.readByte_hostLoad_of_kept rest b i bytes hk hkept, List.getD_eq_getElem _ _ hk]
  · exact (s.hostLoad_spoils rest b i bytes ((Buffer.mem_differing_cellsFrom hk).2 hne) hlen).1
  · rw [State.buf_hostLoad_same]
    exact Buffer.mem_load_spoilt ((Buffer.mem_differing_cellsFrom hk).2 hne) hlen

end Sys2Proof.Machine
end
